-- ==== Sys2Proof/Word.lean ====
section
/-! DEFINITION. The words of the block: a byte of the BYTE port and of an operation, and the 32-bit operand word. -/

namespace Sys2Proof

/-- A byte: 8 bits, bit 7 the most significant (`00_scope.md` R8). -/
abbrev Byte := BitVec 8

/-- An operand word and the width of a datapath value: `XLEN` = 32 (`00_scope.md` R5). -/
abbrev Word := BitVec 32

end Sys2Proof
end

