-- ==== Sys2Proof/Config.lean ====
section
/-! DEFINITION. What JLSCORE fixes (`00_scope.md` R5), the defaults of its OPEN parameters (the state holds the values in
force, `State.build`), and the free values: constants with no body, for what the spec leaves unspecified. -/

namespace Sys2Proof.Config

/-- The default of `MAX_DIM` (R5). -/
def maxDim : Nat := 65535

/-- The default of `MAX_COMP` (R5). -/
def maxComp : Nat := 255

/-- `reset` where the preset is 0 (`92_eei_decisions.md` D10). -/
def defaultReset : Nat := 64

/-- `CACHE_BITS`, default 64, legal values the multiples of 8 from 40 up (R5). -/
abbrev cacheBits : Nat := 64

/-- The default of `EOS_MAX_RESIDUAL_BITS`, unbounded (`44_bit_reader.md` R210, `93_implementation_defined.md` I3). -/
def eosMaxResidualBits : Option Nat := none

/-- `ERR_MAG`: the legal magnitude of a decoded error (R5). -/
def errMag : Nat := 65535

/-- A free natural number: draw, what it stands for, index within it. -/
opaque freeNat : Nat → Nat → Nat → Nat

/-- A free integer: draw, what it stands for, index within it. -/
opaque freeInt : Nat → Nat → Nat → Int

/-- A free sparse content of a line buffer: draw. -/
opaque freeCells : Nat → List (Nat × Int)

/-- A free content of the run index file: draw. -/
opaque freeRunidx : Nat → List (Nat × Nat)

/-- A free bit sequence: draw. -/
opaque freeBits : Nat → List Bool

/-- A free flag: draw, what it stands for. -/
opaque freeFlag : Nat → Nat → Bool

/-- A free byte of the sink: draw, position. -/
opaque freeByte : Nat → Nat → Byte

/-- A free 32-bit register value: draw. -/
opaque freeWord : Nat → Word

/-- A free content of the reader's 64-bit cache: draw. -/
opaque freeCache : Nat → BitVec cacheBits

/-- A free record of delivered lines, each (component, line, samples): draw. -/
opaque freeLines : Nat → List (Nat × Nat × List (List Int))

end Sys2Proof.Config
end

