-- ==== Sys2Proof/Syntax.lean ====
section
/-! DEFINITION. The syntax: one constructor per row of `spec/opcode_table.json`. The 59 operations carry the operands of
their rule, in the rule's order (`30_encoding.md` R91, R103); the 7 codeword forms carry the fields of their pattern
(R94, R95, R98, R99). -/

namespace Sys2Proof

/-- An operation or a codeword of JLSCORE. The operand `BS` of a scan command, of `BR.INIT` and of `BW.INIT` is the one
array behind the BYTE port and is not written in the instruction (log entry 1). -/
inductive Instr where
  /-- `CONFIGURE`, R331; the rectangle is its last four operands. -/
  | configure (width height bps ncomp near ilv maxVal t1 t2 t3 reset rectX rectY rectW rectH : Nat)
  /-- `ENCODE_SCAN`, R340. -/
  | encodeScan (p0 cap : Nat)
  /-- `DECODE_SCAN`, R341. -/
  | decodeScan (p0 len : Nat)
  /-- `TR.INIT`, R120. -/
  | trInit (maxVal near reset : Nat)
  /-- `TR.QERR`, R122. -/
  | trQerr (e : Int)
  /-- `TR.MODR`, R123. -/
  | trModr (q : Int)
  /-- `TR.ERRVAL`, R124. -/
  | trErrval (e : Int)
  /-- `TR.CORRP`, R126. -/
  | trCorrp (p : Int)
  /-- `TR.RECON`, R127. -/
  | trRecon (px err : Int)
  /-- `TR.ISNEAR`, R128. -/
  | trIsnear (a b : Int)
  /-- `QT.DEFT`, R140. -/
  | qtDeft (maxVal near : Nat)
  /-- `QT.BUILD`, R144. -/
  | qtBuild (bpp near t1 t2 t3 : Nat)
  /-- `QT.QUANT`, R145. -/
  | qtQuant (d : Int)
  /-- `QT.CTXID`, R146. -/
  | qtCtxid (q1 q2 q3 : Int)
  /-- `RC.INIT`, R160. -/
  | rcInit (range : Nat)
  /-- `RC.GETK`, R161. -/
  | rcGetk (q : Nat)
  /-- `RC.CORR`, R162. -/
  | rcCorr (q k : Nat)
  /-- `RC.UPD`, R163. -/
  | rcUpd (q : Nat) (err : Int)
  /-- `RM.INIT`, R180. -/
  | rmInit (range : Nat)
  /-- `RM.GETK`, R181. -/
  | rmGetk (t : Nat)
  /-- `RM.MAP`, R182. -/
  | rmMap (t : Nat) (err : Int) (k : Nat)
  /-- `RM.ERRVAL`, R183. -/
  | rmErrval (t temp k : Nat)
  /-- `RM.UPD`, R184. -/
  | rmUpd (t : Nat) (err : Int) (em : Nat)
  /-- `BR.INIT`, R200. -/
  | brInit (p0 len : Nat)
  /-- `BR.FILL`, R202. -/
  | brFill
  /-- `BR.RDV`, R204. -/
  | brRdv (n : Nat)
  /-- `BR.PEEK`, R205. -/
  | brPeek
  /-- `BR.RDB`, R206. -/
  | brRdb
  /-- `BR.SKIP`, R207. -/
  | brSkip (n : Nat)
  /-- `BR.HIGH`, R208. -/
  | brHigh
  /-- `BR.DECV`, R209. -/
  | brDecv (k glimit qbpp : Nat)
  /-- `BR.END`, R210. -/
  | brEnd
  /-- `GT.BUILD`, R211. -/
  | gtBuild
  /-- `GT.LOOK`, R212. -/
  | gtLook (k : Nat)
  /-- `BW.INIT`, R240. -/
  | bwInit (p0 cap : Nat)
  /-- `BW.APP`, R242. -/
  | bwApp (value count : Nat)
  /-- `BW.FLUSH`, R243. -/
  | bwFlush
  /-- `BW.ENCV`, R244. -/
  | bwEncv (k m glimit : Nat)
  /-- `BW.END`, R245. -/
  | bwEnd
  /-- `SP.NEIGH`, R270. -/
  | spNeigh (i : Nat)
  /-- `SP.PRED`, R272. -/
  | spPred (ra rb rc : Int)
  /-- `SP.MAPE`, R274. -/
  | spMape (e : Int)
  /-- `SP.UNMAPE`, R275. -/
  | spUnmape (m : Nat)
  /-- `SP.ENCREG`, R276. -/
  | spEncreg (i : Nat)
  /-- `SP.DECREG`, R277. -/
  | spDecreg (i : Nat)
  /-- `RN.INCIDX`, R301. -/
  | rnIncidx
  /-- `RN.DECIDX`, R302. -/
  | rnDecidx
  /-- `RN.ENCLEN`, R303. -/
  | rnEnclen (runlen : Nat) (eol : Bool)
  /-- `RN.DECLEN`, R304. -/
  | rnDeclen (rem : Nat)
  /-- `RN.ENCRIERR`, R305. -/
  | rnEncrierr (t : Nat) (err : Int)
  /-- `RN.DECRIERR`, R306. -/
  | rnDecrierr (t : Nat)
  /-- `RN.ENCRI`, R307. -/
  | rnEncri (x ra rb : Int)
  /-- `RN.DECRI`, R308. -/
  | rnDecri (ra rb : Int)
  /-- `RN.ENCRUN`, R309, R311. -/
  | rnEncrun (i : Nat)
  /-- `RN.DECRUN`, R310, R311. -/
  | rnDecrun (i : Nat)
  /-- `SC.GUARD`, R333. -/
  | scGuard
  /-- `SC.LINE`, R334. -/
  | scLine
  /-- `SC.LINE3`, R335. -/
  | scLine3
  /-- `SC.SCAN`, R336. -/
  | scScan
  /-- `CW.GOLOMB`, R94: `h` zeros, a one, the remainder `r`. -/
  | cwGolomb (h r : Nat)
  /-- `CW.ESCAPE`, R95: the escape prefix, then `v`. -/
  | cwEscape (v : Nat)
  /-- `CW.RUNSEG`, R98. -/
  | cwRunseg
  /-- `CW.RUNREM`, R98: a zero, then the `n` samples left of the run. -/
  | cwRunrem (n : Nat)
  /-- `CW.RUNEOL`, R98. -/
  | cwRuneol
  /-- `CW.PAD`, R99: `n` zero bits up to the byte boundary. -/
  | cwPad (n : Nat)
  /-- `CW.STUFF`, R99. -/
  | cwStuff
  deriving DecidableEq, Repr

end Sys2Proof
end

