-- ==== Sys2Proof/WellFormed.lean ====
section
/-! DEFINITION. Which terms of the syntax are operations that can be written down: every operand fits its 32-bit word,
and an operand that names a thing of the block (a context, a run context, a count, a bin) names one that exists. What
depends on the state (a parameter range, an index in the line) is checked where the operation runs (`00_scope.md` R10). -/

namespace Sys2Proof

/-- An unsigned operand fits its word. -/
def fitsUnsigned (n : Nat) : Bool := n < 2 ^ 32

/-- A signed operand fits its word in two's complement. -/
def fitsSigned (z : Int) : Bool := -(2 ^ 31) ≤ z && z < 2 ^ 31

/-- A context index, `0..364` (`10_state.md` R24). -/
def isContext (q : Nat) : Bool := q < 365

/-- A run context entry, `0..1` (R25). -/
def isRunContext (t : Nat) : Bool := t < 2

/-- A bit count of one read or append, `0..31` (`44_bit_reader.md` R204, `45_bit_writer.md` R242). -/
def isCount (n : Nat) : Bool := n < 32

/-- A bin index, `-4..4` (`10_state.md` R27). -/
def isBin (q : Int) : Bool := -4 ≤ q && q ≤ 4

/-- The well-formed operations and codewords. -/
def wellFormed : Instr → Bool
  | .configure w h b n e i m t1 t2 t3 r x y rw rh =>
      [w, h, b, n, e, i, m, t1, t2, t3, r, x, y, rw, rh].all fitsUnsigned
  | .encodeScan p0 cap => fitsUnsigned p0 && fitsUnsigned cap
  | .decodeScan p0 len => fitsUnsigned p0 && fitsUnsigned len
  | .trInit m e r => fitsUnsigned m && fitsUnsigned e && fitsUnsigned r
  | .trQerr e => fitsSigned e
  | .trModr q => fitsSigned q
  | .trErrval e => fitsSigned e
  | .trCorrp p => fitsSigned p
  | .trRecon px err => fitsSigned px && fitsSigned err
  | .trIsnear a b => fitsSigned a && fitsSigned b
  | .qtDeft m e => fitsUnsigned m && fitsUnsigned e
  | .qtBuild b e t1 t2 t3 => [b, e, t1, t2, t3].all fitsUnsigned
  | .qtQuant d => fitsSigned d
  | .qtCtxid q1 q2 q3 => isBin q1 && isBin q2 && isBin q3
  | .rcInit r => fitsUnsigned r
  | .rcGetk q => isContext q
  | .rcCorr q k => isContext q && fitsUnsigned k
  | .rcUpd q err => isContext q && fitsSigned err
  | .rmInit r => fitsUnsigned r
  | .rmGetk t => isRunContext t
  | .rmMap t err k => isRunContext t && fitsSigned err && fitsUnsigned k
  | .rmErrval t temp k => isRunContext t && fitsUnsigned temp && fitsUnsigned k
  | .rmUpd t err em => isRunContext t && fitsSigned err && fitsUnsigned em
  | .brInit p0 len => fitsUnsigned p0 && fitsUnsigned len
  | .brFill => true
  | .brRdv n => isCount n
  | .brPeek => true
  | .brRdb => true
  | .brSkip n => isCount n
  | .brHigh => true
  | .brDecv k g q => isCount k && fitsUnsigned g && fitsUnsigned q
  | .brEnd => true
  | .gtBuild => true
  | .gtLook k => fitsUnsigned k
  | .bwInit p0 cap => fitsUnsigned p0 && fitsUnsigned cap
  | .bwApp v n => fitsUnsigned v && isCount n
  | .bwFlush => true
  | .bwEncv k m g => isCount k && fitsUnsigned m && fitsUnsigned g
  | .bwEnd => true
  | .spNeigh i => fitsUnsigned i
  | .spPred ra rb rc => fitsSigned ra && fitsSigned rb && fitsSigned rc
  | .spMape e => fitsSigned e
  | .spUnmape m => fitsUnsigned m
  | .spEncreg i => fitsUnsigned i
  | .spDecreg i => fitsUnsigned i
  | .rnIncidx => true
  | .rnDecidx => true
  | .rnEnclen n _ => fitsUnsigned n
  | .rnDeclen n => fitsUnsigned n
  | .rnEncrierr t err => isRunContext t && fitsSigned err
  | .rnDecrierr t => isRunContext t
  | .rnEncri x ra rb => fitsSigned x && fitsSigned ra && fitsSigned rb
  | .rnDecri ra rb => fitsSigned ra && fitsSigned rb
  | .rnEncrun i => fitsUnsigned i
  | .rnDecrun i => fitsUnsigned i
  | .scGuard => true
  | .scLine => true
  | .scLine3 => true
  | .scScan => true
  | .cwGolomb h r => fitsUnsigned h && fitsUnsigned r
  | .cwEscape v => fitsUnsigned v
  | .cwRunseg => true
  | .cwRunrem n => fitsUnsigned n
  | .cwRuneol => true
  | .cwPad n => n < 8
  | .cwStuff => true

end Sys2Proof
end

