-- ==== Sys2Proof/Decode.lean ====
section
/-! DEFINITION. Decoding and encoding. An operation is its selector byte (`30_encoding.md` R90, R91) followed by its
operands, each one 32-bit word, least significant byte first, signed operands in two's complement (log entry 1: the spec
passes operands by name). A codeword has no selector: it is a pattern of bits whose lengths depend on the coding context
(R93 to R99), and has its own encoder and decoder at the end of this file. -/

namespace Sys2Proof

/-- Why a byte sequence is no operation. -/
inductive DecodeError where
  /-- There is no byte. -/
  | empty
  /-- The selector is none of R91: reserved (R92). -/
  | reservedSelector (op : Byte)
  /-- The operand words are not all there. -/
  | truncated
  /-- An operand names a context, a count or a bin that does not exist. -/
  | illegalOperand
  deriving DecidableEq, Repr

/-- The selector of an operation (R91); a codeword has none. -/
def selectorOf : Instr → Option Nat
  | .configure .. => some 0x01
  | .encodeScan .. => some 0x02
  | .decodeScan .. => some 0x03
  | .trInit .. => some 0x10
  | .trQerr .. => some 0x11
  | .trModr .. => some 0x12
  | .trErrval .. => some 0x13
  | .trCorrp .. => some 0x14
  | .trRecon .. => some 0x15
  | .trIsnear .. => some 0x16
  | .qtDeft .. => some 0x20
  | .qtBuild .. => some 0x21
  | .qtQuant .. => some 0x22
  | .qtCtxid .. => some 0x23
  | .rcInit .. => some 0x30
  | .rcGetk .. => some 0x31
  | .rcCorr .. => some 0x32
  | .rcUpd .. => some 0x33
  | .rmInit .. => some 0x40
  | .rmGetk .. => some 0x41
  | .rmMap .. => some 0x42
  | .rmErrval .. => some 0x43
  | .rmUpd .. => some 0x44
  | .brInit .. => some 0x50
  | .brFill => some 0x51
  | .brRdv .. => some 0x52
  | .brPeek => some 0x53
  | .brRdb => some 0x54
  | .brSkip .. => some 0x55
  | .brHigh => some 0x56
  | .brDecv .. => some 0x57
  | .brEnd => some 0x58
  | .gtBuild => some 0x59
  | .gtLook .. => some 0x5A
  | .bwInit .. => some 0x60
  | .bwApp .. => some 0x61
  | .bwFlush => some 0x62
  | .bwEncv .. => some 0x63
  | .bwEnd => some 0x64
  | .spNeigh .. => some 0x70
  | .spPred .. => some 0x71
  | .spMape .. => some 0x72
  | .spUnmape .. => some 0x73
  | .spEncreg .. => some 0x74
  | .spDecreg .. => some 0x75
  | .rnIncidx => some 0x80
  | .rnDecidx => some 0x81
  | .rnEnclen .. => some 0x82
  | .rnDeclen .. => some 0x83
  | .rnEncrierr .. => some 0x84
  | .rnDecrierr .. => some 0x85
  | .rnEncri .. => some 0x86
  | .rnDecri .. => some 0x87
  | .rnEncrun .. => some 0x88
  | .rnDecrun .. => some 0x89
  | .scGuard => some 0x90
  | .scLine => some 0x91
  | .scLine3 => some 0x92
  | .scScan => some 0x93
  | .cwGolomb .. => none
  | .cwEscape .. => none
  | .cwRunseg => none
  | .cwRunrem .. => none
  | .cwRuneol => none
  | .cwPad .. => none
  | .cwStuff => none

/-- An operation of the table's formats `HOST` and `UOP`, as opposed to a codeword. -/
def isOperation (i : Instr) : Bool := (selectorOf i).isSome

/-- A `HOST` operation, unit 0 of the selector: the only ones the host can issue (R90, R92). -/
def isHostOperation (i : Instr) : Bool :=
  match selectorOf i with
  | some op => op < 0x10
  | none => false

/-- How many operand words follow a selector; `none` for a reserved one (R92). -/
def arityOf : Nat → Option Nat
  | 0x01 => some 15
  | 0x02 => some 2
  | 0x03 => some 2
  | 0x10 => some 3
  | 0x11 => some 1
  | 0x12 => some 1
  | 0x13 => some 1
  | 0x14 => some 1
  | 0x15 => some 2
  | 0x16 => some 2
  | 0x20 => some 2
  | 0x21 => some 5
  | 0x22 => some 1
  | 0x23 => some 3
  | 0x30 => some 1
  | 0x31 => some 1
  | 0x32 => some 2
  | 0x33 => some 2
  | 0x40 => some 1
  | 0x41 => some 1
  | 0x42 => some 3
  | 0x43 => some 3
  | 0x44 => some 3
  | 0x50 => some 2
  | 0x51 => some 0
  | 0x52 => some 1
  | 0x53 => some 0
  | 0x54 => some 0
  | 0x55 => some 1
  | 0x56 => some 0
  | 0x57 => some 3
  | 0x58 => some 0
  | 0x59 => some 0
  | 0x5A => some 1
  | 0x60 => some 2
  | 0x61 => some 2
  | 0x62 => some 0
  | 0x63 => some 3
  | 0x64 => some 0
  | 0x70 => some 1
  | 0x71 => some 3
  | 0x72 => some 1
  | 0x73 => some 1
  | 0x74 => some 1
  | 0x75 => some 1
  | 0x80 => some 0
  | 0x81 => some 0
  | 0x82 => some 2
  | 0x83 => some 1
  | 0x84 => some 2
  | 0x85 => some 1
  | 0x86 => some 3
  | 0x87 => some 2
  | 0x88 => some 1
  | 0x89 => some 1
  | 0x90 => some 0
  | 0x91 => some 0
  | 0x92 => some 0
  | 0x93 => some 0
  | _ => none

/-- Operand word `j` as an unsigned number. -/
def operandU (ws : List Word) (j : Nat) : Nat := (ws.getD j 0).toNat

/-- Operand word `j` as a two's-complement number. -/
def operandS (ws : List Word) (j : Nat) : Int := (ws.getD j 0).toInt

/-- The operation of a selector and its operand words. A truth value is the word 0 or 1. -/
def buildOperation (op : Nat) (ws : List Word) : Option Instr :=
  let u := operandU ws
  let z := operandS ws
  match op with
  | 0x01 => some (.configure (u 0) (u 1) (u 2) (u 3) (u 4) (u 5) (u 6) (u 7) (u 8) (u 9) (u 10) (u 11) (u 12) (u 13) (u 14))
  | 0x02 => some (.encodeScan (u 0) (u 1))
  | 0x03 => some (.decodeScan (u 0) (u 1))
  | 0x10 => some (.trInit (u 0) (u 1) (u 2))
  | 0x11 => some (.trQerr (z 0))
  | 0x12 => some (.trModr (z 0))
  | 0x13 => some (.trErrval (z 0))
  | 0x14 => some (.trCorrp (z 0))
  | 0x15 => some (.trRecon (z 0) (z 1))
  | 0x16 => some (.trIsnear (z 0) (z 1))
  | 0x20 => some (.qtDeft (u 0) (u 1))
  | 0x21 => some (.qtBuild (u 0) (u 1) (u 2) (u 3) (u 4))
  | 0x22 => some (.qtQuant (z 0))
  | 0x23 => some (.qtCtxid (z 0) (z 1) (z 2))
  | 0x30 => some (.rcInit (u 0))
  | 0x31 => some (.rcGetk (u 0))
  | 0x32 => some (.rcCorr (u 0) (u 1))
  | 0x33 => some (.rcUpd (u 0) (z 1))
  | 0x40 => some (.rmInit (u 0))
  | 0x41 => some (.rmGetk (u 0))
  | 0x42 => some (.rmMap (u 0) (z 1) (u 2))
  | 0x43 => some (.rmErrval (u 0) (u 1) (u 2))
  | 0x44 => some (.rmUpd (u 0) (z 1) (u 2))
  | 0x50 => some (.brInit (u 0) (u 1))
  | 0x51 => some .brFill
  | 0x52 => some (.brRdv (u 0))
  | 0x53 => some .brPeek
  | 0x54 => some .brRdb
  | 0x55 => some (.brSkip (u 0))
  | 0x56 => some .brHigh
  | 0x57 => some (.brDecv (u 0) (u 1) (u 2))
  | 0x58 => some .brEnd
  | 0x59 => some .gtBuild
  | 0x5A => some (.gtLook (u 0))
  | 0x60 => some (.bwInit (u 0) (u 1))
  | 0x61 => some (.bwApp (u 0) (u 1))
  | 0x62 => some .bwFlush
  | 0x63 => some (.bwEncv (u 0) (u 1) (u 2))
  | 0x64 => some .bwEnd
  | 0x70 => some (.spNeigh (u 0))
  | 0x71 => some (.spPred (z 0) (z 1) (z 2))
  | 0x72 => some (.spMape (z 0))
  | 0x73 => some (.spUnmape (u 0))
  | 0x74 => some (.spEncreg (u 0))
  | 0x75 => some (.spDecreg (u 0))
  | 0x80 => some .rnIncidx
  | 0x81 => some .rnDecidx
  | 0x82 => if u 1 < 2 then some (.rnEnclen (u 0) (u 1 == 1)) else none
  | 0x83 => some (.rnDeclen (u 0))
  | 0x84 => some (.rnEncrierr (u 0) (z 1))
  | 0x85 => some (.rnDecrierr (u 0))
  | 0x86 => some (.rnEncri (z 0) (z 1) (z 2))
  | 0x87 => some (.rnDecri (z 0) (z 1))
  | 0x88 => some (.rnEncrun (u 0))
  | 0x89 => some (.rnDecrun (u 0))
  | 0x90 => some .scGuard
  | 0x91 => some .scLine
  | 0x92 => some .scLine3
  | 0x93 => some .scScan
  | _ => none

/-- A word from its four bytes, least significant first. -/
def wordOfBytes (b0 b1 b2 b3 : Byte) : Word :=
  BitVec.ofNat 32 (b0.toNat + 2 ^ 8 * b1.toNat + 2 ^ 16 * b2.toNat + 2 ^ 24 * b3.toNat)

/-- The four bytes of a word, least significant first. -/
def bytesOfWord (w : Word) : List Byte :=
  [BitVec.ofNat 8 w.toNat, BitVec.ofNat 8 (w.toNat / 2 ^ 8), BitVec.ofNat 8 (w.toNat / 2 ^ 16),
    BitVec.ofNat 8 (w.toNat / 2 ^ 24)]

/-- The next `n` operand words, and the bytes after them. -/
def takeWords : Nat → List Byte → Option (List Word × List Byte)
  | 0, bs => some ([], bs)
  | n + 1, b0 :: b1 :: b2 :: b3 :: bs =>
    match takeWords n bs with
    | some (ws, rest) => some (wordOfBytes b0 b1 b2 b3 :: ws, rest)
    | none => none
  | _ + 1, _ => none

/-- The operation at the head of a byte sequence, and the bytes after it. -/
def decode : List Byte → Except DecodeError (Instr × List Byte)
  | [] => .error .empty
  | op :: bs =>
    match arityOf op.toNat with
    | none => .error (.reservedSelector op)
    | some n =>
      match takeWords n bs with
      | none => .error .truncated
      | some (ws, rest) =>
        match buildOperation op.toNat ws with
        | none => .error .illegalOperand
        | some i => if wellFormed i then .ok (i, rest) else .error .illegalOperand

/-! ## The encoder of operations -/

/-- An unsigned operand as its word. -/
def wordU (n : Nat) : Word := BitVec.ofNat 32 n

/-- A signed operand as its word. -/
def wordS (z : Int) : Word := BitVec.ofInt 32 z

/-- The operand words of an operation, in the rule's order. -/
def operandsOf : Instr → List Word
  | .configure w h b n e i m t1 t2 t3 r x y rw rh =>
      [wordU w, wordU h, wordU b, wordU n, wordU e, wordU i, wordU m, wordU t1, wordU t2, wordU t3, wordU r, wordU x,
        wordU y, wordU rw, wordU rh]
  | .encodeScan p0 cap => [wordU p0, wordU cap]
  | .decodeScan p0 len => [wordU p0, wordU len]
  | .trInit m e r => [wordU m, wordU e, wordU r]
  | .trQerr e => [wordS e]
  | .trModr q => [wordS q]
  | .trErrval e => [wordS e]
  | .trCorrp p => [wordS p]
  | .trRecon px err => [wordS px, wordS err]
  | .trIsnear a b => [wordS a, wordS b]
  | .qtDeft m e => [wordU m, wordU e]
  | .qtBuild b e t1 t2 t3 => [wordU b, wordU e, wordU t1, wordU t2, wordU t3]
  | .qtQuant d => [wordS d]
  | .qtCtxid q1 q2 q3 => [wordS q1, wordS q2, wordS q3]
  | .rcInit r => [wordU r]
  | .rcGetk q => [wordU q]
  | .rcCorr q k => [wordU q, wordU k]
  | .rcUpd q err => [wordU q, wordS err]
  | .rmInit r => [wordU r]
  | .rmGetk t => [wordU t]
  | .rmMap t err k => [wordU t, wordS err, wordU k]
  | .rmErrval t temp k => [wordU t, wordU temp, wordU k]
  | .rmUpd t err em => [wordU t, wordS err, wordU em]
  | .brInit p0 len => [wordU p0, wordU len]
  | .brFill => []
  | .brRdv n => [wordU n]
  | .brPeek => []
  | .brRdb => []
  | .brSkip n => [wordU n]
  | .brHigh => []
  | .brDecv k g q => [wordU k, wordU g, wordU q]
  | .brEnd => []
  | .gtBuild => []
  | .gtLook k => [wordU k]
  | .bwInit p0 cap => [wordU p0, wordU cap]
  | .bwApp v n => [wordU v, wordU n]
  | .bwFlush => []
  | .bwEncv k m g => [wordU k, wordU m, wordU g]
  | .bwEnd => []
  | .spNeigh i => [wordU i]
  | .spPred ra rb rc => [wordS ra, wordS rb, wordS rc]
  | .spMape e => [wordS e]
  | .spUnmape m => [wordU m]
  | .spEncreg i => [wordU i]
  | .spDecreg i => [wordU i]
  | .rnIncidx => []
  | .rnDecidx => []
  | .rnEnclen n eol => [wordU n, wordU (if eol then 1 else 0)]
  | .rnDeclen n => [wordU n]
  | .rnEncrierr t err => [wordU t, wordS err]
  | .rnDecrierr t => [wordU t]
  | .rnEncri x ra rb => [wordS x, wordS ra, wordS rb]
  | .rnDecri ra rb => [wordS ra, wordS rb]
  | .rnEncrun i => [wordU i]
  | .rnDecrun i => [wordU i]
  | .scGuard => []
  | .scLine => []
  | .scLine3 => []
  | .scScan => []
  | .cwGolomb .. => []
  | .cwEscape .. => []
  | .cwRunseg => []
  | .cwRunrem .. => []
  | .cwRuneol => []
  | .cwPad .. => []
  | .cwStuff => []

/-- The bytes of an operation; a codeword is not written this way and has none. -/
def encode (i : Instr) : List Byte :=
  match selectorOf i with
  | none => []
  | some op => BitVec.ofNat 8 op :: (operandsOf i).flatMap bytesOfWord

/-! ## Words numbered as the opcode table numbers them -/

/-- The first `n` bytes of a number whose bit 0 is the least significant bit of the first byte. -/
def bytesOfNat : Nat → Nat → List Byte
  | 0, _ => []
  | n + 1, w => BitVec.ofNat 8 w :: bytesOfNat n (w / 2 ^ 8)

/-- The bytes of the operation whose bits are the low `nbits` of `w`, every bit above them 0: the selector byte and as
many operand words as the selector has (none for a reserved one). -/
def fetchBytes (nbits w : Nat) : List Byte :=
  let v := w % 2 ^ nbits
  bytesOfNat (1 + 4 * (arityOf (v % 2 ^ 8)).getD 0) v

/-- What the decoder reads from the operation whose bits are `w`, numbered as `spec/opcode_table.json` numbers them. -/
def decodeTableWord (nbits w : Nat) : Option Instr :=
  match decode (fetchBytes nbits w) with
  | .ok (i, _) => some i
  | .error _ => none

/-! ## Bit groups and codewords (`00_scope.md` R8, `30_encoding.md` R93 to R99) -/

/-- The bit group `(value, count)`: the `count` low bits of `value`, bit `count - 1` first (R8). -/
def bitsOf (value : Nat) : Nat → List Bool
  | 0 => []
  | n + 1 => value.testBit n :: bitsOf value n

/-- The unsigned value of a bit sequence, the first bit the most significant. -/
def bitsVal (l : List Bool) : Nat := l.foldl (fun acc b => 2 * acc + b.toNat) 0

/-- What the lengths of a codeword depend on (R93): the Golomb parameter, the limit in force, `qbpp`, `J[RUNINDEX]`. -/
structure CwContext where
  k : Nat
  glimit : Nat
  qbpp : Nat
  j : Nat
  deriving DecidableEq, Repr

/-- The bits of a codeword in a context, where it is one there (R94, R95, R98, R99). Whether R95 uses the escape for its value,
and how many samples of the line are left for a segment or an end of line (R98), is not asked here (DESIGN CHOICE, log entry
15). -/
def cwBits (c : CwContext) : Instr → Option (List Bool)
  | .cwGolomb h r =>
    if h + c.qbpp + 1 < c.glimit ∧ r < 2 ^ c.k then some (List.replicate h false ++ true :: bitsOf r c.k) else none
  | .cwEscape v =>
    if c.qbpp + 2 ≤ c.glimit ∧ v < 2 ^ c.qbpp then
      some (List.replicate (c.glimit - c.qbpp - 1) false ++ true :: bitsOf v c.qbpp)
    else none
  | .cwRunseg => some [true]
  | .cwRunrem n => if n < 2 ^ c.j then some (false :: bitsOf n c.j) else none
  | .cwRuneol => some [true]
  | .cwPad n => if n < 8 then some (List.replicate n false) else none
  | .cwStuff => some [false]
  | _ => none

/-- The number of zeros before the first one, and the bits after that one. -/
def unaryPrefix : List Bool → Option (Nat × List Bool)
  | [] => none
  | true :: rest => some (0, rest)
  | false :: rest =>
    match unaryPrefix rest with
    | some (h, r) => some (h + 1, r)
    | none => none

/-- The mapped-value codeword at the head of a bit sequence, told apart as R96 says. -/
def decodeValueCw (c : CwContext) (bits : List Bool) : Option (Instr × List Bool) :=
  match unaryPrefix bits with
  | none => none
  | some (h, rest) =>
    if c.glimit ≤ h + c.qbpp + 1 then
      if c.qbpp ≤ rest.length then some (.cwEscape (bitsVal (rest.take c.qbpp)), rest.drop c.qbpp) else none
    else if c.k ≤ rest.length then some (.cwGolomb h (bitsVal (rest.take c.k)), rest.drop c.k) else none

/-- The run-length codeword at the head of a bit sequence when `left` samples of the line are left (R98). -/
def decodeRunCw (c : CwContext) (left : Nat) : List Bool → Option (Instr × List Bool)
  | [] => none
  | true :: rest => if 2 ^ c.j ≤ left then some (.cwRunseg, rest) else some (.cwRuneol, rest)
  | false :: rest =>
    if c.j ≤ rest.length then some (.cwRunrem (bitsVal (rest.take c.j)), rest.drop c.j) else none

end Sys2Proof
end

