-- ==== Sys2Proof/Machine/State.lean ====
section
/-! DEFINITION. The state of JLSCORE (`10_state.md` R20 to R40), its faults and refusals, and the state after reset. -/

namespace Sys2Proof.Machine

/-- Why a step does not happen. -/
inductive Fault where
  /-- Raised by `step` when neither the issue register nor the HOST port holds an operation: the block waits, and the
  step has not happened yet (R384, R408). Safe. -/
  | noOperation
  deriving DecidableEq, Repr

/-- Why an input is given no meaning (R10: a refusal is the spec's device, not the hardware's). -/
inductive Refusal where
  /-- An instruction with no meaning in this model yet: raised by a refused arm of `exec`. Safe. -/
  | notModelled (mnemonic : String)
  /-- The pending bytes are no operation: raised by `step` (R92: a reserved selector is refused). Safe. -/
  | undecodable (e : DecodeError)
  /-- A `UOP` selector on the HOST port: raised by `step` (R92). Safe. -/
  | uopOnHostPort
  /-- A host command while the sequencer is not `Idle` or `SR0.busy = 1`: raised by the three host commands (R92, R331,
  R340, R341, R404). Safe. -/
  | notIdle
  /-- A scan before a `CONFIGURE`: raised by the two scan commands (R92, R340, R341). Safe. -/
  | notConfigured
  /-- A parameter outside its legal range: raised by `CONFIGURE`, `TR.INIT` and the scan set-up (R5, R120, R331). Safe. -/
  | illegalParameters
  /-- An operand outside the range its rule gives (R10): raised by the operations that state one. Safe. -/
  | operandRange
  /-- A value with bits set at or above the count: raised by `BW.APP` and what appends through it (R242). Safe. -/
  | valueTooWide
  /-- A mapped value the escape codeword cannot carry, or a limit with no room for it: raised by `BW.ENCV` and what
  codes through it (R244). Safe. -/
  | escapeRange
  /-- An input sample outside `0..max_val`: raised when a line is taken from the LINE port (R343). Safe. -/
  | sampleRange
  /-- `BR.FILL` on a cache with more than `CACHE_BITS - 8` valid bits: raised by `BR.FILL` (R202). Safe. -/
  | cacheFull
  /-- A codeword that is not the one at this place of the stream: raised by the codeword forms (R94 to R99). Safe. -/
  | codewordMismatch
  deriving DecidableEq, Repr

/-- The interleave mode, PR5 `ILV`: 0 None, 1 Line, 2 Sample (R21). -/
inductive Ilv where
  | none
  | line
  | sample
  deriving DecidableEq, Repr

/-- The states of the sequencer (R34). -/
inductive Fsm where
  | idle
  | scanning
  | regularSample
  | runMode
  | endOfScan
  deriving DecidableEq, Repr

/-- The error kinds of a scan (`60_exceptions.md` R370). -/
inductive ErrKind where
  | none
  | invalidCompressedData
  | tooMuchCompressedData
  | compressedBufferTooSmall
  | uncompressedBufferTooSmall
  deriving DecidableEq, Repr

/-- The OPEN parameters of the block, which no operation writes: an argument of the model (`00_scope.md` R5, note N00-2,
`44_bit_reader.md` R210). -/
structure Build where
  /-- `MAX_DIM`, the largest width and height. -/
  maxDim : Nat
  /-- `MAX_COMP`, the largest component count. -/
  maxComp : Nat
  /-- `EOS_MAX_RESIDUAL_BITS`, how many zero bits a decode may leave before the marker; `none`: any number. -/
  eosMax : Option Nat
  deriving DecidableEq, Repr

/-- The reset input (`70_reset_and_hazards.md` R400: a reset may be applied at any time; log entry 30). -/
inductive ResetIn where
  /-- No reset is applied. -/
  | off
  /-- The next step is a reset, with no scan in progress. -/
  | now
  /-- The next step is a reset that lands inside the scan whose command is pending. -/
  | midScan
  deriving DecidableEq, Repr

/-- The parameter registers PR0..PR14 (R21). -/
structure Params where
  width : Nat
  height : Nat
  bps : Nat
  ncomp : Nat
  near : Nat
  ilv : Ilv
  maxVal : Nat
  t1 : Nat
  t2 : Nat
  t3 : Nat
  reset : Nat
  rectX : Nat
  rectY : Nat
  rectW : Nat
  rectH : Nat
  deriving DecidableEq, Repr

/-- The traits registers TR0..TR9 (R22). -/
structure Traits where
  maxVal : Nat
  near : Nat
  reset : Nat
  range : Nat
  qbpp : Nat
  bpp : Nat
  limit : Nat
  t1 : Nat
  t2 : Nat
  t3 : Nat
  deriving DecidableEq, Repr

/-- An entry of the regular context file (R24). The rules are on exact integers (R6), so no field wraps. -/
structure RegCtx where
  a : Nat
  b : Int
  c : Int
  n : Nat
  deriving DecidableEq, Repr

/-- An entry of the run context file (R25). -/
structure RunCtx where
  a : Nat
  n : Nat
  nn : Nat
  deriving DecidableEq, Repr

/-- The quantization table (R27), held as the five values it is a pure function of (R73, R144; log entry 16). -/
structure QTable where
  bpp : Nat
  near : Nat
  t1 : Nat
  t2 : Nat
  t3 : Nat
  deriving DecidableEq, Repr

/-- The bit reader (R31): the normative `rp` with the start and end of the data it counts in, and the realisation
`rcache`, `rvalid`, `rpos`, `rnextff` (`rend` serves both). -/
structure Reader where
  rp : Nat
  rstart : Nat
  rend : Nat
  rcache : BitVec Config.cacheBits
  rvalid : Nat
  rpos : Nat
  rnextff : Nat
  deriving DecidableEq, Repr

/-- The bit writer (R32): the normative `wacc`, `wff`, `wpos`, `wcap`, `bytes_written` with the start position, and the
realisation `wbuf`, `wfree`, with its own flag and position for the bytes it has let go (log entry 13). -/
structure Writer where
  wacc : List Bool
  wff : Bool
  wpos : Nat
  wcap : Nat
  wstart : Nat
  written : Nat
  wbuf : Word
  wfree : Int
  drainff : Bool
  drainpos : Nat
  deriving DecidableEq, Repr

/-- The working registers of the sample datapath (R33). -/
structure Work where
  ra : Int
  rb : Int
  rc : Int
  rd : Int
  x : Int
  q1 : Int
  q2 : Int
  q3 : Int
  qs : Int
  sign : Int
  k : Nat
  pred : Int
  px : Int
  err : Int
  merr : Nat
  runlen : Nat
  rx : Int
  deriving DecidableEq, Repr

/-- The sequencer position `seq = (fsm, y, c, i)` (R34). -/
structure Seq where
  fsm : Fsm
  y : Nat
  c : Nat
  i : Nat
  deriving DecidableEq, Repr

/-- A line of the LINE port (`20_memory.md` R67): its component slot, its number and its elements, each one sample or,
in Sample interleave, the three samples of a triplet. -/
structure Line where
  c : Nat
  y : Nat
  px : List (List Int)
  deriving DecidableEq, Repr

/-- The BYTE port's array (R60, R61): the bytes that differ from what an unlisted position reads as, by rising position. -/
abbrev Memory := List Host.Cell

/-- Everything the spec gives the block, and six fields of the model's own: `result` (log entry 11), `issue`
and `host` (log entry 2), `lineRoom` (log entry 19), `free` (log entry 9) and `resetIn` (log entry 30). -/
structure State where
  /-- The OPEN parameters. -/
  build : Build
  /-- PR0..PR14. -/
  pr : Params
  /-- Whether a `CONFIGURE` has been accepted since reset (R331). -/
  configured : Bool
  /-- TR0..TR9. -/
  tr : Traits
  /-- SR0.err (R23). -/
  err : ErrKind
  /-- SR0.busy. -/
  busy : Bool
  /-- SR0.done. -/
  done : Bool
  /-- SR0.dir: false an encode, true a decode. -/
  dir : Bool
  /-- SR1.bytes_written. -/
  sr1 : Word
  /-- The regular context file `ctx[0..364]`. -/
  ctx : Vector RegCtx 365
  /-- The run context file `rctx[0..1]`. -/
  rctx : Vector RunCtx 2
  /-- `runidx[c]`, the slots that are not 0, by rising slot (R26). -/
  runidx : List (Nat × Nat)
  /-- The active `RUNINDEX` (R26). -/
  runindex : Nat
  /-- The quantization table. -/
  qt : QTable
  /-- The line buffers, the samples that are not 0, by rising key (R30; the key is `bufKey`). -/
  buf : List (Nat × Int)
  /-- The bit reader. -/
  rd : Reader
  /-- The bit writer. -/
  wr : Writer
  /-- The working registers. -/
  w : Work
  /-- The sequencer position; `seq.fsm` is also SR0.fsm. -/
  seq : Seq
  /-- The array behind the BYTE port. -/
  bs : Memory
  /-- The BYTE position a decode leaves (`44_bit_reader.md` R214). `20_memory.md` R71 gives it a meaning only after `BR.END`;
  until the next one, or an error or a reset, it keeps its value (DESIGN CHOICE, log entry 28). -/
  bytePos : Nat
  /-- The lines the host holds ready on the LINE port for an encode. -/
  lineSrc : List Line
  /-- The lines delivered on the LINE port by the decode in progress or last run, oldest first. -/
  lineDst : List Line
  /-- How many more lines the host accepts; `none`: every one. -/
  lineRoom : Option Nat
  /-- The results of the last operation whose rule names one and gives it no register, in the rule's order. -/
  result : List Int
  /-- The issue register: the bytes of the operation the sequencer is given to run next. -/
  issue : List Byte
  /-- The HOST port: the bytes of the commands the host has issued and the block has not taken yet. -/
  host : List Byte
  /-- The number of the next draw of free values. -/
  free : Nat
  /-- The reset input. -/
  resetIn : ResetIn
  deriving DecidableEq, Repr

/-- The traits after reset: what the value column of R22 and the defaults of R140 give for parameter registers that are
all 0 (log entry 5). -/
def resetTraits : Traits :=
  { maxVal := 0, near := 0, reset := 64, range := 1, qbpp := 0, bpp := 0, limit := 16, t1 := 1, t2 := 1, t3 := 1 }

/-- The block right after reset: `Idle`, `SR0 = 0` (R38, R400); every element the spec leaves unspecified, the BYTE position
among them, holds the value log entries 4 to 8 name (DESIGN CHOICE), and the OPEN parameters stand at their defaults (log
entry 20). -/
def State.reset : State where
  build := { maxDim := Config.maxDim, maxComp := Config.maxComp, eosMax := Config.eosMaxResidualBits }
  pr := { width := 0, height := 0, bps := 0, ncomp := 0, near := 0, ilv := .none, maxVal := 0, t1 := 0, t2 := 0, t3 := 0,
          reset := 0, rectX := 0, rectY := 0, rectW := 0, rectH := 0 }
  configured := false
  tr := resetTraits
  err := .none
  busy := false
  done := false
  dir := false
  sr1 := 0
  ctx := Vector.replicate 365 { a := 2, b := 0, c := 0, n := 1 }
  rctx := Vector.replicate 2 { a := 2, n := 1, nn := 0 }
  runidx := []
  runindex := 0
  qt := { bpp := 0, near := 0, t1 := 0, t2 := 0, t3 := 0 }
  buf := []
  rd := { rp := 0, rstart := 0, rend := 0, rcache := 0, rvalid := 0, rpos := 0, rnextff := 0 }
  wr := { wacc := [], wff := false, wpos := 0, wcap := 0, wstart := 0, written := 0, wbuf := 0, wfree := 32,
          drainff := false, drainpos := 0 }
  w := { ra := 0, rb := 0, rc := 0, rd := 0, x := 0, q1 := 0, q2 := 0, q3 := 0, qs := 0, sign := 0, k := 0, pred := 0,
         px := 0, err := 0, merr := 0, runlen := 0, rx := 0 }
  seq := { fsm := .idle, y := 0, c := 0, i := 0 }
  bs := []
  bytePos := 0
  lineSrc := []
  lineDst := []
  lineRoom := none
  result := []
  issue := []
  host := []
  free := 0
  resetIn := .off

end Sys2Proof.Machine
end

