-- ==== Sys2Proof/Machine/Ops.lean ====
section
/-! DEFINITION. The named operations over memory and registers: the sparse spaces (the BYTE array, the line buffers, the
run index file), the context files, the working registers, taking a scan error (`60_exceptions.md` R378), and fetching the
next operation. -/

namespace Sys2Proof.Machine

/-! ## Sparse spaces

A space is a list of (key, value) pairs in one canonical form: keys strictly rising, no entry equal to what an unlisted key
reads as. -/

/-- The value at a key; an unlisted key reads as `d`. -/
def sparseRead {α : Type} (d : α) : List (Nat × α) → Nat → α
  | [], _ => d
  | (k, v) :: t, a => if a = k then v else sparseRead d t a

/-- Writing a value at a key; writing `d` takes the entry out. -/
def sparseWrite {α : Type} [DecidableEq α] (d : α) : List (Nat × α) → Nat → α → List (Nat × α)
  | [], a, x => if x = d then [] else [(a, x)]
  | (k, v) :: t, a, x =>
    if a < k then (if x = d then (k, v) :: t else (a, x) :: (k, v) :: t)
    else if a = k then (if x = d then t else (a, x) :: t)
    else (k, v) :: sparseWrite d t a x

/-- Every key is above `lo` and the list is canonical. -/
def sparseAbove {α : Type} [DecidableEq α] (d : α) : Nat → List (Nat × α) → Bool
  | _, [] => true
  | lo, (k, v) :: t => lo ≤ k && v ≠ d && sparseAbove d (k + 1) t

/-- The canonical form. -/
def sparseWf {α : Type} [DecidableEq α] (d : α) (m : List (Nat × α)) : Bool := sparseAbove d 0 m

/-- The canonical space that holds the pairs of a list, a later pair winning. -/
def sparseOfList {α : Type} [DecidableEq α] (d : α) (l : List (Nat × α)) : List (Nat × α) :=
  l.foldl (fun m p => sparseWrite d m p.1 p.2) []

/-! ## The BYTE array (`20_memory.md` R60, R61) -/

/-- What a position nothing has written reads as (log entry 8). -/
def blankByte : Byte := 0

/-- One byte of the array. -/
def memRead (m : Memory) (p : Nat) : Byte := sparseRead blankByte m p

/-- `MemWrite(BS, p, 1, v)` in bounds. -/
def memWrite (m : Memory) (p : Nat) (v : Byte) : Memory := sparseWrite blankByte m p v

/-- The canonical form of the array. -/
def Memory.wf (m : Memory) : Bool := sparseWf blankByte m

/-! ## Outcomes inside an operation (`00_scope.md` R10) -/

/-- Why an operation does not complete: it raised an error in a state, or it is refused. -/
inductive Stop where
  | raised (e : ErrKind) (s : State)
  | refused (r : Refusal)
  deriving DecidableEq, Repr

/-- What a part of an operation gives: a result, or why there is none. -/
abbrev Res (α : Type) := Except Stop α

/-- `raise e` (R9). -/
def raise {α : Type} (e : ErrKind) (s : State) : Res α := .error (.raised e s)

/-- `refuse` (R9). -/
def refuse {α : Type} (r : Refusal) : Res α := .error (.refused r)

/-- Go on only where a precondition holds. -/
def require (b : Bool) (r : Refusal) : Res Unit := if b then .ok () else refuse r

/-! ## Taking a scan error (R378) -/

/-- Unspecified traits. -/
def freeTraits (n : Nat) : Traits :=
  { maxVal := Config.freeNat n 1 0, near := Config.freeNat n 1 1, reset := Config.freeNat n 1 2,
    range := Config.freeNat n 1 3, qbpp := Config.freeNat n 1 4, bpp := Config.freeNat n 1 5,
    limit := Config.freeNat n 1 6, t1 := Config.freeNat n 1 7, t2 := Config.freeNat n 1 8, t3 := Config.freeNat n 1 9 }

/-- An unspecified regular context file. -/
def freeCtx (n : Nat) : Vector RegCtx 365 :=
  Vector.ofFn fun q => { a := Config.freeNat n 2 q, b := Config.freeInt n 2 q, c := Config.freeInt n 3 q,
                         n := Config.freeNat n 3 q }

/-- An unspecified run context file. -/
def freeRctx (n : Nat) : Vector RunCtx 2 :=
  Vector.ofFn fun t => { a := Config.freeNat n 4 t, n := Config.freeNat n 5 t, nn := Config.freeNat n 6 t }

/-- An unspecified quantization table. -/
def freeQTable (n : Nat) : QTable :=
  { bpp := Config.freeNat n 7 0, near := Config.freeNat n 7 1, t1 := Config.freeNat n 7 2, t2 := Config.freeNat n 7 3,
    t3 := Config.freeNat n 7 4 }

/-- An unspecified bit reader. -/
def freeReader (n : Nat) : Reader :=
  { rp := Config.freeNat n 8 0, rstart := Config.freeNat n 8 1, rend := Config.freeNat n 8 2,
    rcache := Config.freeCache n, rvalid := Config.freeNat n 8 3, rpos := Config.freeNat n 8 4,
    rnextff := Config.freeNat n 8 5 }

/-- An unspecified bit writer. -/
def freeWriter (n : Nat) : Writer :=
  { wacc := Config.freeBits n, wff := Config.freeFlag n 0, wpos := Config.freeNat n 9 0, wcap := Config.freeNat n 9 1,
    wstart := Config.freeNat n 9 2, written := Config.freeNat n 9 3, wbuf := Config.freeWord (2 * n),
    wfree := Config.freeInt n 9 0, drainff := Config.freeFlag n 1, drainpos := Config.freeNat n 9 4 }

/-- Working registers that hold no value. -/
def freeWork (n : Nat) : Work :=
  { ra := Config.freeInt n 10 0, rb := Config.freeInt n 10 1, rc := Config.freeInt n 10 2, rd := Config.freeInt n 10 3,
    x := Config.freeInt n 10 4, q1 := Config.freeInt n 10 5, q2 := Config.freeInt n 10 6, q3 := Config.freeInt n 10 7,
    qs := Config.freeInt n 10 8, sign := Config.freeInt n 10 9, k := Config.freeNat n 10 0,
    pred := Config.freeInt n 10 10, px := Config.freeInt n 10 11, err := Config.freeInt n 10 12,
    merr := Config.freeNat n 10 1, runlen := Config.freeNat n 10 2, rx := Config.freeInt n 10 13 }

/-- Unspecified delivered lines. -/
def freeLineDst (n : Nat) : List Line := (Config.freeLines n).map fun l => { c := l.1, y := l.2.1, px := l.2.2 }

/-- The array with the `n` bytes from `p` unspecified. -/
def freeBytes (draw p n : Nat) (m : Memory) : Memory :=
  (List.range n).foldl (fun m j => memWrite m (p + j) (Config.freeByte draw (p + j))) m

/-- The array with the bytes an encode has written to the sink unspecified: positions `wstart .. wpos - 1`. Where `SR0.dir`
says decode no byte is (log entry 9: a unit of the writer that is issued alone then and raises; DESIGN CHOICE). -/
def freeSink (s : State) : Memory :=
  if s.dir then s.bs else freeBytes s.free s.wr.wstart (s.wr.wpos - s.wr.wstart) s.bs

/-- Taking the scan error `e` (R378): the code is in `SR0.err`, `done` is set, `busy` is cleared, the sequencer is `Idle`;
PR0..PR14 keep their values; everything else the block holds is unspecified and takes free values (log entry 9). What the
host holds at its ports stays. There is no return from it (R379). -/
def raiseErr (e : ErrKind) (s : State) : State where
  build := s.build
  pr := s.pr
  configured := s.configured
  tr := freeTraits s.free
  err := e
  busy := false
  done := true
  dir := s.dir
  sr1 := Config.freeWord (2 * s.free + 1)
  ctx := freeCtx s.free
  rctx := freeRctx s.free
  runidx := sparseOfList 0 (Config.freeRunidx s.free)
  runindex := Config.freeNat s.free 11 0
  qt := freeQTable s.free
  buf := sparseOfList 0 (Config.freeCells s.free)
  rd := freeReader s.free
  wr := freeWriter s.free
  w := freeWork s.free
  seq := { fsm := .idle, y := Config.freeNat s.free 12 0, c := Config.freeNat s.free 12 1, i := Config.freeNat s.free 12 2 }
  bs := freeSink s
  bytePos := Config.freeNat s.free 13 0
  lineSrc := s.lineSrc
  lineDst := freeLineDst s.free
  lineRoom := s.lineRoom
  result := [Config.freeInt s.free 14 0]
  issue := s.issue
  host := s.host
  free := s.free + 1
  resetIn := s.resetIn

/-- Applying a reset (R400): what `State.reset` holds, and with it no error code; what the host holds at its ports stays,
and what the block is built with. An operation in the issue register is abandoned (log entry 30). -/
def resetBlock (s : State) : State :=
  { State.reset with
    build := s.build
    bs := s.bs
    lineSrc := s.lineSrc
    lineDst := s.lineDst
    lineRoom := s.lineRoom
    host := s.host
    free := s.free }

/-- The outcome of an operation: complete, take the error it raised, or be refused. -/
def finish : Res State → Host.Outcome State Fault Refusal
  | .ok s => .next s
  | .error (.raised e s) => .next (raiseErr e s)
  | .error (.refused r) => .refused r

/-! ## Registers and tables -/

/-- The run-length order table `J[0..31]` (`47_run_mode.md` R300). -/
def jTable : List Nat :=
  [0, 0, 0, 0, 1, 1, 1, 1, 2, 2, 2, 2, 3, 3, 3, 3, 4, 4, 5, 5, 6, 6, 7, 7, 8, 9, 10, 11, 12, 13, 14, 15]

/-- `J[r]`; the run index is at most 31 (R26). Above 31, which only the free value of an error can be, R29 has no entry and
the model reads 15 (DESIGN CHOICE, log entry 9). -/
def jOf (r : Nat) : Nat := jTable.getD r 15

/-- `J[RUNINDEX]`. -/
def jNow (s : State) : Nat := jOf s.runindex

/-- `ctx[q]`, for `q` in `0..364`. -/
def ctxAt (s : State) (q : Nat) : RegCtx := s.ctx[q % 365]'(Nat.mod_lt _ (by decide))

/-- `ctx[q] <- v`. -/
def setCtx (s : State) (q : Nat) (v : RegCtx) : State :=
  { s with ctx := s.ctx.set (q % 365) v (Nat.mod_lt _ (by decide)) }

/-- `rctx[t]`, for `t` in `0..1`. -/
def rctxAt (s : State) (t : Nat) : RunCtx := s.rctx[t % 2]'(Nat.mod_lt _ (by decide))

/-- `rctx[t] <- v`. -/
def setRctx (s : State) (t : Nat) (v : RunCtx) : State :=
  { s with rctx := s.rctx.set (t % 2) v (Nat.mod_lt _ (by decide)) }

/-- `runidx[c]`. -/
def runidxAt (s : State) (c : Nat) : Nat := sparseRead 0 s.runidx c

/-- `runidx[c] <- r`. -/
def setRunidx (s : State) (c r : Nat) : State := { s with runidx := sparseWrite 0 s.runidx c r }

/-- `RUNINDEX <- r`. -/
def setRunindex (s : State) (r : Nat) : State := { s with runindex := r }

/-- Writing the working registers. A register keeps its value until it is written again, from one sample to the next, between
operations and after a scan; R33 has one that the current sample step has not written hold no value (DESIGN CHOICE, log
entry 22). -/
def setWork (s : State) (w : Work) : State := { s with w := w }

/-- Handing out the results of an operation by name (R103; log entry 11). -/
def setResult (s : State) (r : List Int) : State := { s with result := r }

/-- Writing the bit reader. -/
def setReader (s : State) (r : Reader) : State := { s with rd := r }

/-- Writing the bit writer. -/
def setWriter (s : State) (w : Writer) : State := { s with wr := w }

/-- Writing the array of the BYTE port. -/
def setBytes (s : State) (m : Memory) : State := { s with bs := m }

/-- Writing the line buffers. -/
def setBuf (s : State) (b : List (Nat × Int)) : State := { s with buf := b }

/-- Writing the traits. -/
def setTraits (s : State) (t : Traits) : State := { s with tr := t }

/-- `seq <- target` (R9). -/
def setSeq (s : State) (q : Seq) : State := { s with seq := q }

/-- Moving the sequencer's state only. -/
def setFsm (s : State) (f : Fsm) : State := { s with seq := { s.seq with fsm := f } }

/-- `K <- k`. -/
def setK (s : State) (k : Nat) : State := setWork s { s.w with k := k }

/-! ## Line buffers (`10_state.md` R30) -/

/-- One number for two, with no bound on either: the OPEN parameters bound neither the slots nor the width (R5). -/
def pairKey (m n : Nat) : Nat := if m < n then n * n + m else m * m + m + n

/-- The key of element `j` (`-1 .. WIDTH`), channel `ch` (0, and 1, 2 of a triplet), of buffer parity `p` of slot `c`. -/
def bufKey (p c ch : Nat) (j : Int) : Nat := pairKey ((c * 2 + p) * 3 + ch) (j + 1).toNat

/-- `cur[j]`, channel `ch`: the buffer of the line's parity. -/
def curRead (s : State) (ch : Nat) (j : Int) : Int := sparseRead 0 s.buf (bufKey (s.seq.y % 2) s.seq.c ch j)

/-- `prev[j]`, channel `ch`: the buffer of the other parity. -/
def prevRead (s : State) (ch : Nat) (j : Int) : Int := sparseRead 0 s.buf (bufKey ((s.seq.y + 1) % 2) s.seq.c ch j)

/-- `cur[j] <- v`, channel `ch`. -/
def curWrite (s : State) (ch : Nat) (j : Int) (v : Int) : State :=
  setBuf s (sparseWrite 0 s.buf (bufKey (s.seq.y % 2) s.seq.c ch j) v)

/-- `prev[j] <- v`, channel `ch`. -/
def prevWrite (s : State) (ch : Nat) (j : Int) (v : Int) : State :=
  setBuf s (sparseWrite 0 s.buf (bufKey ((s.seq.y + 1) % 2) s.seq.c ch j) v)

/-- The channels of an element: three in Sample interleave, else one (R30). -/
def channels (s : State) : Nat := match s.pr.ilv with | .sample => 3 | .line => 1 | .none => 1

/-- The component slots of a scan: `NCOMP` in Line interleave, else one (R30, R332). -/
def slots (p : Params) : Nat := match p.ilv with | .line => p.ncomp | .sample => 1 | .none => 1

/-! ## Fetching -/

/-- The operation to run next: the one in the issue register, else the next command on the HOST port, which only a `HOST`
operation may be (R90, R92; log entry 2). -/
def fetchNext (s : State) : Host.Outcome (Instr × State) Fault Refusal :=
  match s.issue with
  | b :: bs =>
    match decode (b :: bs) with
    | .ok (i, rest) => .next (i, { s with issue := rest })
    | .error e => .refused (.undecodable e)
  | [] =>
    match s.host with
    | b :: bs =>
      match decode (b :: bs) with
      | .ok (i, rest) => if isHostOperation i then .next (i, { s with host := rest }) else .refused .uopOnHostPort
      | .error e => .refused (.undecodable e)
    | [] => .fault .noOperation

end Sys2Proof.Machine
end

