-- ==== Sys2Proof/Machine/Flags.lean ====
section
/-! DEFINITION. The flags: the sign masks the rules compute with (`00_scope.md` R7), the flag `wff` a byte emission sets
(`10_state.md` R35), and the status words SR0 and SR1 as the host reads them (R23). -/

namespace Sys2Proof.Machine

/-- `neg1(a)`: -1 when `a < 0`, else 0. -/
def neg1 (a : Int) : Int := if a < 0 then -1 else 0

/-- `sgn1(a)`: -1 when `a < 0`, else +1. -/
def sgn1 (a : Int) : Int := if a < 0 then -1 else 1

/-- `asgn(v, s)`: `v` for the mask 0 and `-v` for the mask -1. -/
def asgn (v s : Int) : Int := if s = 0 then v else -v

/-- `s ^ v` for a mask `s` that is 0 or -1: `0 ^ v = v`, `-1 ^ v = -v - 1`. -/
def xorMask (s v : Int) : Int := if s = 0 then v else -v - 1

/-- `floor(v / 2)`: the arithmetic shift right by one (`92_eei_decisions.md` D7). -/
def halve (v : Int) : Int := v / 2

/-- What a byte emission writes to `wff`: whether the byte is `0xFF`. -/
def byteIsFF (b : Byte) : Bool := b = 0xFF

/-- The code of an error kind (R370). -/
def errCode : ErrKind → Nat
  | .none => 0
  | .invalidCompressedData => 1
  | .tooMuchCompressedData => 2
  | .compressedBufferTooSmall => 3
  | .uncompressedBufferTooSmall => 4

/-- The code of a sequencer state (R34). -/
def fsmCode : Fsm → Nat
  | .idle => 0
  | .scanning => 1
  | .regularSample => 2
  | .runMode => 3
  | .endOfScan => 4

/-- SR0 as the host reads it: `err` [3:0], `busy` [4], `done` [5], `dir` [6], `fsm` [10:8], every other bit 0. -/
def sr0 (s : State) : Word :=
  BitVec.ofNat 32 (errCode s.err + 16 * s.busy.toNat + 32 * s.done.toNat + 64 * s.dir.toNat + 256 * fsmCode s.seq.fsm)

end Sys2Proof.Machine
end

