-- ==== Sys2Proof/Machine/Operands.lean ====
section
/-! DEFINITION. The operand ranges the rules give (`00_scope.md` R10: an operation whose operand lies outside is refused)
and the legal parameter block (R5, `10_state.md` R21, `48_scan_driver.md` R331). -/

namespace Sys2Proof.Machine

/-- A prediction difference: `-max_val <= e <= max_val` (R122). -/
def isDifference (t : Traits) (e : Int) : Bool := -(t.maxVal : Int) ≤ e && e ≤ t.maxVal

/-- An operand of range reduction: `-range < q < range` (R123). -/
def isReducible (t : Traits) (q : Int) : Bool := -(t.range : Int) < q && q < t.range

/-- A prediction plus a bias correction: `-128 <= p <= max_val + 127` (R126). -/
def isPrediction (t : Traits) (p : Int) : Bool := -128 ≤ p && p ≤ t.maxVal + 127

/-- The same inside a regular sample, where R273 subtracts `C`, at least -128 (R24): up to `max_val + 128` (log entry 12). -/
def isCorrected (t : Traits) (p : Int) : Bool := -128 ≤ p && p ≤ t.maxVal + 128

/-- A sample: `0 .. max_val`. -/
def isSample (t : Traits) (x : Int) : Bool := 0 ≤ x && x ≤ t.maxVal

/-- The preconditions of `TR.INIT` (R120). -/
def legalTraits (maxVal near reset : Nat) : Bool :=
  3 ≤ maxVal && maxVal ≤ 65535 && near ≤ (maxVal - 1) / 2 && 3 ≤ reset && reset ≤ 255

/-- The `max_val` in use: the preset, or `2^BPS - 1` when it is 0 (R332). -/
def resolvedMaxVal (p : Params) : Nat := if p.maxVal = 0 then 2 ^ p.bps - 1 else p.maxVal

/-- The reset threshold in use: the preset, or the default when it is 0 (R332). -/
def resolvedReset (p : Params) : Nat := if p.reset = 0 then Config.defaultReset else p.reset

/-- `CLAMP(x, lo, hi)`: `lo` for an `x` out of bounds on either side (`41_quantization.md` R141). -/
def clampTo (x lo hi : Nat) : Nat := if hi < x ∨ x < lo then lo else x

/-- `factor` of the default thresholds (R140). -/
def thresholdFactor (maxVal : Nat) : Nat := (min maxVal 4095 + 128) / 256

/-- The default `T1` (R140). -/
def defaultT1 (maxVal near : Nat) : Nat := clampTo (thresholdFactor maxVal * 1 + 2 + 3 * near) (near + 1) maxVal

/-- The default `T2` (R140). -/
def defaultT2 (maxVal near : Nat) : Nat :=
  clampTo (thresholdFactor maxVal * 4 + 3 + 5 * near) (defaultT1 maxVal near) maxVal

/-- The default `T3` (R140). -/
def defaultT3 (maxVal near : Nat) : Nat :=
  clampTo (thresholdFactor maxVal * 17 + 4 + 7 * near) (defaultT2 maxVal near) maxVal

/-- A preset threshold, or its default when it is 0 (R142). -/
def thresholdOr (preset dflt : Nat) : Nat := if preset = 0 then dflt else preset

/-- `T1` in use (R142). -/
def resolvedT1 (p : Params) : Nat := thresholdOr p.t1 (defaultT1 (resolvedMaxVal p) p.near)

/-- `T2` in use (R142). -/
def resolvedT2 (p : Params) : Nat := thresholdOr p.t2 (defaultT2 (resolvedMaxVal p) p.near)

/-- `T3` in use (R142). -/
def resolvedT3 (p : Params) : Nat := thresholdOr p.t3 (defaultT3 (resolvedMaxVal p) p.near)

/-- A preset threshold that is 0 or within `near + 1 .. max_val` (R331). -/
def legalPreset (p : Params) (t : Nat) : Bool := t = 0 || (p.near + 1 ≤ t && t ≤ resolvedMaxVal p)

/-- `WIDTH`, `HEIGHT` and `NCOMP` are within the OPEN bounds, whose values R21 sizes their registers for (R5). -/
def legalSize (b : Build) (p : Params) : Bool := p.width ≤ b.maxDim && p.height ≤ b.maxDim && p.ncomp ≤ b.maxComp

/-- The image, component and interleave parameters are legal (R5). -/
def legalImage (b : Build) (p : Params) : Bool :=
  1 ≤ p.width && 1 ≤ p.height && 2 ≤ p.bps && p.bps ≤ 16 && 1 ≤ p.ncomp && legalSize b p &&
    (p.ilv ≠ .sample || p.ncomp = 3)

/-- The coding parameters are legal on their resolved values (R5, R331). -/
def legalCoding (p : Params) : Bool :=
  3 ≤ resolvedMaxVal p && resolvedMaxVal p ≤ 2 ^ p.bps - 1 && p.near ≤ (resolvedMaxVal p - 1) / 2 &&
    !(resolvedMaxVal p = 4 && p.near = 0) && (p.reset = 0 || (3 ≤ p.reset && p.reset ≤ 255)) &&
    legalPreset p p.t1 && legalPreset p p.t2 && legalPreset p p.t3 && p.near + 1 ≤ resolvedT1 p &&
    resolvedT1 p ≤ resolvedT2 p && resolvedT2 p ≤ resolvedT3 p && resolvedT3 p ≤ resolvedMaxVal p

/-- The rectangle is inside the image (R21). -/
def legalRect (p : Params) : Bool :=
  p.rectX + p.rectW ≤ p.width && p.rectY + p.rectH ≤ p.height && 1 ≤ p.rectW && 1 ≤ p.rectH

/-- A legal parameter block of a block with the OPEN parameters `b` (R331). -/
def legalParams (b : Build) (p : Params) : Bool := legalImage b p && legalCoding p && legalRect p

/-- The interleave mode of the operand `ilv`; 3 and more are reserved (R21). -/
def ilvOf : Nat → Option Ilv
  | 0 => some .none
  | 1 => some .line
  | 2 => some .sample
  | _ => none

end Sys2Proof.Machine
end

