-- ==== Sys2Proof/Machine/Traits.lean ====
section
/-! DEFINITION. Unit TR, the traits arithmetic (`40_traits.md` R120 to R130). Only the general path is modelled (R129). -/

namespace Sys2Proof.Machine

/-- The search for `clog2`, from `x` up. -/
def clog2From (n : Nat) : Nat → Nat → Nat
  | 0, x => x
  | fuel + 1, x => if n ≤ 2 ^ x then x else clog2From n fuel (x + 1)

/-- `clog2(n)`: the least `x` with `2^x >= n` (R121). -/
def clog2 (n : Nat) : Nat := clog2From n n 0

/-- `range` (R120). -/
def rangeOf (maxVal near : Nat) : Nat := (maxVal + 2 * near) / (2 * near + 1) + 1

/-- TR0..TR6 as `TR.INIT` writes them (R120). -/
def initTraits (t : Traits) (maxVal near reset : Nat) : Traits :=
  { t with
    maxVal := maxVal
    near := near
    reset := reset
    range := rangeOf maxVal near
    qbpp := clog2 (rangeOf maxVal near)
    bpp := clog2 maxVal
    limit := 2 * (clog2 maxVal + max 8 (clog2 maxVal)) }

/-- `TR.QERR` (R122). -/
def qerr (near : Nat) (e : Int) : Int :=
  if 0 < e then (near + e) / (2 * near + 1) else -((near - e) / (2 * near + 1))

/-- `TR.MODR` (R123). -/
def modr (range : Nat) (q : Int) : Int :=
  let q := if q < 0 then q + range else q
  if ((range : Int) + 1) / 2 ≤ q then q - range else q

/-- `TR.ERRVAL` (R124). -/
def errval (t : Traits) (e : Int) : Int := modr t.range (qerr t.near e)

/-- `deq(err)`: dequantization (R125). -/
def deq (near : Nat) (err : Int) : Int := err * (2 * near + 1)

/-- `TR.CORRP`: the clamp into `0..max_val` (R126, `90_conflicts.md` C1). -/
def corrp (maxVal : Nat) (p : Int) : Int := if p < 0 then 0 else if (maxVal : Int) < p then maxVal else p

/-- The one wrap of reconstruction, before the clamp (R127). -/
def wrapSample (t : Traits) (v : Int) : Int :=
  if v < -(t.near : Int) then v + t.range * (2 * t.near + 1)
  else if (t.maxVal : Int) + t.near < v then v - t.range * (2 * t.near + 1)
  else v

/-- `TR.RECON` (R127). -/
def recon (t : Traits) (px err : Int) : Int := corrp t.maxVal (wrapSample t (px + deq t.near err))

/-- `TR.ISNEAR` (R128). -/
def isNear (near : Nat) (a b : Int) : Bool := (a - b).natAbs ≤ near

/-! ## Inside an operation: each with the operand range its rule gives (R10, R103) -/

/-- `TR.ERRVAL`, which is `TR.QERR` and then `TR.MODR` (R103, R124). -/
def reduceError (e : Int) (s : State) : Res Int := do
  require (isDifference s.tr e) .operandRange
  require (isReducible s.tr (qerr s.tr.near e)) .operandRange
  .ok (errval s.tr e)

/-- `TR.RECON` (R127): total in `err`, so its clamp takes any integer. -/
def reconstruct (px err : Int) (s : State) : Res Int := do
  require (isSample s.tr px) .operandRange
  .ok (recon s.tr px err)

/-! ## The meanings -/

/-- `TR.INIT max_val, near, reset` (R120). -/
def execTrInit (maxVal near reset : Nat) (s : State) : Host.Outcome State Fault Refusal :=
  finish (do
    require (legalTraits maxVal near reset) .illegalParameters
    .ok (setTraits s (initTraits s.tr maxVal near reset)))

/-- `TR.QERR e -> q` (R122). -/
def execTrQerr (e : Int) (s : State) : Host.Outcome State Fault Refusal :=
  finish (do
    require (isDifference s.tr e) .operandRange
    .ok (setResult s [qerr s.tr.near e]))

/-- `TR.MODR q -> e'` (R123). -/
def execTrModr (q : Int) (s : State) : Host.Outcome State Fault Refusal :=
  finish (do
    require (isReducible s.tr q) .operandRange
    .ok (setResult s [modr s.tr.range q]))

/-- `TR.ERRVAL e -> ERR` (R124). -/
def execTrErrval (e : Int) (s : State) : Host.Outcome State Fault Refusal :=
  finish (do
    let err ← reduceError e s
    .ok (setWork s { s.w with err := err }))

/-- `TR.CORRP p -> PX` (R126), in the operand range the rule gives. -/
def execTrCorrp (p : Int) (s : State) : Host.Outcome State Fault Refusal :=
  finish (do
    require (isPrediction s.tr p) .operandRange
    .ok (setWork s { s.w with px := corrp s.tr.maxVal p }))

/-- `TR.RECON PX, err -> RX` (R127). -/
def execTrRecon (px err : Int) (s : State) : Host.Outcome State Fault Refusal :=
  finish (do
    let rx ← reconstruct px err s
    .ok (setWork s { s.w with rx := rx }))

/-- `TR.ISNEAR a, b -> bool` (R128), on any integers: the rule says "two samples" and gives no range (DESIGN CHOICE, log
entry 12). -/
def execTrIsnear (a b : Int) (s : State) : Host.Outcome State Fault Refusal :=
  finish (.ok (setResult s [if isNear s.tr.near a b then 1 else 0]))

end Sys2Proof.Machine
end

