-- ==== Sys2Proof/Machine/Quantization.lean ====
section
/-! DEFINITION. Unit QT, gradient quantization and the context id (`41_quantization.md` R140 to R148). -/

namespace Sys2Proof.Machine

/-- The bin function, its tests in the order of R143. -/
def binOf (near t1 t2 t3 : Nat) (d : Int) : Int :=
  if d ≤ -(t3 : Int) then -4
  else if d ≤ -(t2 : Int) then -3
  else if d ≤ -(t1 : Int) then -2
  else if d < -(near : Int) then -1
  else if d ≤ near then 0
  else if d < t1 then 1
  else if d < t2 then 2
  else if d < t3 then 3
  else 4

/-- The bin of a gradient with the thresholds in use; the bin function is normative (R145). -/
def quantize (t : Traits) (d : Int) : Int := binOf t.near t.t1 t.t2 t.t3 d

/-- `qt[d]`: the table as `QT.BUILD` filled it, defined on `-2^bpp .. 2^bpp - 1` (R144). -/
def qtRead (q : QTable) (d : Int) : Option Int :=
  if -(2 ^ q.bpp : Int) ≤ d ∧ d < 2 ^ q.bpp then some (binOf q.near q.t1 q.t2 q.t3 d) else none

/-- The signed context id (R146). -/
def ctxid (q1 q2 q3 : Int) : Int := (q1 * 9 + q2) * 9 + q3

/-- `QT.DEFT max_val, near -> T1d, T2d, T3d` (R140), on any operands: the rule says "the traits values" and gives no outcome
for others (DESIGN CHOICE, log entry 12). -/
def execQtDeft (maxVal near : Nat) (s : State) : Host.Outcome State Fault Refusal :=
  finish (.ok (setResult s [defaultT1 maxVal near, defaultT2 maxVal near, defaultT3 maxVal near]))

/-- `QT.BUILD bpp, near, T1, T2, T3 -> qt` (R144), on any operands: the rule gives none a range, nor an outcome past the
131072 entries it speaks of (DESIGN CHOICE, log entry 12). -/
def execQtBuild (bpp near t1 t2 t3 : Nat) (s : State) : Host.Outcome State Fault Refusal :=
  finish (.ok { s with qt := { bpp := bpp, near := near, t1 := t1, t2 := t2, t3 := t3 } })

/-- `QT.QUANT d -> Q` (R143, R145), on a gradient of two samples. -/
def execQtQuant (d : Int) (s : State) : Host.Outcome State Fault Refusal :=
  finish (do
    require (isDifference s.tr d) .operandRange
    .ok (setResult s [quantize s.tr d]))

/-- `QT.CTXID Q1, Q2, Q3 -> QS` (R146). -/
def execQtCtxid (q1 q2 q3 : Int) (s : State) : Host.Outcome State Fault Refusal :=
  finish (do
    require (isBin q1 && isBin q2 && isBin q3) .operandRange
    .ok (setWork s { s.w with qs := ctxid q1 q2 q3 }))

end Sys2Proof.Machine
end

