-- ==== Sys2Proof/Machine/RegularContext.lean ====
section
/-! DEFINITION. Unit RC, the regular-mode adaptive context (`42_regular_context.md` R160 to R165). -/

namespace Sys2Proof.Machine

/-- `A0`, the initial `A` of both context files (R160, R180). -/
def initialA (range : Nat) : Nat := max 2 ((range + 32) / 64)

/-- The regular context file as `RC.INIT` leaves it (R160). -/
def initCtx (range : Nat) : Vector RegCtx 365 := Vector.replicate 365 { a := initialA range, b := 0, c := 0, n := 1 }

/-- The doubling search: the least `k` from `k` up with `n << k >= target`; `none` when the fuel runs out. -/
def kSearch (n target : Nat) : Nat → Nat → Option Nat
  | 0, _ => none
  | fuel + 1, k => if target ≤ n * 2 ^ k then some k else kSearch n target fuel (k + 1)

/-- The Golomb parameter, below 32 (R161, R181); `none` where the search reaches 32 (R375). -/
def golombK (n target : Nat) : Option Nat := kSearch n target 32 0

/-- `RC.GETK` inside an operation: `K` in its register, or the error of R375. -/
def getK (q : Nat) (s : State) : Res State :=
  match golombK (ctxAt s q).n (ctxAt s q).a with
  | some k => .ok (setK s k)
  | none => raise .invalidCompressedData s

/-- `RC.CORR` (R162): -1 or 0. -/
def errorCorrection (r : RegCtx) (k : Nat) : Int := if k ≠ 0 then 0 else neg1 (2 * r.b + r.n - 1)

/-- The accumulation and halving of `RC.UPD`, before the rebias, with the incremented `N` (R163). -/
def accumulate (near reset : Nat) (r : RegCtx) (err : Int) : RegCtx :=
  if r.n = reset then
    { r with a := (r.a + err.natAbs) / 2, b := halve (r.b + deq near err), n := r.n / 2 + 1 }
  else { r with a := r.a + err.natAbs, b := r.b + deq near err, n := r.n + 1 }

/-- The rebias of `RC.UPD` (R163). -/
def rebias (r : RegCtx) : RegCtx :=
  if r.b + r.n ≤ 0 then
    { r with b := if r.b + r.n ≤ -(r.n : Int) then -(r.n : Int) + 1 else r.b + r.n, c := max (-128) (r.c - 1) }
  else if 0 < r.b then
    { r with b := if 0 < r.b - r.n then 0 else r.b - r.n, c := min 127 (r.c + 1) }
  else r

/-- `RC.UPD` on one entry (R163). -/
def updateRegular (t : Traits) (r : RegCtx) (err : Int) : RegCtx := rebias (accumulate t.near t.reset r err)

/-- `RC.UPD` inside an operation. -/
def updCtx (q : Nat) (err : Int) (s : State) : State := setCtx s q (updateRegular s.tr (ctxAt s q) err)

/-- `RC.INIT range -> ctx[0..364]` (R160). -/
def execRcInit (range : Nat) (s : State) : Host.Outcome State Fault Refusal :=
  finish (.ok { s with ctx := initCtx range })

/-- `RC.GETK q -> K` (R161). -/
def execRcGetk (q : Nat) (s : State) : Host.Outcome State Fault Refusal :=
  finish (do
    require (isContext q) .operandRange
    getK q s)

/-- `RC.CORR q, k -> corr` (R162). -/
def execRcCorr (q k : Nat) (s : State) : Host.Outcome State Fault Refusal :=
  finish (do
    require (isContext q) .operandRange
    .ok (setResult s [errorCorrection (ctxAt s q) k]))

/-- `RC.UPD q, err -> ctx[q]` (R163). -/
def execRcUpd (q : Nat) (err : Int) (s : State) : Host.Outcome State Fault Refusal :=
  finish (do
    require (isContext q) .operandRange
    .ok (updCtx q err s))

end Sys2Proof.Machine
end

