-- ==== Sys2Proof/Machine/RunContext.lean ====
section
/-! DEFINITION. Unit RM, the run-interruption context (`43_run_context.md` R180 to R185). -/

namespace Sys2Proof.Machine

/-- The run context file as `RM.INIT` leaves it (R180). -/
def initRctx (range : Nat) : Vector RunCtx 2 := Vector.replicate 2 { a := initialA range, n := 1, nn := 0 }

/-- The value the doubling search of `RM.GETK` compares with (R181). -/
def runTemp (t : Nat) (r : RunCtx) : Nat := r.a + (r.n / 2) * t

/-- `RM.GETK` inside an operation: `K` in its register, or the error of R375. -/
def getRunK (t : Nat) (s : State) : Res State :=
  match golombK (rctxAt s t).n (runTemp t (rctxAt s t)) with
  | some k => .ok (setK s k)
  | none => raise .invalidCompressedData s

/-- `RM.MAP`: the map predicate (R182). -/
def mapBit (r : RunCtx) (err : Int) (k : Nat) : Bool :=
  (k = 0 ∧ 0 < err ∧ 2 * r.nn < r.n) ∨ (err < 0 ∧ r.n ≤ 2 * r.nn) ∨ (err < 0 ∧ k ≠ 0)

/-- `RM.ERRVAL`: the signed error of a mapped value plus the type (R183). -/
def runErrval (r : RunCtx) (temp k : Nat) : Int :=
  let m := temp % 2
  let errabs : Int := ((temp + m) / 2 : Nat)
  if (decide (k ≠ 0 ∨ r.n ≤ 2 * r.nn)) = decide (m = 1) then -errabs else errabs

/-- `RM.UPD` on entry `t` (R184). -/
def updateRun (t reset : Nat) (r : RunCtx) (err : Int) (em : Nat) : RunCtx :=
  let nn := if err < 0 then r.nn + 1 else r.nn
  let a := r.a + (em + 1 - t) / 2
  if r.n = reset then { a := a / 2, n := r.n / 2 + 1, nn := nn / 2 } else { a := a, n := r.n + 1, nn := nn }

/-- `RM.UPD` inside an operation. -/
def updRctx (t : Nat) (err : Int) (em : Nat) (s : State) : State :=
  setRctx s t (updateRun t s.tr.reset (rctxAt s t) err em)

/-- `RM.INIT range -> rctx[0..1]` (R180). -/
def execRmInit (range : Nat) (s : State) : Host.Outcome State Fault Refusal :=
  finish (.ok { s with rctx := initRctx range })

/-- `RM.GETK t -> K` (R181). -/
def execRmGetk (t : Nat) (s : State) : Host.Outcome State Fault Refusal :=
  finish (do
    require (isRunContext t) .operandRange
    getRunK t s)

/-- `RM.MAP t, err, k -> map` (R182). -/
def execRmMap (t : Nat) (err : Int) (k : Nat) (s : State) : Host.Outcome State Fault Refusal :=
  finish (do
    require (isRunContext t) .operandRange
    .ok (setResult s [if mapBit (rctxAt s t) err k then 1 else 0]))

/-- `RM.ERRVAL t, temp, k -> err` (R183). -/
def execRmErrval (t temp k : Nat) (s : State) : Host.Outcome State Fault Refusal :=
  finish (do
    require (isRunContext t) .operandRange
    .ok (setResult s [runErrval (rctxAt s t) temp k]))

/-- `RM.UPD t, err, EM -> rctx[t]` (R184). -/
def execRmUpd (t : Nat) (err : Int) (em : Nat) (s : State) : Host.Outcome State Fault Refusal :=
  finish (do
    require (isRunContext t) .operandRange
    .ok (updRctx t err em s))

end Sys2Proof.Machine
end

