-- ==== Sys2Proof/Machine/BitReader.lean ====
section
/-! DEFINITION. Units BR and GT, the bit reader and the Golomb short-code tables (`44_bit_reader.md` R200 to R214). The
destuffed bit sequence of R201 decides every result and every error; the cache machine of R202 runs beside it (log entry
14). -/

namespace Sys2Proof.Machine

/-! ## What the reader delivers (R201) -/

/-- Whether position `j` of an array of `len` bytes is a marker boundary: `0xFF` before a byte from `0x80` up, or last. -/
def isMarker (m : Memory) (len j : Nat) : Bool :=
  memRead m j = 0xFF && (j + 1 = len || 0x80 ≤ (memRead m (j + 1)).toNat)

/-- The least marker boundary among the `n` positions from `j`. -/
def markerFrom (m : Memory) (len : Nat) : Nat → Nat → Option Nat
  | 0, _ => none
  | n + 1, j => if isMarker m len j then some j else markerFrom m len n (j + 1)

/-- `mpos`: the marker position, if there is one. -/
def markerPos (m : Memory) (p0 len : Nat) : Option Nat := markerFrom m len (len - p0) p0

/-- `dend`: where the scan data ends. -/
def dataEnd (m : Memory) (p0 len : Nat) : Nat := (markerPos m p0 len).getD len

/-- The stream bits of the byte at `j`: seven after a `0xFF` of the scan data, else eight. -/
def byteBits (m : Memory) (p0 j : Nat) : List Bool :=
  bitsOf (memRead m j).toNat (if p0 < j ∧ memRead m (j - 1) = 0xFF then 7 else 8)

/-- The stream bits of the `n` bytes from `j`. -/
def bitsFrom (m : Memory) (p0 : Nat) : Nat → Nat → List Bool
  | 0, _ => []
  | n + 1, j => byteBits m p0 j ++ bitsFrom m p0 n (j + 1)

/-- `dbits`: the destuffed bit sequence. -/
def dbits (m : Memory) (p0 len : Nat) : List Bool := bitsFrom m p0 (dataEnd m p0 len - p0) p0

/-- The bits not consumed yet: `dbits[rp ..)`. -/
def remaining (s : State) : List Bool := (dbits s.bs s.rd.rstart s.rd.rend).drop s.rd.rp

/-- `avail`: how many bits are left. -/
def avail (s : State) : Nat := (remaining s).length

/-! ## The cache machine (R200, R202) -/

/-- The least position of a `0xFF` among the `n` positions from `j`, or the position after them. -/
def nextFF (m : Memory) : Nat → Nat → Nat
  | 0, j => j
  | n + 1, j => if memRead m j = 0xFF then j else nextFF m n (j + 1)

/-- The reader as `BR.INIT` places it (R200). -/
def initReader (m : Memory) (p0 len : Nat) : Reader :=
  { rp := 0, rstart := p0, rend := len, rcache := 0, rvalid := 0, rpos := p0, rnextff := nextFF m (len - p0) p0 }

/-- Whether the byte at `rpos` ends the loading: there is none, or it is a marker boundary. -/
def loadEnds (m : Memory) (r : Reader) : Bool := r.rend ≤ r.rpos || isMarker m r.rend r.rpos

/-- One byte into the cache; after a `0xFF` one bit fewer counts, so that the stuffed bit falls on the last one. -/
def loadByte (m : Memory) (r : Reader) : Reader :=
  let v := memRead m r.rpos
  { r with
    rcache := r.rcache ||| (BitVec.ofNat Config.cacheBits v.toNat <<< (Config.cacheBits - 8 - r.rvalid))
    rpos := r.rpos + 1
    rvalid := r.rvalid + (if v = 0xFF then 7 else 8) }

/-- The loading loop, once around for each unit of fuel; the search for the next `0xFF` after a full load. -/
def fillLoop (m : Memory) : Nat → Reader → Reader
  | 0, r => r
  | n + 1, r =>
    if loadEnds m r then r
    else
      let r := loadByte m r
      if Config.cacheBits - 8 ≤ r.rvalid then { r with rnextff := nextFF m (r.rend - r.rpos) r.rpos }
      else fillLoop m n r

/-- `BR.FILL` on the reader; `none` where no bit is valid and none can be loaded (R202). -/
def cacheFill (m : Memory) (r : Reader) : Option Reader :=
  if loadEnds m r && r.rvalid = 0 then none else some (fillLoop m Config.cacheBits r)

/-- Filling the cache when it holds fewer than `n` bits. -/
def fillBelow (m : Memory) (n : Nat) (r : Reader) : Reader := if r.rvalid < n then (cacheFill m r).getD r else r

/-- Consuming `n` bits: `rp` on the abstract state, the shift of the cache on the realisation (R207). -/
def consume (m : Memory) (n : Nat) (r : Reader) : Reader :=
  let r := fillBelow m n r
  { r with rp := r.rp + n, rcache := r.rcache <<< n, rvalid := r.rvalid - n }

/-! ## Read operations (R204 to R209) -/

/-- `BR.RDV n -> v` (R204). -/
def readValue (n : Nat) (s : State) : Res (Nat × State) :=
  if n = 0 then .ok (0, s)
  else if 31 < n then refuse .operandRange
  else if avail s < n then raise .invalidCompressedData s
  else .ok (bitsVal ((remaining s).take n), setReader s (consume s.bs n s.rd))

/-- `BR.RDB -> bit` (R206). -/
def readBit (s : State) : Res (Bool × State) :=
  match remaining s with
  | [] => raise .invalidCompressedData s
  | b :: _ => .ok (b, setReader s (consume s.bs 1 s.rd))

/-- `BR.PEEK -> b`: eight bits, 0 past the end, none consumed (R205). -/
def peekByte (s : State) : Res (Nat × State) :=
  if avail s < 1 then raise .invalidCompressedData s
  else .ok (bitsVal (((remaining s) ++ List.replicate 8 false).take 8), setReader s (fillBelow s.bs 8 s.rd))

/-- `BR.SKIP n` (R207). -/
def skipBits (n : Nat) (s : State) : Res State :=
  if 31 < n then refuse .operandRange
  else if avail s < n then raise .invalidCompressedData s
  else .ok (setReader s (consume s.bs n s.rd))

/-- The unary count, once around for each unit of fuel, with `h` zeros counted so far. -/
def highLoop : Nat → Nat → State → Res (Nat × State)
  | 0, _, s => raise .invalidCompressedData s
  | fuel + 1, h, s => do
    let (b, s) ← readBit s
    if b then .ok (h, s) else highLoop fuel (h + 1) s

/-- `BR.HIGH -> h` (R208); the fuel is one more than the bits left, which bound the count. -/
def readHigh (s : State) : Res (Nat × State) := highLoop (avail s + 1) 0 s

/-- `BR.DECV k, glimit, qbpp -> m` (R209). -/
def decodeValue (k : Nat) (glimit : Int) (qbpp : Nat) (s : State) : Res (Nat × State) := do
  let (h, s) ← readHigh s
  if glimit - (qbpp + 1) ≤ h then
    let (v, s) ← readValue qbpp s
    .ok (v + 1, s)
  else if k = 0 then .ok (h, s)
  else
    let (r, s) ← readValue k s
    .ok (h * 2 ^ k + r, s)

/-! ## The error mapping, which the short-code tables hold too (`46_sample_pipeline.md` R274, R275) -/

/-- `SP.MAPE`: a signed error to the non-negative value the coder takes (R274). -/
def mapError (e : Int) : Nat := if 0 ≤ e then (2 * e).toNat else (-2 * e - 1).toNat

/-- `SP.UNMAPE`: the inverse (R275). -/
def unmapError (m : Nat) : Int := if m % 2 = 0 then ((m / 2 : Nat) : Int) else -(((m + 1) / 2 : Nat) : Int)

/-! ## The Golomb short-code tables (R211, R212) -/

/-- `gt[k][b]` in the closed form of R211: the error value and the length, `(0, 0)` where no short code fits. -/
def gtEntry (k b : Nat) : Int × Nat :=
  match unaryPrefix (bitsOf b 8) with
  | none => (0, 0)
  | some (h, rest) =>
    if h + 1 + k ≤ 8 then (unmapError (h * 2 ^ k + bitsVal (rest.take k)), h + 1 + k) else (0, 0)

/-- `GT.LOOK k -> (hit, e)`: the error value on a hit (R212). -/
def shortCode (k : Nat) (s : State) : Res (Option Int × State) :=
  if 15 < k then .ok (none, s)
  else do
    let (b, s) ← peekByte s
    let entry := gtEntry k b
    if entry.2 = 0 ∨ avail s < entry.2 then .ok (none, s)
    else
      let s ← skipBits entry.2 s
      .ok (some entry.1, s)

/-! ## End of scan (R210, R214) -/

/-- Whether `n` zero bits left are more than `EOS_MAX_RESIDUAL_BITS` allows (R210). -/
def tooManyResidual (b : Build) (n : Nat) : Bool :=
  match b.eosMax with
  | none => false
  | some limit => limit < n

/-- `BR.END` (R210): on success the BYTE position becomes the marker's (R214). -/
def endRead (s : State) : Res State :=
  match markerPos s.bs s.rd.rstart s.rd.rend with
  | none => raise .invalidCompressedData s
  | some p =>
    if (remaining s).any id || tooManyResidual s.build (avail s) then raise .tooMuchCompressedData s
    else .ok { s with bytePos := p }

/-! ## The meanings -/

/-- `BR.INIT BS, p0, len` (R200). The BYTE position stays as the last `BR.END` left it (DESIGN CHOICE, log entry 28). -/
def execBrInit (p0 len : Nat) (s : State) : Host.Outcome State Fault Refusal :=
  finish (do
    require (p0 ≤ len) .operandRange
    .ok (setReader s (initReader s.bs p0 len)))

/-- `BR.FILL` (R202). -/
def execBrFill (s : State) : Host.Outcome State Fault Refusal :=
  finish (do
    require (s.rd.rvalid ≤ Config.cacheBits - 8) .cacheFull
    match cacheFill s.bs s.rd with
    | some r => .ok (setReader s r)
    | none => raise .invalidCompressedData s)

/-- `BR.RDV n -> v` (R204). -/
def execBrRdv (n : Nat) (s : State) : Host.Outcome State Fault Refusal :=
  finish (do
    let (v, s) ← readValue n s
    .ok (setResult s [v]))

/-- `BR.PEEK -> b` (R205). -/
def execBrPeek (s : State) : Host.Outcome State Fault Refusal :=
  finish (do
    let (b, s) ← peekByte s
    .ok (setResult s [b]))

/-- `BR.RDB -> bit` (R206). -/
def execBrRdb (s : State) : Host.Outcome State Fault Refusal :=
  finish (do
    let (b, s) ← readBit s
    .ok (setResult s [b.toNat]))

/-- `BR.SKIP n` (R207). -/
def execBrSkip (n : Nat) (s : State) : Host.Outcome State Fault Refusal := finish (skipBits n s)

/-- `BR.HIGH -> h` (R208). -/
def execBrHigh (s : State) : Host.Outcome State Fault Refusal :=
  finish (do
    let (h, s) ← readHigh s
    .ok (setResult s [h]))

/-- `BR.DECV k, glimit, qbpp -> m`, in the register `MERR` (R209). -/
def execBrDecv (k glimit qbpp : Nat) (s : State) : Host.Outcome State Fault Refusal :=
  finish (do
    require (isCount k) .operandRange
    let (m, s) ← decodeValue k glimit qbpp s
    .ok (setWork s { s.w with merr := m }))

/-- `BR.END` (R210). -/
def execBrEnd (s : State) : Host.Outcome State Fault Refusal := finish (endRead s)

/-- `GT.BUILD -> gt` (R211): the tables are a ROM that already holds what it writes (R37, R406; log entry 17). -/
def execGtBuild (s : State) : Host.Outcome State Fault Refusal := finish (.ok s)

/-- `GT.LOOK k -> (hit, e)` (R212); a miss gives the results 0, 0. -/
def execGtLook (k : Nat) (s : State) : Host.Outcome State Fault Refusal :=
  finish (do
    let (e, s) ← shortCode k s
    match e with
    | some e => .ok (setResult s [1, e])
    | none => .ok (setResult s [0, 0]))

end Sys2Proof.Machine
end

