-- ==== Sys2Proof/Machine/BitWriter.lean ====
section
/-! DEFINITION. Unit BW, the bit writer (`45_bit_writer.md` R240 to R247). The stuffed byte sequence of R241 decides what
reaches the sink and when it overflows; the 32-bit buffer of R242, R243 runs beside it (log entry 13). -/

namespace Sys2Proof.Machine

/-! ## The stuffed byte sequence (R241, R246) -/

/-- `emit(byte)`: `MemWrite`, the position, the count and `wff`, or the overflow of R246. -/
def emitByte (b : Byte) (s : State) : Res State :=
  if s.wr.wcap ≤ s.wr.wpos then raise .compressedBufferTooSmall s
  else .ok (setWriter (setBytes s (memWrite s.bs s.wr.wpos b))
    { s.wr with wacc := [], wff := byteIsFF b, wpos := s.wr.wpos + 1, written := s.wr.written + 1 })

/-- How many stream bits the next byte carries: seven after a `0xFF`. -/
def byteRoom (w : Writer) : Nat := if w.wff then 7 else 8

/-- One appended bit, and the byte it completes (R241). -/
def appendBit (x : Bool) (s : State) : Res State :=
  let acc := s.wr.wacc ++ [x]
  if acc.length = byteRoom s.wr then emitByte (BitVec.ofNat 8 (bitsVal acc)) s
  else .ok (setWriter s { s.wr with wacc := acc })

/-- Appended bits, in order. -/
def appendBits : List Bool → State → Res State
  | [], s => .ok s
  | x :: xs, s => do
    let s ← appendBit x s
    appendBits xs s

/-! ## The 32-bit buffer (R242, R243) -/

/-- One byte leaves the buffer: the top seven bits after a `0xFF`, else the top eight. -/
def drainByte (w : Writer) : Writer :=
  if w.drainff then
    { w with wbuf := w.wbuf <<< 7, wfree := w.wfree + 7, drainff := byteIsFF (BitVec.ofNat 8 (w.wbuf.toNat / 2 ^ 25)),
             drainpos := w.drainpos + 1 }
  else
    { w with wbuf := w.wbuf <<< 8, wfree := w.wfree + 8, drainff := byteIsFF (BitVec.ofNat 8 (w.wbuf.toNat / 2 ^ 24)),
             drainpos := w.drainpos + 1 }

/-- Up to `n` bytes leave, while any bit is pending. -/
def drainLoop : Nat → Writer → Writer
  | 0, w => w
  | n + 1, w => if 32 ≤ w.wfree then w else drainLoop n (drainByte w)

/-- The flush of the buffer: up to four bytes (R243). -/
def drain (w : Writer) : Writer := drainLoop 4 w

/-- The bits of a value that fit when `-free` of them do not. -/
def shiftIn (w : Writer) (value : Nat) (free : Int) : Word :=
  if 0 ≤ free then w.wbuf ||| (BitVec.ofNat 32 value <<< free.toNat) else w.wbuf ||| BitVec.ofNat 32 (value / 2 ^ (-free).toNat)

/-- A bit group into the buffer, flushing it when it is full, and once more when stuffing made too little room (R242). -/
def bufferGroup (value count : Nat) (w : Writer) : Writer :=
  let free := w.wfree - count
  if 0 ≤ free then { w with wbuf := shiftIn w value free, wfree := free }
  else
    let w := drain { w with wbuf := shiftIn w value free, wfree := free }
    let w := if w.wfree < 0 then drain { w with wbuf := shiftIn w value w.wfree } else w
    { w with wbuf := shiftIn w value w.wfree }

/-! ## The operations -/

/-- The writer as `BW.INIT` sets it (R240). -/
def initWriter (p0 cap : Nat) : Writer :=
  { wacc := [], wff := false, wpos := p0, wcap := cap, wstart := p0, written := 0, wbuf := 0, wfree := 32,
    drainff := false, drainpos := p0 }

/-- `BW.APP value, count` (R242). -/
def appendGroup (value count : Nat) (s : State) : Res State :=
  if 31 < count then refuse .operandRange
  else if 2 ^ count ≤ value then refuse .valueTooWide
  else do
    let s ← appendBits (bitsOf value count) s
    .ok (setWriter s (bufferGroup value count s.wr))

/-- Bit groups `(value, count)`, in order. -/
def appendGroups : List (Nat × Nat) → State → Res State
  | [], s => .ok s
  | g :: gs, s => do
    let s ← appendGroup g.1 g.2 s
    appendGroups gs s

/-- The groups of `CW.GOLOMB` with `h` zeros and the remainder `r` of `k` bits, a long prefix in two (R97, R244). From `h = 61`
on the second has more than 31 bits, which `BW.APP` refuses (DESIGN CHOICE for a codeword executed alone, log entry 15). -/
def golombGroups (h r k : Nat) : List (Nat × Nat) :=
  (if 31 < h + 1 then [(0, h / 2), (1, h - h / 2 + 1)] else [(1, h + 1)]) ++ [(r, k)]

/-- The groups of `CW.ESCAPE` with a prefix of `n` bits and the value `v` of `qbpp` bits, a long prefix in two (R244). From
`n = 63` on the second has more than 31 bits, which `BW.APP` refuses (DESIGN CHOICE for a codeword executed alone, log entry
15). -/
def escapeGroups (n v qbpp : Nat) : List (Nat × Nat) :=
  (if 31 < n then [(0, 31), (1, n - 31)] else [(1, n)]) ++ [(v, qbpp)]

/-- `BW.ENCV k, m, glimit`, with `qbpp` from TR4 (R244). -/
def encodeValue (k m : Nat) (glimit : Int) (s : State) : Res State :=
  let qbpp := s.tr.qbpp
  let h := m / 2 ^ k
  if glimit - qbpp - 1 < 1 then refuse .escapeRange
  else if (h : Int) < glimit - qbpp - 1 then appendGroups (golombGroups h (m % 2 ^ k) k) s
  else if 1 ≤ m ∧ m ≤ 2 ^ qbpp then
    appendGroups (escapeGroups (glimit - qbpp).toNat ((m - 1) % 2 ^ qbpp) qbpp) s
  else refuse .escapeRange

/-- How many pad bits complete the pending byte; none where no bit is pending (R99, R245). -/
def padLength (w : Writer) : Nat := if w.wacc = [] then 0 else byteRoom w - w.wacc.length

/-- The buffer at the end: flushed, filled to a byte, flushed (R245). -/
def bufferEnd (w : Writer) : Writer :=
  let w := drain w
  let free := if w.drainff then w.wfree - 1 else w.wfree
  drain (bufferGroup 0 (free % 8).toNat w)

/-- The `0x00` after a final `0xFF` (R245). -/
def closeStuffing (s : State) : Res State := if s.wr.wff then emitByte 0 s else .ok s

/-- The count of the bytes written, in `SR1`, and the buffer emptied (R245). -/
def closeWriter (s : State) : State :=
  { setWriter s (bufferEnd s.wr) with sr1 := BitVec.ofNat 32 s.wr.written }

/-- `BW.END` (R245). -/
def endWrite (s : State) : Res State := do
  let s ← appendBits (List.replicate (padLength s.wr) false) s
  let s ← closeStuffing s
  .ok (closeWriter s)

/-- The flush of `BW.FLUSH` with the overflow of R246: a byte that would leave at a position past the sink. -/
def flushLoop : Nat → State → Res State
  | 0, s => .ok s
  | n + 1, s =>
    if 32 ≤ s.wr.wfree then .ok s
    else if s.wr.wcap ≤ s.wr.drainpos then raise .compressedBufferTooSmall s
    else flushLoop n (setWriter s (drainByte s.wr))

/-! ## The meanings -/

/-- `BW.INIT BS, p0, cap` (R240). -/
def execBwInit (p0 cap : Nat) (s : State) : Host.Outcome State Fault Refusal :=
  finish (do
    require (p0 ≤ cap) .operandRange
    .ok (setWriter s (initWriter p0 cap)))

/-- `BW.APP value, count` (R242). -/
def execBwApp (value count : Nat) (s : State) : Host.Outcome State Fault Refusal := finish (appendGroup value count s)

/-- `BW.FLUSH` (R243): nothing on the abstract state, whose complete bytes are in the sink already. -/
def execBwFlush (s : State) : Host.Outcome State Fault Refusal := finish (flushLoop 4 s)

/-- `BW.ENCV k, m, glimit` (R244). -/
def execBwEncv (k m glimit : Nat) (s : State) : Host.Outcome State Fault Refusal :=
  finish (do
    require (isCount k) .operandRange
    encodeValue k m glimit s)

/-- `BW.END` (R245). -/
def execBwEnd (s : State) : Host.Outcome State Fault Refusal := finish (endWrite s)

end Sys2Proof.Machine
end

