-- ==== Sys2Proof/Machine/Sample.lean ====
section
/-! DEFINITION. Unit SP, the regular-mode sample pipeline (`46_sample_pipeline.md` R270 to R278). -/

namespace Sys2Proof.Machine

/-- `SP.NEIGH i` on channel `ch` (R270): the four neighbours, and on an encode the input sample. -/
def neighbours (i ch : Nat) (s : State) : State :=
  setWork s { s.w with
    ra := curRead s ch ((i : Int) - 1)
    rb := prevRead s ch i
    rc := prevRead s ch ((i : Int) - 1)
    rd := prevRead s ch ((i : Int) + 1)
    x := if s.dir then s.w.x else curRead s ch i }

/-- The three gradients of a sample are operands of `QT.QUANT` (R145, R271). -/
def gradientsInRange (i ch : Nat) (s : State) : Bool :=
  let w := (neighbours i ch s).w
  isDifference s.tr (w.rd - w.rb) && isDifference s.tr (w.rb - w.rc) && isDifference s.tr (w.rc - w.ra)

/-- The bins of the three gradients and the context id (R271). -/
def quantizeContext (s : State) : State :=
  let q1 := quantize s.tr (s.w.rd - s.w.rb)
  let q2 := quantize s.tr (s.w.rb - s.w.rc)
  let q3 := quantize s.tr (s.w.rc - s.w.ra)
  setWork s { s.w with q1 := q1, q2 := q2, q3 := q3, qs := ctxid q1 q2 q3 }

/-- `SP.PRED`: the median-edge prediction (R272). -/
def medianPrediction (ra rb rc : Int) : Int :=
  let sgn := neg1 (rb - ra)
  if xorMask sgn (rc - ra) < 0 then rb
  else if xorMask sgn (rb - rc) < 0 then ra
  else ra + rb - rc

/-- The context index of the sample: `abs(QS)` (R146). -/
def contextIndex (s : State) : Nat := s.w.qs.natAbs

/-- The first steps of a regular sample, the same on both sides: `SIGN`, `K`, `PRED`, `PX` (R273, R276, R277). -/
def predictSample (s : State) : Res State := do
  require (isContext (contextIndex s)) .operandRange
  let s ← getK (contextIndex s) (setWork s { s.w with sign := neg1 s.w.qs })
  let pred := medianPrediction s.w.ra s.w.rb s.w.rc
  let p := pred + asgn (ctxAt s (contextIndex s)).c s.w.sign
  require (isCorrected s.tr p) .operandRange
  .ok (setWork s { s.w with pred := pred, px := corrp s.tr.maxVal p })

/-- The last steps, the same on both sides: `RC.UPD`, `RX`, and the sample in the line buffer (R276, R277). `PX` is a
result of `TR.CORRP`, so the operand range of `TR.RECON` is met. -/
def rebuildSample (i ch : Nat) (s : State) : State :=
  let s := updCtx (contextIndex s) s.w.err s
  let rx := recon s.tr s.w.px (asgn s.w.err s.w.sign)
  curWrite (setWork s { s.w with rx := rx }) ch i rx

/-- `SP.ENCREG i` on channel `ch` (R276). -/
def encodeRegular (i ch : Nat) (s : State) : Res State := do
  let s ← predictSample s
  let err ← reduceError (asgn (s.w.x - s.w.px) s.w.sign) s
  let mask := errorCorrection (ctxAt s (contextIndex s)) (s.w.k ||| s.tr.near)
  let s := setWork s { s.w with err := err, merr := mapError (xorMask mask err) }
  let s ← encodeValue s.w.k s.w.merr s.tr.limit s
  .ok (rebuildSample i ch s)

/-- The error of a regular sample as read: the short code, else the generic codeword and the magnitude test (R277). -/
def readError (s : State) : Res (Int × State) := do
  let (short, s) ← shortCode s.w.k s
  match short with
  | some e => .ok (e, s)
  | none =>
    let (m, s) ← decodeValue s.w.k s.tr.limit s.tr.qbpp s
    let s := setWork s { s.w with merr := m }
    let e := unmapError m
    if Config.errMag < e.natAbs then raise .invalidCompressedData s else .ok (e, s)

/-- `SP.DECREG i` on channel `ch` (R277). -/
def decodeRegular (i ch : Nat) (s : State) : Res State := do
  let s ← predictSample s
  let (e, s) ← readError s
  let mask := if s.w.k = 0 then errorCorrection (ctxAt s (contextIndex s)) s.tr.near else 0
  .ok (rebuildSample i ch (setWork s { s.w with err := xorMask mask e }))

/-- A regular sample in the direction of the scan (R278). -/
def codeRegular (i ch : Nat) (s : State) : Res State := if s.dir then decodeRegular i ch s else encodeRegular i ch s

/-- A sample index of the line: `0 <= i < WIDTH` (R270). -/
def isIndex (s : State) (i : Nat) : Bool := i < s.pr.width

/-- `SP.NEIGH i -> Ra, Rb, Rc, Rd, X` (R270). -/
def execSpNeigh (i : Nat) (s : State) : Host.Outcome State Fault Refusal :=
  finish (do
    require (isIndex s i) .operandRange
    .ok (neighbours i 0 s))

/-- `SP.PRED Ra, Rb, Rc -> PRED` (R272). -/
def execSpPred (ra rb rc : Int) (s : State) : Host.Outcome State Fault Refusal :=
  finish (.ok (setWork s { s.w with pred := medianPrediction ra rb rc }))

/-- `SP.MAPE e -> m`, in the register `MERR` (R274). -/
def execSpMape (e : Int) (s : State) : Host.Outcome State Fault Refusal :=
  finish (.ok (setWork s { s.w with merr := mapError e }))

/-- `SP.UNMAPE m -> e` (R275). -/
def execSpUnmape (m : Nat) (s : State) : Host.Outcome State Fault Refusal :=
  finish (.ok (setResult s [unmapError m]))

/-- `SP.ENCREG i` (R276). -/
def execSpEncreg (i : Nat) (s : State) : Host.Outcome State Fault Refusal :=
  finish (do
    require (isIndex s i) .operandRange
    encodeRegular i 0 s)

/-- `SP.DECREG i` (R277). -/
def execSpDecreg (i : Nat) (s : State) : Host.Outcome State Fault Refusal :=
  finish (do
    require (isIndex s i) .operandRange
    decodeRegular i 0 s)

end Sys2Proof.Machine
end

