-- ==== Sys2Proof/Machine/RunMode.lean ====
section
/-! DEFINITION. Unit RN, run mode (`47_run_mode.md` R300 to R311). -/

namespace Sys2Proof.Machine

/-- `RN.INCIDX` (R301). -/
def incIdx (s : State) : State := setRunindex s (min 31 (s.runindex + 1))

/-- `RN.DECIDX`, which stops at 0 (R302). -/
def decIdx (s : State) : State := setRunindex s (s.runindex - 1)

/-! ## The run length (R303, R304) -/

/-- The full segments of a run length, once around for each unit of fuel; what is left of it. -/
def encodeSegments : Nat → Nat → State → Res (Nat × State)
  | 0, runlen, s => .ok (runlen, s)
  | fuel + 1, runlen, s =>
    if 2 ^ jNow s ≤ runlen then do
      let left := runlen - 2 ^ jNow s
      let s ← appendGroup 1 1 s
      encodeSegments fuel left (incIdx s)
    else .ok (runlen, s)

/-- `RN.ENCLEN runlen, eol` (R303); every segment takes at least one sample, so `runlen` bounds the turns. -/
def encodeLength (runlen : Nat) (eol : Bool) (s : State) : Res State := do
  let (left, s) ← encodeSegments runlen runlen s
  if eol then
    if left ≠ 0 then appendGroup 1 1 s else .ok s
  else appendGroup left (jNow s + 1) s

/-- The `1` bits of a run length, once around for each unit of fuel; the samples they stand for. -/
def decodeSegments (rem : Nat) : Nat → Nat → State → Res (Nat × State)
  | 0, idx, s => .ok (idx, s)
  | fuel + 1, idx, s => do
    let (bit, s) ← readBit s
    if bit then
      let cnt := min (2 ^ jNow s) (rem - idx)
      let s := if cnt = 2 ^ jNow s then incIdx s else s
      if idx + cnt = rem then .ok (idx + cnt, s) else decodeSegments rem fuel (idx + cnt) s
    else .ok (idx, s)

/-- The remainder field of a run that ended inside the line: `J[RUNINDEX]` bits after a `0` bit (R304). -/
def readRemainder (rem idx : Nat) (s : State) : Res (Nat × State) :=
  if idx ≠ rem ∧ 0 < jNow s then readValue (jNow s) s else .ok (0, s)

/-- `RN.DECLEN rem -> runlen`, in the register `RUNLEN` (R304); every `1` bit takes at least one sample, so `rem` bounds
the turns. -/
def decodeLength (rem : Nat) (s : State) : Res State := do
  let (idx, s) ← decodeSegments rem (rem + 1) 0 s
  let (n, s) ← readRemainder rem idx s
  if rem < idx + n then raise .invalidCompressedData s
  else .ok (setWork s { s.w with runlen := idx + n })

/-! ## The run-interruption error (R305, R306) -/

/-- The Golomb limit of a run-interruption sample: `limit - J[RUNINDEX] - 1`. -/
def riLimit (s : State) : Int := (s.tr.limit : Int) - jNow s - 1

/-- `EMErrval` (R305). -/
def emErrval (t : Nat) (err : Int) (map : Bool) : Int := 2 * err.natAbs - t - map.toNat

/-- `RN.ENCRIERR t, err` (R305). -/
def encodeRiError (t : Nat) (err : Int) (s : State) : Res State := do
  let s ← getRunK t s
  let em := emErrval t err (mapBit (rctxAt s t) err s.w.k)
  require (0 ≤ em) .escapeRange
  let s ← encodeValue s.w.k em.toNat (riLimit s) s
  .ok (updRctx t err em.toNat s)

/-- `RN.DECRIERR t -> err`, in the register `ERR` (R306). The value read is R306's `EM`, and the register `MERR` stays as it
was (DESIGN CHOICE, log entry 22). -/
def decodeRiError (t : Nat) (s : State) : Res State := do
  let s ← getRunK t s
  let (em, s) ← decodeValue s.w.k (riLimit s) s.tr.qbpp s
  let err := runErrval (rctxAt s t) (em + t) s.w.k
  if Config.errMag < err.natAbs then raise .invalidCompressedData s
  else .ok (setWork (updRctx t err em s) { s.w with err := err })

/-! ## The run-interruption sample (R307, R308) -/

/-- Which entry codes the sample: 1 when `Ra` and `Rb` are near, else 0. -/
def riType (s : State) (ra rb : Int) : Nat := if isNear s.tr.near ra rb then 1 else 0

/-- `RN.ENCRI x, Ra, Rb -> RX` (R307). -/
def encodeRi (x ra rb : Int) (s : State) : Res State :=
  if isNear s.tr.near ra rb then do
    let err ← reduceError (x - ra) s
    let s ← encodeRiError 1 err (setWork s { s.w with err := err })
    let rx ← reconstruct ra err s
    .ok (setWork s { s.w with rx := rx })
  else do
    let sg := sgn1 (rb - ra)
    let err ← reduceError ((x - rb) * sg) s
    let s ← encodeRiError 0 err (setWork s { s.w with err := err })
    let rx ← reconstruct rb (err * sg) s
    .ok (setWork s { s.w with rx := rx })

/-- `RN.DECRI Ra, Rb -> RX` (R308). -/
def decodeRi (ra rb : Int) (s : State) : Res State :=
  if isNear s.tr.near ra rb then do
    let s ← decodeRiError 1 s
    let rx ← reconstruct ra s.w.err s
    .ok (setWork s { s.w with rx := rx })
  else do
    let s ← decodeRiError 0 s
    let rx ← reconstruct rb (s.w.err * sgn1 (rb - ra)) s
    .ok (setWork s { s.w with rx := rx })

/-- One channel of the interruption pixel of a triplet, encode (R311). -/
def encodeRiChannel (j : Nat) (s : State) (ch : Nat) (ra : Int) : Res State := do
  let rb := prevRead s ch j
  let x := curRead s ch j
  let sg := sgn1 (rb - ra)
  let err ← reduceError (sg * (x - rb)) s
  let s ← encodeRiError 0 err (setWork s { s.w with ra := ra, rb := rb, x := x, err := err })
  let rx ← reconstruct rb (err * sg) s
  .ok (curWrite (setWork s { s.w with rx := rx }) ch j rx)

/-- One channel of the interruption pixel of a triplet, decode (R311). -/
def decodeRiChannel (j : Nat) (s : State) (ch : Nat) (ra : Int) : Res State := do
  let rb := prevRead s ch j
  let sg := sgn1 (rb - ra)
  let s ← decodeRiError 0 (setWork s { s.w with ra := ra, rb := rb })
  let rx ← reconstruct rb (s.w.err * sg) s
  .ok (curWrite (setWork s { s.w with rx := rx }) ch j rx)

/-- The interruption element at `j`, encode: one sample, or the three channels of a triplet in order. -/
def encodeInterruption (nch j : Nat) (ras : List Int) (s : State) : Res State :=
  if nch = 3 then do
    let s ← encodeRiChannel j s 0 (ras.getD 0 0)
    let s ← encodeRiChannel j s 1 (ras.getD 1 0)
    encodeRiChannel j s 2 (ras.getD 2 0)
  else do
    let ra := ras.getD 0 0
    let rb := prevRead s 0 j
    let x := curRead s 0 j
    let s ← encodeRi x ra rb (setWork s { s.w with ra := ra, rb := rb, x := x })
    .ok (curWrite s 0 j s.w.rx)

/-- The interruption element at `j`, decode. -/
def decodeInterruption (nch j : Nat) (ras : List Int) (s : State) : Res State :=
  if nch = 3 then do
    let s ← decodeRiChannel j s 0 (ras.getD 0 0)
    let s ← decodeRiChannel j s 1 (ras.getD 1 0)
    decodeRiChannel j s 2 (ras.getD 2 0)
  else do
    let ra := ras.getD 0 0
    let rb := prevRead s 0 j
    let s ← decodeRi ra rb (setWork s { s.w with ra := ra, rb := rb })
    .ok (curWrite s 0 j s.w.rx)

/-! ## The run as a whole (R309, R310, R311) -/

/-- The channel values of an element of the current line. -/
def elementAt (nch : Nat) (s : State) (j : Int) : List Int := (List.range nch).map fun ch => curRead s ch j

/-- Whether two elements are near on every channel (R128, R311). -/
def elementsNear (near : Nat) (xs ras : List Int) : Bool := (xs.zip ras).all fun p => isNear near p.1 p.2

/-- Storing an element of the current line. -/
def writeElement (vs : List Int) (j : Nat) (s : State) : State :=
  (vs.zipIdx).foldl (fun s p => curWrite s p.2 j p.1) s

/-- The forward scan of an encode: elements near `Ra` become `Ra`; the run length (R309). -/
def scanRun (nch : Nat) (ras : List Int) (i : Nat) : Nat → Nat → State → Nat × State
  | 0, runlen, s => (runlen, s)
  | left + 1, runlen, s =>
    if elementsNear s.tr.near (elementAt nch s ((i + runlen : Nat) : Int)) ras then
      scanRun nch ras i left (runlen + 1) (writeElement ras (i + runlen) s)
    else (runlen, s)

/-- The `n` elements of a decoded run, from `j` (R310). -/
def fillRun (ras : List Int) : Nat → Nat → State → State
  | 0, _, s => s
  | n + 1, j, s => fillRun ras n (j + 1) (writeElement ras j s)

/-- `RN.ENCRUN i -> n` for elements of `nch` channels (R309, R311). After a run of triplets to the end of the line the scalar
`Ra` holds channel 1's value (DESIGN CHOICE, log entry 22). -/
def encodeRun (nch i : Nat) (s : State) : Res (Nat × State) := do
  let rem := s.pr.width - i
  let ras := elementAt nch s ((i : Int) - 1)
  let (runlen, s) := scanRun nch ras i rem 0 s
  let s := setWork s { s.w with runlen := runlen, ra := ras.getD 0 0 }
  let s ← encodeLength runlen (runlen = rem) s
  if runlen = rem then .ok (rem, s)
  else
    let s ← encodeInterruption nch (i + runlen) ras s
    .ok (runlen + 1, decIdx s)

/-- `RN.DECRUN i -> n` for elements of `nch` channels (R310, R311). After a run of triplets to the end of the line the scalar
`Ra` holds channel 1's value (DESIGN CHOICE, log entry 22). -/
def decodeRun (nch i : Nat) (s : State) : Res (Nat × State) := do
  let rem := s.pr.width - i
  let ras := elementAt nch s ((i : Int) - 1)
  let s ← decodeLength rem (setWork s { s.w with ra := ras.getD 0 0 })
  let runlen := s.w.runlen
  let s := fillRun ras runlen i s
  if runlen = rem then .ok (rem, s)
  else
    let s ← decodeInterruption nch (i + runlen) ras s
    .ok (runlen + 1, decIdx s)

/-- A run in the direction of the scan (R278). -/
def codeRun (nch i : Nat) (s : State) : Res (Nat × State) := if s.dir then decodeRun nch i s else encodeRun nch i s

/-! ## The meanings -/

/-- `RN.INCIDX` (R301). -/
def execRnIncidx (s : State) : Host.Outcome State Fault Refusal := finish (.ok (incIdx s))

/-- `RN.DECIDX` (R302). -/
def execRnDecidx (s : State) : Host.Outcome State Fault Refusal := finish (.ok (decIdx s))

/-- How many samples of the line are left from `seq.i`: the `WIDTH - i` of R303 and R304 for an operation issued alone (log
entry 24). None where `seq.i` stands above `WIDTH`, which R34 has no scan reach (DESIGN CHOICE, log entry 24). -/
def samplesLeft (s : State) : Nat := s.pr.width - s.seq.i

/-- The operands of `RN.ENCLEN`: no more samples than are left, and `eol` true iff it is all of them (R303). -/
def isRunLength (s : State) (runlen : Nat) (eol : Bool) : Bool :=
  runlen ≤ samplesLeft s && eol = decide (runlen = samplesLeft s)

/-- `RN.ENCLEN runlen, eol` (R303). -/
def execRnEnclen (runlen : Nat) (eol : Bool) (s : State) : Host.Outcome State Fault Refusal :=
  finish (do
    require (isRunLength s runlen eol) .operandRange
    encodeLength runlen eol s)

/-- `RN.DECLEN rem -> runlen`, `rem = WIDTH - i >= 1` (R304). -/
def execRnDeclen (rem : Nat) (s : State) : Host.Outcome State Fault Refusal :=
  finish (do
    require (1 ≤ rem && rem = samplesLeft s) .operandRange
    decodeLength rem s)

/-- `RN.ENCRIERR t, err` (R305), on any error whose codeword can carry it (DESIGN CHOICE, log entry 12). -/
def execRnEncrierr (t : Nat) (err : Int) (s : State) : Host.Outcome State Fault Refusal :=
  finish (do
    require (isRunContext t) .operandRange
    encodeRiError t err s)

/-- `RN.DECRIERR t -> err` (R306). -/
def execRnDecrierr (t : Nat) (s : State) : Host.Outcome State Fault Refusal :=
  finish (do
    require (isRunContext t) .operandRange
    decodeRiError t s)

/-- `RN.ENCRI x, Ra, Rb -> RX` (R307). -/
def execRnEncri (x ra rb : Int) (s : State) : Host.Outcome State Fault Refusal := finish (encodeRi x ra rb s)

/-- `RN.DECRI Ra, Rb -> RX` (R308). -/
def execRnDecri (ra rb : Int) (s : State) : Host.Outcome State Fault Refusal := finish (decodeRi ra rb s)

/-- `RN.ENCRUN i -> n`, the triplet form in Sample interleave (R309, R311). Issued alone it leaves `seq`, and the line loops do
what R309 has happen after it (`advance`; DESIGN CHOICE, log entry 24), and it does not ask that `QS` is 0 (DESIGN CHOICE, log
entry 12). -/
def execRnEncrun (i : Nat) (s : State) : Host.Outcome State Fault Refusal :=
  finish (do
    require (isIndex s i) .operandRange
    let (n, s) ← encodeRun (channels s) i s
    .ok (setResult s [n]))

/-- `RN.DECRUN i -> n`, the triplet form in Sample interleave (R310, R311). Issued alone it leaves `seq`, as `RN.ENCRUN` does
(DESIGN CHOICE, log entry 24), and it does not ask that `QS` is 0 (DESIGN CHOICE, log entry 12). -/
def execRnDecrun (i : Nat) (s : State) : Host.Outcome State Fault Refusal :=
  finish (do
    require (isIndex s i) .operandRange
    let (n, s) ← decodeRun (channels s) i s
    .ok (setResult s [n]))

end Sys2Proof.Machine
end

