-- ==== Sys2Proof/Machine/ScanDriver.lean ====
section
/-! DEFINITION. Unit SC, the scan driver and the host commands (`48_scan_driver.md` R330 to R344). A host scan command is
one step of the model: set-up, every line, end of scan (log entry 3). -/

namespace Sys2Proof.Machine

/-! ## Set-up (R332) -/

/-- TR0..TR9 of a scan: `TR.INIT` on the resolved values, and the thresholds in use. -/
def scanTraits (p : Params) : Traits :=
  { initTraits resetTraits (resolvedMaxVal p) p.near (resolvedReset p) with
    t1 := resolvedT1 p
    t2 := resolvedT2 p
    t3 := resolvedT3 p }

/-- The quantization table a scan builds. -/
def scanTable (t : Traits) : QTable := { bpp := t.bpp, near := t.near, t1 := t.t1, t2 := t.t2, t3 := t.t3 }

/-- The state a scan starts from, for a decode (`dir`) or an encode, at BYTE position `p0` with the array's length or the
sink's capacity `n` (R332, `10_state.md` R38, R39; `RUNINDEX` with `runidx`, log entry 29). A decode starts with no line
delivered. The BYTE position stays as the last `BR.END` left it (DESIGN CHOICE, log entry 28). -/
def scanSetup (dir : Bool) (p0 n : Nat) (s : State) : State :=
  let t := scanTraits s.pr
  { s with
    tr := t
    qt := scanTable t
    ctx := initCtx t.range
    rctx := initRctx t.range
    runidx := []
    runindex := 0
    buf := []
    rd := if dir then initReader s.bs p0 n else s.rd
    wr := if dir then s.wr else initWriter p0 n
    lineDst := if dir then [] else s.lineDst
    err := .none
    busy := true
    done := false
    dir := dir
    seq := { fsm := .scanning, y := 0, c := 0, i := 0 } }

/-! ## Guards (R333) -/

/-- `SC.GUARD` on one channel. -/
def guardChannel (s : State) (ch : Nat) : State :=
  let s := prevWrite s ch s.pr.width (prevRead s ch ((s.pr.width : Int) - 1))
  curWrite s ch (-1) (prevRead s ch 0)

/-- `SC.GUARD`: the whole element, one channel or three (R333). -/
def guardLine (s : State) : State := (List.range (channels s)).foldl guardChannel s

/-! ## The line loops (R334, R335) -/

/-- A sample or a run is coded: `Scanning` again, `i` moved on by what it took (R309, R330, R334); an operation of unit RN or SP
issued alone moves neither (DESIGN CHOICE, log entry 24). R330 has no transition for a UOP
issued alone from `Idle`: `SC.LINE`, `SC.LINE3` and `SC.SCAN` then leave `Scanning` behind, and host commands are refused
until a reset or an error (DESIGN CHOICE, log entry 24). -/
def advance (n : Nat) (s : State) : State := setSeq s { s.seq with fsm := .scanning, i := s.seq.i + n }

/-- The neighbours, gradients and context id of element `i` on channel `ch` (R270, R271). -/
def channelContext (i : Nat) (s : State) (ch : Nat) : State := quantizeContext (neighbours i ch s)

/-- A sample, or a run of samples, by the context id (R278, R334). -/
def sampleTurn (s : State) : Res State := do
  let i := s.seq.i
  let s := channelContext i s 0
  if s.w.qs = 0 then
    let (n, s) ← codeRun 1 i (setFsm s .runMode)
    .ok (advance n s)
  else
    let s ← codeRegular i 0 (setFsm s .regularSample)
    .ok (advance 1 s)

/-- One turn of `SC.LINE` (R334). The rule is for single samples: in Sample interleave, where only the operation issued alone
gets here, it codes the first channel (DESIGN CHOICE, log entry 24). -/
def lineStep (s : State) : Res State := do
  require (gradientsInRange s.seq.i 0 s) .operandRange
  sampleTurn s

/-- Whether the context ids of all three channels of triplet `i` are 0 (R335). -/
def tripletFlat (i : Nat) (s : State) : Bool :=
  (channelContext i s 0).w.qs = 0 && (channelContext i s 1).w.qs = 0 && (channelContext i s 2).w.qs = 0

/-- A triplet, its channels in order, or a run of triplets (R335). -/
def tripletTurn (s : State) : Res State := do
  let i := s.seq.i
  if tripletFlat i s then
    let s := channelContext i (channelContext i (channelContext i s 0) 1) 2
    let (n, s) ← codeRun 3 i (setFsm s .runMode)
    .ok (advance n s)
  else
    let s := setFsm s .regularSample
    let s ← codeRegular i 0 (channelContext i s 0)
    let s ← codeRegular i 1 (channelContext i s 1)
    let s ← codeRegular i 2 (channelContext i s 2)
    .ok (advance 1 s)

/-- One turn of `SC.LINE3` (R335). The rule is for triplets: in None and Line interleave, where only the operation issued
alone gets here, it codes three channels all the same (DESIGN CHOICE, log entry 24). -/
def lineStep3 (s : State) : Res State := do
  require (gradientsInRange s.seq.i 0 s && gradientsInRange s.seq.i 1 s && gradientsInRange s.seq.i 2 s) .operandRange
  tripletTurn s

/-- Turns until `i = WIDTH`; every turn advances `i`, so `WIDTH` bounds their number (R334, R407). -/
def lineLoop (turn : State → Res State) : Nat → State → Res State
  | 0, s => .ok s
  | fuel + 1, s =>
    if s.seq.i < s.pr.width then do
      let s ← turn s
      lineLoop turn fuel s
    else .ok s

/-- `SC.LINE` (R334). -/
def codeLine (s : State) : Res State := lineLoop lineStep s.pr.width (setSeq s { s.seq with i := 0 })

/-- `SC.LINE3` (R335). -/
def codeLine3 (s : State) : Res State := lineLoop lineStep3 s.pr.width (setSeq s { s.seq with i := 0 })

/-! ## The LINE port (R342, R343) -/

/-- The line the host holds for `(c, y)`, if it holds one. -/
def heldLine (src : List Line) (c y : Nat) : Option Line := src.find? fun l => l.c = c && l.y = y

/-- The `WIDTH` elements the port hands over, where the line has that many of the right shape (log entry 19). -/
def lineElements (width nch : Nat) (l : Line) : Option (List (List Int)) :=
  let px := l.px.take width
  if px.length = width ∧ px.all (fun e => e.length = nch) then some px else none

/-- Elements into the current line, from `j`. -/
def writeLine : List (List Int) → Nat → State → State
  | [], _, s => s
  | e :: es, j, s => writeLine es (j + 1) (writeElement e j s)

/-- `cur[0 .. WIDTH-1] <- LineIn(c, y)` (R343). -/
def loadLine (c y : Nat) (s : State) : Res State :=
  match heldLine s.lineSrc c y with
  | none => raise .uncompressedBufferTooSmall s
  | some l =>
    match lineElements s.pr.width (channels s) l with
    | none => raise .uncompressedBufferTooSmall s
    | some px =>
      if px.all (fun e => e.all (isSample s.tr)) then .ok (writeLine px 0 s) else refuse .sampleRange

/-- An encode takes its line from the port; a decode takes none. -/
def takeLine (c y : Nat) (s : State) : Res State := if s.dir then .ok s else loadLine c y s

/-- The part of the current line the rectangle delivers. -/
def deliveredPart (s : State) : List (List Int) :=
  (List.range s.pr.rectW).map fun j => elementAt (channels s) s ((s.pr.rectX + j : Nat) : Int)

/-- `LineOut` of the line just decoded, where it is inside the rectangle (R342). -/
def deliverLine (c y : Nat) (s : State) : Res State :=
  if s.pr.rectY ≤ y ∧ y < s.pr.rectY + s.pr.rectH then
    if s.lineRoom = some 0 then raise .uncompressedBufferTooSmall s
    else .ok { s with
      lineDst := s.lineDst ++ [{ c := c, y := y, px := deliveredPart s }]
      lineRoom := s.lineRoom.map (· - 1) }
  else .ok s

/-- A decode delivers its line; an encode does not. -/
def handLine (c y : Nat) (s : State) : Res State := if s.dir then deliverLine c y s else .ok s

/-! ## The scan loop (R336) -/

/-- The sequencer and `RUNINDEX` at the start of a line of a slot, its input loaded on an encode, its guards set. In an
`SC.SCAN` issued alone from `Idle` this leaves `Idle` (DESIGN CHOICE, log entry 24). -/
def beginLine (y c : Nat) (s : State) : Res State := do
  let s := setSeq s { fsm := .scanning, y := y, c := c, i := 0 }
  let s ← takeLine c y s
  .ok (guardLine (setRunindex s (runidxAt s c)))

/-- The samples of a line, or its triplets. -/
def codeElements (s : State) : Res State := if s.pr.ilv = .sample then codeLine3 s else codeLine s

/-- `runidx[c]` written back, and the line delivered on a decode. -/
def finishLine (y c : Nat) (s : State) : Res State := handLine c y (setRunidx s c s.runindex)

/-- The line of one slot. -/
def codeSlotLine (y c : Nat) (s : State) : Res State := do
  let s ← beginLine y c s
  let s ← codeElements s
  finishLine y c s

/-- The `n` slots from `c` of line `y`, in order. -/
def codeSlots (y : Nat) : Nat → Nat → State → Res State
  | 0, _, s => .ok s
  | n + 1, c, s => do
    let s ← codeSlotLine y c s
    codeSlots y n (c + 1) s

/-- The `n` lines from `y`, in order. -/
def codeLines : Nat → Nat → State → Res State
  | 0, _, s => .ok s
  | n + 1, y, s => do
    let s ← codeSlots y (slots s.pr) 0 s
    codeLines n (y + 1) s

/-- `SC.SCAN` (R336). -/
def codeScan (s : State) : Res State := codeLines s.pr.height 0 s

/-! ## End of scan (R344) -/

/-- `SR1` is unspecified after a decode (`10_state.md` R23; log entry 10). -/
def freeSr1 (s : State) : State := { s with sr1 := Config.freeWord (2 * s.free + 1), free := s.free + 1 }

/-- The scan has ended: `SR0.done`, not busy, `Idle`. -/
def scanDone (s : State) : State := { setFsm s .idle with done := true, busy := false }

/-- The end of a scan (R344). -/
def endScan (s : State) : Res State :=
  if s.dir then do
    let s ← endRead (setFsm s .endOfScan)
    .ok (scanDone (freeSr1 s))
  else do
    let s ← endWrite (setFsm s .endOfScan)
    .ok (scanDone s)

/-! ## Commands -/

/-- Whether a host command is accepted: the sequencer is `Idle` and no scan is in progress (R92, R331, R404). -/
def isIdle (s : State) : Bool := s.seq.fsm = .idle && !s.busy

/-- The parameter block the operands of `CONFIGURE` stand for. -/
def paramsOf (width height bps ncomp near : Nat) (ilv : Ilv) (maxVal t1 t2 t3 reset rectX rectY rectW rectH : Nat) :
    Params :=
  { width := width, height := height, bps := bps, ncomp := ncomp, near := near, ilv := ilv, maxVal := maxVal, t1 := t1,
    t2 := t2, t3 := t3, reset := reset, rectX := rectX, rectY := rectY, rectW := rectW, rectH := rectH }

/-- Accepting a parameter block (R331). -/
def configureWith (p : Params) (s : State) : Res State := do
  require (isIdle s) .notIdle
  require (legalParams s.build p) .illegalParameters
  .ok { s with pr := p, configured := true }

/-- `CONFIGURE` (R331). -/
def execConfigure (width height bps ncomp near ilv maxVal t1 t2 t3 reset rectX rectY rectW rectH : Nat) (s : State) :
    Host.Outcome State Fault Refusal :=
  match ilvOf ilv with
  | none => .refused .illegalParameters
  | some v =>
    finish (configureWith (paramsOf width height bps ncomp near v maxVal t1 t2 t3 reset rectX rectY rectW rectH) s)

/-- What a scan command requires (R92, R340, R341, R5). -/
def acceptScan (p0 n : Nat) (s : State) : Res Unit := do
  require (isIdle s) .notIdle
  require s.configured .notConfigured
  require (legalParams s.build s.pr) .illegalParameters
  require (p0 ≤ n) .operandRange

/-- A scan command, in the direction `dir` (R340, R341). -/
def runScan (dir : Bool) (p0 n : Nat) (s : State) : Res State := do
  acceptScan p0 n s
  let s ← codeScan (scanSetup dir p0 n s)
  endScan s

/-! ## A reset inside a scan (R400; log entry 30) -/

/-- An encode abandoned somewhere: any byte of its sink may have been written, and which are is open. -/
def abandonEncode (p0 cap : Nat) (s : State) : State :=
  { s with bs := freeBytes s.free p0 (cap - p0) s.bs, free := s.free + 1 }

/-- A decode abandoned somewhere: the lines it delivered are open, and how many more the host accepts, no more than before. -/
def abandonDecode (s : State) : State :=
  { s with
    lineDst := freeLineDst s.free
    lineRoom := s.lineRoom.map fun n => min n (Config.freeNat s.free 15 0)
    free := s.free + 1 }

/-- The scan whose command is pending, taken and abandoned; where none is pending, or it would be refused, the state as it
is. -/
def abandonScan (s : State) : State :=
  match fetchNext s with
  | .next (.encodeScan p0 cap, t) => if acceptScan p0 cap t = .ok () then abandonEncode p0 cap t else s
  | .next (.decodeScan p0 len, t) => if acceptScan p0 len t = .ok () then abandonDecode t else s
  | .next (_, _) => s
  | .fault _ => s
  | .refused _ => s

/-! ## The meanings -/

/-- `ENCODE_SCAN BS, p0, cap -> bytes_written` (R340). -/
def execEncodeScan (p0 cap : Nat) (s : State) : Host.Outcome State Fault Refusal := finish (runScan false p0 cap s)

/-- `DECODE_SCAN BS, p0, len` (R341). -/
def execDecodeScan (p0 len : Nat) (s : State) : Host.Outcome State Fault Refusal := finish (runScan true p0 len s)

/-- `SC.GUARD` (R333). -/
def execScGuard (s : State) : Host.Outcome State Fault Refusal := finish (.ok (guardLine s))

/-- `SC.LINE` (R334). -/
def execScLine (s : State) : Host.Outcome State Fault Refusal := finish (codeLine s)

/-- `SC.LINE3` (R335). -/
def execScLine3 (s : State) : Host.Outcome State Fault Refusal := finish (codeLine3 s)

/-- `SC.SCAN` (R336). -/
def execScScan (s : State) : Host.Outcome State Fault Refusal := finish (codeScan s)

end Sys2Proof.Machine
end

