-- ==== Sys2Proof/Machine/Codeword.lean ====
section
/-! DEFINITION. The codewords of the bit stream (`30_encoding.md` R93 to R99) as operations of their own: on an encode the
pattern is appended, on a decode it is read, in the context the state holds (log entry 15). -/

namespace Sys2Proof.Machine

/-- The limit in force: `limit`, or `limit - J[RUNINDEX] - 1` in run mode (R94). -/
def limitNow (s : State) : Int := if s.seq.fsm = .runMode then riLimit s else s.tr.limit

/-- What the lengths of the next codeword depend on (R93). -/
def cwContext (s : State) : CwContext :=
  { k := s.w.k, glimit := (limitNow s).toNat, qbpp := s.tr.qbpp, j := jNow s }

/-- Whether an instruction is a codeword in the state's context. -/
def isCodeword (i : Instr) (s : State) : Bool := (cwBits (cwContext s) i).isSome

/-- Whether a mapped-value codeword is the next one of the stream, told apart as R96 says. -/
def isNext (i : Instr) (s : State) : Bool :=
  match decodeValueCw (cwContext s) (remaining s) with
  | some (j, _) => j = i
  | none => false

/-- A mapped-value codeword: its groups appended, or read back into `MERR` (R94, R95, R244, R209). On an encode a pattern with
a group of more than 31 bits is refused, though it is a codeword of the context (DESIGN CHOICE, log entry 15). -/
def valueCodeword (i : Instr) (groups : List (Nat × Nat)) (s : State) : Res State :=
  if s.dir then do
    let (m, t) ← decodeValue s.w.k (limitNow s) s.tr.qbpp s
    require (isNext i s) .codewordMismatch
    .ok (setWork t { t.w with merr := m })
  else do
    require (isCodeword i s) .codewordMismatch
    appendGroups groups s

/-- `CW.GOLOMB` (R94, R97). -/
def golombCodeword (h r : Nat) (s : State) : Res State := valueCodeword (.cwGolomb h r) (golombGroups h r s.w.k) s

/-- `CW.ESCAPE` (R95, R97). On an encode any value its field can carry is appended, also one for which R95 does not use the
escape (DESIGN CHOICE, log entry 15). -/
def escapeCodeword (v : Nat) (s : State) : Res State :=
  valueCodeword (.cwEscape v) (escapeGroups (limitNow s - s.tr.qbpp).toNat v s.tr.qbpp) s

/-- The samples of the line that a run starting at `seq.i` has left after the `RUNLEN` it holds; none where the two together
stand above `WIDTH` (DESIGN CHOICE, log entries 15 and 24). -/
def runLeft (s : State) : Nat := s.pr.width - s.seq.i - s.w.runlen

/-- `n` more samples in the run. -/
def lengthenRun (n : Nat) (s : State) : State := setWork s { s.w with runlen := s.w.runlen + n }

/-- `CW.RUNSEG`: one full segment; `RUNINDEX` is incremented after it (R98, R304). An encode does not ask how many samples are
left (DESIGN CHOICE, log entry 15). -/
def runSegment (s : State) : Res State :=
  if s.dir then do
    let (b, t) ← readBit s
    require (b && 2 ^ jNow s ≤ runLeft s) .codewordMismatch
    .ok (incIdx (lengthenRun (2 ^ jNow s) t))
  else do
    let t ← appendGroup 1 1 s
    .ok (incIdx t)

/-- `CW.RUNREM`: the run ends inside the line with `n` more samples; a run past the line's end is an error (R98, R304). An
encode does not ask how many samples are left (DESIGN CHOICE, log entry 15). -/
def runRemainder (n : Nat) (s : State) : Res State := do
  require (isCodeword (.cwRunrem n) s) .codewordMismatch
  if s.dir then
    require (0 < runLeft s) .codewordMismatch
    let (b, t) ← readBit s
    require (!b) .codewordMismatch
    let (v, t) ← readValue (jNow s) t
    require (v = n) .codewordMismatch
    if runLeft s < n then raise .invalidCompressedData t else .ok (lengthenRun n t)
  else appendGroup n (jNow s + 1) s

/-- `CW.RUNEOL`: the run takes all that is left of the line, less than a segment (R98, R304). An encode does not ask how many
samples are left (DESIGN CHOICE, log entry 15). -/
def runEndOfLine (s : State) : Res State :=
  if s.dir then do
    let (b, t) ← readBit s
    require (b && 0 < runLeft s && runLeft s < 2 ^ jNow s) .codewordMismatch
    .ok (lengthenRun (runLeft s) t)
  else appendGroup 1 1 s

/-- The byte that holds stream bit `rp` counted from the byte at `j`, within `n` bytes, and the bit's place in it. -/
def locateBit (m : Memory) (p0 : Nat) : Nat → Nat → Nat → Nat × Nat
  | 0, j, rp => (j, rp)
  | n + 1, j, rp =>
    if rp < (byteBits m p0 j).length then (j, rp) else locateBit m p0 n (j + 1) (rp - (byteBits m p0 j).length)

/-- Where the next unread bit stands: its byte and its place among that byte's stream bits. -/
def readPlace (s : State) : Nat × Nat :=
  locateBit s.bs s.rd.rstart (dataEnd s.bs s.rd.rstart s.rd.rend - s.rd.rstart) s.rd.rstart s.rd.rp

/-- How many stream bits of the byte being read are left, none when the next bit begins a byte. -/
def toBoundary (s : State) : Nat :=
  let p := readPlace s
  if p.2 = 0 then 0 else (byteBits s.bs s.rd.rstart p.1).length - p.2

/-- `CW.PAD`: zero bits up to the byte boundary (R99). R99 has it after the last codeword, and executed alone it is appended or
read at any place of the scan (DESIGN CHOICE, log entry 15). -/
def padCodeword (n : Nat) (s : State) : Res State :=
  if s.dir then do
    require (n = toBoundary s) .codewordMismatch
    let (v, t) ← readValue n s
    require (v = 0) .codewordMismatch
    .ok t
  else do
    require (n = padLength s.wr) .codewordMismatch
    appendGroup 0 n s

/-- Whether the next bit of the stream's bytes is the stuffed bit after a `0xFF` (R99). -/
def atStuffedBit (s : State) : Bool :=
  if s.dir then
    let p := readPlace s
    p.2 = 0 && s.rd.rstart < p.1 && p.1 < dataEnd s.bs s.rd.rstart s.rd.rend && memRead s.bs (p.1 - 1) = 0xFF
  else s.wr.wff && s.wr.wacc = []

/-- `CW.STUFF`: the forced 0, which is part of no codeword: the byte packing puts it in and takes it out (R99). -/
def stuffCodeword (s : State) : Res State := do
  require (atStuffedBit s) .codewordMismatch
  .ok s

/-! ## The meanings -/

/-- `CW.GOLOMB` (R94). -/
def execCwGolomb (h r : Nat) (s : State) : Host.Outcome State Fault Refusal := finish (golombCodeword h r s)

/-- `CW.ESCAPE` (R95). -/
def execCwEscape (v : Nat) (s : State) : Host.Outcome State Fault Refusal := finish (escapeCodeword v s)

/-- `CW.RUNSEG` (R98). -/
def execCwRunseg (s : State) : Host.Outcome State Fault Refusal := finish (runSegment s)

/-- `CW.RUNREM` (R98). -/
def execCwRunrem (n : Nat) (s : State) : Host.Outcome State Fault Refusal := finish (runRemainder n s)

/-- `CW.RUNEOL` (R98). -/
def execCwRuneol (s : State) : Host.Outcome State Fault Refusal := finish (runEndOfLine s)

/-- `CW.PAD` (R99). -/
def execCwPad (n : Nat) (s : State) : Host.Outcome State Fault Refusal := finish (padCodeword n s)

/-- `CW.STUFF` (R99). -/
def execCwStuff (s : State) : Host.Outcome State Fault Refusal := finish (stuffCodeword s)

end Sys2Proof.Machine
end

