-- ==== Sys2Proof/Machine/Dispatch.lean ====
section
/-! DEFINITION. The dispatch: one arm for each operation and codeword, each one call of its meaning. -/

namespace Sys2Proof.Machine

/-- What an operation does to a state. -/
def exec (i : Instr) (s : State) : Host.Outcome State Fault Refusal :=
  match i with
  | .configure width height bps ncomp near ilv maxVal t1 t2 t3 reset rectX rectY rectW rectH => Sys2Proof.Machine.execConfigure width height bps ncomp near ilv maxVal t1 t2 t3 reset rectX rectY rectW rectH s
  | .encodeScan p0 cap => Sys2Proof.Machine.execEncodeScan p0 cap s
  | .decodeScan p0 len => Sys2Proof.Machine.execDecodeScan p0 len s
  | .trInit maxVal near reset => Sys2Proof.Machine.execTrInit maxVal near reset s
  | .trQerr e => Sys2Proof.Machine.execTrQerr e s
  | .trModr q => Sys2Proof.Machine.execTrModr q s
  | .trErrval e => Sys2Proof.Machine.execTrErrval e s
  | .trCorrp p => Sys2Proof.Machine.execTrCorrp p s
  | .trRecon px err => Sys2Proof.Machine.execTrRecon px err s
  | .trIsnear a b => Sys2Proof.Machine.execTrIsnear a b s
  | .qtDeft maxVal near => Sys2Proof.Machine.execQtDeft maxVal near s
  | .qtBuild bpp near t1 t2 t3 => Sys2Proof.Machine.execQtBuild bpp near t1 t2 t3 s
  | .qtQuant d => Sys2Proof.Machine.execQtQuant d s
  | .qtCtxid q1 q2 q3 => Sys2Proof.Machine.execQtCtxid q1 q2 q3 s
  | .rcInit range => Sys2Proof.Machine.execRcInit range s
  | .rcGetk q => Sys2Proof.Machine.execRcGetk q s
  | .rcCorr q k => Sys2Proof.Machine.execRcCorr q k s
  | .rcUpd q err => Sys2Proof.Machine.execRcUpd q err s
  | .rmInit range => Sys2Proof.Machine.execRmInit range s
  | .rmGetk t => Sys2Proof.Machine.execRmGetk t s
  | .rmMap t err k => Sys2Proof.Machine.execRmMap t err k s
  | .rmErrval t temp k => Sys2Proof.Machine.execRmErrval t temp k s
  | .rmUpd t err em => Sys2Proof.Machine.execRmUpd t err em s
  | .brInit p0 len => Sys2Proof.Machine.execBrInit p0 len s
  | .brFill => Sys2Proof.Machine.execBrFill s
  | .brRdv n => Sys2Proof.Machine.execBrRdv n s
  | .brPeek => Sys2Proof.Machine.execBrPeek s
  | .brRdb => Sys2Proof.Machine.execBrRdb s
  | .brSkip n => Sys2Proof.Machine.execBrSkip n s
  | .brHigh => Sys2Proof.Machine.execBrHigh s
  | .brDecv k glimit qbpp => Sys2Proof.Machine.execBrDecv k glimit qbpp s
  | .brEnd => Sys2Proof.Machine.execBrEnd s
  | .gtBuild => Sys2Proof.Machine.execGtBuild s
  | .gtLook k => Sys2Proof.Machine.execGtLook k s
  | .bwInit p0 cap => Sys2Proof.Machine.execBwInit p0 cap s
  | .bwApp value count => Sys2Proof.Machine.execBwApp value count s
  | .bwFlush => Sys2Proof.Machine.execBwFlush s
  | .bwEncv k m glimit => Sys2Proof.Machine.execBwEncv k m glimit s
  | .bwEnd => Sys2Proof.Machine.execBwEnd s
  | .spNeigh idx => Sys2Proof.Machine.execSpNeigh idx s
  | .spPred ra rb rc => Sys2Proof.Machine.execSpPred ra rb rc s
  | .spMape e => Sys2Proof.Machine.execSpMape e s
  | .spUnmape m => Sys2Proof.Machine.execSpUnmape m s
  | .spEncreg idx => Sys2Proof.Machine.execSpEncreg idx s
  | .spDecreg idx => Sys2Proof.Machine.execSpDecreg idx s
  | .rnIncidx => Sys2Proof.Machine.execRnIncidx s
  | .rnDecidx => Sys2Proof.Machine.execRnDecidx s
  | .rnEnclen runlen eol => Sys2Proof.Machine.execRnEnclen runlen eol s
  | .rnDeclen rem => Sys2Proof.Machine.execRnDeclen rem s
  | .rnEncrierr t err => Sys2Proof.Machine.execRnEncrierr t err s
  | .rnDecrierr t => Sys2Proof.Machine.execRnDecrierr t s
  | .rnEncri x ra rb => Sys2Proof.Machine.execRnEncri x ra rb s
  | .rnDecri ra rb => Sys2Proof.Machine.execRnDecri ra rb s
  | .rnEncrun idx => Sys2Proof.Machine.execRnEncrun idx s
  | .rnDecrun idx => Sys2Proof.Machine.execRnDecrun idx s
  | .scGuard => Sys2Proof.Machine.execScGuard s
  | .scLine => Sys2Proof.Machine.execScLine s
  | .scLine3 => Sys2Proof.Machine.execScLine3 s
  | .scScan => Sys2Proof.Machine.execScScan s
  | .cwGolomb h r => Sys2Proof.Machine.execCwGolomb h r s
  | .cwEscape v => Sys2Proof.Machine.execCwEscape v s
  | .cwRunseg => Sys2Proof.Machine.execCwRunseg s
  | .cwRunrem n => Sys2Proof.Machine.execCwRunrem n s
  | .cwRuneol => Sys2Proof.Machine.execCwRuneol s
  | .cwPad n => Sys2Proof.Machine.execCwPad n s
  | .cwStuff => Sys2Proof.Machine.execCwStuff s

end Sys2Proof.Machine
end

