-- ==== Sys2Proof/Machine/Step.lean ====
section
/-! DEFINITION. One step of the block: take the next operation, and do what it says. -/

namespace Sys2Proof.Machine

/-- The operation of the issue register, else of the HOST port (R90; log entry 2). -/
def runNext (s : State) : Host.Outcome State Fault Refusal :=
  match fetchNext s with
  | .next (i, t) => exec i t
  | .fault f => .fault f
  | .refused r => .refused r

/-- One step: the reset the reset input asks for (R400; log entry 30), else the next operation. -/
def step (s : State) : Host.Outcome State Fault Refusal :=
  match s.resetIn with
  | .off => runNext s
  | .now => .next (resetBlock s)
  | .midScan => .next (resetBlock (abandonScan s))

/-- The state with the operation whose bits are `w` in the issue register and no reset asked for, so that the next step
takes it. -/
def State.withFetchWord (s : State) (nbits w : Nat) : State := { s with issue := fetchBytes nbits w, resetIn := .off }

end Sys2Proof.Machine
end

