-- ==== Sys2Proof/Safety.lean ====
section
/-! DEFINITION. The terms claims use: what a good state of a scan is (`10_state.md` R40, `42_regular_context.md` R164,
`43_run_context.md` R185), the invariant every step keeps, and the bit sequences of the codewords and their stuffed bytes
as the rules give them, apart from the machine that writes and reads them. -/

namespace Sys2Proof.Machine

/-! ## Good states -/

/-- Traits that a legal parameter block can give (R5, R120, R142). -/
structure GoodTraits (t : Traits) : Prop where
  legal : legalTraits t.maxVal t.near t.reset = true
  notFour : ¬(t.maxVal = 4 ∧ t.near = 0)
  range : t.range = rangeOf t.maxVal t.near
  qbpp : t.qbpp = clog2 t.range
  bpp : t.bpp = clog2 t.maxVal
  limit : t.limit = 2 * (t.bpp + max 8 t.bpp)
  t1 : t.near + 1 ≤ t.t1
  t12 : t.t1 ≤ t.t2
  t23 : t.t2 ≤ t.t3
  t3 : t.t3 ≤ t.maxVal

/-- A regular context within its bounds (R40, R164). -/
structure GoodCtx (t : Traits) (r : RegCtx) : Prop where
  nPos : 1 ≤ r.n
  nMax : r.n ≤ t.reset
  bLow : -(r.n : Int) < r.b
  bHigh : r.b ≤ 0
  cLow : -128 ≤ r.c
  cHigh : r.c ≤ 127
  aMax : r.a ≤ initialA t.range + r.n * 65535

/-- A run context within its bounds (R40, R185). -/
structure GoodRun (t : Traits) (r : RunCtx) : Prop where
  nPos : 1 ≤ r.n
  nMax : r.n ≤ t.reset
  nnMax : r.nn + 1 ≤ r.n
  aMax : r.a ≤ initialA t.range + r.n * 65535

/-- The invariants of a scan (R40), with the canonical form of the two sparse spaces it uses. -/
structure ScanInv (s : State) : Prop where
  traits : GoodTraits s.tr
  ctx : ∀ q, GoodCtx s.tr (ctxAt s q)
  rctx : ∀ t, GoodRun s.tr (rctxAt s t)
  runindex : s.runindex ≤ 31
  runidx : ∀ c, runidxAt s c ≤ 31
  buf : ∀ key, isSample s.tr (sparseRead 0 s.buf key) = true
  bufWf : sparseWf 0 s.buf = true
  runidxWf : sparseWf 0 s.runidx = true

/-- The pending bits of the writer are fewer than complete a byte (`10_state.md` R32). -/
def writerOk (w : Writer) : Bool := w.wacc.length < byteRoom w

/-- What every operation keeps, inside a scan too (`20_memory.md` R60, R61; `10_state.md` R40; log entries 3, 9): the
three sparse spaces are canonical, an accepted parameter block is legal, and, while no scan error stands, the context files
and the run indexes are within the bounds no parameter enters, and so is the writer unless the last scan was a decode. -/
structure Sound (s : State) : Prop where
  bytes : Memory.wf s.bs = true
  buf : sparseWf 0 s.buf = true
  runidxWf : sparseWf 0 s.runidx = true
  params : s.configured = true → legalParams s.build s.pr = true
  ctx : s.err = .none → ∀ q, 1 ≤ (ctxAt s q).n ∧ -((ctxAt s q).n : Int) < (ctxAt s q).b ∧ (ctxAt s q).b ≤ 0 ∧
    -128 ≤ (ctxAt s q).c ∧ (ctxAt s q).c ≤ 127
  rctx : s.err = .none → ∀ t, (rctxAt s t).nn + 1 ≤ (rctxAt s t).n
  runindex : s.err = .none → s.runindex ≤ 31
  runidx : s.err = .none → ∀ c, runidxAt s c ≤ 31
  writer : s.err = .none → s.dir = false → writerOk s.wr = true

/-- What every step keeps, from any state that has it: soundness, and between steps no scan is in progress. -/
structure Inv (s : State) : Prop extends Sound s where
  notBusy : s.busy = false

/-! ## What an operation may write -/

/-- The classes of operations, by the state they may write. -/
inductive OpClass where
  /-- `CONFIGURE` and the scan commands. -/
  | host
  /-- The set-up of one register group, and the two ends of a scan. -/
  | setup
  /-- Only working registers, results, context entries and `RUNINDEX`. -/
  | arithmetic
  /-- These, the reader, and the line buffers. -/
  | reading
  /-- These, the writer and the sink, and the line buffers. -/
  | writing
  /-- What the direction of the scan reads or writes, and the sequencer. -/
  | scanning
  /-- The codeword forms. -/
  | codeword
  deriving DecidableEq, Repr

/-- The class of an instruction. -/
def opClass : Instr → OpClass
  | .configure .. => .host
  | .encodeScan .. => .host
  | .decodeScan .. => .host
  | .trInit .. => .setup
  | .trQerr .. => .arithmetic
  | .trModr .. => .arithmetic
  | .trErrval .. => .arithmetic
  | .trCorrp .. => .arithmetic
  | .trRecon .. => .arithmetic
  | .trIsnear .. => .arithmetic
  | .qtDeft .. => .arithmetic
  | .qtBuild .. => .setup
  | .qtQuant .. => .arithmetic
  | .qtCtxid .. => .arithmetic
  | .rcInit .. => .setup
  | .rcGetk .. => .arithmetic
  | .rcCorr .. => .arithmetic
  | .rcUpd .. => .arithmetic
  | .rmInit .. => .setup
  | .rmGetk .. => .arithmetic
  | .rmMap .. => .arithmetic
  | .rmErrval .. => .arithmetic
  | .rmUpd .. => .arithmetic
  | .brInit .. => .setup
  | .brFill => .reading
  | .brRdv .. => .reading
  | .brPeek => .reading
  | .brRdb => .reading
  | .brSkip .. => .reading
  | .brHigh => .reading
  | .brDecv .. => .reading
  | .brEnd => .setup
  | .gtBuild => .arithmetic
  | .gtLook .. => .reading
  | .bwInit .. => .setup
  | .bwApp .. => .writing
  | .bwFlush => .writing
  | .bwEncv .. => .writing
  | .bwEnd => .setup
  | .spNeigh .. => .arithmetic
  | .spPred .. => .arithmetic
  | .spMape .. => .arithmetic
  | .spUnmape .. => .arithmetic
  | .spEncreg .. => .writing
  | .spDecreg .. => .reading
  | .rnIncidx => .arithmetic
  | .rnDecidx => .arithmetic
  | .rnEnclen .. => .writing
  | .rnDeclen .. => .reading
  | .rnEncrierr .. => .writing
  | .rnDecrierr .. => .reading
  | .rnEncri .. => .writing
  | .rnDecri .. => .reading
  | .rnEncrun .. => .writing
  | .rnDecrun .. => .reading
  | .scGuard => .scanning
  | .scLine => .scanning
  | .scLine3 => .scanning
  | .scScan => .scanning
  | .cwGolomb .. => .codeword
  | .cwEscape .. => .codeword
  | .cwRunseg => .codeword
  | .cwRunrem .. => .codeword
  | .cwRuneol => .codeword
  | .cwPad .. => .codeword
  | .cwStuff => .codeword

/-- What no operation but the host commands and the set-ups writes: the parameters, the traits, the table, the status
registers, the BYTE position, what the host holds at its ports, and what the block is built with (`10_state.md` R21, R22,
R23, R27). -/
structure Kept (s t : State) : Prop where
  pr : t.pr = s.pr
  configured : t.configured = s.configured
  tr : t.tr = s.tr
  err : t.err = s.err
  busy : t.busy = s.busy
  done : t.done = s.done
  dir : t.dir = s.dir
  sr1 : t.sr1 = s.sr1
  qt : t.qt = s.qt
  bytePos : t.bytePos = s.bytePos
  lineSrc : t.lineSrc = s.lineSrc
  issue : t.issue = s.issue
  host : t.host = s.host
  free : t.free = s.free
  build : t.build = s.build
  resetIn : t.resetIn = s.resetIn

/-- Beside `Kept`, what the operations of one line leave: the sequencer, the stored run indexes, the delivered lines. -/
structure KeptLine (s t : State) : Prop extends Kept s t where
  seq : t.seq = s.seq
  runidx : t.runidx = s.runidx
  lineDst : t.lineDst = s.lineDst
  lineRoom : t.lineRoom = s.lineRoom

/-- The writer and the sink are untouched. -/
structure KeptSink (s t : State) : Prop where
  wr : t.wr = s.wr
  bs : t.bs = s.bs

/-- Only bytes from the writer's position up to its new one are written (`20_memory.md` R70): its place in the sink moves
forward, and every byte outside reads as before. -/
structure StoresForward (s t : State) : Prop where
  forward : s.wr.wpos ≤ t.wr.wpos
  bytes : ∀ a, a < s.wr.wpos ∨ t.wr.wpos ≤ a → memRead t.bs a = memRead s.bs a
  wcap : t.wr.wcap = s.wr.wcap
  wstart : t.wr.wstart = s.wr.wstart

/-! ## The stuffed bytes (`45_bit_writer.md` R241) -/

/-- How many stream bits a byte carries after a byte that was (`ff`) or was not `0xFF`. -/
def stuffRoom (ff : Bool) : Nat := if ff then 7 else 8

/-- The bytes that bits complete, appended after the pending `acc` when the last byte was (`ff`) or was not `0xFF`; the
bits pending then, and whether the last byte is `0xFF`. -/
def stuffBits : Bool → List Bool → List Bool → List Byte × List Bool × Bool
  | ff, acc, [] => ([], acc, ff)
  | ff, acc, x :: xs =>
    if (acc ++ [x]).length = stuffRoom ff then
      let b : Byte := BitVec.ofNat 8 (bitsVal (acc ++ [x]))
      (b :: (stuffBits (byteIsFF b) [] xs).1, (stuffBits (byteIsFF b) [] xs).2)
    else stuffBits ff (acc ++ [x]) xs

/-- The bytes that bits complete when they are appended to a writer. -/
def newBytes (w : Writer) (bits : List Bool) : List Byte := (stuffBits w.wff w.wacc bits).1

/-- The bits `BW.END` adds: the padding, and seven zeros more when the last byte is then `0xFF` (R245). -/
def endBits (w : Writer) : List Bool :=
  List.replicate (padLength w) false ++
    (if (stuffBits w.wff w.wacc (List.replicate (padLength w) false)).2.2 then List.replicate 7 false else [])

/-- Consecutive bytes written from a position. -/
def writeBytes : Memory → Nat → List Byte → Memory
  | m, _, [] => m
  | m, p, b :: bs => writeBytes (memWrite m p b) (p + 1) bs

/-- The bytes that bits complete fit the sink (R246); where they complete none, they do. -/
def fits (w : Writer) (bits : List Bool) : Prop :=
  newBytes w bits = [] ∨ w.wpos + (newBytes w bits).length ≤ w.wcap

/-- The writer `v` is the writer `w` after `bits` were appended, in its normative state (R241). -/
structure Appended (w : Writer) (bits : List Bool) (v : Writer) : Prop where
  wacc : v.wacc = (stuffBits w.wff w.wacc bits).2.1
  wff : v.wff = (stuffBits w.wff w.wacc bits).2.2
  wpos : v.wpos = w.wpos + (newBytes w bits).length
  written : v.written = w.written + (newBytes w bits).length
  wcap : v.wcap = w.wcap
  wstart : v.wstart = w.wstart

/-- The state after `bits` were appended: their bytes in the sink, and the writer `v` (R241). -/
def afterAppend (s : State) (bits : List Bool) (v : Writer) : State :=
  { s with bs := writeBytes s.bs s.wr.wpos (newBytes s.wr bits), wr := v }

/-- The reader `v` is the reader `r` after `n` bits were consumed, in its normative state (R201). -/
structure Consumed (r : Reader) (n : Nat) (v : Reader) : Prop where
  rp : v.rp = r.rp + n
  rstart : v.rstart = r.rstart
  rend : v.rend = r.rend

/-! ## The two realisations (`44_bit_reader.md` R202, `45_bit_writer.md` R243) -/

/-- Whether the last byte the cache took is a `0xFF`, whose last bit waits for the stuffed bit to fall on it (R202). -/
def tookFF (m : Memory) (r : Reader) : Bool := r.rstart < r.rpos && memRead m (r.rpos - 1) = 0xFF

/-- The cache holds `dbits[rp .. rp + rvalid)` from its most significant bit on, those of the bytes before `rpos`, and below
them nothing but the waiting bit of a `0xFF` (R202). -/
structure CacheHolds (m : Memory) (r : Reader) : Prop where
  valid : r.rvalid ≤ Config.cacheBits
  low : r.rstart ≤ r.rpos
  high : r.rpos ≤ dataEnd m r.rstart r.rend
  count : r.rp + r.rvalid + (tookFF m r).toNat = (bitsFrom m r.rstart (r.rpos - r.rstart) r.rstart).length
  bits : ∀ k < Config.cacheBits, r.rcache.getMsbD k =
    if k < r.rvalid then (dbits m r.rstart r.rend).getD (r.rp + k) false else k = r.rvalid && tookFF m r

/-- The first `n` bits of the writer's buffer. -/
def bufferBits (w : Writer) (n : Nat) : List Bool := (List.range n).map fun k => w.wbuf.getMsbD k

/-- The writer `v` is `w` after the bytes `out`, at most four, left the buffer: its first bits, packed after the flag of the
last byte that left before, a byte at a time while any bit is pending (R243). -/
structure Flushed (w : Writer) (out : List Byte) (v : Writer) : Prop where
  four : out.length ≤ 4
  bits : ∃ n : Nat, v.wfree = w.wfree + n ∧ stuffBits w.drainff [] (bufferBits w n) = (out, [], v.drainff) ∧ v.wbuf = w.wbuf <<< n
  drainpos : v.drainpos = w.drainpos + out.length
  ends : out.length = 4 ∨ 32 ≤ v.wfree
  pending : ∀ m < out.length, ∃ n : Nat, w.wfree + n < 32 ∧ (stuffBits w.drainff [] (bufferBits w n)).1 = out.take m ∧
    (stuffBits w.drainff [] (bufferBits w n)).2.1 = []
  same : Appended w [] v

/-- Room in the sink for `n` more bits, at seven bits a byte. -/
def roomFor (w : Writer) (n : Nat) : Prop := 7 * w.wpos + w.wacc.length + n ≤ 7 * w.wcap

/-- More bits than coding one element of a line can append, whatever the element and the state (R407: at most `limit` per
codeword, plus the run-length bits). -/
def elementBits : Nat := 400

/-! ## The codewords (`30_encoding.md` R94, R95, R98) -/

/-- The codeword of the mapped value `m` (R94, R95). -/
def valueBits (k m glimit qbpp : Nat) : List Bool :=
  if m / 2 ^ k + qbpp + 1 < glimit then List.replicate (m / 2 ^ k) false ++ true :: bitsOf (m % 2 ^ k) k
  else List.replicate (glimit - qbpp - 1) false ++ true :: bitsOf ((m - 1) % 2 ^ qbpp) qbpp

/-- A mapped value that `BW.ENCV` can carry (R95, R242, R244): every group has at most 31 bits, the escape prefix has a
zero, and an escaped value is within `1 .. 2^qbpp`. -/
def encodable (k m glimit qbpp : Nat) : Prop :=
  k ≤ 31 ∧ qbpp ≤ 31 ∧ qbpp + 2 ≤ glimit ∧
    if m / 2 ^ k + qbpp + 1 < glimit then m / 2 ^ k ≤ 60 else 1 ≤ m ∧ m ≤ 2 ^ qbpp ∧ glimit ≤ qbpp + 62

/-! ## The samples (`46_sample_pipeline.md` R273, R276, R277) -/

/-- The prediction with its bias correction, of the sample whose neighbours and context id the registers hold (R273). -/
def biasedPrediction (s : State) : Int :=
  medianPrediction s.w.ra s.w.rb s.w.rc + asgn (ctxAt s (contextIndex s)).c (neg1 s.w.qs)

/-- The corrected prediction of that sample (R273). -/
def correctedPrediction (s : State) : Int := corrp s.tr.maxVal (biasedPrediction s)

/-- The error of the sample, normalised in sign (R276). -/
def regularError (s : State) : Int := errval s.tr (asgn (s.w.x - correctedPrediction s) (neg1 s.w.qs))

/-- The mapped value of the sample (R276). -/
def regularValue (k : Nat) (s : State) : Nat :=
  mapError (xorMask (errorCorrection (ctxAt s (contextIndex s)) (k ||| s.tr.near)) (regularError s))

/-- The state after the regular sample `i` of channel `ch` was coded with the parameter `k` and the error `err`: the
context updated, the working registers, the sample rebuilt in the line buffer (R276, R277). -/
def regularAfter (i ch k : Nat) (err : Int) (merr : Nat) (s : State) : State :=
  let rx := recon s.tr (correctedPrediction s) (asgn err (neg1 s.w.qs))
  curWrite
    (setWork (setCtx s (contextIndex s) (updateRegular s.tr (ctxAt s (contextIndex s)) err))
      { s.w with
        sign := neg1 s.w.qs
        k := k
        pred := medianPrediction s.w.ra s.w.rb s.w.rc
        px := correctedPrediction s
        err := err
        merr := merr
        rx := rx })
    ch i rx

/-! ## The run lengths (`47_run_mode.md` R303) -/

/-- The `CW.RUNSEG` bits of a run length, what is left of it, and the run index after them (R303); a segment takes at
least one sample, so the length bounds their number. -/
def segmentBits : Nat → Nat → Nat → List Bool × Nat × Nat
  | 0, left, r => ([], left, r)
  | fuel + 1, left, r =>
    if 2 ^ jOf r ≤ left then
      let t := segmentBits fuel (left - 2 ^ jOf r) (min 31 (r + 1))
      (true :: t.1, t.2)
    else ([], left, r)

/-- The bits of a run length (R303). -/
def lengthBits (r runlen : Nat) (eol : Bool) : List Bool :=
  let t := segmentBits runlen runlen r
  t.1 ++ (if eol then (if t.2.1 ≠ 0 then [true] else []) else false :: bitsOf t.2.1 (jOf t.2.2))

/-- The run index after a run length (R303). -/
def lengthIndex (r runlen : Nat) : Nat := (segmentBits runlen runlen r).2.2

/-! ## Whole lines and scans -/

/-- The host holds line `y` of slot `c`, with `WIDTH` elements of the right shape and of samples under the traits `t` (R343). -/
def lineReady (t : Traits) (s : State) (c y : Nat) : Prop :=
  ∃ l px, heldLine s.lineSrc c y = some l ∧ lineElements s.pr.width (channels s) l = some px ∧
    px.all (fun e => e.all (isSample t)) = true

/-- The host holds every line of the scan (R343). -/
def linesReady (s : State) : Prop := ∀ y < s.pr.height, ∀ c < slots s.pr, lineReady (scanTraits s.pr) s c y

/-- The host holds every line that comes before line `y` of slot `c` (R336, R343). -/
def readyBefore (s : State) (c y : Nat) : Prop :=
  ∀ y' c', c' < slots s.pr → (y' < y ∨ y' = y ∧ c' < c) → lineReady (scanTraits s.pr) s c' y'

/-- The host accepts `n` lines (R342). -/
def Accepts (s : State) (n : Nat) : Prop := ∀ m, s.lineRoom = some m → n ≤ m

/-- The bytes an encode of the lines the host holds writes from `p0` on (R340). -/
def scanBytes (p0 cap : Nat) (s : State) : List Byte :=
  match exec (.encodeScan p0 cap) s with
  | .next t => (List.range (t.wr.wpos - p0)).map fun j => memRead t.bs (p0 + j)
  | .fault _ => []
  | .refused _ => []

/-- Every line of the rectangle of `s` was delivered to the host of `u`, each sample within `near` of the one the host of `s`
holds (R341, R342). -/
def Delivered (s u : State) : Prop :=
  ∀ y c, s.pr.rectY ≤ y → y < s.pr.rectY + s.pr.rectH → c < slots s.pr → ∃ out src,
    heldLine u.lineDst c y = some out ∧ heldLine s.lineSrc c y = some src ∧ out.px.length = s.pr.rectW ∧
      ∀ j < s.pr.rectW, ∀ ch < channels s,
        ((out.px.getD j []).getD ch 0 - (src.px.getD (s.pr.rectX + j) []).getD ch 0).natAbs ≤ s.pr.near

/-- An encoder and a decoder about to code the same element `seq.i` of the same line: the same parameters, traits,
statistics and run index, the same previous line, and the same reconstructed samples left of the element (R277, R304,
R306: the premises of the inverse properties). -/
structure Twin (s d : State) : Prop where
  encoder : s.dir = false
  decoder : d.dir = true
  pr : d.pr = s.pr
  tr : d.tr = s.tr
  ctx : d.ctx = s.ctx
  rctx : d.rctx = s.rctx
  runindex : d.runindex = s.runindex
  y : d.seq.y = s.seq.y
  c : d.seq.c = s.seq.c
  i : d.seq.i = s.seq.i
  bufWf : sparseWf 0 d.buf = true
  prev : ∀ ch < channels s, ∀ j : Int, -1 ≤ j → j ≤ s.pr.width → prevRead d ch j = prevRead s ch j
  cur : ∀ ch < channels s, ∀ j : Int, -1 ≤ j → j < s.seq.i → curRead d ch j = curRead s ch j

end Sys2Proof.Machine
end

