-- ==== Sys2Proof/Certificates/Slice0/Obligations.lean ====
section
/-! DEFINITION. The statements for the provers. Each is one sentence about the machine, with the rule it comes from. A raised
error is itself a next state (R378), so a statement that an operation completes gives the state it completes in, or says
of that state what no state after an error has. -/

section

open Sys2Proof Sys2Proof.Machine

/-! ## Decoding and stepping -/

/-- Where no reset is applied, a step runs the operation its fetch decodes, from the issue register or else from the HOST
port, with that operation's bytes taken out; with nothing pending it does not happen. The two fetch places are the model's
(log entry 2), and so is the reset input (log entry 30); that the HOST port takes only HOST operations is R92. -/
def Obligations.StepRunsDecodedOperation : Prop :=
  (∀ s i rest, s.resetIn = .off → s.issue ≠ [] → decode s.issue = .ok (i, rest) →
    step s = exec i { s with issue := rest }) ∧
  (∀ s i rest, s.resetIn = .off → s.issue = [] → s.host ≠ [] → decode s.host = .ok (i, rest) →
    step s = if isHostOperation i then exec i { s with host := rest } else .refused .uopOnHostPort) ∧
  (∀ s e, s.resetIn = .off → s.issue ≠ [] → decode s.issue = .error e → step s = .refused (.undecodable e)) ∧
  (∀ s e, s.resetIn = .off → s.issue = [] → s.host ≠ [] → decode s.host = .error e →
    step s = .refused (.undecodable e)) ∧
  (∀ s, s.resetIn = .off → s.issue = [] → s.host = [] → step s = .fault .noOperation) ∧
  ∀ s nbits w i rest, decode (fetchBytes nbits w) = .ok (i, rest) →
    step (State.withFetchWord s nbits w) = exec i { s with issue := rest, resetIn := .off }

/-- Operations written out from the selectors of R91 and the operand words of log entry 1, one of each unit. -/
def Obligations.WrittenOutOperationsDecode : Prop :=
  decode [0x02, 0x10, 0, 0, 0, 0x00, 0x01, 0, 0] = .ok (.encodeScan 16 256, []) ∧
  decode [0x11, 0xFD, 0xFF, 0xFF, 0xFF] = .ok (.trQerr (-3), []) ∧
  decode [0x23, 0xFD, 0xFF, 0xFF, 0xFF, 4, 0, 0, 0, 0xFC, 0xFF, 0xFF, 0xFF] = .ok (.qtCtxid (-3) 4 (-4), []) ∧
  decode [0x33, 4, 0, 0, 0, 0x10, 0, 0, 0] = .ok (.rcUpd 4 16, []) ∧
  decode [0x44, 1, 0, 0, 0, 0x5A, 0, 0, 0, 0xB3, 0, 0, 0] = .ok (.rmUpd 1 90 179, []) ∧
  decode [0x57, 2, 0, 0, 0, 0x20, 0, 0, 0, 8, 0, 0, 0] = .ok (.brDecv 2 32 8, []) ∧
  decode [0x61, 0xFF, 0, 0, 0, 8, 0, 0, 0] = .ok (.bwApp 255 8, []) ∧
  decode [0x74, 3, 0, 0, 0] = .ok (.spEncreg 3, []) ∧
  decode [0x82, 2, 0, 0, 0, 1, 0, 0, 0] = .ok (.rnEnclen 2 true, []) ∧
  decode [0x93] = .ok (.scScan, [])

/-- Every well-formed operation, with every operand at every value its word admits, is read back from its bytes, whatever
bytes follow (R90, R91; the byte format is the model's, log entry 1). -/
def Obligations.DecodeInvertsEncode : Prop :=
  ∀ i rest, isOperation i = true → wellFormed i = true → decode (encode i ++ rest) = .ok (i, rest)

/-- A selector that is none of R91 is no operation, whatever follows it, and the HOST port refuses it (R92). A step on the
issue register refuses it too: that register is the model's own fetch place (log entry 2), and R92 speaks of host commands
only. -/
def Obligations.ReservedSelectorsAreRefused : Prop :=
  ∀ op : Byte, op.toNat ∉ [0x01, 0x02, 0x03, 0x10, 0x11, 0x12, 0x13, 0x14, 0x15, 0x16, 0x20, 0x21, 0x22, 0x23, 0x30, 0x31,
      0x32, 0x33, 0x40, 0x41, 0x42, 0x43, 0x44, 0x50, 0x51, 0x52, 0x53, 0x54, 0x55, 0x56, 0x57, 0x58, 0x59, 0x5A, 0x60,
      0x61, 0x62, 0x63, 0x64, 0x70, 0x71, 0x72, 0x73, 0x74, 0x75, 0x80, 0x81, 0x82, 0x83, 0x84, 0x85, 0x86, 0x87, 0x88,
      0x89, 0x90, 0x91, 0x92, 0x93] →
    (∀ bs, decode (op :: bs) = .error (.reservedSelector op)) ∧
    (∀ s bs, s.resetIn = .off → s.issue = [] → s.host = op :: bs →
      step s = .refused (.undecodable (.reservedSelector op))) ∧
    ∀ s bs, s.resetIn = .off → s.issue = op :: bs → step s = .refused (.undecodable (.reservedSelector op))

/-- The codewords of one coding context are told apart and read back, whatever bits follow: the two of a mapped value as
R96 says, and the three of a run length by the samples left in the line (R94, R95, R96, R98). -/
def Obligations.CodewordsAreReadBack : Prop :=
  (∀ c h r rest bits, cwBits c (.cwGolomb h r) = some bits →
    decodeValueCw c (bits ++ rest) = some (.cwGolomb h r, rest)) ∧
  (∀ c v rest bits, cwBits c (.cwEscape v) = some bits → decodeValueCw c (bits ++ rest) = some (.cwEscape v, rest)) ∧
  (∀ c left rest bits, cwBits c .cwRunseg = some bits → 2 ^ c.j ≤ left →
    decodeRunCw c left (bits ++ rest) = some (.cwRunseg, rest)) ∧
  (∀ c left rest bits, cwBits c .cwRuneol = some bits → left < 2 ^ c.j →
    decodeRunCw c left (bits ++ rest) = some (.cwRuneol, rest)) ∧
  ∀ c n left rest bits, cwBits c (.cwRunrem n) = some bits →
    decodeRunCw c left (bits ++ rest) = some (.cwRunrem n, rest)

/-! ## Reset, the invariant, errors, the host commands -/

/-- Right after reset: `Idle`, `SR0 = 0`, and the constant tables `J` and `gt` hold their contents (R401; the entries of
`gt` are those of the worked examples of R211). A reset applied in any state, inside a scan too, leaves `Idle` and `SR0 = 0`
and no operation to run but the host's next commands (R400). What it leaves of what is not the block's own is the model's
(log entry 30): the lines the host holds ready and the bytes of the array stay, but for the sink of an encode it lands in,
whose bytes are open; between scans the lines delivered and the commands pending at the HOST port stay too. -/
def Obligations.ResetLeavesIdle : Prop :=
  State.reset.seq.fsm = .idle ∧ sr0 State.reset = 0 ∧
  jTable = [0, 0, 0, 0, 1, 1, 1, 1, 2, 2, 2, 2, 3, 3, 3, 3, 4, 4, 5, 5, 6, 6, 7, 7, 8, 9, 10, 11, 12, 13, 14, 15] ∧
  gtEntry 0 0x80 = (0, 1) ∧ gtEntry 0 0x7F = (-1, 2) ∧ gtEntry 0 0x20 = (1, 3) ∧ gtEntry 0 0x01 = (-4, 8) ∧
  gtEntry 0 0x00 = (0, 0) ∧ gtEntry 2 0x9F = (0, 3) ∧ gtEntry 2 0xA0 = (-1, 3) ∧ gtEntry 2 0x5F = (-3, 4) ∧
  ∀ s, s.resetIn ≠ .off → ∃ t, step s = .next t ∧ t.seq.fsm = .idle ∧ sr0 t = 0 ∧ t.configured = false ∧ t.issue = [] ∧
    t.resetIn = .off ∧ t.build = s.build ∧ t.lineSrc = s.lineSrc ∧
    (s.resetIn = .now → t.bs = s.bs ∧ t.lineDst = s.lineDst ∧ t.lineRoom = s.lineRoom ∧ t.host = s.host) ∧
    ∀ a, memRead t.bs a ≠ memRead s.bs a → s.resetIn = .midScan ∧
      ∃ p0 cap u, fetchNext s = .next (.encodeScan p0 cap, u) ∧ p0 ≤ a ∧ a < cap

/-- The state after reset is sound, with no scan in progress. R38 leaves the context files, `RUNINDEX`, the parameters, the
buffers and the array unspecified there: that the values the model resets them to meet the bounds of R40 is the model's
choice (log entries 4, 6, 7 and 8; log entry 6 names this statement). -/
def Obligations.ResetMeetsInvariant : Prop := Machine.Inv State.reset

/-- Every step keeps the invariant, from every state that has it: the sparse spaces stay canonical, an accepted parameter
block legal, no scan in progress between steps, and, while no error stands, `N >= 1`, `-N < B <= 0`, `-128 <= C <= 127`,
`Nn <= N - 1`, the run indexes within `0..31` and the pending bits of an encode fewer than a byte (R40, R164, R185). That no
scan is in progress between steps is the model's step boundary (log entry 3); that nothing is said of these while an error
stands is log entry 9, where they are free values; a reset step is log entry 30, and leaves what log entries 4 to 8 name. -/
def Obligations.EveryStepKeepsInvariant : Prop := ∀ s t, Machine.Inv s → step s = .next t → Machine.Inv t

/-- An operation that leaves an error code it did not find has taken that error: `done` is set, `busy` cleared, the
sequencer `Idle`, and PR0..PR14 keep their values (R378). -/
def Obligations.ErrorsEndTheScan : Prop :=
  ∀ i s t, exec i s = .next t → t.err ≠ s.err → t.err ≠ .none →
    t.done = true ∧ t.busy = false ∧ t.seq.fsm = .idle ∧ t.pr = s.pr ∧ t.configured = s.configured

/-- While the sequencer is not `Idle`, or a scan is in progress, every host command is refused (R404); and in `Idle` a scan
is refused before a `CONFIGURE` (R92), on a block that is not legal, and where its start position is past the end of the
array (R340, R341; the two tests are log entry 26). -/
def Obligations.HostCommandsRefused : Prop :=
  ∀ s, (s.seq.fsm ≠ .idle ∨ s.busy = true →
      (∀ w h b n e v m t1 t2 t3 r x y rw rh, ∃ why,
        exec (.configure w h b n e v m t1 t2 t3 r x y rw rh) s = .refused why) ∧
      (∀ p0 cap, exec (.encodeScan p0 cap) s = .refused .notIdle) ∧
      ∀ p0 len, exec (.decodeScan p0 len) s = .refused .notIdle) ∧
    ∀ p0 n, s.seq.fsm = .idle → s.busy = false →
      (s.configured = false →
        exec (.encodeScan p0 n) s = .refused .notConfigured ∧ exec (.decodeScan p0 n) s = .refused .notConfigured) ∧
      (s.configured = true → legalParams s.build s.pr = false →
        exec (.encodeScan p0 n) s = .refused .illegalParameters ∧
        exec (.decodeScan p0 n) s = .refused .illegalParameters) ∧
      (s.configured = true → legalParams s.build s.pr = true → n < p0 →
        exec (.encodeScan p0 n) s = .refused .operandRange ∧ exec (.decodeScan p0 n) s = .refused .operandRange)

/-- `CONFIGURE` (R331): in `Idle`, a legal block goes to PR0..PR14 and nothing else is written but that a block has been
accepted; an illegal one is refused. The legality test is on the resolved values, with the OPEN bounds `MAX_DIM` and
`MAX_COMP` of the state (R5; log entry 20). -/
def Obligations.ConfigureWritesParameters : Prop :=
  ∀ s w h b n e v m t1 t2 t3 r x y rw rh, s.seq.fsm = .idle → s.busy = false →
    let m' := if m = 0 then 2 ^ b - 1 else m
    let d1 := defaultT1 m' e
    let d2 := defaultT2 m' e
    let d3 := defaultT3 m' e
    let u1 := if t1 = 0 then d1 else t1
    let u2 := if t2 = 0 then d2 else t2
    let u3 := if t3 = 0 then d3 else t3
    let legal := 1 ≤ w ∧ w ≤ s.build.maxDim ∧ 1 ≤ h ∧ h ≤ s.build.maxDim ∧ 2 ≤ b ∧ b ≤ 16 ∧
      1 ≤ n ∧ n ≤ s.build.maxComp ∧ v ≤ 2 ∧ (v = 2 → n = 3) ∧
      3 ≤ m' ∧ m' ≤ 2 ^ b - 1 ∧ e ≤ (m' - 1) / 2 ∧ ¬(m' = 4 ∧ e = 0) ∧ (r = 0 ∨ 3 ≤ r ∧ r ≤ 255) ∧
      e + 1 ≤ u1 ∧ u1 ≤ u2 ∧ u2 ≤ u3 ∧ u3 ≤ m' ∧ x + rw ≤ w ∧ y + rh ≤ h ∧ 1 ≤ rw ∧ 1 ≤ rh
    (legal → exec (.configure w h b n e v m t1 t2 t3 r x y rw rh) s = .next { s with
      configured := true
      pr := { width := w, height := h, bps := b, ncomp := n, near := e,
              ilv := if v = 0 then .none else if v = 1 then .line else .sample,
              maxVal := m, t1 := t1, t2 := t2, t3 := t3, reset := r, rectX := x, rectY := y, rectW := rw, rectH := rh } }) ∧
    (¬legal → exec (.configure w h b n e v m t1 t2 t3 r x y rw rh) s = .refused .illegalParameters)

/-- A scan command that is accepted ends, with or without an error, `Idle`, not busy, done, with its direction in
`SR0.dir`, and with the parameter block and the host's lines as they were (R344, R378, R379); where no error was raised, the
traits are those of the block. After an error the traits are free values, and that the direction, the accepted flag and the
host's lines stay is the model's reading (log entry 9). -/
def Obligations.ScanCommandsEndIdle : Prop :=
  ∀ s t p n d, exec (if d then .decodeScan p n else .encodeScan p n) s = .next t →
    t.seq.fsm = .idle ∧ t.busy = false ∧ t.done = true ∧ t.dir = d ∧ t.pr = s.pr ∧ t.configured = s.configured ∧
      t.lineSrc = s.lineSrc ∧ (t.err = .none → t.tr = scanTraits s.pr)

/-- No operation but `CONFIGURE` writes PR0..PR14 (R21, R378). -/
def Obligations.OnlyConfigureWritesParameters : Prop :=
  ∀ i s t, (∀ w h b n e v m t1 t2 t3 r x y rw rh, i ≠ .configure w h b n e v m t1 t2 t3 r x y rw rh) →
    exec i s = .next t → t.pr = s.pr ∧ t.configured = s.configured

/-- Coding never changes the traits or the table: an operation of any class but the host commands and the set-ups that ends
without an error leaves TR0..TR9, `qt`, the parameters, `SR0` but its `fsm` field, `SR1` and the BYTE position as they
were (R22, R148, R404). That the BYTE position keeps its value until the next `BR.END` is log entry 28. -/
def Obligations.CodingKeepsTraits : Prop :=
  ∀ i s t, opClass i ≠ .host → opClass i ≠ .setup → exec i s = .next t → t.err = .none → Kept s t

/-! ## Frames -/

/-- The operations that only compute leave everything but the working registers, the results, the context files and
`RUNINDEX`: the reader, the writer, every byte of the array and every element of the line buffers (R24, R25, R26, R33). That
the BYTE position keeps its value is log entry 28. -/
def Obligations.ArithmeticFrame : Prop :=
  ∀ i s t, opClass i = .arithmetic → exec i s = .next t → t.err = .none →
    KeptLine s t ∧ KeptSink s t ∧ t.rd = s.rd ∧ t.buf = s.buf ∧ ∀ a, memRead t.bs a = memRead s.bs a

/-- The operations that read the stream leave the writer and every byte of the array, the bounds of the reader, and what
no unit writes; its position only moves forward (R60, R70). That one issued alone leaves the sequencer's position, `RN.DECRUN`
too, is log entry 24, and that the BYTE position keeps its value is log entry 28. -/
def Obligations.ReadingFrame : Prop :=
  ∀ i s t, opClass i = .reading → exec i s = .next t → t.err = .none →
    KeptLine s t ∧ KeptSink s t ∧ (∀ a, memRead t.bs a = memRead s.bs a) ∧ s.rd.rp ≤ t.rd.rp ∧
      t.rd.rstart = s.rd.rstart ∧ t.rd.rend = s.rd.rend

/-- The operations that write the stream leave the reader and what no unit writes, and every byte of the array but those
from the writer's position before to its position after (R60, R70). That one issued alone leaves the sequencer's position,
`RN.ENCRUN` too, is log entry 24, and that the BYTE position keeps its value is log entry 28. -/
def Obligations.WritingFrame : Prop :=
  ∀ i s t, Memory.wf s.bs = true → opClass i = .writing → exec i s = .next t → t.err = .none →
    KeptLine s t ∧ t.rd = s.rd ∧ StoresForward s t

/-- `SC.GUARD`, `SC.LINE`, `SC.LINE3`, `SC.SCAN` and the codewords, by the direction of the scan: a decode leaves the writer
and every byte of the array, an encode leaves the reader and every byte but those the writer's position moves over; and
neither writes what no unit writes (R60, R70). That a codeword runs on its own, by `SR0.dir`, is log entry 15, that a UOP
issued alone goes by `SR0.dir` is log entry 24, and that the BYTE position keeps its value is log entry 28. -/
def Obligations.ScanningFrame : Prop :=
  ∀ i s t, Memory.wf s.bs = true → opClass i = .scanning ∨ opClass i = .codeword → exec i s = .next t → t.err = .none →
    Kept s t ∧ (s.dir = true → KeptSink s t ∧ ∀ a, memRead t.bs a = memRead s.bs a) ∧
      (s.dir = false → t.rd = s.rd ∧ t.lineDst = s.lineDst ∧ StoresForward s t)

/-! ## Unit TR -/

/-- `TR.INIT` (R120): on legal values TR0..TR6 take theirs, with `qbpp` and `bpp` the least powers (R121), and nothing else
changes; else it is refused. -/
def Obligations.TraitsInitialised : Prop :=
  ∀ s m e r,
    (3 ≤ m ∧ m ≤ 65535 ∧ e ≤ (m - 1) / 2 ∧ 3 ≤ r ∧ r ≤ 255 → ∃ q b,
      (m + 2 * e) / (2 * e + 1) + 1 ≤ 2 ^ q ∧ (∀ x < q, 2 ^ x < (m + 2 * e) / (2 * e + 1) + 1) ∧
      m ≤ 2 ^ b ∧ (∀ x < b, 2 ^ x < m) ∧
      exec (.trInit m e r) s = .next { s with tr := { s.tr with
        maxVal := m, near := e, reset := r, range := (m + 2 * e) / (2 * e + 1) + 1, qbpp := q, bpp := b,
        limit := 2 * (b + max 8 b) } }) ∧
    (¬(3 ≤ m ∧ m ≤ 65535 ∧ e ≤ (m - 1) / 2 ∧ 3 ≤ r ∧ r ≤ 255) →
      exec (.trInit m e r) s = .refused .illegalParameters)

/-- The bounds of the traits of a legal parameter block, which every scan sets up (R130): in particular `limit - qbpp` is
at least 18, on which the escape codeword rests. -/
def Obligations.TraitsWithinBounds : Prop :=
  ∀ s d p0 n, legalParams s.build s.pr = true →
    let t := (scanSetup d p0 n s).tr
    2 ≤ t.range ∧ t.range ≤ 65536 ∧ 1 ≤ t.qbpp ∧ t.qbpp ≤ 16 ∧ 2 ≤ t.bpp ∧ t.bpp ≤ 16 ∧ 20 ≤ t.limit ∧ t.limit ≤ 64 ∧
      t.qbpp ≤ t.bpp + 1 ∧ t.qbpp + 18 ≤ t.limit ∧ t.range ≤ t.maxVal + 1 ∧ t.near + 1 ≤ t.t1 ∧ t.t1 ≤ t.t2 ∧
      t.t2 ≤ t.t3 ∧ t.t3 ≤ t.maxVal

/-- The error path (R122, R123, R124) on every operand in range: `TR.QERR` and `TR.MODR` hand out their results on the
result port (the port is the model's, log entry 11), `TR.ERRVAL`, which is the two in turn (R103), writes `ERR`; out of
range each is refused (R10; log entry 12). -/
def Obligations.ErrorPathResults : Prop :=
  ∀ s e,
    exec (.trQerr e) s = (if -(s.tr.maxVal : Int) ≤ e ∧ e ≤ s.tr.maxVal then
      .next { s with result := [if 0 < e then (s.tr.near + e) / (2 * s.tr.near + 1)
        else -((s.tr.near - e) / (2 * s.tr.near + 1))] } else .refused .operandRange) ∧
    exec (.trModr e) s = (if -(s.tr.range : Int) < e ∧ e < s.tr.range then
      .next { s with result := [modr s.tr.range e] } else .refused .operandRange) ∧
    exec (.trErrval e) s = (if (-(s.tr.maxVal : Int) ≤ e ∧ e ≤ s.tr.maxVal) ∧
        -(s.tr.range : Int) < qerr s.tr.near e ∧ qerr s.tr.near e < s.tr.range then
      .next { s with w := { s.w with err := modr s.tr.range (qerr s.tr.near e) } } else .refused .operandRange)

/-- Range reduction (R123): its result is congruent to its operand modulo `range`, lies in
`-(range/2) .. (range+1)/2 - 1`, and is the operand where that lies there already. -/
def Obligations.ReductionIsCongruent : Prop :=
  ∀ (range : Nat) (q : Int), -(range : Int) < q → q < range →
    (range : Int) ∣ modr range q - q ∧ -((range : Int) / 2) ≤ modr range q ∧ modr range q ≤ (range + 1) / 2 - 1 ∧
      (-((range : Int) / 2) ≤ q → q ≤ (range + 1) / 2 - 1 → modr range q = q)

/-- The prediction and reconstruction path (R126, R127, R128): `TR.CORRP` clamps into `PX` in its range, and `TR.RECON`
dequantizes, wraps once and clamps into `RX`; each is refused outside its operand's range (log entry 12). `TR.ISNEAR` gives
its truth value on the result port (log entry 11) for any two integers (log entry 12). -/
def Obligations.ReconstructionResults : Prop :=
  ∀ s p e,
    exec (.trCorrp p) s = (if -128 ≤ p ∧ p ≤ s.tr.maxVal + 127 then
      .next { s with w := { s.w with px := max 0 (min p s.tr.maxVal) } } else .refused .operandRange) ∧
    exec (.trRecon p e) s = (if 0 ≤ p ∧ p ≤ s.tr.maxVal then
      let v := p + e * (2 * s.tr.near + 1)
      let u := if v < -(s.tr.near : Int) then v + s.tr.range * (2 * s.tr.near + 1)
        else if (s.tr.maxVal : Int) + s.tr.near < v then v - s.tr.range * (2 * s.tr.near + 1) else v
      .next { s with w := { s.w with rx := max 0 (min u s.tr.maxVal) } } else .refused .operandRange) ∧
    exec (.trIsnear p e) s = .next { s with result := [if (p - e).natAbs ≤ s.tr.near then 1 else 0] }

/-- The near-lossless bound (R130): a sample rebuilt from its own error is within `near` of it, and with `near = 0` equal. -/
def Obligations.NearLosslessBound : Prop :=
  ∀ (t : Traits) (x px : Int), GoodTraits t → 0 ≤ x → x ≤ t.maxVal → 0 ≤ px → px ≤ t.maxVal →
    (recon t px (errval t (x - px)) - x).natAbs ≤ t.near ∧
      (errval t (x - px)).natAbs ≤ t.range / 2

/-- What the lossless path of R129 computes, for `near = 0` and `max_val = 2^bpp - 1`, is what the general path computes:
the low `bpp` bits of the error read as signed, and the sum modulo `2^bpp`. -/
def Obligations.LosslessPathAgrees : Prop :=
  ∀ (t : Traits) (e px err : Int), GoodTraits t → t.near = 0 → t.maxVal + 1 = 2 ^ t.bpp →
    -(t.maxVal : Int) ≤ e → e ≤ t.maxVal → 0 ≤ px → px ≤ t.maxVal → err.natAbs ≤ t.range / 2 →
    errval t e = (BitVec.ofInt t.bpp e).toInt ∧
      recon t px err = ((BitVec.ofInt t.bpp (px + err)).toNat : Int)

/-! ## Unit QT -/

/-- `QT.DEFT` (R140, R141): the three candidates, each clamped to its lower bound where it is out of bounds, on the result
port (log entry 11); and for a legal pair they are ordered within `near + 1 .. max_val`. That TR7..TR9 stay, which R22 names
`QT.DEFT` a writer of, is log entry 27, and that it computes on a pair that is not legal is log entry 12. -/
def Obligations.DefaultThresholds : Prop :=
  ∀ s m e,
    let clamp := fun x lo hi : Nat => if hi < x ∨ x < lo then lo else x
    let f := (min m 4095 + 128) / 256
    let d1 := clamp (f + 2 + 3 * e) (e + 1) m
    let d2 := clamp (f * 4 + 3 + 5 * e) d1 m
    let d3 := clamp (f * 17 + 4 + 7 * e) d2 m
    exec (.qtDeft m e) s = .next { s with result := [(d1 : Int), (d2 : Int), (d3 : Int)] } ∧
      (3 ≤ m → e ≤ (m - 1) / 2 → e + 1 ≤ d1 ∧ d1 ≤ d2 ∧ d2 ≤ d3 ∧ d3 ≤ m)

/-- `QT.BUILD` (R144) fills the table with the bins of R143 on `-2^bpp .. 2^bpp - 1` and nowhere else, and changes nothing
but the table; that it does so for any operands is log entry 12. `QT.QUANT` (R145) on a gradient `-max_val .. max_val` gives
the bin of R143 with the thresholds in use on the result port (log entry 11), and is refused on any other operand (R10; log
entry 12); after a scan set-up it gives the table's entry wherever the table is defined. -/
def Obligations.TableHoldsTheBins : Prop :=
  (∀ s bpp near t1 t2 t3, ∃ t, exec (.qtBuild bpp near t1 t2 t3) s = .next t ∧ { t with qt := s.qt } = s ∧
    ∀ d : Int, (-(2 ^ bpp : Int) ≤ d ∧ d < 2 ^ bpp →
        qtRead t.qt d = some (if d ≤ -(t3 : Int) then -4 else if d ≤ -(t2 : Int) then -3 else if d ≤ -(t1 : Int) then -2
          else if d < -(near : Int) then -1 else if d ≤ near then 0 else if d < t1 then 1 else if d < t2 then 2
          else if d < t3 then 3 else 4)) ∧
      (¬(-(2 ^ bpp : Int) ≤ d ∧ d < 2 ^ bpp) → qtRead t.qt d = none)) ∧
  (∀ s d, exec (.qtQuant d) s = if -(s.tr.maxVal : Int) ≤ d ∧ d ≤ s.tr.maxVal then .next { s with result := [
      if d ≤ -(s.tr.t3 : Int) then -4 else if d ≤ -(s.tr.t2 : Int) then -3 else if d ≤ -(s.tr.t1 : Int) then -2
      else if d < -(s.tr.near : Int) then -1 else if d ≤ s.tr.near then 0 else if d < s.tr.t1 then 1
      else if d < s.tr.t2 then 2 else if d < s.tr.t3 then 3 else 4] } else .refused .operandRange) ∧
  ∀ s dir p0 n d q t, t = scanSetup dir p0 n s → -(t.tr.maxVal : Int) ≤ d → d ≤ t.tr.maxVal → qtRead t.qt d = some q →
    exec (.qtQuant d) t = .next { t with result := [q] }

/-- The bins are symmetric and monotone for ordered thresholds above `near` (R147). -/
def Obligations.BinsSymmetricMonotone : Prop :=
  ∀ near t1 t2 t3 : Nat, near + 1 ≤ t1 → t1 ≤ t2 → t2 ≤ t3 →
    (∀ d, binOf near t1 t2 t3 (-d) = -binOf near t1 t2 t3 d) ∧
      ∀ d1 d2, d1 ≤ d2 → binOf near t1 t2 t3 d1 ≤ binOf near t1 t2 t3 d2

/-- `QT.CTXID` (R146) writes `QS`; an operand that is no bin is refused. On the bins it is one to one onto `-364..364`, odd,
and 0 for three zero bins only: facts R146 marks [derived], with the range as C8 settles it. -/
def Obligations.ContextIdIsBijective : Prop :=
  (∀ s q1 q2 q3, exec (.qtCtxid q1 q2 q3) s =
    if (-4 ≤ q1 ∧ q1 ≤ 4) ∧ (-4 ≤ q2 ∧ q2 ≤ 4) ∧ (-4 ≤ q3 ∧ q3 ≤ 4) then
      .next { s with w := { s.w with qs := (q1 * 9 + q2) * 9 + q3 } } else .refused .operandRange) ∧
  (∀ z : Int, -364 ≤ z → z ≤ 364 → ∃ q1 q2 q3, isBin q1 = true ∧ isBin q2 = true ∧ isBin q3 = true ∧
    ctxid q1 q2 q3 = z ∧ ctxid (-q1) (-q2) (-q3) = -z ∧
    ∀ p1 p2 p3, isBin p1 = true → isBin p2 = true → isBin p3 = true → ctxid p1 p2 p3 = z →
      p1 = q1 ∧ p2 = q2 ∧ p3 = q3) ∧
  ∀ q1 q2 q3, isBin q1 = true → isBin q2 = true → isBin q3 = true →
    (ctxid q1 q2 q3).natAbs ≤ 364 ∧ (ctxid q1 q2 q3 = 0 ↔ q1 = 0 ∧ q2 = 0 ∧ q3 = 0)

/-! ## Units RC and RM -/

/-- `RC.INIT` (R160) and `RM.INIT` (R180): every entry takes its initial values, and nothing but the file changes.
That they do so for a range that is not TR3 is log entry 12. -/
def Obligations.ContextsInitialised : Prop :=
  ∀ s range,
    (∃ t, exec (.rcInit range) s = .next t ∧ { t with ctx := s.ctx } = s ∧
      ∀ q, ctxAt t q = { a := max 2 ((range + 32) / 64), b := 0, c := 0, n := 1 }) ∧
    ∃ t, exec (.rmInit range) s = .next t ∧ { t with rctx := s.rctx } = s ∧
      ∀ i, rctxAt t i = { a := max 2 ((range + 32) / 64), n := 1, nn := 0 }

/-- `RC.GETK` (R161) and `RM.GETK` (R181): where some `k` below 32 serves, the least goes to `K` and nothing else changes;
where none does, `InvalidCompressedData` (R375; log entry 18); an index that names no entry is refused. -/
def Obligations.GolombParameterSearch : Prop :=
  (∀ s q k, q < 365 → k < 32 → (ctxAt s q).a ≤ (ctxAt s q).n * 2 ^ k → (∀ i < k, (ctxAt s q).n * 2 ^ i < (ctxAt s q).a) →
    exec (.rcGetk q) s = .next { s with w := { s.w with k := k } }) ∧
  (∀ s i k, i < 2 → k < 32 → (rctxAt s i).a + (rctxAt s i).n / 2 * i ≤ (rctxAt s i).n * 2 ^ k →
    (∀ j < k, (rctxAt s i).n * 2 ^ j < (rctxAt s i).a + (rctxAt s i).n / 2 * i) →
    exec (.rmGetk i) s = .next { s with w := { s.w with k := k } }) ∧
  (∀ s q, q < 365 → (∀ k < 32, (ctxAt s q).n * 2 ^ k < (ctxAt s q).a) →
    exec (.rcGetk q) s = .next (raiseErr .invalidCompressedData s)) ∧
  (∀ s i, i < 2 → (∀ k < 32, (rctxAt s i).n * 2 ^ k < (rctxAt s i).a + (rctxAt s i).n / 2 * i) →
    exec (.rmGetk i) s = .next (raiseErr .invalidCompressedData s)) ∧
  (∀ s q, 365 ≤ q → exec (.rcGetk q) s = .refused .operandRange) ∧
  ∀ s i, 2 ≤ i → exec (.rmGetk i) s = .refused .operandRange

/-- The Golomb parameter (R165): where the search ends it does not fall when `A` grows or when `N` shrinks, it is 0 exactly
when `A <= N`, and for `A > N` it is `clog2(ceil(A / N))`. -/
def Obligations.GolombParameterMonotone : Prop :=
  ∀ n a k, 1 ≤ n → golombK n a = some k →
    (∀ a' k', a ≤ a' → golombK n a' = some k' → k ≤ k') ∧
    (∀ n' k', n ≤ n' → golombK n' a = some k' → k' ≤ k) ∧
    (k = 0 ↔ a ≤ n) ∧ (n < a → k = clog2 ((a + n - 1) / n))

/-- `RC.CORR` (R162), `RM.MAP` (R182) and `RM.ERRVAL` (R183) give their results on the result port (log entry 11) and change
nothing else, and an index that names no entry is refused; the decoder's `RM.ERRVAL` inverts the encoder's mapping of every
error, `err != 0` where `t = 1`. That values no coder gives are taken too is log entry
12. -/
def Obligations.CorrectionAndMapResults : Prop :=
  (∀ s q k, exec (.rcCorr q k) s = if q < 365 then
    .next { s with result := [if k = 0 ∧ 2 * (ctxAt s q).b + (ctxAt s q).n - 1 < 0 then -1 else 0] }
    else .refused .operandRange) ∧
  (∀ s i err k, exec (.rmMap i err k) s = if i < 2 then
    .next { s with result := [if (k = 0 ∧ 0 < err ∧ 2 * (rctxAt s i).nn < (rctxAt s i).n) ∨
      (err < 0 ∧ (rctxAt s i).n ≤ 2 * (rctxAt s i).nn) ∨ (err < 0 ∧ k ≠ 0) then 1 else 0] }
    else .refused .operandRange) ∧
  (∀ s i temp k, exec (.rmErrval i temp k) s = if i < 2 then
    .next { s with result := [if (k ≠ 0 ∨ (rctxAt s i).n ≤ 2 * (rctxAt s i).nn) ↔ temp % 2 = 1
      then -(((temp + temp % 2) / 2 : Nat) : Int) else (((temp + temp % 2) / 2 : Nat) : Int)] }
    else .refused .operandRange) ∧
  ∀ (r : RunCtx) (t k : Nat) (err : Int), t < 2 → (t = 1 → err ≠ 0) →
    let em := 2 * (err.natAbs : Int) - t - (if mapBit r err k then 1 else 0)
    0 ≤ em ∧ runErrval r (em.toNat + t) k = err

/-- `RC.UPD` (R163), written out in the rule's order: entry `q` takes the accumulated, halved and rebiased values, and
every other entry and everything else stays; an index that names no entry is refused. That any error is taken is log entry
12. -/
def Obligations.RegularUpdate : Prop :=
  ∀ s q err,
    let r := ctxAt s q
    let h := r.n = s.tr.reset
    let a := if h then (r.a + err.natAbs) / 2 else r.a + err.natAbs
    let b0 : Int := if h then (r.b + err * (2 * s.tr.near + 1)) / 2 else r.b + err * (2 * s.tr.near + 1)
    let n := (if h then r.n / 2 else r.n) + 1
    let b := if b0 + n ≤ 0 then max (b0 + n) (-(n : Int) + 1) else if 0 < b0 then min (b0 - n) 0 else b0
    let c := if b0 + n ≤ 0 then max (-128) (r.c - 1) else if 0 < b0 then min 127 (r.c + 1) else r.c
    (q < 365 → ∃ t, exec (.rcUpd q err) s = .next t ∧ { t with ctx := s.ctx } = s ∧
      ctxAt t q = { a := a, b := b, c := c, n := n } ∧ ∀ p < 365, p ≠ q → ctxAt t p = ctxAt s p) ∧
    (365 ≤ q → exec (.rcUpd q err) s = .refused .operandRange)

/-- `RM.UPD` (R184), written out in the rule's order: entry `t` takes the new values, and the other entry and everything
else stays; an index that names no entry is refused. That any error and mapped value is taken is log entry 12. -/
def Obligations.RunUpdate : Prop :=
  ∀ s i err em,
    let r := rctxAt s i
    let nn := if err < 0 then r.nn + 1 else r.nn
    let a := r.a + (em + 1 - i) / 2
    (i < 2 → ∃ t, exec (.rmUpd i err em) s = .next t ∧ { t with rctx := s.rctx } = s ∧
      rctxAt t i = (if r.n = s.tr.reset then { a := a / 2, n := r.n / 2 + 1, nn := nn / 2 }
        else { a := a, n := r.n + 1, nn := nn }) ∧ rctxAt t (1 - i) = rctxAt s (1 - i)) ∧
    (2 ≤ i → exec (.rmUpd i err em) s = .refused .operandRange)

/-- The bounds of the context files (R164, R185), from any entry that has them, for an error of at most the legal magnitude:
the updated entry has them, and the next Golomb parameter is found, at most 24 and 25. -/
def Obligations.ContextBoundsKept : Prop :=
  ∀ t : Traits, GoodTraits t →
    (∀ r err, GoodCtx t r → err.natAbs ≤ 65535 → GoodCtx t (updateRegular t r err) ∧ r.a < 2 ^ 24 ∧
      ∃ k ≤ 24, golombK r.n r.a = some k) ∧
    ∀ r i err em, i < 2 → GoodRun t r → err.natAbs ≤ 65535 → em + i ≤ 2 * err.natAbs →
      GoodRun t (updateRun i t.reset r err em) ∧ ∃ k ≤ 25, golombK r.n (r.a + r.n / 2 * i) = some k

/-! ## Units BR and GT -/

/-- `BR.INIT` (R200) places the reader at `p0` with nothing consumed, its realisation empty and `rnextff` at the next
`0xFF`, and changes nothing else; a start past the end is refused. `BR.FILL` (R202) changes nothing but the realisation: it
loads a byte where one can be loaded, goes on until at least 56 bits are valid or none can be, and a cache that held the
next bits of the destuffed sequence, as it does after `BR.INIT`, holds them again, as many as it then counts. Where no bit is
valid and none can be loaded it raises, and a cache with more than 56 valid bits is refused. -/
def Obligations.ReaderPlacedAndFilled : Prop :=
  (∀ s p0 len, p0 ≤ len → ∃ x, p0 ≤ x ∧ x ≤ len ∧ (x < len → memRead s.bs x = 0xFF) ∧
    (∀ j, p0 ≤ j → j < x → memRead s.bs j ≠ 0xFF) ∧
    let r : Reader := { rp := 0, rstart := p0, rend := len, rcache := 0, rvalid := 0, rpos := p0, rnextff := x }
    CacheHolds s.bs r ∧ exec (.brInit p0 len) s = .next { s with rd := r }) ∧
  (∀ s p0 len, len < p0 → exec (.brInit p0 len) s = .refused .operandRange) ∧
  (∀ s, s.rd.rvalid ≤ 56 → (0 < s.rd.rvalid ∨ (s.rd.rpos < s.rd.rend ∧ ¬isMarker s.bs s.rd.rend s.rd.rpos = true)) →
    ∃ r, Consumed s.rd 0 r ∧ s.rd.rvalid ≤ r.rvalid ∧ s.rd.rpos ≤ r.rpos ∧
      exec .brFill s = .next { s with rd := r } ∧
      (s.rd.rpos < s.rd.rend → ¬isMarker s.bs s.rd.rend s.rd.rpos = true → s.rd.rpos < r.rpos) ∧
      (56 ≤ r.rvalid ∨ r.rend ≤ r.rpos ∨ isMarker s.bs r.rend r.rpos = true) ∧
      (CacheHolds s.bs s.rd → CacheHolds s.bs r)) ∧
  (∀ s, s.rd.rvalid = 0 → (s.rd.rend ≤ s.rd.rpos ∨ isMarker s.bs s.rd.rend s.rd.rpos = true) →
    exec .brFill s = .next (raiseErr .invalidCompressedData s)) ∧
  ∀ s, 56 < s.rd.rvalid → exec .brFill s = .refused .cacheFull

/-- The reads (R204 to R209) deliver the next bits of the destuffed sequence and consume them, most significant first, and
change nothing else: `BR.RDV`, `BR.RDB`, `BR.PEEK` (eight bits, zeros past the end, none consumed), `BR.SKIP`, `BR.HIGH`
(the zeros before the first one), `BR.DECV` (into `MERR`, a prefix of `glimit - qbpp - 1` zeros or more being an escape). That
`BR.DECV` takes any limit and any qbpp is log entry 12. The values with no register go to the result port (log entry 11). -/
def Obligations.ReadsDeliverBits : Prop :=
  ∀ s : State,
    (∀ bits rest, bits.length ≤ 31 → remaining s = bits ++ rest → ∃ r, Consumed s.rd bits.length r ∧
      exec (.brRdv bits.length) s = .next { s with rd := r, result := [(bitsVal bits : Int)] }) ∧
    (∀ b rest, remaining s = b :: rest → ∃ r, Consumed s.rd 1 r ∧
      exec .brRdb s = .next { s with rd := r, result := [if b then 1 else 0] }) ∧
    (∀ b rest, remaining s = b :: rest → ∃ r, Consumed s.rd 0 r ∧ exec .brPeek s = .next { s with
      rd := r, result := [(bitsVal ((b :: rest ++ List.replicate 8 false).take 8) : Int)] }) ∧
    (∀ n, n ≤ 31 → n ≤ (remaining s).length → ∃ r, Consumed s.rd n r ∧ exec (.brSkip n) s = .next { s with rd := r }) ∧
    (∀ h rest, remaining s = List.replicate h false ++ true :: rest → ∃ r, Consumed s.rd (h + 1) r ∧
      exec .brHigh s = .next { s with rd := r, result := [(h : Int)] }) ∧
    (∀ h glimit qbpp bits rest, bits.length ≤ 31 → h + qbpp + 1 < glimit →
      remaining s = List.replicate h false ++ true :: (bits ++ rest) → ∃ r, Consumed s.rd (h + 1 + bits.length) r ∧
      exec (.brDecv bits.length glimit qbpp) s = .next { s with
        rd := r, w := { s.w with merr := h * 2 ^ bits.length + bitsVal bits } }) ∧
    (∀ k h glimit bits rest, k ≤ 31 → bits.length ≤ 31 → glimit ≤ h + bits.length + 1 →
      remaining s = List.replicate h false ++ true :: (bits ++ rest) → ∃ r, Consumed s.rd (h + 1 + bits.length) r ∧
      exec (.brDecv k glimit bits.length) s = .next { s with rd := r, w := { s.w with merr := bitsVal bits + 1 } })

/-- Reads that need more bits than are left raise `InvalidCompressedData` (R204 to R208, R371), `BR.DECV` also where its
prefix ends but its remainder or its escaped value is cut off (R209), and a count above 31 is refused (R10). That `BR.DECV`
takes any limit and any qbpp is log entry 12. -/
def Obligations.ReadsPastTheEndRaise : Prop :=
  ∀ s : State,
    (∀ n, n ≤ 31 → (remaining s).length < n →
      exec (.brRdv n) s = .next (raiseErr .invalidCompressedData s) ∧
      exec (.brSkip n) s = .next (raiseErr .invalidCompressedData s)) ∧
    (remaining s = [] → exec .brRdb s = .next (raiseErr .invalidCompressedData s) ∧
      exec .brPeek s = .next (raiseErr .invalidCompressedData s) ∧
      ∀ k ≤ 15, exec (.gtLook k) s = .next (raiseErr .invalidCompressedData s)) ∧
    (∀ j, remaining s = List.replicate j false → ∃ u, u.pr = s.pr ∧ u.bs = s.bs ∧
      exec .brHigh s = .next (raiseErr .invalidCompressedData u) ∧
      ∀ k g q, k ≤ 31 → exec (.brDecv k g q) s = .next (raiseErr .invalidCompressedData u)) ∧
    (∀ h k g q rest, k ≤ 31 → q ≤ 31 → remaining s = List.replicate h false ++ true :: rest →
      rest.length < (if h + q + 1 < g then k else q) → ∃ u, u.pr = s.pr ∧ u.bs = s.bs ∧
      exec (.brDecv k g q) s = .next (raiseErr .invalidCompressedData u)) ∧
    (∀ n, 31 < n → exec (.brRdv n) s = .refused .operandRange ∧ exec (.brSkip n) s = .refused .operandRange ∧
      ∀ g q, exec (.brDecv n g q) s = .refused .operandRange)

/-- `BR.END` (R210, R214): with no marker boundary it raises `InvalidCompressedData`; with one and a 1 among the bits left,
or more bits left than `EOS_MAX_RESIDUAL_BITS` allows, `TooMuchCompressedData`; otherwise the BYTE position becomes the
boundary's and nothing else changes. That bound is an OPEN parameter, held in the state, and the statement is for each value
of it; only its default, no bound, is the model's choice (log entry 20; D21, I3), and nothing here rests on it. -/
def Obligations.EndOfScanCheck : Prop :=
  ∀ s : State,
    ((∀ j, s.rd.rstart ≤ j → j < s.rd.rend → ¬isMarker s.bs s.rd.rend j = true) →
      exec .brEnd s = .next (raiseErr .invalidCompressedData s)) ∧
    ∀ p, s.rd.rstart ≤ p → p < s.rd.rend → isMarker s.bs s.rd.rend p = true →
      (∀ j, s.rd.rstart ≤ j → j < p → ¬isMarker s.bs s.rd.rend j = true) →
      (true ∈ remaining s ∨ (∃ n, s.build.eosMax = some n ∧ n < (remaining s).length) →
        exec .brEnd s = .next (raiseErr .tooMuchCompressedData s)) ∧
      (true ∉ remaining s → (∀ n, s.build.eosMax = some n → (remaining s).length ≤ n) →
        exec .brEnd s = .next { s with bytePos := p })

/-- The short-code path cannot be observed (R211, R212, R213): on the codeword of a mapped value `GT.LOOK` hits exactly
where that codeword has at most eight bits, with the error that `BR.DECV` and `SP.UNMAPE` give for it and as many bits
consumed, and else misses and consumes nothing. `GT.BUILD` writes what the ROM holds (log entry 17). Results are on the
result port (log entry 11). -/
def Obligations.ShortCodesAgree : Prop :=
  (∀ s, exec .gtBuild s = .next s) ∧
  (∀ s k, 15 < k → exec (.gtLook k) s = .next { s with result := [0, 0] }) ∧
  ∀ (s : State) k m glimit qbpp rest, encodable k m glimit qbpp → qbpp + 18 ≤ glimit →
    remaining s = valueBits k m glimit qbpp ++ rest →
    (∃ r, Consumed s.rd (valueBits k m glimit qbpp).length r ∧
      exec (.brDecv k glimit qbpp) s = .next { s with rd := r, w := { s.w with merr := m } }) ∧
    ((valueBits k m glimit qbpp).length ≤ 8 → ∃ r, Consumed s.rd (valueBits k m glimit qbpp).length r ∧
      exec (.gtLook k) s = .next { s with rd := r, result := [1, unmapError m] }) ∧
    (8 < (valueBits k m glimit qbpp).length → ∃ r, Consumed s.rd 0 r ∧
      exec (.gtLook k) s = .next { s with rd := r, result := [0, 0] })

/-! ## Unit BW -/

/-- `BW.INIT` (R240) sets the writer at `p0`, with nothing pending and nothing written, and changes nothing else; a start
past the capacity is refused. -/
def Obligations.WriterPlaced : Prop :=
  ∀ s p0 cap,
    (p0 ≤ cap → ∃ v : Writer, v.wacc = [] ∧ v.wff = false ∧ v.wpos = p0 ∧ v.wcap = cap ∧ v.written = 0 ∧ v.wbuf = 0 ∧
      v.wfree = 32 ∧ exec (.bwInit p0 cap) s = .next { s with wr := v }) ∧
    (cap < p0 → exec (.bwInit p0 cap) s = .refused .operandRange)

/-- `BW.APP` (R241, R242, R246): the group's bits are appended, the bytes they complete, a stuffed 0 after each `0xFF`, go to
consecutive positions of the sink, and nothing else changes; where those bytes do not fit, `CompressedBufferTooSmall`; a
count above 31 or a value that does not fit its count is refused. -/
def Obligations.AppendStuffsBytes : Prop :=
  ∀ s value count,
    (count ≤ 31 → value < 2 ^ count → fits s.wr (bitsOf value count) → ∃ v, Appended s.wr (bitsOf value count) v ∧
      exec (.bwApp value count) s = .next (afterAppend s (bitsOf value count) v)) ∧
    (count ≤ 31 → value < 2 ^ count → ¬fits s.wr (bitsOf value count) → ∃ u, u.pr = s.pr ∧
      exec (.bwApp value count) s = .next (raiseErr .compressedBufferTooSmall u)) ∧
    (31 < count → exec (.bwApp value count) s = .refused .operandRange) ∧
    (count ≤ 31 → 2 ^ count ≤ value → exec (.bwApp value count) s = .refused .valueTooWide)

/-- `BW.ENCV` (R244) appends exactly the pattern of R94 where `m >> k` is below `glimit - qbpp - 1`, and else that of R95,
however the prefix is split (R97); an escaped value the pattern cannot carry is refused, and so is a limit that leaves the
escape prefix no zero. That it takes any limit is log entry 12. A prefix of more than 60 zeros before a remainder, or of more
than 61 before an escaped value, which a limit of R244 never gives, is left out. -/
def Obligations.EncodedValueIsItsCodeword : Prop :=
  ∀ s k m glimit, k ≤ 31 → s.tr.qbpp ≤ 31 →
    (m / 2 ^ k + s.tr.qbpp + 1 < glimit → m / 2 ^ k ≤ 60 →
      let bits := List.replicate (m / 2 ^ k) false ++ [true] ++ bitsOf (m % 2 ^ k) k
      fits s.wr bits → ∃ v, Appended s.wr bits v ∧ exec (.bwEncv k m glimit) s = .next (afterAppend s bits v)) ∧
    (s.tr.qbpp + 2 ≤ glimit → glimit ≤ m / 2 ^ k + s.tr.qbpp + 1 → glimit ≤ s.tr.qbpp + 62 → 1 ≤ m →
      m ≤ 2 ^ s.tr.qbpp →
      let bits := List.replicate (glimit - s.tr.qbpp - 1) false ++ [true] ++ bitsOf (m - 1) s.tr.qbpp
      fits s.wr bits → ∃ v, Appended s.wr bits v ∧ exec (.bwEncv k m glimit) s = .next (afterAppend s bits v)) ∧
    (glimit ≤ m / 2 ^ k + s.tr.qbpp + 1 → m = 0 ∨ 2 ^ s.tr.qbpp < m →
      exec (.bwEncv k m glimit) s = .refused .escapeRange) ∧
    (glimit ≤ s.tr.qbpp + 1 → exec (.bwEncv k m glimit) s = .refused .escapeRange)

/-- `BW.END` (R245): the padding is appended, and `0x00` after a final `0xFF`, so nothing is pending, the last byte is not
`0xFF`, and `SR1` is the count of the bytes written; where they do not fit it raises. `BW.FLUSH` (R243) lets up to four bytes
leave the buffer of the realisation, its first bits, seven after a `0xFF` and else eight, while any bit is pending, and
nothing else changes; a byte past the capacity raises. That the buffer stands beside the sink, with a position of its own for
the bytes it has let go, and that its overflow raises there, is log entry 13. -/
def Obligations.WriterEnds : Prop :=
  (∀ s, writerOk s.wr = true → fits s.wr (endBits s.wr) → ∃ v, Appended s.wr (endBits s.wr) v ∧ v.wacc = [] ∧
    v.wff = false ∧ exec .bwEnd s = .next { afterAppend s (endBits s.wr) v with sr1 := BitVec.ofNat 32 v.written }) ∧
  (∀ s, writerOk s.wr = true → ¬fits s.wr (endBits s.wr) → ∃ u, u.pr = s.pr ∧
    exec .bwEnd s = .next (raiseErr .compressedBufferTooSmall u)) ∧
  ∀ s, ∃ v out u, Flushed s.wr out v ∧ u.pr = s.pr ∧ u.bs = s.bs ∧
    exec .bwFlush s = .next (if out = [] ∨ v.drainpos ≤ s.wr.wcap then { s with wr := v }
      else raiseErr .compressedBufferTooSmall u)

/-- Stuffing is undone by the reader (R201, R241): the bytes that a bit sequence completes, with nothing pending and the
last byte not `0xFF`, read back as that sequence when a marker boundary follows them. -/
def Obligations.StuffingIsInverted : Prop :=
  ∀ (m : Memory) (p0 len : Nat) (bits : List Bool),
    let out := (stuffBits false [] bits).1
    (stuffBits false [] bits).2 = ([], false) → (∀ j < out.length, memRead m (p0 + j) = out.getD j 0) →
    p0 + out.length < len → isMarker m len (p0 + out.length) = true →
    markerPos m p0 len = some (p0 + out.length) ∧ dbits m p0 len = bits

/-! ## Unit SP -/

/-- `SP.NEIGH` (R270), `SP.PRED` in its equivalent form (R272), `SP.MAPE` into `MERR` (R274), `SP.UNMAPE` on the result port
(R275; log entry 11); the two maps invert each other. That `SP.NEIGH` issued alone reads the first channel in every
interleave mode is log entry 24, and that `SP.PRED` takes values that are no samples is log entry 12. -/
def Obligations.PredictionAndMapping : Prop :=
  (∀ s i, exec (.spNeigh i) s = if i < s.pr.width then .next { s with w := { s.w with
      ra := curRead s 0 ((i : Int) - 1), rb := prevRead s 0 i, rc := prevRead s 0 ((i : Int) - 1),
      rd := prevRead s 0 ((i : Int) + 1), x := if s.dir then s.w.x else curRead s 0 i } }
    else .refused .operandRange) ∧
  (∀ s ra rb rc, exec (.spPred ra rb rc) s = .next { s with w := { s.w with
    pred := if max ra rb ≤ rc then min ra rb else if rc ≤ min ra rb then max ra rb else ra + rb - rc } }) ∧
  (∀ s e, ∃ m, exec (.spMape e) s = .next { s with w := { s.w with merr := m } } ∧
    (m : Int) = (if 0 ≤ e then 2 * e else -2 * e - 1) ∧
    ∀ u, exec (.spUnmape m) u = .next { u with result := [e] }) ∧
  ∀ m, mapError (unmapError m) = m

/-- `SP.ENCREG` (R276), in a context within its bounds, where the prediction with its correction is an operand of `TR.CORRP`,
as between samples it is, on an input whose difference from the prediction is in the range of `TR.ERRVAL`, as every sample's
is, and whose codeword fits: `K` is the least of R161, the codeword of the mapped error is appended, the context takes the
update with the unmasked error, the working registers theirs, and the rebuilt sample, within `near` of an input that is a
sample, goes into the line. A correction or a difference out of range is refused (R103; log entry 12, also for `max_val + 128`,
which R273 gives and R126 does not name), and so is an index outside the line. Issued alone it acts on the first channel, of a
triplet too (log entry 24). -/
def Obligations.RegularSampleEncodes : Prop :=
  (∀ s i, GoodTraits s.tr → GoodCtx s.tr (ctxAt s s.w.qs.natAbs) → s.w.qs.natAbs < 365 → i < s.pr.width →
    (isSample s.tr s.w.ra = true → isSample s.tr s.w.rb = true →
      -128 ≤ biasedPrediction s ∧ biasedPrediction s ≤ s.tr.maxVal + 128) ∧
    (isSample s.tr s.w.x = true → (s.w.x - correctedPrediction s).natAbs ≤ s.tr.maxVal ∧
      (recon s.tr (correctedPrediction s) (asgn (regularError s) (neg1 s.w.qs)) - s.w.x).natAbs ≤ s.tr.near) ∧
    (-128 ≤ biasedPrediction s → biasedPrediction s ≤ s.tr.maxVal + 128 →
      (s.w.x - correctedPrediction s).natAbs ≤ s.tr.maxVal →
      ∃ k ≤ 24, golombK (ctxAt s s.w.qs.natAbs).n (ctxAt s s.w.qs.natAbs).a = some k ∧
      let bits := valueBits k (regularValue k s) s.tr.limit s.tr.qbpp
      encodable k (regularValue k s) s.tr.limit s.tr.qbpp ∧
      (fits s.wr bits → ∃ v, Appended s.wr bits v ∧ exec (.spEncreg i) s =
        .next (regularAfter i 0 k (regularError s) (regularValue k s) (afterAppend s bits v)))) ∧
    (biasedPrediction s < -128 ∨ (s.tr.maxVal : Int) + 128 < biasedPrediction s ∨
      s.tr.maxVal < (s.w.x - correctedPrediction s).natAbs → exec (.spEncreg i) s = .refused .operandRange)) ∧
  ∀ s i, s.pr.width ≤ i → exec (.spEncreg i) s = .refused .operandRange

/-- `SP.DECREG` inverts `SP.ENCREG` (R277): in a state with the same neighbours, statistics and traits, reading the codeword
the encoder writes for any sample `x`, it finds the same `K`, `PX`, `ERR`, makes the same update and stores the same sample.
`MERR` is written only where the short-code table misses (log entry 22). A codeword whose error is above 65535 in magnitude
raises (R277, R371). A prediction with its correction out of the range of `TR.CORRP` is refused (R103; log entry 12), and so is
an index outside the line. Issued alone it acts on the first channel, of a triplet too (log entry 24). -/
def Obligations.RegularSampleDecodes : Prop :=
  (∀ s i x rest, GoodTraits s.tr → GoodCtx s.tr (ctxAt s s.w.qs.natAbs) → s.w.qs.natAbs < 365 → i < s.pr.width →
    -128 ≤ biasedPrediction s → biasedPrediction s ≤ s.tr.maxVal + 128 →
    isSample s.tr x = true → ∃ k ≤ 24, golombK (ctxAt s s.w.qs.natAbs).n (ctxAt s s.w.qs.natAbs).a = some k ∧
      let e : State := { s with w := { s.w with x := x } }
      let bits := valueBits k (regularValue k e) s.tr.limit s.tr.qbpp
      (remaining s = bits ++ rest → ∃ r, Consumed s.rd bits.length r ∧ exec (.spDecreg i) s =
        .next (regularAfter i 0 k (regularError e) (if bits.length ≤ 8 then s.w.merr else regularValue k e)
          { s with rd := r }))) ∧
  (∀ s i k m rest, GoodTraits s.tr → GoodCtx s.tr (ctxAt s s.w.qs.natAbs) → s.w.qs.natAbs < 365 → i < s.pr.width →
    -128 ≤ biasedPrediction s → biasedPrediction s ≤ s.tr.maxVal + 128 →
    golombK (ctxAt s s.w.qs.natAbs).n (ctxAt s s.w.qs.natAbs).a = some k → m / 2 ^ k + s.tr.qbpp + 1 < s.tr.limit →
    65535 < (unmapError m).natAbs →
    remaining s = List.replicate (m / 2 ^ k) false ++ true :: (bitsOf (m % 2 ^ k) k ++ rest) → ∃ u, u.pr = s.pr ∧
    u.bs = s.bs ∧ exec (.spDecreg i) s = .next (raiseErr .invalidCompressedData u)) ∧
  (∀ s i, GoodTraits s.tr → GoodCtx s.tr (ctxAt s s.w.qs.natAbs) → s.w.qs.natAbs < 365 →
    biasedPrediction s < -128 ∨ (s.tr.maxVal : Int) + 128 < biasedPrediction s →
    exec (.spDecreg i) s = .refused .operandRange) ∧
  ∀ s i, s.pr.width ≤ i → exec (.spDecreg i) s = .refused .operandRange

/-! ## Unit RN -/

/-- `RN.INCIDX` and `RN.DECIDX` (R301, R302). `RN.ENCLEN` (R303), on a run of at most the rest of the line, told whether it is
all of it, appends the codewords of the run length where they fit, and `RN.DECLEN` (R304), told how long the rest of the line
is, reads every run length back from them with the same run index; a remainder past the end of the line raises. Other
operands are refused (R10). The rest of the line begins at `seq.i` for an operation issued alone, and is 0 where `seq.i` stands
above `WIDTH` (log entry 24). That `RN.DECLEN` writes the register `RUNLEN` and `RN.ENCLEN` leaves it is the model's
choice (log entry 22). -/
def Obligations.RunLengthsRoundTrip : Prop :=
  (∀ s, exec .rnIncidx s = .next { s with runindex := min 31 (s.runindex + 1) }) ∧
  (∀ s, exec .rnDecidx s = .next { s with runindex := s.runindex - 1 }) ∧
  (∀ s n, s.runindex ≤ 31 → n ≤ s.pr.width - s.seq.i →
    let eol := decide (n = s.pr.width - s.seq.i)
    fits s.wr (lengthBits s.runindex n eol) → ∃ v,
    Appended s.wr (lengthBits s.runindex n eol) v ∧ exec (.rnEnclen n eol) s =
      .next { afterAppend s (lengthBits s.runindex n eol) v with runindex := lengthIndex s.runindex n }) ∧
  (∀ s n eol, s.pr.width - s.seq.i < n ∨ eol ≠ decide (n = s.pr.width - s.seq.i) →
    exec (.rnEnclen n eol) s = .refused .operandRange) ∧
  (∀ s n rem rest, s.runindex ≤ 31 → 1 ≤ rem → rem = s.pr.width - s.seq.i → n ≤ rem →
    remaining s = lengthBits s.runindex n (decide (n = rem)) ++ rest → ∃ r,
    Consumed s.rd (lengthBits s.runindex n (decide (n = rem))).length r ∧ exec (.rnDeclen rem) s =
      .next { s with rd := r, runindex := lengthIndex s.runindex n, w := { s.w with runlen := n } }) ∧
  (∀ s n rem rest, s.runindex ≤ 31 → 1 ≤ rem → rem = s.pr.width - s.seq.i → rem < n → n < 2 ^ jOf s.runindex →
    remaining s = false :: bitsOf n (jOf s.runindex) ++ rest → ∃ u, u.pr = s.pr ∧
    exec (.rnDeclen rem) s = .next (raiseErr .invalidCompressedData u)) ∧
  ∀ s rem, rem = 0 ∨ rem ≠ s.pr.width - s.seq.i → exec (.rnDeclen rem) s = .refused .operandRange

/-- `RN.ENCRIERR` (R305) and `RN.DECRIERR` (R306), on an error of the datapath (not 0 for entry 1): the parameter is the
least of R181, the codeword of `EMErrval` with the shortened limit is appended, the entry takes its update, and reading that
codeword back gives the error and makes the same update. A codeword whose error is above 65535 in magnitude raises (R306,
R371). That `RN.DECRIERR` leaves the register `MERR` as it was is log entry 22. -/
def Obligations.RunErrorsRoundTrip : Prop :=
  (∀ s i err, GoodTraits s.tr → i < 2 → GoodRun s.tr (rctxAt s i) → s.runindex ≤ 31 → 2 * err.natAbs ≤ s.tr.range →
    (i = 1 → err ≠ 0) → ∃ k ≤ 25, golombK (rctxAt s i).n ((rctxAt s i).a + (rctxAt s i).n / 2 * i) = some k ∧
    let em := (2 * (err.natAbs : Int) - i - if mapBit (rctxAt s i) err k then 1 else 0).toNat
    let bits := valueBits k em (s.tr.limit - jOf s.runindex - 1) s.tr.qbpp
    let entry := updateRun i s.tr.reset (rctxAt s i) err em
    (fits s.wr bits → ∃ v, Appended s.wr bits v ∧ exec (.rnEncrierr i err) s =
      .next (setRctx { afterAppend s bits v with w := { s.w with k := k } } i entry)) ∧
    ∀ rest, remaining s = bits ++ rest → ∃ r, Consumed s.rd bits.length r ∧ exec (.rnDecrierr i) s =
      .next (setRctx { s with rd := r, w := { s.w with k := k, err := err } } i entry)) ∧
  ∀ s i k em rest, GoodTraits s.tr → i < 2 → GoodRun s.tr (rctxAt s i) → s.runindex ≤ 31 →
    golombK (rctxAt s i).n ((rctxAt s i).a + (rctxAt s i).n / 2 * i) = some k →
    em / 2 ^ k + s.tr.qbpp + 1 < s.tr.limit - jOf s.runindex - 1 →
    65535 < (runErrval (rctxAt s i) (em + i) k).natAbs →
    remaining s = List.replicate (em / 2 ^ k) false ++ true :: (bitsOf (em % 2 ^ k) k ++ rest) → ∃ u, u.pr = s.pr ∧
    u.bs = s.bs ∧ exec (.rnDecrierr i) s = .next (raiseErr .invalidCompressedData u)

/-- `RN.ENCRI` (R307) and `RN.DECRI` (R308): on samples, with room for one codeword, the sample is coded and rebuilt within
`near`; and a decoder with the same traits, run contexts and run index rebuilds the same sample and makes the same update
from the bits the encoder wrote. Where `Ra` is near both `Rb` and the sample, which never interrupts a run, the value to code
would be negative, and the operation is refused (R10, R305). A difference outside the range of `TR.ERRVAL` is refused, and
where the value the sample is rebuilt on is outside the range of `TR.RECON` neither operation completes (R103; log entry 12). -/
def Obligations.RunInterruptionRoundTrips : Prop :=
  (∀ s x ra rb, s.tr.maxVal < (x - if (ra - rb).natAbs ≤ s.tr.near then ra else rb).natAbs →
    exec (.rnEncri x ra rb) s = .refused .operandRange) ∧
  (∀ s x ra rb t, isSample s.tr (if (ra - rb).natAbs ≤ s.tr.near then ra else rb) = false →
    exec (.rnEncri x ra rb) s = .next t ∨ exec (.rnDecri ra rb) s = .next t → t.err ≠ .none) ∧
  ∀ s x ra rb, GoodTraits s.tr → GoodRun s.tr (rctxAt s 0) → GoodRun s.tr (rctxAt s 1) → s.runindex ≤ 31 →
    isSample s.tr x = true → isSample s.tr ra = true → isSample s.tr rb = true →
    ((ra - rb).natAbs ≤ s.tr.near → (x - ra).natAbs ≤ s.tr.near → exec (.rnEncri x ra rb) s = .refused .escapeRange) ∧
    (¬((ra - rb).natAbs ≤ s.tr.near ∧ (x - ra).natAbs ≤ s.tr.near) → roomFor s.wr elementBits →
      ∃ t bits, exec (.rnEncri x ra rb) s = .next t ∧ Appended s.wr bits t.wr ∧
        t.bs = writeBytes s.bs s.wr.wpos (newBytes s.wr bits) ∧ isSample s.tr t.w.rx = true ∧
        (t.w.rx - x).natAbs ≤ s.tr.near ∧ t.runindex = s.runindex ∧
        ∀ d rest, d.tr = s.tr → d.rctx = s.rctx → d.runindex = s.runindex → remaining d = bits ++ rest →
          ∃ d', exec (.rnDecri ra rb) d = .next d' ∧ d'.w.rx = t.w.rx ∧ d'.rctx = t.rctx ∧ d'.w.err = t.w.err ∧
            remaining d' = rest ∧ d'.runindex = s.runindex)

/-- `RN.ENCRUN` and `RN.DECRUN` (R309, R310, and R311 for triplets): from a state within the bounds of a scan, with room, a
run is coded, takes at least one element and at most the rest of the line, and leaves every element it took within `near` of
the input and every other element of the line as it was; and a decoder that stands at the same place reads the same number
of elements, the same values, the same statistics and run index back from the bits the encoder wrote. The number `n` is on
the result port, which is the model's (log entry 11), and that neither asks that `QS` is 0 is its choice (log entry 12). -/
def Obligations.RunsRoundTrip : Prop :=
  ∀ s d, ScanInv s → legalParams s.build s.pr = true → s.dir = false → writerOk s.wr = true → s.seq.i < s.pr.width →
    roomFor s.wr (elementBits * s.pr.width) →
    ∃ t bits, ∃ n : Nat, exec (.rnEncrun s.seq.i) s = .next t ∧ t.result = [(n : Int)] ∧ 1 ≤ n ∧ s.seq.i + n ≤ s.pr.width ∧
      ScanInv t ∧ Appended s.wr bits t.wr ∧ t.bs = writeBytes s.bs s.wr.wpos (newBytes s.wr bits) ∧
      (∀ ch < channels s, ∀ j : Int, s.seq.i ≤ j → j < s.seq.i + n →
        (curRead t ch j - curRead s ch j).natAbs ≤ s.tr.near) ∧
      (∀ ch < 3, ∀ j : Int, -1 ≤ j → j ≤ s.pr.width → j < s.seq.i ∨ s.seq.i + n ≤ j → curRead t ch j = curRead s ch j) ∧
      ∀ rest, Twin s d → remaining d = bits ++ rest → ∃ d', exec (.rnDecrun s.seq.i) d = .next d' ∧
        d'.result = [(n : Int)] ∧ remaining d' = rest ∧ d'.rctx = t.rctx ∧ d'.ctx = t.ctx ∧ d'.runindex = t.runindex ∧
        ∀ ch < channels s, ∀ j : Int, -1 ≤ j → j < s.seq.i + n → curRead d' ch j = curRead t ch j

/-! ## Unit SC and the scan commands -/

/-- `SC.GUARD` (R333), on the whole element: `prev[WIDTH]` takes `prev[WIDTH - 1]` and `cur[-1]` takes `prev[0]`, on one
channel or on three, and every other element of both buffers, every element of every other slot's buffers, and everything but
the buffers, stays. -/
def Obligations.GuardSetsTwoElements : Prop :=
  ∀ s, sparseWf 0 s.buf = true → 1 ≤ s.pr.width → ∃ t, exec .scGuard s = .next t ∧
    { t with buf := s.buf } = s ∧
    (∀ ch < 3, ∀ j : Int, -1 ≤ j → j ≤ s.pr.width →
      curRead t ch j = (if ch < channels s ∧ j = -1 then prevRead s ch 0 else curRead s ch j) ∧
      prevRead t ch j = (if ch < channels s ∧ j = s.pr.width then prevRead s ch ((s.pr.width : Int) - 1)
        else prevRead s ch j)) ∧
    ∀ key, (∀ ch < channels s, key ≠ bufKey (s.seq.y % 2) s.seq.c ch (-1) ∧
      key ≠ bufKey ((s.seq.y + 1) % 2) s.seq.c ch s.pr.width) → sparseRead 0 t.buf key = sparseRead 0 s.buf key

/-- `SC.LINE` on single samples and `SC.LINE3` on triplets (R334, R335), on an encode: from a state within the bounds of a
scan, with room, the line is coded to its end, the bounds hold after it, and every sample of the line is within `near` of
the input; the traits, the parameters and the other buffer's samples are as before. Where a gradient of the first element is
no operand of `QT.QUANT`, which between samples none is, both are refused (R103, R145; log entry 12). That the operation
issued alone leaves the sequencer `Scanning`, from `Idle` too, is the model's choice (log entry 24). -/
def Obligations.LinesEncode : Prop :=
  (∀ s, 1 ≤ s.pr.width → gradientsInRange 0 0 s = false →
    exec .scLine s = .refused .operandRange ∧ exec .scLine3 s = .refused .operandRange) ∧
  ∀ s, ScanInv s → legalParams s.build s.pr = true → s.dir = false → writerOk s.wr = true →
    roomFor s.wr (elementBits * s.pr.width) →
    ∃ t, exec (if s.pr.ilv = .sample then .scLine3 else .scLine) s = .next t ∧ ScanInv t ∧ t.seq.i = s.pr.width ∧
      t.seq.fsm = .scanning ∧ t.seq.y = s.seq.y ∧ t.seq.c = s.seq.c ∧ t.err = s.err ∧ t.done = s.done ∧ t.tr = s.tr ∧
      t.pr = s.pr ∧ (∀ ch < 3, ∀ j : Int, -1 ≤ j → j ≤ s.pr.width → prevRead t ch j = prevRead s ch j) ∧
      ∀ ch < channels s, ∀ j : Int, 0 ≤ j → j < s.pr.width →
        (curRead t ch j - curRead s ch j).natAbs ≤ s.tr.near

/-- `SC.LINE` and `SC.LINE3` on a decode (R334, R335): a decoder with the same parameters, traits, statistics, run index and
previous line reads back, from the bits the encoder wrote for the line, the samples the encoder rebuilt, and ends with the
same statistics and run index, with exactly those bits consumed. -/
def Obligations.LinesDecode : Prop :=
  ∀ s d t, ScanInv s → legalParams s.build s.pr = true → writerOk s.wr = true → s.seq.i = 0 → Twin s d →
    roomFor s.wr (elementBits * s.pr.width) →
    exec (if s.pr.ilv = .sample then .scLine3 else .scLine) s = .next t →
    ∃ bits, Appended s.wr bits t.wr ∧ t.bs = writeBytes s.bs s.wr.wpos (newBytes s.wr bits) ∧
      ∀ rest, remaining d = bits ++ rest → ∃ d', exec (if s.pr.ilv = .sample then .scLine3 else .scLine) d = .next d' ∧
        remaining d' = rest ∧ Twin t d' ∧ d'.bs = d.bs

/-- `SC.SCAN` (R336) and `ENCODE_SCAN` (R340): with a legal block, every line ready at the port and room in the sink, the
scan completes. `ENCODE_SCAN` leaves `Idle`, done, no error, `SR1` the count of the bytes written to consecutive positions
from `p0`, nothing pending and no last byte `0xFF`. The first line the host does not hold, or holds too short, ends the
command with `UncompressedBufferTooSmall`, and one with a sample above `max_val` is refused (R343, R374; what a missing line
is, is log entry 19). -/
def Obligations.ScansEncode : Prop :=
  ∀ s : State, Memory.wf s.bs = true → legalParams s.build s.pr = true →
    let bits := elementBits * (s.pr.width * s.pr.height * slots s.pr)
    (linesReady s → ScanInv s → s.tr = scanTraits s.pr → s.dir = false → writerOk s.wr = true → roomFor s.wr bits →
      ∃ t, exec .scScan s = .next t ∧ ScanInv t ∧ t.err = s.err ∧ t.done = s.done ∧ t.busy = s.busy ∧
        writerOk t.wr = true ∧ s.wr.wpos ≤ t.wr.wpos) ∧
    ∀ p0 cap, s.seq.fsm = .idle → s.busy = false → s.configured = true → 7 * p0 + bits + 14 ≤ 7 * cap →
      (linesReady s → ∃ t, exec (.encodeScan p0 cap) s = .next t ∧ t.err = .none ∧ t.done = true ∧ t.busy = false ∧
        t.seq.fsm = .idle ∧ t.sr1 = BitVec.ofNat 32 t.wr.written ∧ t.wr.wpos = p0 + t.wr.written ∧ t.wr.wpos ≤ cap ∧
        t.wr.wacc = [] ∧ t.wr.wff = false ∧ ∀ a, a < p0 ∨ t.wr.wpos ≤ a → memRead t.bs a = memRead s.bs a) ∧
      ∀ y c, y < s.pr.height → c < slots s.pr → readyBefore s c y →
        ((∀ l, heldLine s.lineSrc c y = some l → lineElements s.pr.width (channels s) l = none) → ∃ u, u.pr = s.pr ∧
          exec (.encodeScan p0 cap) s = .next (raiseErr .uncompressedBufferTooSmall u)) ∧
        ∀ l px, heldLine s.lineSrc c y = some l → lineElements s.pr.width (channels s) l = some px →
          px.all (fun e => e.all (isSample (scanTraits s.pr))) = false →
          exec (.encodeScan p0 cap) s = .refused .sampleRange

/-- `DECODE_SCAN` (R341). Every one that is accepted answers a next state, with or without an error: the scan always ends
(R407). Where the array holds from `p0` the bytes that `ENCODE_SCAN` writes for some lines that are ready, and a marker after
them, it completes: no error, done, the BYTE position at the marker, every line of the rectangle delivered with every sample
within `near` of those lines. The same from any encode that ended without error, whatever room it had; and where the host
accepts fewer lines than the rectangle gives, it raises `UncompressedBufferTooSmall` (R342). A bound of
`EOS_MAX_RESIDUAL_BITS` below 14 could forbid the encoder's own padding, so the two are for a bound of at least that or none
(log entry 20). What the lines ready are, that the delivered ones are cleared when a decode starts, and how the host says how
many it accepts are the model's choice (log entry 19). -/
def Obligations.ScanRoundTrips : Prop :=
  (∀ d p0 len, d.seq.fsm = .idle → d.busy = false → d.configured = true → legalParams d.build d.pr = true → p0 ≤ len →
    ∃ u, exec (.decodeScan p0 len) d = .next u) ∧
  (∀ d lines p0 cap len, d.seq.fsm = .idle → d.busy = false → d.configured = true → legalParams d.build d.pr = true →
    (∀ n, d.build.eosMax = some n → 14 ≤ n) → Accepts d (slots d.pr * d.pr.rectH) →
    let e : State := { d with lineSrc := lines }
    let bytes := scanBytes p0 cap e
    Memory.wf d.bs = true → linesReady e → 7 * p0 + elementBits * (d.pr.width * d.pr.height * slots d.pr) + 14 ≤ 7 * cap →
    (∀ j < bytes.length, memRead d.bs (p0 + j) = bytes.getD j 0) → p0 + bytes.length < len →
    isMarker d.bs len (p0 + bytes.length) = true →
    ∃ u, exec (.decodeScan p0 len) d = .next u ∧ u.err = .none ∧ u.done = true ∧ u.bytePos = p0 + bytes.length ∧
      Delivered e u) ∧
  ∀ s t d p0 cap len, Memory.wf s.bs = true → exec (.encodeScan p0 cap) s = .next t → t.err = .none →
    d.pr = s.pr → legalParams d.build d.pr = true → d.configured = true → d.seq.fsm = .idle → d.busy = false →
    (∀ a, p0 ≤ a → a < t.wr.wpos → memRead d.bs a = memRead t.bs a) → t.wr.wpos < len →
    isMarker d.bs len t.wr.wpos = true →
    ((∀ n, d.build.eosMax = some n → 14 ≤ n) → Accepts d (slots d.pr * d.pr.rectH) →
      ∃ u, exec (.decodeScan p0 len) d = .next u ∧ u.err = .none ∧ u.done = true ∧ u.bytePos = t.wr.wpos ∧
        Delivered s u) ∧
    (¬Accepts d (slots d.pr * d.pr.rectH) → ∃ u, u.pr = d.pr ∧
      exec (.decodeScan p0 len) d = .next (raiseErr .uncompressedBufferTooSmall u))

/-! ## The codewords -/

/-- Each codeword form on an encode (R94, R95, R98, R99): where it is a codeword of the context the state holds and fits the
sink, its pattern is appended and nothing else changes, but that `RUNINDEX` is incremented after `CW.RUNSEG`; the padding is
the one that completes the pending byte, and the stuffed bit stands where the byte packing puts it. Executing a codeword on
its own is the model's reading of the table's rows, and so is that an escape is appended for any value its field can carry,
a run codeword whatever is left of the line, and the padding at any place of the scan (log entry 15). A prefix of more than 60
zeros before a remainder, or of more than 61 before an escaped value, is left out (log entry 15). -/
def Obligations.CodewordsAreWritten : Prop :=
  ∀ s : State, s.dir = false →
    (∀ h r bits, s.w.k ≤ 31 → h ≤ 60 → cwBits (cwContext s) (.cwGolomb h r) = some bits → fits s.wr bits →
      ∃ v, Appended s.wr bits v ∧ exec (.cwGolomb h r) s = .next (afterAppend s bits v)) ∧
    (∀ x bits, s.tr.qbpp ≤ 31 → (cwContext s).glimit ≤ s.tr.qbpp + 62 →
      cwBits (cwContext s) (.cwEscape x) = some bits → fits s.wr bits →
      ∃ v, Appended s.wr bits v ∧ exec (.cwEscape x) s = .next (afterAppend s bits v)) ∧
    (∀ bits, cwBits (cwContext s) .cwRunseg = some bits → fits s.wr bits → ∃ v, Appended s.wr bits v ∧
      exec .cwRunseg s = .next { afterAppend s bits v with runindex := min 31 (s.runindex + 1) }) ∧
    (∀ n bits, s.runindex ≤ 31 → cwBits (cwContext s) (.cwRunrem n) = some bits → fits s.wr bits →
      ∃ v, Appended s.wr bits v ∧ exec (.cwRunrem n) s = .next (afterAppend s bits v)) ∧
    (∀ bits, cwBits (cwContext s) .cwRuneol = some bits → fits s.wr bits → ∃ v, Appended s.wr bits v ∧
      exec .cwRuneol s = .next (afterAppend s bits v)) ∧
    (writerOk s.wr = true → fits s.wr (List.replicate (padLength s.wr) false) → ∃ v,
      Appended s.wr (List.replicate (padLength s.wr) false) v ∧ v.wacc = [] ∧
      exec (.cwPad (padLength s.wr)) s = .next (afterAppend s (List.replicate (padLength s.wr) false) v)) ∧
    (s.wr.wff = true → s.wr.wacc = [] → exec .cwStuff s = .next s)

/-- Each codeword form on a decode (R94 to R99): where it is the codeword at this place of the stream, its bits are consumed
and nothing else changes but what it carries: the mapped value in `MERR`, the samples of a run segment, remainder or end of
line in `RUNLEN`, `RUNINDEX` after a full segment; the padding at any place of the scan (log entry 15). That `J` of a
run index above 31 is 15 is log entry 9, and that nothing is left of a line `seq.i` and `RUNLEN` run past is log entries 15
and 24. -/
def Obligations.CodewordsAreRead : Prop :=
  ∀ s : State, s.dir = true →
    (∀ h r bits rest, s.w.k ≤ 31 → cwBits (cwContext s) (.cwGolomb h r) = some bits → remaining s = bits ++ rest →
      ∃ v, Consumed s.rd bits.length v ∧ exec (.cwGolomb h r) s =
        .next { s with rd := v, w := { s.w with merr := h * 2 ^ s.w.k + r } }) ∧
    (∀ x bits rest, s.tr.qbpp ≤ 31 → cwBits (cwContext s) (.cwEscape x) = some bits → remaining s = bits ++ rest →
      ∃ v, Consumed s.rd bits.length v ∧ exec (.cwEscape x) s = .next { s with rd := v, w := { s.w with merr := x + 1 } }) ∧
    (∀ rest, remaining s = true :: rest → 2 ^ jOf s.runindex ≤ s.pr.width - s.seq.i - s.w.runlen → ∃ v,
      Consumed s.rd 1 v ∧ exec .cwRunseg s = .next { s with
        rd := v, runindex := min 31 (s.runindex + 1), w := { s.w with runlen := s.w.runlen + 2 ^ jOf s.runindex } }) ∧
    (∀ n rest, s.runindex ≤ 31 → n < 2 ^ jOf s.runindex → n ≤ s.pr.width - s.seq.i - s.w.runlen →
      0 < s.pr.width - s.seq.i - s.w.runlen → remaining s = false :: (bitsOf n (jOf s.runindex) ++ rest) → ∃ v,
      Consumed s.rd (1 + jOf s.runindex) v ∧ exec (.cwRunrem n) s = .next { s with
        rd := v, w := { s.w with runlen := s.w.runlen + n } }) ∧
    (∀ rest, remaining s = true :: rest → 0 < s.pr.width - s.seq.i - s.w.runlen →
      s.pr.width - s.seq.i - s.w.runlen < 2 ^ jOf s.runindex → ∃ v, Consumed s.rd 1 v ∧ exec .cwRuneol s =
        .next { s with rd := v, w := { s.w with runlen := s.w.runlen + (s.pr.width - s.seq.i - s.w.runlen) } }) ∧
    (∀ rest, toBoundary s ≤ 7 → remaining s = List.replicate (toBoundary s) false ++ rest → ∃ v,
      Consumed s.rd (toBoundary s) v ∧ exec (.cwPad (toBoundary s)) s = .next { s with rd := v }) ∧
    (atStuffedBit s = true → exec .cwStuff s = .next s)

end
end

