-- ==== Sys2Proof/Laws/State.lean ====
section
/-! SUPPORT. What each named update of the state does to each field: one lemma per field, true by definition. -/

namespace Sys2Proof.Machine

/-! ### setCtx -/

@[simp] theorem setCtx_pr (s : State) (q : Nat) (v : RegCtx) : (setCtx s q v).pr = s.pr := rfl
@[simp] theorem setCtx_configured (s : State) (q : Nat) (v : RegCtx) : (setCtx s q v).configured = s.configured := rfl
@[simp] theorem setCtx_tr (s : State) (q : Nat) (v : RegCtx) : (setCtx s q v).tr = s.tr := rfl
@[simp] theorem setCtx_err (s : State) (q : Nat) (v : RegCtx) : (setCtx s q v).err = s.err := rfl
@[simp] theorem setCtx_busy (s : State) (q : Nat) (v : RegCtx) : (setCtx s q v).busy = s.busy := rfl
@[simp] theorem setCtx_done (s : State) (q : Nat) (v : RegCtx) : (setCtx s q v).done = s.done := rfl
@[simp] theorem setCtx_dir (s : State) (q : Nat) (v : RegCtx) : (setCtx s q v).dir = s.dir := rfl
@[simp] theorem setCtx_sr1 (s : State) (q : Nat) (v : RegCtx) : (setCtx s q v).sr1 = s.sr1 := rfl
@[simp] theorem setCtx_ctx (s : State) (q : Nat) (v : RegCtx) : (setCtx s q v).ctx = s.ctx.set (q % 365) v (Nat.mod_lt _ (by decide)) := rfl
@[simp] theorem setCtx_rctx (s : State) (q : Nat) (v : RegCtx) : (setCtx s q v).rctx = s.rctx := rfl
@[simp] theorem setCtx_runidx (s : State) (q : Nat) (v : RegCtx) : (setCtx s q v).runidx = s.runidx := rfl
@[simp] theorem setCtx_runindex (s : State) (q : Nat) (v : RegCtx) : (setCtx s q v).runindex = s.runindex := rfl
@[simp] theorem setCtx_qt (s : State) (q : Nat) (v : RegCtx) : (setCtx s q v).qt = s.qt := rfl
@[simp] theorem setCtx_buf (s : State) (q : Nat) (v : RegCtx) : (setCtx s q v).buf = s.buf := rfl
@[simp] theorem setCtx_rd (s : State) (q : Nat) (v : RegCtx) : (setCtx s q v).rd = s.rd := rfl
@[simp] theorem setCtx_wr (s : State) (q : Nat) (v : RegCtx) : (setCtx s q v).wr = s.wr := rfl
@[simp] theorem setCtx_w (s : State) (q : Nat) (v : RegCtx) : (setCtx s q v).w = s.w := rfl
@[simp] theorem setCtx_seq (s : State) (q : Nat) (v : RegCtx) : (setCtx s q v).seq = s.seq := rfl
@[simp] theorem setCtx_bs (s : State) (q : Nat) (v : RegCtx) : (setCtx s q v).bs = s.bs := rfl
@[simp] theorem setCtx_bytePos (s : State) (q : Nat) (v : RegCtx) : (setCtx s q v).bytePos = s.bytePos := rfl
@[simp] theorem setCtx_lineSrc (s : State) (q : Nat) (v : RegCtx) : (setCtx s q v).lineSrc = s.lineSrc := rfl
@[simp] theorem setCtx_lineDst (s : State) (q : Nat) (v : RegCtx) : (setCtx s q v).lineDst = s.lineDst := rfl
@[simp] theorem setCtx_lineRoom (s : State) (q : Nat) (v : RegCtx) : (setCtx s q v).lineRoom = s.lineRoom := rfl
@[simp] theorem setCtx_result (s : State) (q : Nat) (v : RegCtx) : (setCtx s q v).result = s.result := rfl
@[simp] theorem setCtx_issue (s : State) (q : Nat) (v : RegCtx) : (setCtx s q v).issue = s.issue := rfl
@[simp] theorem setCtx_host (s : State) (q : Nat) (v : RegCtx) : (setCtx s q v).host = s.host := rfl
@[simp] theorem setCtx_free (s : State) (q : Nat) (v : RegCtx) : (setCtx s q v).free = s.free := rfl
@[simp] theorem setCtx_build (s : State) (q : Nat) (v : RegCtx) : (setCtx s q v).build = s.build := rfl
@[simp] theorem setCtx_resetIn (s : State) (q : Nat) (v : RegCtx) : (setCtx s q v).resetIn = s.resetIn := rfl

/-! ### setRctx -/

@[simp] theorem setRctx_pr (s : State) (t : Nat) (v : RunCtx) : (setRctx s t v).pr = s.pr := rfl
@[simp] theorem setRctx_configured (s : State) (t : Nat) (v : RunCtx) : (setRctx s t v).configured = s.configured := rfl
@[simp] theorem setRctx_tr (s : State) (t : Nat) (v : RunCtx) : (setRctx s t v).tr = s.tr := rfl
@[simp] theorem setRctx_err (s : State) (t : Nat) (v : RunCtx) : (setRctx s t v).err = s.err := rfl
@[simp] theorem setRctx_busy (s : State) (t : Nat) (v : RunCtx) : (setRctx s t v).busy = s.busy := rfl
@[simp] theorem setRctx_done (s : State) (t : Nat) (v : RunCtx) : (setRctx s t v).done = s.done := rfl
@[simp] theorem setRctx_dir (s : State) (t : Nat) (v : RunCtx) : (setRctx s t v).dir = s.dir := rfl
@[simp] theorem setRctx_sr1 (s : State) (t : Nat) (v : RunCtx) : (setRctx s t v).sr1 = s.sr1 := rfl
@[simp] theorem setRctx_ctx (s : State) (t : Nat) (v : RunCtx) : (setRctx s t v).ctx = s.ctx := rfl
@[simp] theorem setRctx_rctx (s : State) (t : Nat) (v : RunCtx) : (setRctx s t v).rctx = s.rctx.set (t % 2) v (Nat.mod_lt _ (by decide)) := rfl
@[simp] theorem setRctx_runidx (s : State) (t : Nat) (v : RunCtx) : (setRctx s t v).runidx = s.runidx := rfl
@[simp] theorem setRctx_runindex (s : State) (t : Nat) (v : RunCtx) : (setRctx s t v).runindex = s.runindex := rfl
@[simp] theorem setRctx_qt (s : State) (t : Nat) (v : RunCtx) : (setRctx s t v).qt = s.qt := rfl
@[simp] theorem setRctx_buf (s : State) (t : Nat) (v : RunCtx) : (setRctx s t v).buf = s.buf := rfl
@[simp] theorem setRctx_rd (s : State) (t : Nat) (v : RunCtx) : (setRctx s t v).rd = s.rd := rfl
@[simp] theorem setRctx_wr (s : State) (t : Nat) (v : RunCtx) : (setRctx s t v).wr = s.wr := rfl
@[simp] theorem setRctx_w (s : State) (t : Nat) (v : RunCtx) : (setRctx s t v).w = s.w := rfl
@[simp] theorem setRctx_seq (s : State) (t : Nat) (v : RunCtx) : (setRctx s t v).seq = s.seq := rfl
@[simp] theorem setRctx_bs (s : State) (t : Nat) (v : RunCtx) : (setRctx s t v).bs = s.bs := rfl
@[simp] theorem setRctx_bytePos (s : State) (t : Nat) (v : RunCtx) : (setRctx s t v).bytePos = s.bytePos := rfl
@[simp] theorem setRctx_lineSrc (s : State) (t : Nat) (v : RunCtx) : (setRctx s t v).lineSrc = s.lineSrc := rfl
@[simp] theorem setRctx_lineDst (s : State) (t : Nat) (v : RunCtx) : (setRctx s t v).lineDst = s.lineDst := rfl
@[simp] theorem setRctx_lineRoom (s : State) (t : Nat) (v : RunCtx) : (setRctx s t v).lineRoom = s.lineRoom := rfl
@[simp] theorem setRctx_result (s : State) (t : Nat) (v : RunCtx) : (setRctx s t v).result = s.result := rfl
@[simp] theorem setRctx_issue (s : State) (t : Nat) (v : RunCtx) : (setRctx s t v).issue = s.issue := rfl
@[simp] theorem setRctx_host (s : State) (t : Nat) (v : RunCtx) : (setRctx s t v).host = s.host := rfl
@[simp] theorem setRctx_free (s : State) (t : Nat) (v : RunCtx) : (setRctx s t v).free = s.free := rfl
@[simp] theorem setRctx_build (s : State) (t : Nat) (v : RunCtx) : (setRctx s t v).build = s.build := rfl
@[simp] theorem setRctx_resetIn (s : State) (t : Nat) (v : RunCtx) : (setRctx s t v).resetIn = s.resetIn := rfl

/-! ### setRunidx -/

@[simp] theorem setRunidx_pr (s : State) (c r : Nat) : (setRunidx s c r).pr = s.pr := rfl
@[simp] theorem setRunidx_configured (s : State) (c r : Nat) : (setRunidx s c r).configured = s.configured := rfl
@[simp] theorem setRunidx_tr (s : State) (c r : Nat) : (setRunidx s c r).tr = s.tr := rfl
@[simp] theorem setRunidx_err (s : State) (c r : Nat) : (setRunidx s c r).err = s.err := rfl
@[simp] theorem setRunidx_busy (s : State) (c r : Nat) : (setRunidx s c r).busy = s.busy := rfl
@[simp] theorem setRunidx_done (s : State) (c r : Nat) : (setRunidx s c r).done = s.done := rfl
@[simp] theorem setRunidx_dir (s : State) (c r : Nat) : (setRunidx s c r).dir = s.dir := rfl
@[simp] theorem setRunidx_sr1 (s : State) (c r : Nat) : (setRunidx s c r).sr1 = s.sr1 := rfl
@[simp] theorem setRunidx_ctx (s : State) (c r : Nat) : (setRunidx s c r).ctx = s.ctx := rfl
@[simp] theorem setRunidx_rctx (s : State) (c r : Nat) : (setRunidx s c r).rctx = s.rctx := rfl
@[simp] theorem setRunidx_runidx (s : State) (c r : Nat) : (setRunidx s c r).runidx = sparseWrite 0 s.runidx c r := rfl
@[simp] theorem setRunidx_runindex (s : State) (c r : Nat) : (setRunidx s c r).runindex = s.runindex := rfl
@[simp] theorem setRunidx_qt (s : State) (c r : Nat) : (setRunidx s c r).qt = s.qt := rfl
@[simp] theorem setRunidx_buf (s : State) (c r : Nat) : (setRunidx s c r).buf = s.buf := rfl
@[simp] theorem setRunidx_rd (s : State) (c r : Nat) : (setRunidx s c r).rd = s.rd := rfl
@[simp] theorem setRunidx_wr (s : State) (c r : Nat) : (setRunidx s c r).wr = s.wr := rfl
@[simp] theorem setRunidx_w (s : State) (c r : Nat) : (setRunidx s c r).w = s.w := rfl
@[simp] theorem setRunidx_seq (s : State) (c r : Nat) : (setRunidx s c r).seq = s.seq := rfl
@[simp] theorem setRunidx_bs (s : State) (c r : Nat) : (setRunidx s c r).bs = s.bs := rfl
@[simp] theorem setRunidx_bytePos (s : State) (c r : Nat) : (setRunidx s c r).bytePos = s.bytePos := rfl
@[simp] theorem setRunidx_lineSrc (s : State) (c r : Nat) : (setRunidx s c r).lineSrc = s.lineSrc := rfl
@[simp] theorem setRunidx_lineDst (s : State) (c r : Nat) : (setRunidx s c r).lineDst = s.lineDst := rfl
@[simp] theorem setRunidx_lineRoom (s : State) (c r : Nat) : (setRunidx s c r).lineRoom = s.lineRoom := rfl
@[simp] theorem setRunidx_result (s : State) (c r : Nat) : (setRunidx s c r).result = s.result := rfl
@[simp] theorem setRunidx_issue (s : State) (c r : Nat) : (setRunidx s c r).issue = s.issue := rfl
@[simp] theorem setRunidx_host (s : State) (c r : Nat) : (setRunidx s c r).host = s.host := rfl
@[simp] theorem setRunidx_free (s : State) (c r : Nat) : (setRunidx s c r).free = s.free := rfl
@[simp] theorem setRunidx_build (s : State) (c r : Nat) : (setRunidx s c r).build = s.build := rfl
@[simp] theorem setRunidx_resetIn (s : State) (c r : Nat) : (setRunidx s c r).resetIn = s.resetIn := rfl

/-! ### setRunindex -/

@[simp] theorem setRunindex_pr (s : State) (r : Nat) : (setRunindex s r).pr = s.pr := rfl
@[simp] theorem setRunindex_configured (s : State) (r : Nat) : (setRunindex s r).configured = s.configured := rfl
@[simp] theorem setRunindex_tr (s : State) (r : Nat) : (setRunindex s r).tr = s.tr := rfl
@[simp] theorem setRunindex_err (s : State) (r : Nat) : (setRunindex s r).err = s.err := rfl
@[simp] theorem setRunindex_busy (s : State) (r : Nat) : (setRunindex s r).busy = s.busy := rfl
@[simp] theorem setRunindex_done (s : State) (r : Nat) : (setRunindex s r).done = s.done := rfl
@[simp] theorem setRunindex_dir (s : State) (r : Nat) : (setRunindex s r).dir = s.dir := rfl
@[simp] theorem setRunindex_sr1 (s : State) (r : Nat) : (setRunindex s r).sr1 = s.sr1 := rfl
@[simp] theorem setRunindex_ctx (s : State) (r : Nat) : (setRunindex s r).ctx = s.ctx := rfl
@[simp] theorem setRunindex_rctx (s : State) (r : Nat) : (setRunindex s r).rctx = s.rctx := rfl
@[simp] theorem setRunindex_runidx (s : State) (r : Nat) : (setRunindex s r).runidx = s.runidx := rfl
@[simp] theorem setRunindex_runindex (s : State) (r : Nat) : (setRunindex s r).runindex = r := rfl
@[simp] theorem setRunindex_qt (s : State) (r : Nat) : (setRunindex s r).qt = s.qt := rfl
@[simp] theorem setRunindex_buf (s : State) (r : Nat) : (setRunindex s r).buf = s.buf := rfl
@[simp] theorem setRunindex_rd (s : State) (r : Nat) : (setRunindex s r).rd = s.rd := rfl
@[simp] theorem setRunindex_wr (s : State) (r : Nat) : (setRunindex s r).wr = s.wr := rfl
@[simp] theorem setRunindex_w (s : State) (r : Nat) : (setRunindex s r).w = s.w := rfl
@[simp] theorem setRunindex_seq (s : State) (r : Nat) : (setRunindex s r).seq = s.seq := rfl
@[simp] theorem setRunindex_bs (s : State) (r : Nat) : (setRunindex s r).bs = s.bs := rfl
@[simp] theorem setRunindex_bytePos (s : State) (r : Nat) : (setRunindex s r).bytePos = s.bytePos := rfl
@[simp] theorem setRunindex_lineSrc (s : State) (r : Nat) : (setRunindex s r).lineSrc = s.lineSrc := rfl
@[simp] theorem setRunindex_lineDst (s : State) (r : Nat) : (setRunindex s r).lineDst = s.lineDst := rfl
@[simp] theorem setRunindex_lineRoom (s : State) (r : Nat) : (setRunindex s r).lineRoom = s.lineRoom := rfl
@[simp] theorem setRunindex_result (s : State) (r : Nat) : (setRunindex s r).result = s.result := rfl
@[simp] theorem setRunindex_issue (s : State) (r : Nat) : (setRunindex s r).issue = s.issue := rfl
@[simp] theorem setRunindex_host (s : State) (r : Nat) : (setRunindex s r).host = s.host := rfl
@[simp] theorem setRunindex_free (s : State) (r : Nat) : (setRunindex s r).free = s.free := rfl
@[simp] theorem setRunindex_build (s : State) (r : Nat) : (setRunindex s r).build = s.build := rfl
@[simp] theorem setRunindex_resetIn (s : State) (r : Nat) : (setRunindex s r).resetIn = s.resetIn := rfl

/-! ### setWork -/

@[simp] theorem setWork_pr (s : State) (w : Work) : (setWork s w).pr = s.pr := rfl
@[simp] theorem setWork_configured (s : State) (w : Work) : (setWork s w).configured = s.configured := rfl
@[simp] theorem setWork_tr (s : State) (w : Work) : (setWork s w).tr = s.tr := rfl
@[simp] theorem setWork_err (s : State) (w : Work) : (setWork s w).err = s.err := rfl
@[simp] theorem setWork_busy (s : State) (w : Work) : (setWork s w).busy = s.busy := rfl
@[simp] theorem setWork_done (s : State) (w : Work) : (setWork s w).done = s.done := rfl
@[simp] theorem setWork_dir (s : State) (w : Work) : (setWork s w).dir = s.dir := rfl
@[simp] theorem setWork_sr1 (s : State) (w : Work) : (setWork s w).sr1 = s.sr1 := rfl
@[simp] theorem setWork_ctx (s : State) (w : Work) : (setWork s w).ctx = s.ctx := rfl
@[simp] theorem setWork_rctx (s : State) (w : Work) : (setWork s w).rctx = s.rctx := rfl
@[simp] theorem setWork_runidx (s : State) (w : Work) : (setWork s w).runidx = s.runidx := rfl
@[simp] theorem setWork_runindex (s : State) (w : Work) : (setWork s w).runindex = s.runindex := rfl
@[simp] theorem setWork_qt (s : State) (w : Work) : (setWork s w).qt = s.qt := rfl
@[simp] theorem setWork_buf (s : State) (w : Work) : (setWork s w).buf = s.buf := rfl
@[simp] theorem setWork_rd (s : State) (w : Work) : (setWork s w).rd = s.rd := rfl
@[simp] theorem setWork_wr (s : State) (w : Work) : (setWork s w).wr = s.wr := rfl
@[simp] theorem setWork_w (s : State) (w : Work) : (setWork s w).w = w := rfl
@[simp] theorem setWork_seq (s : State) (w : Work) : (setWork s w).seq = s.seq := rfl
@[simp] theorem setWork_bs (s : State) (w : Work) : (setWork s w).bs = s.bs := rfl
@[simp] theorem setWork_bytePos (s : State) (w : Work) : (setWork s w).bytePos = s.bytePos := rfl
@[simp] theorem setWork_lineSrc (s : State) (w : Work) : (setWork s w).lineSrc = s.lineSrc := rfl
@[simp] theorem setWork_lineDst (s : State) (w : Work) : (setWork s w).lineDst = s.lineDst := rfl
@[simp] theorem setWork_lineRoom (s : State) (w : Work) : (setWork s w).lineRoom = s.lineRoom := rfl
@[simp] theorem setWork_result (s : State) (w : Work) : (setWork s w).result = s.result := rfl
@[simp] theorem setWork_issue (s : State) (w : Work) : (setWork s w).issue = s.issue := rfl
@[simp] theorem setWork_host (s : State) (w : Work) : (setWork s w).host = s.host := rfl
@[simp] theorem setWork_free (s : State) (w : Work) : (setWork s w).free = s.free := rfl
@[simp] theorem setWork_build (s : State) (w : Work) : (setWork s w).build = s.build := rfl
@[simp] theorem setWork_resetIn (s : State) (w : Work) : (setWork s w).resetIn = s.resetIn := rfl

/-! ### setResult -/

@[simp] theorem setResult_pr (s : State) (r : List Int) : (setResult s r).pr = s.pr := rfl
@[simp] theorem setResult_configured (s : State) (r : List Int) : (setResult s r).configured = s.configured := rfl
@[simp] theorem setResult_tr (s : State) (r : List Int) : (setResult s r).tr = s.tr := rfl
@[simp] theorem setResult_err (s : State) (r : List Int) : (setResult s r).err = s.err := rfl
@[simp] theorem setResult_busy (s : State) (r : List Int) : (setResult s r).busy = s.busy := rfl
@[simp] theorem setResult_done (s : State) (r : List Int) : (setResult s r).done = s.done := rfl
@[simp] theorem setResult_dir (s : State) (r : List Int) : (setResult s r).dir = s.dir := rfl
@[simp] theorem setResult_sr1 (s : State) (r : List Int) : (setResult s r).sr1 = s.sr1 := rfl
@[simp] theorem setResult_ctx (s : State) (r : List Int) : (setResult s r).ctx = s.ctx := rfl
@[simp] theorem setResult_rctx (s : State) (r : List Int) : (setResult s r).rctx = s.rctx := rfl
@[simp] theorem setResult_runidx (s : State) (r : List Int) : (setResult s r).runidx = s.runidx := rfl
@[simp] theorem setResult_runindex (s : State) (r : List Int) : (setResult s r).runindex = s.runindex := rfl
@[simp] theorem setResult_qt (s : State) (r : List Int) : (setResult s r).qt = s.qt := rfl
@[simp] theorem setResult_buf (s : State) (r : List Int) : (setResult s r).buf = s.buf := rfl
@[simp] theorem setResult_rd (s : State) (r : List Int) : (setResult s r).rd = s.rd := rfl
@[simp] theorem setResult_wr (s : State) (r : List Int) : (setResult s r).wr = s.wr := rfl
@[simp] theorem setResult_w (s : State) (r : List Int) : (setResult s r).w = s.w := rfl
@[simp] theorem setResult_seq (s : State) (r : List Int) : (setResult s r).seq = s.seq := rfl
@[simp] theorem setResult_bs (s : State) (r : List Int) : (setResult s r).bs = s.bs := rfl
@[simp] theorem setResult_bytePos (s : State) (r : List Int) : (setResult s r).bytePos = s.bytePos := rfl
@[simp] theorem setResult_lineSrc (s : State) (r : List Int) : (setResult s r).lineSrc = s.lineSrc := rfl
@[simp] theorem setResult_lineDst (s : State) (r : List Int) : (setResult s r).lineDst = s.lineDst := rfl
@[simp] theorem setResult_lineRoom (s : State) (r : List Int) : (setResult s r).lineRoom = s.lineRoom := rfl
@[simp] theorem setResult_result (s : State) (r : List Int) : (setResult s r).result = r := rfl
@[simp] theorem setResult_issue (s : State) (r : List Int) : (setResult s r).issue = s.issue := rfl
@[simp] theorem setResult_host (s : State) (r : List Int) : (setResult s r).host = s.host := rfl
@[simp] theorem setResult_free (s : State) (r : List Int) : (setResult s r).free = s.free := rfl
@[simp] theorem setResult_build (s : State) (r : List Int) : (setResult s r).build = s.build := rfl
@[simp] theorem setResult_resetIn (s : State) (r : List Int) : (setResult s r).resetIn = s.resetIn := rfl

/-! ### setReader -/

@[simp] theorem setReader_pr (s : State) (r : Reader) : (setReader s r).pr = s.pr := rfl
@[simp] theorem setReader_configured (s : State) (r : Reader) : (setReader s r).configured = s.configured := rfl
@[simp] theorem setReader_tr (s : State) (r : Reader) : (setReader s r).tr = s.tr := rfl
@[simp] theorem setReader_err (s : State) (r : Reader) : (setReader s r).err = s.err := rfl
@[simp] theorem setReader_busy (s : State) (r : Reader) : (setReader s r).busy = s.busy := rfl
@[simp] theorem setReader_done (s : State) (r : Reader) : (setReader s r).done = s.done := rfl
@[simp] theorem setReader_dir (s : State) (r : Reader) : (setReader s r).dir = s.dir := rfl
@[simp] theorem setReader_sr1 (s : State) (r : Reader) : (setReader s r).sr1 = s.sr1 := rfl
@[simp] theorem setReader_ctx (s : State) (r : Reader) : (setReader s r).ctx = s.ctx := rfl
@[simp] theorem setReader_rctx (s : State) (r : Reader) : (setReader s r).rctx = s.rctx := rfl
@[simp] theorem setReader_runidx (s : State) (r : Reader) : (setReader s r).runidx = s.runidx := rfl
@[simp] theorem setReader_runindex (s : State) (r : Reader) : (setReader s r).runindex = s.runindex := rfl
@[simp] theorem setReader_qt (s : State) (r : Reader) : (setReader s r).qt = s.qt := rfl
@[simp] theorem setReader_buf (s : State) (r : Reader) : (setReader s r).buf = s.buf := rfl
@[simp] theorem setReader_rd (s : State) (r : Reader) : (setReader s r).rd = r := rfl
@[simp] theorem setReader_wr (s : State) (r : Reader) : (setReader s r).wr = s.wr := rfl
@[simp] theorem setReader_w (s : State) (r : Reader) : (setReader s r).w = s.w := rfl
@[simp] theorem setReader_seq (s : State) (r : Reader) : (setReader s r).seq = s.seq := rfl
@[simp] theorem setReader_bs (s : State) (r : Reader) : (setReader s r).bs = s.bs := rfl
@[simp] theorem setReader_bytePos (s : State) (r : Reader) : (setReader s r).bytePos = s.bytePos := rfl
@[simp] theorem setReader_lineSrc (s : State) (r : Reader) : (setReader s r).lineSrc = s.lineSrc := rfl
@[simp] theorem setReader_lineDst (s : State) (r : Reader) : (setReader s r).lineDst = s.lineDst := rfl
@[simp] theorem setReader_lineRoom (s : State) (r : Reader) : (setReader s r).lineRoom = s.lineRoom := rfl
@[simp] theorem setReader_result (s : State) (r : Reader) : (setReader s r).result = s.result := rfl
@[simp] theorem setReader_issue (s : State) (r : Reader) : (setReader s r).issue = s.issue := rfl
@[simp] theorem setReader_host (s : State) (r : Reader) : (setReader s r).host = s.host := rfl
@[simp] theorem setReader_free (s : State) (r : Reader) : (setReader s r).free = s.free := rfl
@[simp] theorem setReader_build (s : State) (r : Reader) : (setReader s r).build = s.build := rfl
@[simp] theorem setReader_resetIn (s : State) (r : Reader) : (setReader s r).resetIn = s.resetIn := rfl

/-! ### setWriter -/

@[simp] theorem setWriter_pr (s : State) (w : Writer) : (setWriter s w).pr = s.pr := rfl
@[simp] theorem setWriter_configured (s : State) (w : Writer) : (setWriter s w).configured = s.configured := rfl
@[simp] theorem setWriter_tr (s : State) (w : Writer) : (setWriter s w).tr = s.tr := rfl
@[simp] theorem setWriter_err (s : State) (w : Writer) : (setWriter s w).err = s.err := rfl
@[simp] theorem setWriter_busy (s : State) (w : Writer) : (setWriter s w).busy = s.busy := rfl
@[simp] theorem setWriter_done (s : State) (w : Writer) : (setWriter s w).done = s.done := rfl
@[simp] theorem setWriter_dir (s : State) (w : Writer) : (setWriter s w).dir = s.dir := rfl
@[simp] theorem setWriter_sr1 (s : State) (w : Writer) : (setWriter s w).sr1 = s.sr1 := rfl
@[simp] theorem setWriter_ctx (s : State) (w : Writer) : (setWriter s w).ctx = s.ctx := rfl
@[simp] theorem setWriter_rctx (s : State) (w : Writer) : (setWriter s w).rctx = s.rctx := rfl
@[simp] theorem setWriter_runidx (s : State) (w : Writer) : (setWriter s w).runidx = s.runidx := rfl
@[simp] theorem setWriter_runindex (s : State) (w : Writer) : (setWriter s w).runindex = s.runindex := rfl
@[simp] theorem setWriter_qt (s : State) (w : Writer) : (setWriter s w).qt = s.qt := rfl
@[simp] theorem setWriter_buf (s : State) (w : Writer) : (setWriter s w).buf = s.buf := rfl
@[simp] theorem setWriter_rd (s : State) (w : Writer) : (setWriter s w).rd = s.rd := rfl
@[simp] theorem setWriter_wr (s : State) (w : Writer) : (setWriter s w).wr = w := rfl
@[simp] theorem setWriter_w (s : State) (w : Writer) : (setWriter s w).w = s.w := rfl
@[simp] theorem setWriter_seq (s : State) (w : Writer) : (setWriter s w).seq = s.seq := rfl
@[simp] theorem setWriter_bs (s : State) (w : Writer) : (setWriter s w).bs = s.bs := rfl
@[simp] theorem setWriter_bytePos (s : State) (w : Writer) : (setWriter s w).bytePos = s.bytePos := rfl
@[simp] theorem setWriter_lineSrc (s : State) (w : Writer) : (setWriter s w).lineSrc = s.lineSrc := rfl
@[simp] theorem setWriter_lineDst (s : State) (w : Writer) : (setWriter s w).lineDst = s.lineDst := rfl
@[simp] theorem setWriter_lineRoom (s : State) (w : Writer) : (setWriter s w).lineRoom = s.lineRoom := rfl
@[simp] theorem setWriter_result (s : State) (w : Writer) : (setWriter s w).result = s.result := rfl
@[simp] theorem setWriter_issue (s : State) (w : Writer) : (setWriter s w).issue = s.issue := rfl
@[simp] theorem setWriter_host (s : State) (w : Writer) : (setWriter s w).host = s.host := rfl
@[simp] theorem setWriter_free (s : State) (w : Writer) : (setWriter s w).free = s.free := rfl
@[simp] theorem setWriter_build (s : State) (w : Writer) : (setWriter s w).build = s.build := rfl
@[simp] theorem setWriter_resetIn (s : State) (w : Writer) : (setWriter s w).resetIn = s.resetIn := rfl

/-! ### setBytes -/

@[simp] theorem setBytes_pr (s : State) (m : Memory) : (setBytes s m).pr = s.pr := rfl
@[simp] theorem setBytes_configured (s : State) (m : Memory) : (setBytes s m).configured = s.configured := rfl
@[simp] theorem setBytes_tr (s : State) (m : Memory) : (setBytes s m).tr = s.tr := rfl
@[simp] theorem setBytes_err (s : State) (m : Memory) : (setBytes s m).err = s.err := rfl
@[simp] theorem setBytes_busy (s : State) (m : Memory) : (setBytes s m).busy = s.busy := rfl
@[simp] theorem setBytes_done (s : State) (m : Memory) : (setBytes s m).done = s.done := rfl
@[simp] theorem setBytes_dir (s : State) (m : Memory) : (setBytes s m).dir = s.dir := rfl
@[simp] theorem setBytes_sr1 (s : State) (m : Memory) : (setBytes s m).sr1 = s.sr1 := rfl
@[simp] theorem setBytes_ctx (s : State) (m : Memory) : (setBytes s m).ctx = s.ctx := rfl
@[simp] theorem setBytes_rctx (s : State) (m : Memory) : (setBytes s m).rctx = s.rctx := rfl
@[simp] theorem setBytes_runidx (s : State) (m : Memory) : (setBytes s m).runidx = s.runidx := rfl
@[simp] theorem setBytes_runindex (s : State) (m : Memory) : (setBytes s m).runindex = s.runindex := rfl
@[simp] theorem setBytes_qt (s : State) (m : Memory) : (setBytes s m).qt = s.qt := rfl
@[simp] theorem setBytes_buf (s : State) (m : Memory) : (setBytes s m).buf = s.buf := rfl
@[simp] theorem setBytes_rd (s : State) (m : Memory) : (setBytes s m).rd = s.rd := rfl
@[simp] theorem setBytes_wr (s : State) (m : Memory) : (setBytes s m).wr = s.wr := rfl
@[simp] theorem setBytes_w (s : State) (m : Memory) : (setBytes s m).w = s.w := rfl
@[simp] theorem setBytes_seq (s : State) (m : Memory) : (setBytes s m).seq = s.seq := rfl
@[simp] theorem setBytes_bs (s : State) (m : Memory) : (setBytes s m).bs = m := rfl
@[simp] theorem setBytes_bytePos (s : State) (m : Memory) : (setBytes s m).bytePos = s.bytePos := rfl
@[simp] theorem setBytes_lineSrc (s : State) (m : Memory) : (setBytes s m).lineSrc = s.lineSrc := rfl
@[simp] theorem setBytes_lineDst (s : State) (m : Memory) : (setBytes s m).lineDst = s.lineDst := rfl
@[simp] theorem setBytes_lineRoom (s : State) (m : Memory) : (setBytes s m).lineRoom = s.lineRoom := rfl
@[simp] theorem setBytes_result (s : State) (m : Memory) : (setBytes s m).result = s.result := rfl
@[simp] theorem setBytes_issue (s : State) (m : Memory) : (setBytes s m).issue = s.issue := rfl
@[simp] theorem setBytes_host (s : State) (m : Memory) : (setBytes s m).host = s.host := rfl
@[simp] theorem setBytes_free (s : State) (m : Memory) : (setBytes s m).free = s.free := rfl
@[simp] theorem setBytes_build (s : State) (m : Memory) : (setBytes s m).build = s.build := rfl
@[simp] theorem setBytes_resetIn (s : State) (m : Memory) : (setBytes s m).resetIn = s.resetIn := rfl

/-! ### setBuf -/

@[simp] theorem setBuf_pr (s : State) (b : List (Nat × Int)) : (setBuf s b).pr = s.pr := rfl
@[simp] theorem setBuf_configured (s : State) (b : List (Nat × Int)) : (setBuf s b).configured = s.configured := rfl
@[simp] theorem setBuf_tr (s : State) (b : List (Nat × Int)) : (setBuf s b).tr = s.tr := rfl
@[simp] theorem setBuf_err (s : State) (b : List (Nat × Int)) : (setBuf s b).err = s.err := rfl
@[simp] theorem setBuf_busy (s : State) (b : List (Nat × Int)) : (setBuf s b).busy = s.busy := rfl
@[simp] theorem setBuf_done (s : State) (b : List (Nat × Int)) : (setBuf s b).done = s.done := rfl
@[simp] theorem setBuf_dir (s : State) (b : List (Nat × Int)) : (setBuf s b).dir = s.dir := rfl
@[simp] theorem setBuf_sr1 (s : State) (b : List (Nat × Int)) : (setBuf s b).sr1 = s.sr1 := rfl
@[simp] theorem setBuf_ctx (s : State) (b : List (Nat × Int)) : (setBuf s b).ctx = s.ctx := rfl
@[simp] theorem setBuf_rctx (s : State) (b : List (Nat × Int)) : (setBuf s b).rctx = s.rctx := rfl
@[simp] theorem setBuf_runidx (s : State) (b : List (Nat × Int)) : (setBuf s b).runidx = s.runidx := rfl
@[simp] theorem setBuf_runindex (s : State) (b : List (Nat × Int)) : (setBuf s b).runindex = s.runindex := rfl
@[simp] theorem setBuf_qt (s : State) (b : List (Nat × Int)) : (setBuf s b).qt = s.qt := rfl
@[simp] theorem setBuf_buf (s : State) (b : List (Nat × Int)) : (setBuf s b).buf = b := rfl
@[simp] theorem setBuf_rd (s : State) (b : List (Nat × Int)) : (setBuf s b).rd = s.rd := rfl
@[simp] theorem setBuf_wr (s : State) (b : List (Nat × Int)) : (setBuf s b).wr = s.wr := rfl
@[simp] theorem setBuf_w (s : State) (b : List (Nat × Int)) : (setBuf s b).w = s.w := rfl
@[simp] theorem setBuf_seq (s : State) (b : List (Nat × Int)) : (setBuf s b).seq = s.seq := rfl
@[simp] theorem setBuf_bs (s : State) (b : List (Nat × Int)) : (setBuf s b).bs = s.bs := rfl
@[simp] theorem setBuf_bytePos (s : State) (b : List (Nat × Int)) : (setBuf s b).bytePos = s.bytePos := rfl
@[simp] theorem setBuf_lineSrc (s : State) (b : List (Nat × Int)) : (setBuf s b).lineSrc = s.lineSrc := rfl
@[simp] theorem setBuf_lineDst (s : State) (b : List (Nat × Int)) : (setBuf s b).lineDst = s.lineDst := rfl
@[simp] theorem setBuf_lineRoom (s : State) (b : List (Nat × Int)) : (setBuf s b).lineRoom = s.lineRoom := rfl
@[simp] theorem setBuf_result (s : State) (b : List (Nat × Int)) : (setBuf s b).result = s.result := rfl
@[simp] theorem setBuf_issue (s : State) (b : List (Nat × Int)) : (setBuf s b).issue = s.issue := rfl
@[simp] theorem setBuf_host (s : State) (b : List (Nat × Int)) : (setBuf s b).host = s.host := rfl
@[simp] theorem setBuf_free (s : State) (b : List (Nat × Int)) : (setBuf s b).free = s.free := rfl
@[simp] theorem setBuf_build (s : State) (b : List (Nat × Int)) : (setBuf s b).build = s.build := rfl
@[simp] theorem setBuf_resetIn (s : State) (b : List (Nat × Int)) : (setBuf s b).resetIn = s.resetIn := rfl

/-! ### setTraits -/

@[simp] theorem setTraits_pr (s : State) (t : Traits) : (setTraits s t).pr = s.pr := rfl
@[simp] theorem setTraits_configured (s : State) (t : Traits) : (setTraits s t).configured = s.configured := rfl
@[simp] theorem setTraits_tr (s : State) (t : Traits) : (setTraits s t).tr = t := rfl
@[simp] theorem setTraits_err (s : State) (t : Traits) : (setTraits s t).err = s.err := rfl
@[simp] theorem setTraits_busy (s : State) (t : Traits) : (setTraits s t).busy = s.busy := rfl
@[simp] theorem setTraits_done (s : State) (t : Traits) : (setTraits s t).done = s.done := rfl
@[simp] theorem setTraits_dir (s : State) (t : Traits) : (setTraits s t).dir = s.dir := rfl
@[simp] theorem setTraits_sr1 (s : State) (t : Traits) : (setTraits s t).sr1 = s.sr1 := rfl
@[simp] theorem setTraits_ctx (s : State) (t : Traits) : (setTraits s t).ctx = s.ctx := rfl
@[simp] theorem setTraits_rctx (s : State) (t : Traits) : (setTraits s t).rctx = s.rctx := rfl
@[simp] theorem setTraits_runidx (s : State) (t : Traits) : (setTraits s t).runidx = s.runidx := rfl
@[simp] theorem setTraits_runindex (s : State) (t : Traits) : (setTraits s t).runindex = s.runindex := rfl
@[simp] theorem setTraits_qt (s : State) (t : Traits) : (setTraits s t).qt = s.qt := rfl
@[simp] theorem setTraits_buf (s : State) (t : Traits) : (setTraits s t).buf = s.buf := rfl
@[simp] theorem setTraits_rd (s : State) (t : Traits) : (setTraits s t).rd = s.rd := rfl
@[simp] theorem setTraits_wr (s : State) (t : Traits) : (setTraits s t).wr = s.wr := rfl
@[simp] theorem setTraits_w (s : State) (t : Traits) : (setTraits s t).w = s.w := rfl
@[simp] theorem setTraits_seq (s : State) (t : Traits) : (setTraits s t).seq = s.seq := rfl
@[simp] theorem setTraits_bs (s : State) (t : Traits) : (setTraits s t).bs = s.bs := rfl
@[simp] theorem setTraits_bytePos (s : State) (t : Traits) : (setTraits s t).bytePos = s.bytePos := rfl
@[simp] theorem setTraits_lineSrc (s : State) (t : Traits) : (setTraits s t).lineSrc = s.lineSrc := rfl
@[simp] theorem setTraits_lineDst (s : State) (t : Traits) : (setTraits s t).lineDst = s.lineDst := rfl
@[simp] theorem setTraits_lineRoom (s : State) (t : Traits) : (setTraits s t).lineRoom = s.lineRoom := rfl
@[simp] theorem setTraits_result (s : State) (t : Traits) : (setTraits s t).result = s.result := rfl
@[simp] theorem setTraits_issue (s : State) (t : Traits) : (setTraits s t).issue = s.issue := rfl
@[simp] theorem setTraits_host (s : State) (t : Traits) : (setTraits s t).host = s.host := rfl
@[simp] theorem setTraits_free (s : State) (t : Traits) : (setTraits s t).free = s.free := rfl
@[simp] theorem setTraits_build (s : State) (t : Traits) : (setTraits s t).build = s.build := rfl
@[simp] theorem setTraits_resetIn (s : State) (t : Traits) : (setTraits s t).resetIn = s.resetIn := rfl

/-! ### setSeq -/

@[simp] theorem setSeq_pr (s : State) (q : Seq) : (setSeq s q).pr = s.pr := rfl
@[simp] theorem setSeq_configured (s : State) (q : Seq) : (setSeq s q).configured = s.configured := rfl
@[simp] theorem setSeq_tr (s : State) (q : Seq) : (setSeq s q).tr = s.tr := rfl
@[simp] theorem setSeq_err (s : State) (q : Seq) : (setSeq s q).err = s.err := rfl
@[simp] theorem setSeq_busy (s : State) (q : Seq) : (setSeq s q).busy = s.busy := rfl
@[simp] theorem setSeq_done (s : State) (q : Seq) : (setSeq s q).done = s.done := rfl
@[simp] theorem setSeq_dir (s : State) (q : Seq) : (setSeq s q).dir = s.dir := rfl
@[simp] theorem setSeq_sr1 (s : State) (q : Seq) : (setSeq s q).sr1 = s.sr1 := rfl
@[simp] theorem setSeq_ctx (s : State) (q : Seq) : (setSeq s q).ctx = s.ctx := rfl
@[simp] theorem setSeq_rctx (s : State) (q : Seq) : (setSeq s q).rctx = s.rctx := rfl
@[simp] theorem setSeq_runidx (s : State) (q : Seq) : (setSeq s q).runidx = s.runidx := rfl
@[simp] theorem setSeq_runindex (s : State) (q : Seq) : (setSeq s q).runindex = s.runindex := rfl
@[simp] theorem setSeq_qt (s : State) (q : Seq) : (setSeq s q).qt = s.qt := rfl
@[simp] theorem setSeq_buf (s : State) (q : Seq) : (setSeq s q).buf = s.buf := rfl
@[simp] theorem setSeq_rd (s : State) (q : Seq) : (setSeq s q).rd = s.rd := rfl
@[simp] theorem setSeq_wr (s : State) (q : Seq) : (setSeq s q).wr = s.wr := rfl
@[simp] theorem setSeq_w (s : State) (q : Seq) : (setSeq s q).w = s.w := rfl
@[simp] theorem setSeq_seq (s : State) (q : Seq) : (setSeq s q).seq = q := rfl
@[simp] theorem setSeq_bs (s : State) (q : Seq) : (setSeq s q).bs = s.bs := rfl
@[simp] theorem setSeq_bytePos (s : State) (q : Seq) : (setSeq s q).bytePos = s.bytePos := rfl
@[simp] theorem setSeq_lineSrc (s : State) (q : Seq) : (setSeq s q).lineSrc = s.lineSrc := rfl
@[simp] theorem setSeq_lineDst (s : State) (q : Seq) : (setSeq s q).lineDst = s.lineDst := rfl
@[simp] theorem setSeq_lineRoom (s : State) (q : Seq) : (setSeq s q).lineRoom = s.lineRoom := rfl
@[simp] theorem setSeq_result (s : State) (q : Seq) : (setSeq s q).result = s.result := rfl
@[simp] theorem setSeq_issue (s : State) (q : Seq) : (setSeq s q).issue = s.issue := rfl
@[simp] theorem setSeq_host (s : State) (q : Seq) : (setSeq s q).host = s.host := rfl
@[simp] theorem setSeq_free (s : State) (q : Seq) : (setSeq s q).free = s.free := rfl
@[simp] theorem setSeq_build (s : State) (q : Seq) : (setSeq s q).build = s.build := rfl
@[simp] theorem setSeq_resetIn (s : State) (q : Seq) : (setSeq s q).resetIn = s.resetIn := rfl

/-! ### setFsm -/

@[simp] theorem setFsm_pr (s : State) (f : Fsm) : (setFsm s f).pr = s.pr := rfl
@[simp] theorem setFsm_configured (s : State) (f : Fsm) : (setFsm s f).configured = s.configured := rfl
@[simp] theorem setFsm_tr (s : State) (f : Fsm) : (setFsm s f).tr = s.tr := rfl
@[simp] theorem setFsm_err (s : State) (f : Fsm) : (setFsm s f).err = s.err := rfl
@[simp] theorem setFsm_busy (s : State) (f : Fsm) : (setFsm s f).busy = s.busy := rfl
@[simp] theorem setFsm_done (s : State) (f : Fsm) : (setFsm s f).done = s.done := rfl
@[simp] theorem setFsm_dir (s : State) (f : Fsm) : (setFsm s f).dir = s.dir := rfl
@[simp] theorem setFsm_sr1 (s : State) (f : Fsm) : (setFsm s f).sr1 = s.sr1 := rfl
@[simp] theorem setFsm_ctx (s : State) (f : Fsm) : (setFsm s f).ctx = s.ctx := rfl
@[simp] theorem setFsm_rctx (s : State) (f : Fsm) : (setFsm s f).rctx = s.rctx := rfl
@[simp] theorem setFsm_runidx (s : State) (f : Fsm) : (setFsm s f).runidx = s.runidx := rfl
@[simp] theorem setFsm_runindex (s : State) (f : Fsm) : (setFsm s f).runindex = s.runindex := rfl
@[simp] theorem setFsm_qt (s : State) (f : Fsm) : (setFsm s f).qt = s.qt := rfl
@[simp] theorem setFsm_buf (s : State) (f : Fsm) : (setFsm s f).buf = s.buf := rfl
@[simp] theorem setFsm_rd (s : State) (f : Fsm) : (setFsm s f).rd = s.rd := rfl
@[simp] theorem setFsm_wr (s : State) (f : Fsm) : (setFsm s f).wr = s.wr := rfl
@[simp] theorem setFsm_w (s : State) (f : Fsm) : (setFsm s f).w = s.w := rfl
@[simp] theorem setFsm_seq (s : State) (f : Fsm) : (setFsm s f).seq = { s.seq with fsm := f } := rfl
@[simp] theorem setFsm_bs (s : State) (f : Fsm) : (setFsm s f).bs = s.bs := rfl
@[simp] theorem setFsm_bytePos (s : State) (f : Fsm) : (setFsm s f).bytePos = s.bytePos := rfl
@[simp] theorem setFsm_lineSrc (s : State) (f : Fsm) : (setFsm s f).lineSrc = s.lineSrc := rfl
@[simp] theorem setFsm_lineDst (s : State) (f : Fsm) : (setFsm s f).lineDst = s.lineDst := rfl
@[simp] theorem setFsm_lineRoom (s : State) (f : Fsm) : (setFsm s f).lineRoom = s.lineRoom := rfl
@[simp] theorem setFsm_result (s : State) (f : Fsm) : (setFsm s f).result = s.result := rfl
@[simp] theorem setFsm_issue (s : State) (f : Fsm) : (setFsm s f).issue = s.issue := rfl
@[simp] theorem setFsm_host (s : State) (f : Fsm) : (setFsm s f).host = s.host := rfl
@[simp] theorem setFsm_free (s : State) (f : Fsm) : (setFsm s f).free = s.free := rfl
@[simp] theorem setFsm_build (s : State) (f : Fsm) : (setFsm s f).build = s.build := rfl
@[simp] theorem setFsm_resetIn (s : State) (f : Fsm) : (setFsm s f).resetIn = s.resetIn := rfl

/-! ### setK -/

@[simp] theorem setK_pr (s : State) (k : Nat) : (setK s k).pr = s.pr := rfl
@[simp] theorem setK_configured (s : State) (k : Nat) : (setK s k).configured = s.configured := rfl
@[simp] theorem setK_tr (s : State) (k : Nat) : (setK s k).tr = s.tr := rfl
@[simp] theorem setK_err (s : State) (k : Nat) : (setK s k).err = s.err := rfl
@[simp] theorem setK_busy (s : State) (k : Nat) : (setK s k).busy = s.busy := rfl
@[simp] theorem setK_done (s : State) (k : Nat) : (setK s k).done = s.done := rfl
@[simp] theorem setK_dir (s : State) (k : Nat) : (setK s k).dir = s.dir := rfl
@[simp] theorem setK_sr1 (s : State) (k : Nat) : (setK s k).sr1 = s.sr1 := rfl
@[simp] theorem setK_ctx (s : State) (k : Nat) : (setK s k).ctx = s.ctx := rfl
@[simp] theorem setK_rctx (s : State) (k : Nat) : (setK s k).rctx = s.rctx := rfl
@[simp] theorem setK_runidx (s : State) (k : Nat) : (setK s k).runidx = s.runidx := rfl
@[simp] theorem setK_runindex (s : State) (k : Nat) : (setK s k).runindex = s.runindex := rfl
@[simp] theorem setK_qt (s : State) (k : Nat) : (setK s k).qt = s.qt := rfl
@[simp] theorem setK_buf (s : State) (k : Nat) : (setK s k).buf = s.buf := rfl
@[simp] theorem setK_rd (s : State) (k : Nat) : (setK s k).rd = s.rd := rfl
@[simp] theorem setK_wr (s : State) (k : Nat) : (setK s k).wr = s.wr := rfl
@[simp] theorem setK_w (s : State) (k : Nat) : (setK s k).w = { s.w with k := k } := rfl
@[simp] theorem setK_seq (s : State) (k : Nat) : (setK s k).seq = s.seq := rfl
@[simp] theorem setK_bs (s : State) (k : Nat) : (setK s k).bs = s.bs := rfl
@[simp] theorem setK_bytePos (s : State) (k : Nat) : (setK s k).bytePos = s.bytePos := rfl
@[simp] theorem setK_lineSrc (s : State) (k : Nat) : (setK s k).lineSrc = s.lineSrc := rfl
@[simp] theorem setK_lineDst (s : State) (k : Nat) : (setK s k).lineDst = s.lineDst := rfl
@[simp] theorem setK_lineRoom (s : State) (k : Nat) : (setK s k).lineRoom = s.lineRoom := rfl
@[simp] theorem setK_result (s : State) (k : Nat) : (setK s k).result = s.result := rfl
@[simp] theorem setK_issue (s : State) (k : Nat) : (setK s k).issue = s.issue := rfl
@[simp] theorem setK_host (s : State) (k : Nat) : (setK s k).host = s.host := rfl
@[simp] theorem setK_free (s : State) (k : Nat) : (setK s k).free = s.free := rfl
@[simp] theorem setK_build (s : State) (k : Nat) : (setK s k).build = s.build := rfl
@[simp] theorem setK_resetIn (s : State) (k : Nat) : (setK s k).resetIn = s.resetIn := rfl

/-! ### incIdx -/

@[simp] theorem incIdx_pr (s : State) : (incIdx s).pr = s.pr := rfl
@[simp] theorem incIdx_configured (s : State) : (incIdx s).configured = s.configured := rfl
@[simp] theorem incIdx_tr (s : State) : (incIdx s).tr = s.tr := rfl
@[simp] theorem incIdx_err (s : State) : (incIdx s).err = s.err := rfl
@[simp] theorem incIdx_busy (s : State) : (incIdx s).busy = s.busy := rfl
@[simp] theorem incIdx_done (s : State) : (incIdx s).done = s.done := rfl
@[simp] theorem incIdx_dir (s : State) : (incIdx s).dir = s.dir := rfl
@[simp] theorem incIdx_sr1 (s : State) : (incIdx s).sr1 = s.sr1 := rfl
@[simp] theorem incIdx_ctx (s : State) : (incIdx s).ctx = s.ctx := rfl
@[simp] theorem incIdx_rctx (s : State) : (incIdx s).rctx = s.rctx := rfl
@[simp] theorem incIdx_runidx (s : State) : (incIdx s).runidx = s.runidx := rfl
@[simp] theorem incIdx_runindex (s : State) : (incIdx s).runindex = min 31 (s.runindex + 1) := rfl
@[simp] theorem incIdx_qt (s : State) : (incIdx s).qt = s.qt := rfl
@[simp] theorem incIdx_buf (s : State) : (incIdx s).buf = s.buf := rfl
@[simp] theorem incIdx_rd (s : State) : (incIdx s).rd = s.rd := rfl
@[simp] theorem incIdx_wr (s : State) : (incIdx s).wr = s.wr := rfl
@[simp] theorem incIdx_w (s : State) : (incIdx s).w = s.w := rfl
@[simp] theorem incIdx_seq (s : State) : (incIdx s).seq = s.seq := rfl
@[simp] theorem incIdx_bs (s : State) : (incIdx s).bs = s.bs := rfl
@[simp] theorem incIdx_bytePos (s : State) : (incIdx s).bytePos = s.bytePos := rfl
@[simp] theorem incIdx_lineSrc (s : State) : (incIdx s).lineSrc = s.lineSrc := rfl
@[simp] theorem incIdx_lineDst (s : State) : (incIdx s).lineDst = s.lineDst := rfl
@[simp] theorem incIdx_lineRoom (s : State) : (incIdx s).lineRoom = s.lineRoom := rfl
@[simp] theorem incIdx_result (s : State) : (incIdx s).result = s.result := rfl
@[simp] theorem incIdx_issue (s : State) : (incIdx s).issue = s.issue := rfl
@[simp] theorem incIdx_host (s : State) : (incIdx s).host = s.host := rfl
@[simp] theorem incIdx_free (s : State) : (incIdx s).free = s.free := rfl
@[simp] theorem incIdx_build (s : State) : (incIdx s).build = s.build := rfl
@[simp] theorem incIdx_resetIn (s : State) : (incIdx s).resetIn = s.resetIn := rfl

/-! ### decIdx -/

@[simp] theorem decIdx_pr (s : State) : (decIdx s).pr = s.pr := rfl
@[simp] theorem decIdx_configured (s : State) : (decIdx s).configured = s.configured := rfl
@[simp] theorem decIdx_tr (s : State) : (decIdx s).tr = s.tr := rfl
@[simp] theorem decIdx_err (s : State) : (decIdx s).err = s.err := rfl
@[simp] theorem decIdx_busy (s : State) : (decIdx s).busy = s.busy := rfl
@[simp] theorem decIdx_done (s : State) : (decIdx s).done = s.done := rfl
@[simp] theorem decIdx_dir (s : State) : (decIdx s).dir = s.dir := rfl
@[simp] theorem decIdx_sr1 (s : State) : (decIdx s).sr1 = s.sr1 := rfl
@[simp] theorem decIdx_ctx (s : State) : (decIdx s).ctx = s.ctx := rfl
@[simp] theorem decIdx_rctx (s : State) : (decIdx s).rctx = s.rctx := rfl
@[simp] theorem decIdx_runidx (s : State) : (decIdx s).runidx = s.runidx := rfl
@[simp] theorem decIdx_runindex (s : State) : (decIdx s).runindex = s.runindex - 1 := rfl
@[simp] theorem decIdx_qt (s : State) : (decIdx s).qt = s.qt := rfl
@[simp] theorem decIdx_buf (s : State) : (decIdx s).buf = s.buf := rfl
@[simp] theorem decIdx_rd (s : State) : (decIdx s).rd = s.rd := rfl
@[simp] theorem decIdx_wr (s : State) : (decIdx s).wr = s.wr := rfl
@[simp] theorem decIdx_w (s : State) : (decIdx s).w = s.w := rfl
@[simp] theorem decIdx_seq (s : State) : (decIdx s).seq = s.seq := rfl
@[simp] theorem decIdx_bs (s : State) : (decIdx s).bs = s.bs := rfl
@[simp] theorem decIdx_bytePos (s : State) : (decIdx s).bytePos = s.bytePos := rfl
@[simp] theorem decIdx_lineSrc (s : State) : (decIdx s).lineSrc = s.lineSrc := rfl
@[simp] theorem decIdx_lineDst (s : State) : (decIdx s).lineDst = s.lineDst := rfl
@[simp] theorem decIdx_lineRoom (s : State) : (decIdx s).lineRoom = s.lineRoom := rfl
@[simp] theorem decIdx_result (s : State) : (decIdx s).result = s.result := rfl
@[simp] theorem decIdx_issue (s : State) : (decIdx s).issue = s.issue := rfl
@[simp] theorem decIdx_host (s : State) : (decIdx s).host = s.host := rfl
@[simp] theorem decIdx_free (s : State) : (decIdx s).free = s.free := rfl
@[simp] theorem decIdx_build (s : State) : (decIdx s).build = s.build := rfl
@[simp] theorem decIdx_resetIn (s : State) : (decIdx s).resetIn = s.resetIn := rfl

/-! ### advance -/

@[simp] theorem advance_pr (s : State) (n : Nat) : (advance n s).pr = s.pr := rfl
@[simp] theorem advance_configured (s : State) (n : Nat) : (advance n s).configured = s.configured := rfl
@[simp] theorem advance_tr (s : State) (n : Nat) : (advance n s).tr = s.tr := rfl
@[simp] theorem advance_err (s : State) (n : Nat) : (advance n s).err = s.err := rfl
@[simp] theorem advance_busy (s : State) (n : Nat) : (advance n s).busy = s.busy := rfl
@[simp] theorem advance_done (s : State) (n : Nat) : (advance n s).done = s.done := rfl
@[simp] theorem advance_dir (s : State) (n : Nat) : (advance n s).dir = s.dir := rfl
@[simp] theorem advance_sr1 (s : State) (n : Nat) : (advance n s).sr1 = s.sr1 := rfl
@[simp] theorem advance_ctx (s : State) (n : Nat) : (advance n s).ctx = s.ctx := rfl
@[simp] theorem advance_rctx (s : State) (n : Nat) : (advance n s).rctx = s.rctx := rfl
@[simp] theorem advance_runidx (s : State) (n : Nat) : (advance n s).runidx = s.runidx := rfl
@[simp] theorem advance_runindex (s : State) (n : Nat) : (advance n s).runindex = s.runindex := rfl
@[simp] theorem advance_qt (s : State) (n : Nat) : (advance n s).qt = s.qt := rfl
@[simp] theorem advance_buf (s : State) (n : Nat) : (advance n s).buf = s.buf := rfl
@[simp] theorem advance_rd (s : State) (n : Nat) : (advance n s).rd = s.rd := rfl
@[simp] theorem advance_wr (s : State) (n : Nat) : (advance n s).wr = s.wr := rfl
@[simp] theorem advance_w (s : State) (n : Nat) : (advance n s).w = s.w := rfl
@[simp] theorem advance_seq (s : State) (n : Nat) : (advance n s).seq = { s.seq with fsm := .scanning, i := s.seq.i + n } := rfl
@[simp] theorem advance_bs (s : State) (n : Nat) : (advance n s).bs = s.bs := rfl
@[simp] theorem advance_bytePos (s : State) (n : Nat) : (advance n s).bytePos = s.bytePos := rfl
@[simp] theorem advance_lineSrc (s : State) (n : Nat) : (advance n s).lineSrc = s.lineSrc := rfl
@[simp] theorem advance_lineDst (s : State) (n : Nat) : (advance n s).lineDst = s.lineDst := rfl
@[simp] theorem advance_lineRoom (s : State) (n : Nat) : (advance n s).lineRoom = s.lineRoom := rfl
@[simp] theorem advance_result (s : State) (n : Nat) : (advance n s).result = s.result := rfl
@[simp] theorem advance_issue (s : State) (n : Nat) : (advance n s).issue = s.issue := rfl
@[simp] theorem advance_host (s : State) (n : Nat) : (advance n s).host = s.host := rfl
@[simp] theorem advance_free (s : State) (n : Nat) : (advance n s).free = s.free := rfl
@[simp] theorem advance_build (s : State) (n : Nat) : (advance n s).build = s.build := rfl
@[simp] theorem advance_resetIn (s : State) (n : Nat) : (advance n s).resetIn = s.resetIn := rfl

end Sys2Proof.Machine
end

