-- ==== Sys2Proof/Laws/Bits.lean ====
section
/-! SUPPORT. Bit groups: their lengths, their values, and how they are cut (`00_scope.md` R8). -/

namespace Sys2Proof

@[simp] theorem bitsOf_length (v n : Nat) : (bitsOf v n).length = n := by
  induction n with
  | zero => rfl
  | succ n ih => simp [bitsOf, ih]

theorem bitsOf_zero (n : Nat) : bitsOf 0 n = List.replicate n false := by
  induction n with
  | zero => rfl
  | succ n ih => simp [bitsOf, ih, List.replicate_succ]

theorem bitsOf_one (n : Nat) : bitsOf 1 (n + 1) = List.replicate n false ++ [true] := by
  induction n with
  | zero => rfl
  | succ n ih =>
    rw [bitsOf, ih, List.replicate_succ, List.cons_append]
    simp [Nat.testBit_succ]

theorem foldl_bits (l : List Bool) (a : Nat) :
    l.foldl (fun acc b => 2 * acc + b.toNat) a = a * 2 ^ l.length + bitsVal l := by
  induction l generalizing a with
  | nil => simp [bitsVal]
  | cons b t ih =>
    rw [List.foldl_cons, ih, show bitsVal (b :: t) = t.foldl (fun acc b => 2 * acc + b.toNat) (2 * 0 + b.toNat) from rfl,
      ih, List.length_cons, pow_succ]
    ring

theorem bitsVal_cons (b : Bool) (t : List Bool) : bitsVal (b :: t) = b.toNat * 2 ^ t.length + bitsVal t := by
  rw [bitsVal, List.foldl_cons, foldl_bits]; simp

theorem bitsVal_append (l t : List Bool) : bitsVal (l ++ t) = bitsVal l * 2 ^ t.length + bitsVal t := by
  rw [bitsVal, List.foldl_append, ← bitsVal, foldl_bits]

theorem bitsVal_lt (l : List Bool) : bitsVal l < 2 ^ l.length := by
  induction l with
  | nil => simp [bitsVal]
  | cons b t ih =>
    rw [bitsVal_cons, List.length_cons, pow_succ]
    cases b <;> simp <;> omega

theorem bitsVal_bitsOf_mod (v n : Nat) : bitsVal (bitsOf v n) = v % 2 ^ n := by
  induction n with
  | zero => simp [bitsOf, bitsVal, Nat.mod_one]
  | succ n ih =>
    rw [bitsOf, bitsVal_cons, bitsOf_length, ih, Nat.mod_pow_succ, Nat.testBit_eq_decide_div_mod_eq]
    rcases Nat.mod_two_eq_zero_or_one (v / 2 ^ n) with h | h <;> simp [h, Nat.add_comm]

theorem bitsVal_bitsOf {v n : Nat} (h : v < 2 ^ n) : bitsVal (bitsOf v n) = v := by
  rw [bitsVal_bitsOf_mod, Nat.mod_eq_of_lt h]

theorem bitsOf_bitsVal (l : List Bool) : bitsOf (bitsVal l) l.length = l := by
  induction l with
  | nil => rfl
  | cons b t ih =>
    have hlt := bitsVal_lt t
    have hmod : ∀ n, n ≤ t.length → bitsOf (b.toNat * 2 ^ t.length + bitsVal t) n = bitsOf (bitsVal t) n := by
      intro n
      induction n with
      | zero => intro; rfl
      | succ n ihn =>
        intro hn
        rw [bitsOf, bitsOf, ihn (by omega)]
        congr 1
        rw [Nat.mul_comm]
        exact Nat.testBit_two_pow_mul_add _ hlt n |>.trans (by rw [if_pos (by omega)])
    rw [bitsVal_cons, List.length_cons, bitsOf, hmod _ le_rfl, ih]
    congr 1
    rw [Nat.mul_comm, Nat.testBit_two_pow_mul_add _ hlt, if_neg (by omega)]
    cases b <;> simp

/-- Two bit sequences of one length with one value are the same. -/
theorem bitsVal_injective {l t : List Bool} (hl : l.length = t.length) (h : bitsVal l = bitsVal t) : l = t := by
  rw [← bitsOf_bitsVal l, ← bitsOf_bitsVal t, hl, h]

theorem unaryPrefix_replicate (h : Nat) (t : List Bool) :
    unaryPrefix (List.replicate h false ++ true :: t) = some (h, t) := by
  induction h with
  | zero => rfl
  | succ h ih => simp [List.replicate_succ, unaryPrefix, ih]

theorem unaryPrefix_eq_some {l t : List Bool} {h : Nat} (hu : unaryPrefix l = some (h, t)) :
    l = List.replicate h false ++ true :: t := by
  induction l generalizing h with
  | nil => simp [unaryPrefix] at hu
  | cons b l ih =>
    cases b with
    | true => simp only [unaryPrefix, Option.some.injEq, Prod.mk.injEq] at hu; obtain ⟨rfl, rfl⟩ := hu; rfl
    | false =>
      rw [unaryPrefix] at hu
      split at hu
      · rename_i h' r heq
        simp only [Option.some.injEq, Prod.mk.injEq] at hu
        obtain ⟨rfl, rfl⟩ := hu
        rw [ih heq, List.replicate_succ, List.cons_append]
      · simp at hu

theorem unaryPrefix_eq_none {l : List Bool} (hu : unaryPrefix l = none) : l = List.replicate l.length false := by
  induction l with
  | nil => rfl
  | cons b l ih =>
    cases b with
    | true => simp [unaryPrefix] at hu
    | false =>
      rw [unaryPrefix] at hu
      split at hu
      · simp at hu
      · rename_i heq
        rw [List.length_cons, List.replicate_succ, ← ih heq]

end Sys2Proof
end

