-- ==== Sys2Proof/Laws/Memory.lean ====
section
/-! SUPPORT. The laws of the sparse spaces: what a write does to a read, and that it keeps the canonical form; with them
the laws of the BYTE array. -/

namespace Sys2Proof.Machine

variable {α : Type} [DecidableEq α] {d : α}

theorem sparseAbove_cons {lo k : Nat} {v : α} {t : List (Nat × α)} :
    sparseAbove d lo ((k, v) :: t) = true ↔ lo ≤ k ∧ v ≠ d ∧ sparseAbove d (k + 1) t = true := by
  simp [sparseAbove, and_assoc]

theorem sparseAbove_mono {lo lo' : Nat} {m : List (Nat × α)} (h : sparseAbove d lo m = true) (hl : lo' ≤ lo) :
    sparseAbove d lo' m = true := by
  cases m with
  | nil => rfl
  | cons p t =>
    obtain ⟨k, v⟩ := p
    rw [sparseAbove_cons] at *
    exact ⟨hl.trans h.1, h.2⟩

/-- Below the bound nothing is listed. -/
theorem sparseRead_of_lt {lo a : Nat} {m : List (Nat × α)} (h : sparseAbove d lo m = true) (ha : a < lo) :
    sparseRead d m a = d := by
  induction m generalizing lo with
  | nil => rfl
  | cons p t ih =>
    obtain ⟨k, v⟩ := p
    rw [sparseAbove_cons] at h
    rw [sparseRead, if_neg (by omega)]
    exact ih h.2.2 (by omega)

theorem sparseWrite_above {lo a : Nat} {x : α} {m : List (Nat × α)} (h : sparseAbove d lo m = true) (ha : lo ≤ a) :
    sparseAbove d lo (sparseWrite d m a x) = true := by
  induction m generalizing lo with
  | nil =>
    rw [sparseWrite]
    split
    · rfl
    · simp_all [sparseAbove]
  | cons p t ih =>
    obtain ⟨k, v⟩ := p
    rw [sparseAbove_cons] at h
    rw [sparseWrite]
    split
    · split
      · rw [sparseAbove_cons]; exact h
      · rw [sparseAbove_cons, sparseAbove_cons]; exact ⟨ha, by assumption, by omega, h.2⟩
    · split
      · subst_vars
        split
        · exact sparseAbove_mono h.2.2 (by omega)
        · rw [sparseAbove_cons]; exact ⟨ha, by assumption, h.2.2⟩
      · rw [sparseAbove_cons]; exact ⟨h.1, h.2.1, ih h.2.2 (by omega)⟩

/-- A write keeps the canonical form. -/
theorem sparseWrite_wf {a : Nat} {x : α} {m : List (Nat × α)} (h : sparseWf d m = true) :
    sparseWf d (sparseWrite d m a x) = true := sparseWrite_above h (Nat.zero_le a)

theorem sparseRead_write_above {lo a b : Nat} {x : α} {m : List (Nat × α)} (h : sparseAbove d lo m = true) :
    sparseRead d (sparseWrite d m a x) b = if b = a then x else sparseRead d m b := by
  induction m generalizing lo with
  | nil =>
    rw [sparseWrite]
    split
    · simp_all [sparseRead]
    · simp only [sparseRead, eq_comm]
  | cons p t ih =>
    obtain ⟨k, v⟩ := p
    rw [sparseAbove_cons] at h
    rw [sparseWrite]
    split
    · rename_i hak
      have hread : sparseRead d ((k, v) :: t) a = d := by
        rw [sparseRead, if_neg (by omega)]; exact sparseRead_of_lt h.2.2 (by omega)
      split
      · split
        · subst_vars; exact hread
        · rfl
      · rw [sparseRead]
    · split
      · rename_i hk
        subst hk
        split
        · split
          · subst_vars; exact sparseRead_of_lt h.2.2 (by omega)
          · rw [sparseRead, if_neg (by omega)]
        · simp only [sparseRead]
          split <;> rfl
      · rw [sparseRead, sparseRead, ih h.2.2]
        split <;> split <;> first | rfl | omega

/-- A read after a write: the value written at its place, what was there elsewhere. -/
theorem sparseRead_write {a b : Nat} {x : α} {m : List (Nat × α)} (h : sparseWf d m = true) :
    sparseRead d (sparseWrite d m a x) b = if b = a then x else sparseRead d m b := sparseRead_write_above h

theorem sparseAbove_ext {lo : Nat} {m n : List (Nat × α)} (hm : sparseAbove d lo m = true)
    (hn : sparseAbove d lo n = true) (h : ∀ a, sparseRead d m a = sparseRead d n a) : m = n := by
  induction m generalizing lo n with
  | nil =>
    cases n with
    | nil => rfl
    | cons p t =>
      obtain ⟨k, v⟩ := p
      have := h k
      simp only [sparseRead, if_true] at this
      exact absurd this.symm (sparseAbove_cons.1 hn).2.1
  | cons p t ih =>
    obtain ⟨k, v⟩ := p
    have hm' := sparseAbove_cons.1 hm
    cases n with
    | nil =>
      have := h k
      simp only [sparseRead, if_true] at this
      exact absurd this hm'.2.1
    | cons q u =>
      obtain ⟨l, w⟩ := q
      have hn' := sparseAbove_cons.1 hn
      have hkl : k = l := by
        rcases Nat.lt_trichotomy k l with hlt | heq | hgt
        · have := h k
          rw [sparseRead, if_pos rfl, sparseRead, if_neg (by omega),
            sparseRead_of_lt hn'.2.2 (by omega)] at this
          exact absurd this hm'.2.1
        · exact heq
        · have := h l
          rw [sparseRead, if_neg (by omega), sparseRead_of_lt hm'.2.2 (by omega), sparseRead, if_pos rfl] at this
          exact absurd this.symm hn'.2.1
      subst hkl
      have hvw : v = w := by simpa [sparseRead] using h k
      subst hvw
      congr 1
      refine ih hm'.2.2 hn'.2.2 fun a => ?_
      by_cases hak : k = a
      · subst hak
        rw [sparseRead_of_lt hm'.2.2 (by omega), sparseRead_of_lt hn'.2.2 (by omega)]
      · have := h a
        rwa [sparseRead, if_neg (Ne.symm hak), sparseRead, if_neg (Ne.symm hak)] at this

/-- Canonical spaces that read alike are the same list. -/
theorem sparse_ext {m n : List (Nat × α)} (hm : sparseWf d m = true) (hn : sparseWf d n = true)
    (h : ∀ a, sparseRead d m a = sparseRead d n a) : m = n := sparseAbove_ext hm hn h

theorem sparseOfList_wf (l : List (Nat × α)) : sparseWf d (sparseOfList d l) = true := by
  unfold sparseOfList
  suffices h : ∀ m, sparseWf d m = true → sparseWf d (l.foldl (fun m p => sparseWrite d m p.1 p.2) m) = true from h [] rfl
  induction l with
  | nil => exact fun _ h => h
  | cons p t ih => exact fun m h => ih _ (sparseWrite_wf h)

/-! ## The BYTE array -/

theorem memRead_write {m : Memory} {p q : Nat} {v : Byte} (h : Memory.wf m = true) :
    memRead (memWrite m p v) q = if q = p then v else memRead m q := sparseRead_write h

theorem memWrite_wf {m : Memory} {p : Nat} {v : Byte} (h : Memory.wf m = true) : Memory.wf (memWrite m p v) = true :=
  sparseWrite_wf h

theorem writeBytes_wf {m : Memory} {p : Nat} {bs : List Byte} (h : Memory.wf m = true) :
    Memory.wf (writeBytes m p bs) = true := by
  induction bs generalizing m p with
  | nil => exact h
  | cons b t ih => exact ih (memWrite_wf h)

theorem writeBytes_append (m : Memory) (p : Nat) (as bs : List Byte) :
    writeBytes m p (as ++ bs) = writeBytes (writeBytes m p as) (p + as.length) bs := by
  induction as generalizing m p with
  | nil => rfl
  | cons a t ih =>
    rw [List.cons_append, writeBytes, ih, writeBytes, List.length_cons, Nat.add_assoc, Nat.add_comm 1]

theorem memRead_writeBytes {m : Memory} {p q : Nat} {bs : List Byte} (h : Memory.wf m = true) :
    memRead (writeBytes m p bs) q =
      if p ≤ q ∧ q < p + bs.length then bs.getD (q - p) 0 else memRead m q := by
  induction bs generalizing m p with
  | nil => rw [writeBytes, if_neg (by simp)]
  | cons b t ih =>
    rw [writeBytes, ih (memWrite_wf h), memRead_write h, List.length_cons]
    by_cases hq : q = p
    · subst hq
      rw [if_neg (by omega), if_pos rfl, if_pos (by omega)]; simp
    · by_cases hr : p ≤ q ∧ q < p + (t.length + 1)
      · rw [if_pos (by omega), if_pos hr]
        obtain ⟨n, rfl⟩ : ∃ n, q = p + 1 + n := ⟨q - (p + 1), by omega⟩
        simp [show p + 1 + n - p = n + 1 by omega]
      · rw [if_neg (by omega), if_neg hr, if_neg hq]

/-- Writing bytes leaves every other position alone. -/
theorem memRead_writeBytes_outside {m : Memory} {p q : Nat} {bs : List Byte} (h : Memory.wf m = true)
    (hq : q < p ∨ p + bs.length ≤ q) : memRead (writeBytes m p bs) q = memRead m q := by
  rw [memRead_writeBytes h, if_neg (by omega)]

end Sys2Proof.Machine
end

