-- ==== Sys2Proof/Laws/Outcome.lean ====
section
/-! SUPPORT. How the parts of an operation compose, and what `finish` answers. -/

namespace Sys2Proof.Machine

variable {α β : Type}

@[simp] theorem ok_bind (a : α) (f : α → Res β) : ((Except.ok a : Res α) >>= f) = f a := rfl

@[simp] theorem error_bind (e : Stop) (f : α → Res β) : ((Except.error e : Res α) >>= f) = .error e := rfl

theorem bind_eq_ok {x : Res α} {f : α → Res β} {r : β} : (x >>= f) = .ok r ↔ ∃ a, x = .ok a ∧ f a = .ok r := by
  cases x with
  | error e => simp
  | ok a => simp

theorem bind_eq_error {x : Res α} {f : α → Res β} {e : Stop} :
    (x >>= f) = .error e ↔ x = .error e ∨ ∃ a, x = .ok a ∧ f a = .error e := by
  cases x with
  | error e => simp
  | ok a => simp

@[simp] theorem require_true (r : Refusal) : require true r = .ok () := rfl

@[simp] theorem require_false (r : Refusal) : require false r = refuse r := rfl

@[simp] theorem require_bind (b : Bool) (r : Refusal) (f : Unit → Res α) :
    (require b r >>= f) = if b then f () else refuse r := by
  cases b <;> rfl

@[simp] theorem finish_ok (s : State) : finish (.ok s) = .next s := rfl

@[simp] theorem finish_raise (e : ErrKind) (s : State) : finish (raise e s) = .next (raiseErr e s) := rfl

@[simp] theorem finish_refuse (r : Refusal) : finish (refuse r) = .refused r := rfl

/-- An operation answers a next state by completing or by taking the error it raised. -/
theorem finish_eq_next {x : Res State} {t : State} :
    finish x = .next t ↔ x = .ok t ∨ ∃ e s, x = raise e s ∧ t = raiseErr e s := by
  rcases x with (⟨e, s⟩ | r) | s
  · simp [finish, raise, eq_comm]
  · simp [finish, raise]
  · simp [finish, raise, eq_comm]

/-- No operation faults: only a step with nothing to do does. -/
theorem finish_ne_fault {x : Res State} {f : Fault} : finish x ≠ .fault f := by
  rcases x with (⟨e, s⟩ | r) | s <;> simp [finish]

end Sys2Proof.Machine
end

