-- ==== Sys2Proof/Laws/BitReader.lean ====
section
/-! SUPPORT. The bit reader: what each read gives on the destuffed bits that are left, and what it leaves (R201, R204 to
R209); the short-code tables (R211 to R213). -/

namespace Sys2Proof.Machine

theorem Consumed.refl (r : Reader) : Consumed r 0 r := ⟨rfl, rfl, rfl⟩

theorem Consumed.trans {r v u : Reader} {m n : Nat} (h : Consumed r m v) (g : Consumed v n u) : Consumed r (m + n) u :=
  ⟨by rw [g.rp, h.rp, Nat.add_assoc], g.rstart.trans h.rstart, g.rend.trans h.rend⟩

/-- The bits left after some were consumed. -/
theorem remaining_consumed {s : State} {r : Reader} {n : Nat} (h : Consumed s.rd n r) :
    remaining (setReader s r) = (remaining s).drop n := by
  simp only [remaining, setReader, h.rp, h.rstart, h.rend, List.drop_drop]

theorem loadByte_same (m : Memory) (r : Reader) : Consumed r 0 (loadByte m r) := ⟨rfl, rfl, rfl⟩

theorem fillLoop_same (m : Memory) (n : Nat) (r : Reader) : Consumed r 0 (fillLoop m n r) := by
  induction n generalizing r with
  | zero => exact .refl r
  | succ n ih =>
    rw [fillLoop]
    split
    · exact .refl r
    · simp only
      split
      · exact ⟨rfl, rfl, rfl⟩
      · exact (loadByte_same m r).trans (ih _)

theorem cacheFill_same {m : Memory} {r v : Reader} (h : cacheFill m r = some v) : Consumed r 0 v := by
  unfold cacheFill at h
  split at h
  · cases h
  · cases h; exact fillLoop_same m _ r

theorem fillBelow_same (m : Memory) (n : Nat) (r : Reader) : Consumed r 0 (fillBelow m n r) := by
  unfold fillBelow
  split
  · cases h : cacheFill m r with
    | none => exact .refl r
    | some v => exact cacheFill_same h
  · exact .refl r

theorem consume_consumed (m : Memory) (n : Nat) (r : Reader) : Consumed r n (consume m n r) := by
  have h := fillBelow_same m n r
  exact ⟨by simp only [consume, h.rp]; rfl, h.rstart, h.rend⟩

/-! ## Reads -/

theorem readBit_ok {s : State} {b : Bool} {rest : List Bool} (h : remaining s = b :: rest) :
    ∃ r, Consumed s.rd 1 r ∧ readBit s = .ok (b, setReader s r) :=
  ⟨_, consume_consumed s.bs 1 s.rd, by rw [readBit, h]⟩

theorem readBit_empty {s : State} (h : remaining s = []) : readBit s = raise .invalidCompressedData s := by
  rw [readBit, h]

theorem readValue_ok {s : State} {bits rest : List Bool} (hn : bits.length ≤ 31) (h : remaining s = bits ++ rest) :
    ∃ r, Consumed s.rd bits.length r ∧ readValue bits.length s = .ok (bitsVal bits, setReader s r) := by
  unfold readValue
  by_cases h0 : bits.length = 0
  · rw [if_pos h0, h0, List.eq_nil_of_length_eq_zero h0]
    exact ⟨s.rd, .refl _, rfl⟩
  · rw [if_neg h0, if_neg (by omega), if_neg (by rw [avail, h, List.length_append]; omega), h, List.take_left]
    exact ⟨_, consume_consumed s.bs _ s.rd, rfl⟩

theorem readValue_short {s : State} {n : Nat} (h0 : n ≠ 0) (hn : n ≤ 31) (h : avail s < n) :
    readValue n s = raise .invalidCompressedData s := by
  rw [readValue, if_neg h0, if_neg (by omega), if_pos h]

theorem skipBits_ok {s : State} {n : Nat} (hn : n ≤ 31) (h : n ≤ avail s) :
    ∃ r, Consumed s.rd n r ∧ skipBits n s = .ok (setReader s r) :=
  ⟨_, consume_consumed s.bs n s.rd, by rw [skipBits, if_neg (by omega), if_neg (by omega)]⟩

theorem setReader_setReader (s : State) (r v : Reader) : setReader (setReader s r) v = setReader s v := rfl

theorem highLoop_ok {h : Nat} {s : State} {rest : List Bool} {fuel n : Nat} (hf : h < fuel)
    (hr : remaining s = List.replicate h false ++ true :: rest) :
    ∃ r, Consumed s.rd (h + 1) r ∧ highLoop fuel n s = .ok (n + h, setReader s r) := by
  induction h generalizing s fuel n with
  | zero =>
    obtain ⟨fuel, rfl⟩ : ∃ f, fuel = f + 1 := ⟨fuel - 1, by omega⟩
    obtain ⟨r, hc, he⟩ := readBit_ok (s := s) hr
    exact ⟨r, hc, by rw [highLoop, he]; rfl⟩
  | succ h ih =>
    obtain ⟨fuel, rfl⟩ : ∃ f, fuel = f + 1 := ⟨fuel - 1, by omega⟩
    rw [List.replicate_succ, List.cons_append] at hr
    obtain ⟨r, hc, he⟩ := readBit_ok (s := s) hr
    obtain ⟨v, hv, hl⟩ := ih (s := setReader s r) (fuel := fuel) (n := n + 1) (by omega)
      (by rw [remaining_consumed hc, hr]; rfl)
    refine ⟨v, ?_, ?_⟩
    · have := hc.trans hv; rwa [Nat.add_comm 1 (h + 1)] at this
    · rw [highLoop, he, ok_bind]
      simp only [Bool.false_eq_true, if_false, hl, setReader_setReader]
      rw [Nat.add_assoc, Nat.add_comm 1 h]

/-- `BR.HIGH` on `h` zeros and a one (R208). -/
theorem readHigh_ok {h : Nat} {s : State} {rest : List Bool}
    (hr : remaining s = List.replicate h false ++ true :: rest) :
    ∃ r, Consumed s.rd (h + 1) r ∧ readHigh s = .ok (h, setReader s r) := by
  obtain ⟨r, hc, he⟩ := highLoop_ok (fuel := avail s + 1) (n := 0)
    (by rw [avail, hr, List.length_append, List.length_replicate]; omega) hr
  exact ⟨r, hc, by rw [readHigh, he, Nat.zero_add]⟩

theorem highLoop_zeros {s : State} {fuel n j : Nat} (hr : remaining s = List.replicate j false) :
    ∃ r, Consumed s.rd (min j fuel) r ∧ highLoop fuel n s = raise .invalidCompressedData (setReader s r) := by
  induction fuel generalizing s n j with
  | zero => exact ⟨s.rd, by simpa using Consumed.refl s.rd, rfl⟩
  | succ fuel ih =>
    cases j with
    | zero => exact ⟨s.rd, by simpa using Consumed.refl s.rd, by rw [highLoop, readBit_empty (by simpa using hr)]; rfl⟩
    | succ j =>
      rw [List.replicate_succ] at hr
      obtain ⟨r, hc, he⟩ := readBit_ok (s := s) hr
      obtain ⟨v, hv, hl⟩ := ih (s := setReader s r) (n := n + 1) (j := j) (by rw [remaining_consumed hc, hr]; rfl)
      refine ⟨v, ?_, ?_⟩
      · have := hc.trans hv; rwa [show 1 + min j fuel = min (j + 1) (fuel + 1) by omega] at this
      · rw [highLoop, he, ok_bind]
        simp only [Bool.false_eq_true, if_false, hl, setReader_setReader]

/-- `BR.HIGH` where no one is left (R208). -/
theorem readHigh_zeros {s : State} {j : Nat} (hr : remaining s = List.replicate j false) :
    ∃ r, readHigh s = raise .invalidCompressedData (setReader s r) := by
  obtain ⟨r, _, h⟩ := highLoop_zeros (fuel := avail s + 1) (n := 0) hr
  exact ⟨r, h⟩

theorem drop_unary (h : Nat) (t : List Bool) : (List.replicate h false ++ true :: t).drop (h + 1) = t := by
  rw [List.append_cons]
  exact List.drop_left' (by simp)

/-- `BR.DECV` on a `CW.GOLOMB` (R209). -/
theorem decodeValue_golomb {s : State} {h q : Nat} {g : Int} {r rest : List Bool} (hk : r.length ≤ 31)
    (hh : (h : Int) < g - (q + 1)) (hr : remaining s = List.replicate h false ++ true :: (r ++ rest)) :
    ∃ v, Consumed s.rd (h + 1 + r.length) v ∧
      decodeValue r.length g q s = .ok (h * 2 ^ r.length + bitsVal r, setReader s v) := by
  obtain ⟨v, hv, he⟩ := readHigh_ok hr
  rw [decodeValue, he, ok_bind]
  simp only
  rw [if_neg (by omega)]
  by_cases h0 : r.length = 0
  · rw [if_pos h0, h0, List.eq_nil_of_length_eq_zero h0]
    exact ⟨v, hv, by simp [bitsVal]⟩
  · rw [if_neg h0]
    have hrem : remaining (setReader s v) = r ++ rest := by
      rw [remaining_consumed hv, hr, drop_unary]
    obtain ⟨u, hu, he'⟩ := readValue_ok hk hrem
    exact ⟨u, hv.trans hu, by rw [he']; rfl⟩

/-- `BR.DECV` on a `CW.ESCAPE`, also with a longer prefix (R96, R209). -/
theorem decodeValue_escape {s : State} {h k : Nat} {g : Int} {v rest : List Bool} (hq : v.length ≤ 31)
    (hh : g - (v.length + 1) ≤ (h : Int)) (hr : remaining s = List.replicate h false ++ true :: (v ++ rest)) :
    ∃ r, Consumed s.rd (h + 1 + v.length) r ∧
      decodeValue k g v.length s = .ok (bitsVal v + 1, setReader s r) := by
  obtain ⟨r, hc, he⟩ := readHigh_ok hr
  rw [decodeValue, he, ok_bind]
  simp only
  rw [if_pos hh]
  have hrem : remaining (setReader s r) = v ++ rest := by
    rw [remaining_consumed hc, hr, drop_unary]
  obtain ⟨u, hu, he'⟩ := readValue_ok hq hrem
  exact ⟨u, hc.trans hu, by rw [he']; rfl⟩

/-- `BR.DECV` on the `CW.GOLOMB` of a mapped value, however long its prefix (R209). -/
theorem decodeValue_golombBits {s : State} {k m glimit q : Nat} {rest : List Bool} (hk : k ≤ 31)
    (hh : m / 2 ^ k + q + 1 < glimit) (hr : remaining s = valueBits k m glimit q ++ rest) :
    ∃ r, Consumed s.rd (valueBits k m glimit q).length r ∧ decodeValue k glimit q s = .ok (m, setReader s r) := by
  unfold valueBits at hr ⊢
  rw [if_pos hh] at hr ⊢
  rw [List.append_assoc, List.cons_append] at hr
  obtain ⟨r, hc, he⟩ := decodeValue_golomb (g := glimit) (q := q) (by rw [bitsOf_length]; exact hk) (by
    generalize m / 2 ^ k = h at *; omega) hr
  rw [bitsOf_length, bitsVal_bitsOf (Nat.mod_lt _ (Nat.two_pow_pos k)), Nat.div_add_mod'] at he
  rw [bitsOf_length] at hc
  refine ⟨r, ?_, he⟩
  simpa [Nat.add_assoc, Nat.add_comm 1] using hc

/-- `BR.DECV` reads back the codeword of every mapped value `BW.ENCV` can carry (R209, R244). -/
theorem decodeValue_valueBits {s : State} {k m glimit q : Nat} {rest : List Bool} (h : encodable k m glimit q)
    (hr : remaining s = valueBits k m glimit q ++ rest) :
    ∃ r, Consumed s.rd (valueBits k m glimit q).length r ∧ decodeValue k glimit q s = .ok (m, setReader s r) := by
  obtain ⟨hk, hq, hl, hm⟩ := h
  by_cases hh : m / 2 ^ k + q + 1 < glimit
  · exact decodeValue_golombBits hk hh hr
  · unfold valueBits at hr ⊢
    rw [if_neg hh] at hr hm ⊢
    rw [List.append_assoc, List.cons_append] at hr
    obtain ⟨r, hc, he⟩ := decodeValue_escape (g := glimit) (k := k) (by rw [bitsOf_length]; exact hq) (by
      rw [bitsOf_length]; omega) hr
    rw [bitsOf_length, bitsVal_bitsOf (Nat.mod_lt _ (Nat.two_pow_pos q)), Nat.mod_eq_of_lt (by omega)] at he
    rw [bitsOf_length] at hc
    refine ⟨r, ?_, by rw [he, Nat.sub_add_cancel hm.1]⟩
    simpa [Nat.add_assoc, Nat.add_comm 1] using hc

/-- `BR.DECV` where the prefix ends but what follows it is cut off (R209, R371). -/
theorem decodeValue_cut {s : State} {h k q : Nat} {g : Int} {rest : List Bool} (hk : k ≤ 31) (hq : q ≤ 31)
    (hr : remaining s = List.replicate h false ++ true :: rest)
    (hl : rest.length < if (h : Int) + q + 1 < g then k else q) :
    ∃ r, decodeValue k g q s = raise .invalidCompressedData (setReader s r) := by
  obtain ⟨r, hc, he⟩ := readHigh_ok hr
  refine ⟨r, ?_⟩
  have ha : avail (setReader s r) = rest.length := by rw [avail, remaining_consumed hc, hr, drop_unary]
  rw [decodeValue, he, ok_bind]
  simp only
  by_cases hg : (h : Int) + q + 1 < g
  · rw [if_pos hg] at hl
    rw [if_neg (by omega), if_neg (by omega), readValue_short (by omega) hk (ha ▸ hl)]
    rfl
  · rw [if_neg hg] at hl
    rw [if_pos (by omega), readValue_short (by omega) hq (ha ▸ hl)]
    rfl

/-- Where the search for the next `0xFF` ends (R200). -/
theorem nextFF_spec (m : Memory) (n j : Nat) : j ≤ nextFF m n j ∧ nextFF m n j ≤ j + n ∧
    (nextFF m n j < j + n → memRead m (nextFF m n j) = 0xFF) ∧
    ∀ i, j ≤ i → i < nextFF m n j → memRead m i ≠ 0xFF := by
  induction n generalizing j with
  | zero => simp [nextFF]; omega
  | succ n ih =>
    unfold nextFF
    split
    · rename_i h; exact ⟨le_rfl, by omega, fun _ => h, fun i h1 h2 => by omega⟩
    · rename_i h
      obtain ⟨a, b, c, d⟩ := ih (j + 1)
      refine ⟨by omega, by omega, fun hh => c (by omega), fun i h1 h2 => ?_⟩
      rcases Nat.eq_or_lt_of_le h1 with rfl | h1
      · exact h
      · exact d i h1 h2

theorem fillLoop_grows (m : Memory) (n : Nat) (r : Reader) :
    r.rvalid ≤ (fillLoop m n r).rvalid ∧ r.rpos ≤ (fillLoop m n r).rpos := by
  induction n generalizing r with
  | zero => exact ⟨le_rfl, le_rfl⟩
  | succ n ih =>
    unfold fillLoop
    split
    · exact ⟨le_rfl, le_rfl⟩
    · have h1 : r.rvalid ≤ (loadByte m r).rvalid ∧ r.rpos ≤ (loadByte m r).rpos := ⟨Nat.le_add_right _ _, Nat.le_succ _⟩
      simp only
      split
      · exact h1
      · exact ⟨h1.1.trans (ih _).1, h1.2.trans (ih _).2⟩

/-- No marker boundary is found where there is none (R201). -/
theorem markerFrom_none {m : Memory} {len n j : Nat} (h : ∀ i, j ≤ i → i < j + n → ¬isMarker m len i = true) :
    markerFrom m len n j = none := by
  induction n generalizing j with
  | zero => rfl
  | succ n ih =>
    unfold markerFrom
    rw [if_neg (h j le_rfl (by omega))]
    exact ih fun i h1 h2 => h i (by omega) (by omega)

/-- The least marker boundary is found (R201). -/
theorem markerFrom_some {m : Memory} {len n j p : Nat} (h1 : j ≤ p) (h2 : p < j + n) (hp : isMarker m len p = true)
    (h : ∀ i, j ≤ i → i < p → ¬isMarker m len i = true) : markerFrom m len n j = some p := by
  induction n generalizing j with
  | zero => omega
  | succ n ih =>
    unfold markerFrom
    rcases Nat.eq_or_lt_of_le h1 with rfl | h1'
    · rw [if_pos hp]
    · rw [if_neg (h j le_rfl h1')]
      exact ih h1' (by omega) fun i h1 h2 => h i (by omega) h2

/-! ## Reading over several operations -/

/-- The state `t` is `s` after `n` bits were consumed, as far as the reader and the array go. -/
structure Took (s : State) (n : Nat) (t : State) : Prop where
  reader : Consumed s.rd n t.rd
  bytes : t.bs = s.bs

theorem Took.refl (s : State) : Took s 0 s := ⟨.refl _, rfl⟩

theorem Took.trans {s t u : State} {m n : Nat} (h : Took s m t) (g : Took t n u) : Took s (m + n) u :=
  ⟨h.reader.trans g.reader, g.bytes.trans h.bytes⟩

theorem Took.same {s t u : State} {n : Nat} (h : Took s n t) (hr : u.rd = t.rd) (hb : u.bs = t.bs) : Took s n u :=
  ⟨hr ▸ h.reader, hb.trans h.bytes⟩

theorem Took.of_same {s t u : State} {n : Nat} (h : Took s n t) (hr : u.rd = s.rd) (hb : u.bs = s.bs) : Took u n t :=
  ⟨hr.symm ▸ h.reader, h.bytes.trans hb.symm⟩

/-- The bits left after that. -/
theorem Took.remaining {s t : State} {bits rest : List Bool} (h : Took s bits.length t)
    (hr : Machine.remaining s = bits ++ rest) : Machine.remaining t = rest := by
  have := remaining_consumed (s := s) h.reader
  rw [hr, List.drop_left] at this
  rw [← this]
  unfold Machine.remaining
  rw [h.bytes]
  rfl

theorem remaining_congr {s t : State} (hr : t.rd = s.rd) (hb : t.bs = s.bs) : remaining t = remaining s := by
  unfold remaining; rw [hr, hb]

end Sys2Proof.Machine
end

