-- ==== Sys2Proof/Laws/BitWriter.lean ====
section
/-! SUPPORT. The bit writer: appending bits does what the stuffed byte sequence of R241 says, and overflows exactly where
the bytes do not fit (R246); the codewords `BW.ENCV` appends (R244). -/

namespace Sys2Proof.Machine

/-! ## The stuffed bytes -/

theorem stuffBits_cons_full {ff x : Bool} {acc xs : List Bool}
    (h : (acc ++ [x]).length = stuffRoom ff) :
    stuffBits ff acc (x :: xs) =
      (BitVec.ofNat 8 (bitsVal (acc ++ [x])) ::
        (stuffBits (byteIsFF (BitVec.ofNat 8 (bitsVal (acc ++ [x])))) [] xs).1,
        (stuffBits (byteIsFF (BitVec.ofNat 8 (bitsVal (acc ++ [x])))) [] xs).2) := by
  rw [stuffBits, if_pos h]

theorem stuffBits_cons_partial {ff x : Bool} {acc xs : List Bool}
    (h : (acc ++ [x]).length ≠ stuffRoom ff) :
    stuffBits ff acc (x :: xs) = stuffBits ff (acc ++ [x]) xs := by
  rw [stuffBits, if_neg h]

theorem stuffBits_append (ff : Bool) (acc as bs : List Bool) :
    stuffBits ff acc (as ++ bs) =
      ((stuffBits ff acc as).1 ++ (stuffBits (stuffBits ff acc as).2.2 (stuffBits ff acc as).2.1 bs).1,
        (stuffBits (stuffBits ff acc as).2.2 (stuffBits ff acc as).2.1 bs).2) := by
  induction as generalizing ff acc with
  | nil => rfl
  | cons x xs ih =>
    rw [List.cons_append]
    by_cases h : (acc ++ [x]).length = stuffRoom ff
    · simp only [stuffBits_cons_full h, ih, List.cons_append]
    · simp only [stuffBits_cons_partial h, ih]

theorem stuffRoom_pos (ff : Bool) : 0 < stuffRoom ff := by cases ff <;> decide

theorem stuffBits_pending {ff : Bool} {acc bits : List Bool} (h : acc.length < stuffRoom ff) :
    (stuffBits ff acc bits).2.1.length < stuffRoom (stuffBits ff acc bits).2.2 := by
  induction bits generalizing ff acc with
  | nil => exact h
  | cons x xs ih =>
    by_cases hr : (acc ++ [x]).length = stuffRoom ff
    · rw [stuffBits_cons_full hr]
      exact ih (stuffRoom_pos _)
    · rw [stuffBits_cons_partial hr]
      refine ih ?_
      rw [List.length_append, List.length_singleton] at *
      omega

theorem stuffBits_length (ff : Bool) (acc bits : List Bool) : (stuffBits ff acc bits).1.length ≤ bits.length := by
  induction bits generalizing ff acc with
  | nil => simp [stuffBits]
  | cons x xs ih =>
    by_cases hr : (acc ++ [x]).length = stuffRoom ff
    · rw [stuffBits_cons_full hr]; exact Nat.succ_le_succ (ih _ _)
    · rw [stuffBits_cons_partial hr]; exact (ih _ _).trans (Nat.le_succ _)

theorem newBytes_length_le (w : Writer) (bits : List Bool) : (newBytes w bits).length ≤ bits.length :=
  stuffBits_length _ _ _

/-- Enough room for one byte a bit is enough room. -/
theorem fits_of_room {w : Writer} {bits : List Bool} (h : w.wpos + bits.length ≤ w.wcap) : fits w bits :=
  .inr ((Nat.add_le_add_left (newBytes_length_le w bits) _).trans h)

theorem Appended.refl (w : Writer) : Appended w [] w := ⟨rfl, rfl, rfl, rfl, rfl, rfl⟩

theorem newBytes_append {w v : Writer} {as bs : List Bool} (h : Appended w as v) :
    newBytes w (as ++ bs) = newBytes w as ++ newBytes v bs := by
  simp only [newBytes, stuffBits_append, h.wff, h.wacc]

theorem Appended.trans {w v u : Writer} {as bs : List Bool} (h : Appended w as v) (g : Appended v bs u) :
    Appended w (as ++ bs) u where
  wacc := by rw [g.wacc, h.wff, h.wacc, stuffBits_append]
  wff := by rw [g.wff, h.wff, h.wacc, stuffBits_append]
  wpos := by rw [g.wpos, h.wpos, newBytes_append h, List.length_append, Nat.add_assoc]
  written := by rw [g.written, h.written, newBytes_append h, List.length_append, Nat.add_assoc]
  wcap := g.wcap.trans h.wcap
  wstart := g.wstart.trans h.wstart

theorem Appended.writerOk {w v : Writer} {bits : List Bool} (h : Appended w bits v) (hw : writerOk w = true) :
    writerOk v = true := by
  have hp : w.wacc.length < stuffRoom w.wff := of_decide_eq_true hw
  have := stuffBits_pending (bits := bits) hp
  rw [← h.wacc, ← h.wff] at this
  exact decide_eq_true this

theorem fits_append {w v : Writer} {as bs : List Bool} (h : Appended w as v) :
    fits w (as ++ bs) → fits w as ∧ fits v bs := by
  unfold fits
  rw [newBytes_append h, h.wpos, h.wcap, List.length_append, List.append_eq_nil_iff]
  rintro (⟨ha, hb⟩ | hl)
  · exact ⟨.inl ha, .inl hb⟩
  · exact ⟨.inr (by omega), .inr (by omega)⟩

theorem afterAppend_nil (s : State) : afterAppend s [] s.wr = s := rfl

theorem afterAppend_trans {s : State} {v u : Writer} {as bs : List Bool} (h : Appended s.wr as v) :
    afterAppend (afterAppend s as v) bs u = afterAppend s (as ++ bs) u := by
  simp only [afterAppend, newBytes_append h, writeBytes_append, h.wpos]

/-! ## Appending bits -/

/-- The writer after bits, with the buffer of the realisation as it was. -/
def plainAppend (w : Writer) (bits : List Bool) : Writer :=
  { w with
    wacc := (stuffBits w.wff w.wacc bits).2.1
    wff := (stuffBits w.wff w.wacc bits).2.2
    wpos := w.wpos + (newBytes w bits).length
    written := w.written + (newBytes w bits).length }

theorem plainAppend_appended (w : Writer) (bits : List Bool) : Appended w bits (plainAppend w bits) :=
  ⟨rfl, rfl, rfl, rfl, rfl, rfl⟩

theorem appendBit_of_partial {x : Bool} {s : State} (h : (s.wr.wacc ++ [x]).length ≠ byteRoom s.wr) :
    appendBit x s = .ok (setWriter s { s.wr with wacc := s.wr.wacc ++ [x] }) := by
  simp only [appendBit]; rw [if_neg h]

theorem appendBit_of_full {x : Bool} {s : State} (h : (s.wr.wacc ++ [x]).length = byteRoom s.wr) :
    appendBit x s = emitByte (BitVec.ofNat 8 (bitsVal (s.wr.wacc ++ [x]))) s := by
  simp only [appendBit]; rw [if_pos h]

/-- Bits whose bytes fit are appended as R241 says. -/
theorem appendBits_ok {bits : List Bool} {s : State} (hf : fits s.wr bits) :
    appendBits bits s = .ok (afterAppend s bits (plainAppend s.wr bits)) := by
  induction bits generalizing s with
  | nil => rfl
  | cons x xs ih =>
    rw [appendBits]
    by_cases hfull : (s.wr.wacc ++ [x]).length = byteRoom s.wr
    · have hst := stuffBits_cons_full (xs := xs) (ff := s.wr.wff) (acc := s.wr.wacc) (x := x) hfull
      have hroom : ¬ s.wr.wcap ≤ s.wr.wpos := by
        rcases hf with hf | hf <;> simp only [newBytes, hst] at hf
        · simp at hf
        · simp only [List.length_cons] at hf; omega
      rw [appendBit_of_full hfull, emitByte, if_neg hroom, ok_bind, ih]
      · simp only [afterAppend, plainAppend, newBytes, hst, setWriter, setBytes, writeBytes, List.length_cons]
        simp only [Nat.add_assoc, Nat.add_comm 1]
      · rcases hf with hf | hf <;> simp only [newBytes, hst] at hf
        · simp at hf
        · right
          simp only [setWriter, setBytes, newBytes, List.length_cons] at *
          omega
    · have hst := stuffBits_cons_partial (xs := xs) (ff := s.wr.wff) (acc := s.wr.wacc) (x := x) hfull
      rw [appendBit_of_partial hfull, ok_bind, ih]
      · simp only [afterAppend, plainAppend, newBytes, hst, setWriter]
      · simpa only [fits, newBytes, hst, setWriter] using hf

/-- Bits whose bytes do not fit overflow the sink (R246). -/
theorem appendBits_overflow {bits : List Bool} {s : State} (hf : ¬fits s.wr bits) :
    ∃ t, appendBits bits s = raise .compressedBufferTooSmall t ∧ t.pr = s.pr ∧ t.configured = s.configured := by
  induction bits generalizing s with
  | nil => exact absurd (.inl rfl) hf
  | cons x xs ih =>
    rw [appendBits]
    by_cases hfull : (s.wr.wacc ++ [x]).length = byteRoom s.wr
    · have hst := stuffBits_cons_full (xs := xs) (ff := s.wr.wff) (acc := s.wr.wacc) (x := x) hfull
      rw [appendBit_of_full hfull, emitByte]
      split
      · exact ⟨s, rfl, rfl, rfl⟩
      · obtain ⟨t, ht, hp, hc⟩ := ih (s := setWriter (setBytes s
            (memWrite s.bs s.wr.wpos (BitVec.ofNat 8 (bitsVal (s.wr.wacc ++ [x])))))
            { s.wr with wacc := [], wff := byteIsFF (BitVec.ofNat 8 (bitsVal (s.wr.wacc ++ [x]))),
                        wpos := s.wr.wpos + 1, written := s.wr.written + 1 }) (by
          simp only [fits, newBytes, hst, setWriter, setBytes, List.length_cons] at *
          push Not at hf ⊢
          exact ⟨fun h0 => by simp [h0] at hf; omega, by omega⟩)
        exact ⟨t, ht, hp, hc⟩
    · have hst := stuffBits_cons_partial (xs := xs) (ff := s.wr.wff) (acc := s.wr.wacc) (x := x) hfull
      rw [appendBit_of_partial hfull, ok_bind]
      obtain ⟨t, ht, hp, hc⟩ := ih (s := setWriter s { s.wr with wacc := s.wr.wacc ++ [x] })
        (by simpa only [fits, newBytes, hst, setWriter] using hf)
      exact ⟨t, ht, hp, hc⟩

/-- Two writers with the same normative state. -/
structure SameStream (w v : Writer) : Prop where
  wacc : v.wacc = w.wacc
  wff : v.wff = w.wff
  wpos : v.wpos = w.wpos
  written : v.written = w.written
  wcap : v.wcap = w.wcap
  wstart : v.wstart = w.wstart

theorem SameStream.refl (w : Writer) : SameStream w w := ⟨rfl, rfl, rfl, rfl, rfl, rfl⟩

theorem SameStream.trans {w v u : Writer} (h : SameStream w v) (g : SameStream v u) : SameStream w u :=
  ⟨g.wacc.trans h.wacc, g.wff.trans h.wff, g.wpos.trans h.wpos, g.written.trans h.written, g.wcap.trans h.wcap,
    g.wstart.trans h.wstart⟩

theorem drainByte_same (w : Writer) : SameStream w (drainByte w) := by
  unfold drainByte; split <;> exact ⟨rfl, rfl, rfl, rfl, rfl, rfl⟩

theorem drainLoop_same (n : Nat) (w : Writer) : SameStream w (drainLoop n w) := by
  induction n generalizing w with
  | zero => exact .refl w
  | succ n ih =>
    rw [drainLoop]
    split
    · exact .refl w
    · exact (drainByte_same w).trans (ih _)

/-- The 32-bit buffer never touches the normative state. -/
theorem bufferGroup_same (value count : Nat) (w : Writer) : SameStream w (bufferGroup value count w) := by
  have h : ∀ (v : Writer) (b : Word) (f : Int), SameStream w v → SameStream w { v with wbuf := b, wfree := f } :=
    fun v b f h => ⟨h.wacc, h.wff, h.wpos, h.written, h.wcap, h.wstart⟩
  have h' : ∀ (v : Writer) (b : Word), SameStream w v → SameStream w { v with wbuf := b } :=
    fun v b h => ⟨h.wacc, h.wff, h.wpos, h.written, h.wcap, h.wstart⟩
  have hd : SameStream w (drain { w with wbuf := shiftIn w value (w.wfree - count), wfree := w.wfree - count }) :=
    (h w _ _ (.refl w)).trans (drainLoop_same 4 _)
  unfold bufferGroup
  by_cases hf : 0 ≤ w.wfree - count
  · simp only [if_pos hf]; exact h w _ _ (.refl w)
  · simp only [if_neg hf]
    refine h' _ _ ?_
    split
    · exact (h' _ _ hd).trans (drainLoop_same 4 _)
    · exact hd

theorem Appended.same {w v u : Writer} {bits : List Bool} (h : Appended w bits v) (g : SameStream v u) :
    Appended w bits u :=
  ⟨g.wacc.trans h.wacc, g.wff.trans h.wff, g.wpos.trans h.wpos, g.written.trans h.written, g.wcap.trans h.wcap,
    g.wstart.trans h.wstart⟩

/-- `BW.APP` on a group that fits (R242). -/
theorem appendGroup_ok {value count : Nat} {s : State} (hc : count ≤ 31) (hv : value < 2 ^ count)
    (hf : fits s.wr (bitsOf value count)) :
    ∃ v, Appended s.wr (bitsOf value count) v ∧
      appendGroup value count s = .ok (afterAppend s (bitsOf value count) v) := by
  refine ⟨_, (plainAppend_appended _ _).same (bufferGroup_same value count _), ?_⟩
  rw [appendGroup, if_neg (by omega), if_neg (by omega), appendBits_ok hf]
  rfl

theorem appendGroup_overflow {value count : Nat} {s : State} (hc : count ≤ 31) (hv : value < 2 ^ count)
    (hf : ¬fits s.wr (bitsOf value count)) :
    ∃ t, appendGroup value count s = raise .compressedBufferTooSmall t ∧ t.pr = s.pr ∧ t.configured = s.configured := by
  obtain ⟨t, ht, h⟩ := appendBits_overflow hf
  exact ⟨t, by rw [appendGroup, if_neg (by omega), if_neg (by omega), ht]; rfl, h⟩

/-- The bits of a sequence of groups. -/
def groupBits (gs : List (Nat × Nat)) : List Bool := gs.flatMap fun g => bitsOf g.1 g.2

theorem appendGroups_ok {gs : List (Nat × Nat)} {s : State} (hg : ∀ g ∈ gs, g.2 ≤ 31 ∧ g.1 < 2 ^ g.2)
    (hf : fits s.wr (groupBits gs)) :
    ∃ v, Appended s.wr (groupBits gs) v ∧ appendGroups gs s = .ok (afterAppend s (groupBits gs) v) := by
  induction gs generalizing s with
  | nil => exact ⟨s.wr, .refl _, rfl⟩
  | cons g gs ih =>
    have hb : groupBits (g :: gs) = bitsOf g.1 g.2 ++ groupBits gs := rfl
    rw [hb] at hf ⊢
    have hpl := plainAppend_appended s.wr (bitsOf g.1 g.2)
    obtain ⟨v, hv, he⟩ := appendGroup_ok (hg g (by simp)).1 (hg g (by simp)).2 (fits_append hpl hf).1
    obtain ⟨u, hu, he'⟩ := ih (s := afterAppend s (bitsOf g.1 g.2) v) (fun g' h' => hg g' (by simp [h']))
      (fits_append hv hf).2
    refine ⟨u, hv.trans hu, ?_⟩
    rw [appendGroups, he, ok_bind, he', afterAppend_trans hv]

/-! ## The codewords of `BW.ENCV` -/

theorem groupBits_golomb {h r k : Nat} : groupBits (golombGroups h r k) = List.replicate h false ++ true :: bitsOf r k := by
  unfold golombGroups
  split
  · simp only [groupBits, List.cons_append, List.flatMap_cons, List.flatMap_nil, List.nil_append, bitsOf_zero, bitsOf_one,
      List.append_nil, List.append_assoc]
    rw [← List.append_assoc, List.replicate_append_replicate, show h / 2 + (h - h / 2) = h by omega]
  · simp [groupBits, bitsOf_one]

theorem groupBits_escape {n v q : Nat} (hn : 1 ≤ n) :
    groupBits (escapeGroups n v q) = List.replicate (n - 1) false ++ true :: bitsOf v q := by
  unfold escapeGroups
  split
  · obtain ⟨m, rfl⟩ : ∃ m, n = 31 + (m + 1) := ⟨n - 32, by omega⟩
    simp only [groupBits, List.cons_append, List.flatMap_cons, List.flatMap_nil, List.nil_append, bitsOf_zero,
      show 31 + (m + 1) - 31 = m + 1 by omega, bitsOf_one, List.append_nil, List.append_assoc]
    rw [← List.append_assoc, List.replicate_append_replicate, show 31 + (m + 1) - 1 = 31 + m by omega]
  · obtain ⟨m, rfl⟩ : ∃ m, n = m + 1 := ⟨n - 1, by omega⟩
    simp [groupBits, bitsOf_one]

/-- The groups `BW.ENCV` appends for a mapped value. -/
def valueGroups (k m glimit qbpp : Nat) : List (Nat × Nat) :=
  if m / 2 ^ k + qbpp + 1 < glimit then golombGroups (m / 2 ^ k) (m % 2 ^ k) k
  else escapeGroups (glimit - qbpp) ((m - 1) % 2 ^ qbpp) qbpp

theorem groupBits_value {k m glimit qbpp : Nat} (h : encodable k m glimit qbpp) :
    groupBits (valueGroups k m glimit qbpp) = valueBits k m glimit qbpp := by
  unfold valueGroups valueBits
  split
  · exact groupBits_golomb
  · exact groupBits_escape (by obtain ⟨_, _, h, _⟩ := h; omega)

theorem valueGroups_ok {k m glimit qbpp : Nat} (h : encodable k m glimit qbpp) :
    ∀ g ∈ valueGroups k m glimit qbpp, g.2 ≤ 31 ∧ g.1 < 2 ^ g.2 := by
  obtain ⟨hk, hq, hl, hm⟩ := h
  have hone : ∀ n, 1 ≤ n → 1 < 2 ^ n := fun n hn => Nat.one_lt_two_pow (by omega)
  unfold valueGroups
  split
  · rw [if_pos (by assumption)] at hm
    have hr : m % 2 ^ k < 2 ^ k := Nat.mod_lt _ (Nat.two_pow_pos k)
    generalize m / 2 ^ k = h at *
    unfold golombGroups
    split
    · simp only [List.cons_append, List.nil_append, List.mem_cons, List.not_mem_nil, or_false, forall_eq_or_imp, forall_eq]
      exact ⟨⟨by omega, Nat.two_pow_pos _⟩, ⟨by omega, hone _ (by omega)⟩, hk, hr⟩
    · simp only [List.cons_append, List.nil_append, List.mem_cons, List.not_mem_nil, or_false, forall_eq_or_imp, forall_eq]
      exact ⟨⟨by omega, hone _ (by omega)⟩, hk, hr⟩
  · rw [if_neg (by assumption)] at hm
    have hr : (m - 1) % 2 ^ qbpp < 2 ^ qbpp := Nat.mod_lt _ (Nat.two_pow_pos qbpp)
    unfold escapeGroups
    split
    · simp only [List.cons_append, List.nil_append, List.mem_cons, List.not_mem_nil, or_false, forall_eq_or_imp, forall_eq]
      exact ⟨⟨by omega, Nat.two_pow_pos _⟩, ⟨by omega, hone _ (by omega)⟩, hq, hr⟩
    · simp only [List.cons_append, List.nil_append, List.mem_cons, List.not_mem_nil, or_false, forall_eq_or_imp, forall_eq]
      exact ⟨⟨by omega, hone _ (by omega)⟩, hq, hr⟩

theorem encodeValue_eq_groups {k m glimit : Nat} {s : State} (h : encodable k m glimit s.tr.qbpp) :
    encodeValue k m glimit s = appendGroups (valueGroups k m glimit s.tr.qbpp) s := by
  obtain ⟨hk, hq, hl, hm⟩ := h
  simp only [encodeValue, valueGroups]
  rw [if_neg (by omega)]
  generalize m / 2 ^ k = h at *
  by_cases hh : h + s.tr.qbpp + 1 < glimit
  · rw [if_pos (by omega), if_pos hh]
  · rw [if_neg hh] at hm
    rw [if_neg (by omega), if_neg hh, if_pos ⟨hm.1, hm.2.1⟩]
    congr 2
    omega

/-- `BW.ENCV` appends the codeword of R94 or R95. -/
theorem encodeValue_ok {k m glimit : Nat} {s : State} (h : encodable k m glimit s.tr.qbpp)
    (hf : fits s.wr (valueBits k m glimit s.tr.qbpp)) :
    ∃ v, Appended s.wr (valueBits k m glimit s.tr.qbpp) v ∧
      encodeValue k m glimit s = .ok (afterAppend s (valueBits k m glimit s.tr.qbpp) v) := by
  rw [← groupBits_value h] at hf ⊢
  rw [encodeValue_eq_groups h]
  exact appendGroups_ok (valueGroups_ok h) hf

/-! ## The end of the stream (R245) -/

/-- Bits that just complete the pending byte. -/
theorem stuffBits_complete {ff : Bool} {acc bits : List Bool} (hb : bits ≠ [])
    (h : acc.length + bits.length = stuffRoom ff) :
    stuffBits ff acc bits =
      ([BitVec.ofNat 8 (bitsVal (acc ++ bits))], [], byteIsFF (BitVec.ofNat 8 (bitsVal (acc ++ bits)))) := by
  induction bits generalizing acc with
  | nil => exact absurd rfl hb
  | cons x xs ih =>
    rw [List.length_cons] at h
    cases xs with
    | nil =>
      rw [stuffBits_cons_full (by simpa using h)]
      rfl
    | cons y ys =>
      rw [stuffBits_cons_partial (by simp at h ⊢; omega), ih (by simp) (by simp at h ⊢; omega)]
      simp

/-- After the padding no bit is pending. -/
theorem stuffBits_pad {w : Writer} (hw : writerOk w = true) :
    (stuffBits w.wff w.wacc (List.replicate (padLength w) false)).2.1 = [] := by
  have hp : w.wacc.length < stuffRoom w.wff := of_decide_eq_true hw
  unfold padLength
  split
  · rename_i h0; simpa [stuffBits] using h0
  · rw [stuffBits_complete]
    · change List.replicate (stuffRoom w.wff - w.wacc.length) false ≠ []
      rw [Ne, List.replicate_eq_nil_iff]; omega
    · change _ + (List.replicate (stuffRoom w.wff - w.wacc.length) false).length = _
      rw [List.length_replicate]; omega

theorem emitByte_ok {b : Byte} {s : State} (h : s.wr.wpos < s.wr.wcap) :
    emitByte b s = .ok (setWriter (setBytes s (memWrite s.bs s.wr.wpos b))
      { s.wr with wacc := [], wff := byteIsFF b, wpos := s.wr.wpos + 1, written := s.wr.written + 1 }) := by
  rw [emitByte, if_neg (by omega)]

theorem bufferEnd_same (w : Writer) : SameStream w (bufferEnd w) := by
  unfold bufferEnd
  exact ((drainLoop_same 4 w).trans (bufferGroup_same _ _ _)).trans (drainLoop_same 4 _)

/-- `BW.END` where its bytes fit (R245): nothing is pending and the last byte is not `0xFF`. -/
theorem endWrite_ok {s : State} (hw : writerOk s.wr = true) (hf : fits s.wr (endBits s.wr)) :
    ∃ v, Appended s.wr (endBits s.wr) v ∧ v.wacc = [] ∧ v.wff = false ∧
      endWrite s = .ok { afterAppend s (endBits s.wr) v with sr1 := BitVec.ofNat 32 v.written } := by
  have hpad := stuffBits_pad hw
  have hap := plainAppend_appended s.wr (List.replicate (padLength s.wr) false)
  have hf1 : fits s.wr (List.replicate (padLength s.wr) false) := (fits_append hap hf).1
  unfold endWrite
  rw [appendBits_ok hf1, ok_bind]
  simp only [endBits] at hf ⊢
  by_cases hff : (stuffBits s.wr.wff s.wr.wacc (List.replicate (padLength s.wr) false)).2.2 = true
  · have hz : stuffBits true [] (List.replicate 7 false) = ([0], [], false) := by decide
    rw [if_pos hff] at hf ⊢
    have hnew : newBytes (plainAppend s.wr (List.replicate (padLength s.wr) false)) (List.replicate 7 false) = [0] := by
      simp only [newBytes, plainAppend, hpad, hff, hz]
    have hroom : (plainAppend s.wr (List.replicate (padLength s.wr) false)).wpos <
        (plainAppend s.wr (List.replicate (padLength s.wr) false)).wcap := by
      have := (fits_append hap hf).2
      simp only [fits, hnew] at this
      rcases this with h | h
      · simp at h
      · simpa using h
    rw [closeStuffing, if_pos (show (afterAppend s (List.replicate (padLength s.wr) false)
      (plainAppend s.wr (List.replicate (padLength s.wr) false))).wr.wff = true from hff), emitByte_ok hroom, ok_bind]
    have hap2 : Appended (plainAppend s.wr (List.replicate (padLength s.wr) false)) (List.replicate 7 false)
        { plainAppend s.wr (List.replicate (padLength s.wr) false) with
          wacc := [], wff := byteIsFF 0, wpos := (plainAppend s.wr (List.replicate (padLength s.wr) false)).wpos + 1,
          written := (plainAppend s.wr (List.replicate (padLength s.wr) false)).written + 1 } := by
      refine ⟨?_, ?_, ?_, ?_, rfl, rfl⟩
      · simp only [plainAppend, hpad, hff, hz]
      · simp only [plainAppend, hpad, hff, hz]; rfl
      · simp only [hnew, List.length_singleton]
      · simp only [hnew, List.length_singleton]
    refine ⟨_, (hap.trans hap2).same (bufferEnd_same _), ?_, ?_, ?_⟩
    · exact (bufferEnd_same _).wacc
    · exact (bufferEnd_same _).wff
    · rw [← afterAppend_trans hap]
      simp only [afterAppend, hnew, writeBytes, closeWriter]
      congr 1
      simp only [setWriter, setBytes, (bufferEnd_same _).written]
  · rw [if_neg hff, List.append_nil]
    rw [closeStuffing, if_neg (show ¬(afterAppend s (List.replicate (padLength s.wr) false)
      (plainAppend s.wr (List.replicate (padLength s.wr) false))).wr.wff = true from hff), ok_bind]
    refine ⟨_, hap.same (bufferEnd_same _), ?_, ?_, ?_⟩
    · rw [(bufferEnd_same _).wacc]; exact hpad
    · rw [(bufferEnd_same _).wff]; exact Bool.eq_false_iff.2 hff
    · congr 1
      simp only [closeWriter, afterAppend, setWriter, (bufferEnd_same _).written]

theorem emitByte_full {b : Byte} {s : State} (h : s.wr.wcap ≤ s.wr.wpos) :
    emitByte b s = raise .compressedBufferTooSmall s := by rw [emitByte, if_pos h]

/-- `BW.END` where its bytes do not fit (R246). -/
theorem endWrite_overflow {s : State} (hw : writerOk s.wr = true) (hf : ¬fits s.wr (endBits s.wr)) :
    ∃ u, u.pr = s.pr ∧ endWrite s = raise .compressedBufferTooSmall u := by
  unfold endWrite
  by_cases hf1 : fits s.wr (List.replicate (padLength s.wr) false)
  · rw [appendBits_ok hf1, ok_bind]
    have hpad := stuffBits_pad hw
    have hap := plainAppend_appended s.wr (List.replicate (padLength s.wr) false)
    by_cases hff : (stuffBits s.wr.wff s.wr.wacc (List.replicate (padLength s.wr) false)).2.2 = true
    · have hz : stuffBits true [] (List.replicate 7 false) = ([0], [], false) := by decide
      have hnew : newBytes (plainAppend s.wr (List.replicate (padLength s.wr) false)) (List.replicate 7 false) = [0] := by
        simp only [newBytes, plainAppend, hpad, hff, hz]
      have hroom : (plainAppend s.wr (List.replicate (padLength s.wr) false)).wcap ≤ (plainAppend s.wr (List.replicate (padLength s.wr) false)).wpos := by
        by_contra hc
        apply hf
        unfold endBits; rw [if_pos hff]
        right
        rw [newBytes_append hap, hnew]
        rw [hap.wpos, hap.wcap] at hc
        simp at hc ⊢; omega
      refine ⟨(afterAppend s (List.replicate (padLength s.wr) false)
      (plainAppend s.wr (List.replicate (padLength s.wr) false))), rfl, ?_⟩
      rw [closeStuffing, if_pos (show (afterAppend s (List.replicate (padLength s.wr) false)
      (plainAppend s.wr (List.replicate (padLength s.wr) false))).wr.wff = true from hff)]
      rw [emitByte_full hroom]; rfl
    · exact absurd (by unfold endBits; rw [if_neg hff, List.append_nil]; exact hf1) hf
  · obtain ⟨t, ht, hp, -⟩ := appendBits_overflow hf1
    exact ⟨t, hp, by rw [ht]; rfl⟩

/-! ## Room in the sink -/

/-- A byte takes at least seven of the bits. -/
theorem stuffBits_room (ff : Bool) (acc bits : List Bool) :
    7 * (stuffBits ff acc bits).1.length + (stuffBits ff acc bits).2.1.length ≤ acc.length + bits.length := by
  induction bits generalizing ff acc with
  | nil => simp [stuffBits]
  | cons x xs ih =>
    by_cases hr : (acc ++ [x]).length = stuffRoom ff
    · rw [stuffBits_cons_full hr]
      have h := ih (byteIsFF (BitVec.ofNat 8 (bitsVal (acc ++ [x])))) []
      have h7 : 7 ≤ stuffRoom ff := by cases ff <;> decide
      rw [List.length_append, List.length_singleton] at hr
      simp only [List.length_nil, List.length_cons] at h ⊢
      omega
    · rw [stuffBits_cons_partial hr]
      have h := ih ff (acc ++ [x])
      rw [List.length_append, List.length_singleton] at h
      rw [List.length_cons]
      omega

theorem newBytes_room (w : Writer) (bits : List Bool) :
    7 * (newBytes w bits).length ≤ w.wacc.length + bits.length := by
  have := stuffBits_room w.wff w.wacc bits
  unfold newBytes; omega

theorem roomFor.mono {w : Writer} {m n : Nat} (h : roomFor w n) (hm : m ≤ n) : roomFor w m := by
  unfold roomFor at *; omega

/-- Bits there is room for fit. -/
theorem roomFor.fits {w : Writer} {bits : List Bool} {n : Nat} (h : roomFor w n) (hn : bits.length ≤ n) :
    Machine.fits w bits := by
  have := newBytes_room w bits
  unfold roomFor at h
  exact .inr (by omega)

/-- Appending bits takes that much of the room. -/
theorem roomFor.after {w v : Writer} {bits : List Bool} {m n : Nat} (h : roomFor w n) (ha : Appended w bits v)
    (hn : bits.length + m ≤ n) : roomFor v m := by
  have := stuffBits_room w.wff w.wacc bits
  unfold roomFor at *
  rw [ha.wpos, ha.wacc, ha.wcap, newBytes]
  omega

/-- The state `t` is `s` after `bits` were appended to the sink, as far as the writer and the array go. -/
structure Wrote (s : State) (bits : List Bool) (t : State) : Prop where
  writer : Appended s.wr bits t.wr
  bytes : t.bs = writeBytes s.bs s.wr.wpos (newBytes s.wr bits)

theorem Wrote.refl (s : State) : Wrote s [] s := ⟨.refl _, rfl⟩

theorem Wrote.same {s t u : State} {bits : List Bool} (h : Wrote s bits t) (hw : u.wr = t.wr) (hb : u.bs = t.bs) :
    Wrote s bits u := ⟨hw ▸ h.writer, hb.trans h.bytes⟩

theorem Wrote.of_same {s t u : State} {bits : List Bool} (h : Wrote s bits t) (hw : u.wr = s.wr) (hb : u.bs = s.bs) :
    Wrote u bits t := ⟨hw.symm ▸ h.writer, by rw [h.bytes, hw, hb]⟩

theorem Wrote.trans {s t u : State} {as bs : List Bool} (h : Wrote s as t) (g : Wrote t bs u) : Wrote s (as ++ bs) u where
  writer := h.writer.trans g.writer
  bytes := by rw [g.bytes, h.bytes, newBytes_append h.writer, writeBytes_append, h.writer.wpos]

theorem Wrote.afterAppend {s : State} {bits : List Bool} {v : Writer} (h : Appended s.wr bits v) :
    Wrote s bits (afterAppend s bits v) := ⟨h, rfl⟩

end Sys2Proof.Machine
end

