-- ==== Sys2Proof/Laws/Buffer.lean ====
section
/-! SUPPORT. The line buffers: the elements are told apart, and what each write does to each read (`10_state.md` R30). -/

namespace Sys2Proof.Machine

/-- An element's place in a line: `-1 .. WIDTH` (R30). -/
abbrev InLine (j : Int) : Prop := -1 ≤ j

theorem pairKey_inj {m n m' n' : Nat} : pairKey m n = pairKey m' n' ↔ m = m' ∧ n = n' := Nat.pair_eq_pair

theorem bufKey_inj {p c ch p' c' ch' : Nat} {j j' : Int} (hp : p < 2) (hp' : p' < 2) (hch : ch < 3) (hch' : ch' < 3)
    (hj : InLine j) (hj' : InLine j') :
    bufKey p c ch j = bufKey p' c' ch' j' ↔ p = p' ∧ c = c' ∧ ch = ch' ∧ j = j' := by
  rw [bufKey, bufKey, pairKey_inj]
  omega

/-- The element of parity `p` of slot `c`, channel `ch`, place `j`. -/
def cell (s : State) (p c ch : Nat) (j : Int) : Int := sparseRead 0 s.buf (bufKey p c ch j)

theorem curRead_eq_cell (s : State) (ch : Nat) (j : Int) : curRead s ch j = cell s (s.seq.y % 2) s.seq.c ch j := rfl

theorem prevRead_eq_cell (s : State) (ch : Nat) (j : Int) :
    prevRead s ch j = cell s ((s.seq.y + 1) % 2) s.seq.c ch j := rfl

theorem cell_congr {s t : State} (h : t.buf = s.buf) (p c ch : Nat) (j : Int) : cell t p c ch j = cell s p c ch j := by
  unfold cell; rw [h]

theorem curRead_congr {s t : State} (h : t.buf = s.buf) (hy : t.seq.y = s.seq.y) (hc : t.seq.c = s.seq.c) (ch : Nat)
    (j : Int) : curRead t ch j = curRead s ch j := by
  unfold curRead; rw [h, hy, hc]

theorem prevRead_congr {s t : State} (h : t.buf = s.buf) (hy : t.seq.y = s.seq.y) (hc : t.seq.c = s.seq.c) (ch : Nat)
    (j : Int) : prevRead t ch j = prevRead s ch j := by
  unfold prevRead; rw [h, hy, hc]

variable {s : State}

theorem cell_curWrite (hw : sparseWf 0 s.buf = true) {p c ch ch' : Nat} {j j' v : Int} (hp : p < 2) (hch : ch < 3)
    (hch' : ch' < 3) (hj : InLine j) (hj' : InLine j') :
    cell (curWrite s ch j v) p c ch' j' =
      if p = s.seq.y % 2 ∧ c = s.seq.c ∧ ch' = ch ∧ j' = j then v else cell s p c ch' j' := by
  change sparseRead 0 (sparseWrite 0 s.buf (bufKey (s.seq.y % 2) s.seq.c ch j) v) (bufKey p c ch' j') = _
  rw [sparseRead_write hw]
  simp only [bufKey_inj hp (Nat.mod_lt _ (by decide) : s.seq.y % 2 < 2) hch' hch hj' hj]
  rfl

theorem cell_prevWrite (hw : sparseWf 0 s.buf = true) {p c ch ch' : Nat} {j j' v : Int} (hp : p < 2) (hch : ch < 3)
    (hch' : ch' < 3) (hj : InLine j) (hj' : InLine j') :
    cell (prevWrite s ch j v) p c ch' j' =
      if p = (s.seq.y + 1) % 2 ∧ c = s.seq.c ∧ ch' = ch ∧ j' = j then v else cell s p c ch' j' := by
  change sparseRead 0 (sparseWrite 0 s.buf (bufKey ((s.seq.y + 1) % 2) s.seq.c ch j) v) (bufKey p c ch' j') = _
  rw [sparseRead_write hw]
  simp only [bufKey_inj hp (Nat.mod_lt _ (by decide) : (s.seq.y + 1) % 2 < 2) hch' hch hj' hj]
  rfl

theorem curRead_curWrite (hw : sparseWf 0 s.buf = true) {ch ch' : Nat} {j j' v : Int} (hch : ch < 3) (hch' : ch' < 3)
    (hj : InLine j) (hj' : InLine j') :
    curRead (curWrite s ch j v) ch' j' = if ch' = ch ∧ j' = j then v else curRead s ch' j' := by
  rw [curRead_eq_cell, curRead_eq_cell]
  change cell (curWrite s ch j v) (s.seq.y % 2) s.seq.c ch' j' = _
  rw [cell_curWrite hw (Nat.mod_lt _ (by decide)) hch hch' hj hj']
  simp

theorem prevRead_curWrite (hw : sparseWf 0 s.buf = true) {ch ch' : Nat} {j j' v : Int} (hch : ch < 3) (hch' : ch' < 3)
    (hj : InLine j) (hj' : InLine j') : prevRead (curWrite s ch j v) ch' j' = prevRead s ch' j' := by
  rw [prevRead_eq_cell, prevRead_eq_cell]
  change cell (curWrite s ch j v) ((s.seq.y + 1) % 2) s.seq.c ch' j' = _
  rw [cell_curWrite hw (Nat.mod_lt _ (by decide)) hch hch' hj hj', if_neg (by omega)]

theorem curRead_prevWrite (hw : sparseWf 0 s.buf = true) {ch ch' : Nat} {j j' v : Int} (hch : ch < 3) (hch' : ch' < 3)
    (hj : InLine j) (hj' : InLine j') : curRead (prevWrite s ch j v) ch' j' = curRead s ch' j' := by
  rw [curRead_eq_cell, curRead_eq_cell]
  change cell (prevWrite s ch j v) (s.seq.y % 2) s.seq.c ch' j' = _
  rw [cell_prevWrite hw (Nat.mod_lt _ (by decide)) hch hch' hj hj', if_neg (by omega)]

theorem prevRead_prevWrite (hw : sparseWf 0 s.buf = true) {ch ch' : Nat} {j j' v : Int} (hch : ch < 3) (hch' : ch' < 3)
    (hj : InLine j) (hj' : InLine j') :
    prevRead (prevWrite s ch j v) ch' j' = if ch' = ch ∧ j' = j then v else prevRead s ch' j' := by
  rw [prevRead_eq_cell, prevRead_eq_cell]
  change cell (prevWrite s ch j v) ((s.seq.y + 1) % 2) s.seq.c ch' j' = _
  rw [cell_prevWrite hw (Nat.mod_lt _ (by decide)) hch hch' hj hj']
  simp

theorem curWrite_wf (hw : sparseWf 0 s.buf = true) (ch : Nat) (j v : Int) :
    sparseWf 0 (curWrite s ch j v).buf = true := sparseWrite_wf hw

theorem prevWrite_wf (hw : sparseWf 0 s.buf = true) (ch : Nat) (j v : Int) :
    sparseWf 0 (prevWrite s ch j v).buf = true := sparseWrite_wf hw

/-- Everything but the buffers is as in `s`, and the buffers are canonical. -/
structure BufOnly (s t : State) : Prop where
  same : { t with buf := s.buf } = s
  wf : sparseWf 0 t.buf = true

theorem BufOnly.refl (hw : sparseWf 0 s.buf = true) : BufOnly s s := ⟨rfl, hw⟩

theorem BufOnly.trans {t u : State} (h : BufOnly s t) (g : BufOnly t u) : BufOnly s u := by
  refine ⟨?_, g.wf⟩
  have h1 := h.same
  have h2 := g.same
  rw [← h1, ← h2]

theorem BufOnly.eq {t : State} (h : BufOnly s t) : t = { s with buf := t.buf } := by
  have h1 := h.same
  conv_rhs => rw [← h1]

theorem BufOnly.cur (hw : sparseWf 0 s.buf = true) (ch : Nat) (j v : Int) : BufOnly s (curWrite s ch j v) :=
  ⟨rfl, curWrite_wf hw ch j v⟩

theorem BufOnly.prev (hw : sparseWf 0 s.buf = true) (ch : Nat) (j v : Int) : BufOnly s (prevWrite s ch j v) :=
  ⟨rfl, prevWrite_wf hw ch j v⟩

/-! ## Whole elements -/

/-- What `writeElement` does from channel `n` on. -/
theorem writeElement_from (vs : List Int) {j : Int} (hj : InLine j) :
    ∀ (n : Nat) (s : State), sparseWf 0 s.buf = true → n + vs.length ≤ 3 →
      BufOnly s ((vs.zipIdx n).foldl (fun s p => curWrite s p.2 j p.1) s) ∧
        ∀ p < 2, ∀ c, ∀ ch < 3, ∀ j', InLine j' →
          cell ((vs.zipIdx n).foldl (fun s p => curWrite s p.2 j p.1) s) p c ch j' =
            if p = s.seq.y % 2 ∧ c = s.seq.c ∧ j' = j ∧ n ≤ ch ∧ ch < n + vs.length then vs.getD (ch - n) 0
            else cell s p c ch j' := by
  induction vs with
  | nil =>
    intro n s hw _
    refine ⟨.refl hw, fun p _ c ch _ j' _ => ?_⟩
    rw [if_neg (by simp)]; rfl
  | cons v vs ih =>
    intro n s hw hn
    rw [List.length_cons] at hn
    have h1 := BufOnly.cur hw n j v
    obtain ⟨h2, h3⟩ := ih (n + 1) (curWrite s n j v) h1.wf (by omega)
    refine ⟨h1.trans h2, fun p hp c ch hch j' hj' => ?_⟩
    rw [List.zipIdx_cons, List.foldl_cons, h3 p hp c ch hch j' hj', cell_curWrite hw hp (by omega) hch hj hj']
    simp only [show (curWrite s n j v).seq = s.seq from rfl, List.length_cons]
    by_cases hch' : ch = n
    · subst hch'
      by_cases hx : p = s.seq.y % 2 ∧ c = s.seq.c ∧ j' = j
      · rw [if_neg (by omega), if_pos ⟨hx.1, hx.2.1, rfl, hx.2.2⟩, if_pos ⟨hx.1, hx.2.1, hx.2.2, by omega, by omega⟩]
        simp
      · rw [if_neg (by omega), if_neg (by omega), if_neg (by omega)]
    · by_cases hx : p = s.seq.y % 2 ∧ c = s.seq.c ∧ j' = j ∧ n + 1 ≤ ch ∧ ch < n + 1 + vs.length
      · rw [if_pos hx, if_pos ⟨hx.1, hx.2.1, hx.2.2.1, by omega, by omega⟩]
        obtain ⟨m, rfl⟩ : ∃ m, ch = n + 1 + m := ⟨ch - (n + 1), by omega⟩
        rw [show n + 1 + m - n = m + 1 by omega, List.getD_cons_succ, show n + 1 + m - (n + 1) = m by omega]
      · rw [if_neg hx, if_neg (by omega), if_neg (by omega)]

theorem writeElement_spec {vs : List Int} {j : Nat} (hw : sparseWf 0 s.buf = true) (hv : vs.length ≤ 3)
    (hj : InLine (j : Int)) : BufOnly s (writeElement vs j s) ∧
      ∀ p < 2, ∀ c, ∀ ch < 3, ∀ j', InLine j' → cell (writeElement vs j s) p c ch j' =
        if p = s.seq.y % 2 ∧ c = s.seq.c ∧ j' = j ∧ ch < vs.length then vs.getD ch 0 else cell s p c ch j' := by
  obtain ⟨h1, h2⟩ := writeElement_from vs hj 0 s hw (by omega)
  refine ⟨h1, fun p hp c ch hch j' hj' => ?_⟩
  have := h2 p hp c ch hch j' hj'
  simp only [Nat.zero_le, Nat.zero_add, Nat.sub_zero, true_and] at this
  exact this

theorem BufOnly.seq_eq {t : State} (h : BufOnly s t) : t.seq = s.seq := by rw [h.eq]

theorem BufOnly.pr_eq {t : State} (h : BufOnly s t) : t.pr = s.pr := by rw [h.eq]

theorem BufOnly.tr_eq {t : State} (h : BufOnly s t) : t.tr = s.tr := by rw [h.eq]

theorem curRead_writeElement {vs : List Int} {j : Nat} (hw : sparseWf 0 s.buf = true) (hv : vs.length ≤ 3)
    (hj : InLine (j : Int)) {ch : Nat} (hch : ch < 3) {j' : Int} (hj' : InLine j') :
    curRead (writeElement vs j s) ch j' = if j' = j ∧ ch < vs.length then vs.getD ch 0 else curRead s ch j' := by
  obtain ⟨h1, h2⟩ := writeElement_spec (s := s) hw hv hj
  rw [curRead_eq_cell, h1.seq_eq, h2 _ (Nat.mod_lt _ (by decide)) _ _ hch _ hj']
  simp [curRead_eq_cell]

theorem prevRead_writeElement {vs : List Int} {j : Nat} (hw : sparseWf 0 s.buf = true) (hv : vs.length ≤ 3)
    (hj : InLine (j : Int)) {ch : Nat} (hch : ch < 3) {j' : Int} (hj' : InLine j') :
    prevRead (writeElement vs j s) ch j' = prevRead s ch j' := by
  obtain ⟨h1, h2⟩ := writeElement_spec (s := s) hw hv hj
  rw [prevRead_eq_cell, h1.seq_eq, h2 _ (Nat.mod_lt _ (by decide)) _ _ hch _ hj', if_neg (by omega)]
  rfl

theorem elementAt_length (nch : Nat) (s : State) (j : Int) : (elementAt nch s j).length = nch := by simp [elementAt]

theorem elementAt_getD {nch ch : Nat} (h : ch < nch) (s : State) (j : Int) :
    (elementAt nch s j).getD ch 0 = curRead s ch j := by
  simp [elementAt, List.getD, h]

end Sys2Proof.Machine
end

