-- ==== Sys2Proof/Laws/Preserve.lean ====
section
/-! SUPPORT. What every operation keeps: a property that the elementary writes keep holds of the state an operation
completes in and of the state it raises an error in. One lemma for each part of each operation. -/

namespace Sys2Proof.Machine

variable {α β : Type} {P : State → Prop}

/-- The state an operation completes in, or raises an error in (a code that is not 0), has the property. -/
def Ends (f : α → State) (P : State → Prop) : Res α → Prop
  | .ok a => P (f a)
  | .error (.raised e s) => e ≠ .none ∧ P s
  | .error (.refused _) => True

/-- The property holds of the state of an outcome that completes. -/
def EndsState (P : State → Prop) (x : Res State) : Prop := Ends id P x

/-- The same for an operation with a result beside its state. -/
def EndsWith (P : State → Prop) (x : Res (β × State)) : Prop := Ends Prod.snd P x

theorem Ends.ok {f : α → State} {a : α} (h : P (f a)) : Ends f P (.ok a) := h

theorem Ends.raise {f : α → State} {e : ErrKind} {s : State} (he : e ≠ .none) (h : P s) : Ends f P (raise e s) :=
  ⟨he, h⟩

theorem Ends.refuse {f : α → State} {r : Refusal} : Ends f P (refuse r) := trivial

theorem Ends.bind {f : α → State} {g : β → State} {x : Res α} {k : α → Res β} (hx : Ends f P x)
    (hk : ∀ a, P (f a) → Ends g P (k a)) : Ends g P (x >>= k) := by
  rcases x with (⟨e, s⟩ | r) | a
  · exact hx
  · exact trivial
  · exact hk a hx

theorem Ends.require {g : β → State} {b : Bool} {r : Refusal} {k : Unit → Res β} (hk : b = true → Ends g P (k ())) :
    Ends g P (Machine.require b r >>= k) := by
  cases b with
  | false => exact trivial
  | true => exact hk rfl

theorem Ends.elim_ok {f : α → State} {x : Res α} {a : α} (h : Ends f P x) (hx : x = .ok a) : P (f a) := by
  rw [hx] at h; exact h

theorem Ends.elim_raised {f : α → State} {x : Res α} {e : ErrKind} {s : State} (h : Ends f P x)
    (hx : x = Machine.raise e s) : e ≠ .none ∧ P s := by
  rw [hx] at h; exact h

/-- What the next state of an operation is: the property holds, or an error was taken in a state that had it. -/
def Answers (P : State → Prop) (t : State) : Prop := P t ∨ ∃ e s, e ≠ .none ∧ P s ∧ t = raiseErr e s

/-- A state without an error did not come from taking one. -/
theorem Answers.of_none {t : State} (h : Answers P t) (he : t.err = .none) : P t := by
  rcases h with h | ⟨e, s, h1, -, rfl⟩
  · exact h
  · exact absurd he h1

theorem Ends.finish {x : Res State} {t : State} (h : Ends id P x) (hx : finish x = .next t) : Answers P t := by
  rcases finish_eq_next.mp hx with h1 | ⟨e, s, h1, h2⟩
  · exact .inl (h.elim_ok h1)
  · exact .inr ⟨e, s, (h.elim_raised h1).1, (h.elim_raised h1).2, h2⟩

/-! ## The elementary writes -/

/-- The writes of the arithmetic units keep the property. -/
structure ArithClosed (P : State → Prop) : Prop where
  work : ∀ s w, P s → P (setWork s w)
  result : ∀ s r, P s → P (setResult s r)
  ctx : ∀ s q err, P s → P (updCtx q err s)
  rctx : ∀ s t err em, P s → P (updRctx t err em s)
  inc : ∀ s, P s → P (incIdx s)
  dec : ∀ s, P s → P (decIdx s)

/-- So do the line buffer's. -/
structure UnitClosed (P : State → Prop) : Prop extends ArithClosed P where
  cur : ∀ s ch j v, P s → P (curWrite s ch j v)

/-- So do the reader's: bits are consumed, or only its realisation moves. -/
structure ReadClosed (P : State → Prop) : Prop extends UnitClosed P where
  reader : ∀ s r n, P s → Consumed s.rd n r → P (setReader s r)

/-- So do the writer's: a pending bit, a byte that fits, the buffer of the realisation. -/
structure WriteClosed (P : State → Prop) : Prop extends UnitClosed P where
  bit : ∀ s x, P s → (s.wr.wacc ++ [x]).length ≠ byteRoom s.wr →
    P (setWriter s { s.wr with wacc := s.wr.wacc ++ [x] })
  emit : ∀ s b, P s → s.wr.wpos < s.wr.wcap →
    P (setWriter (setBytes s (memWrite s.bs s.wr.wpos b))
      { s.wr with wacc := [], wff := byteIsFF b, wpos := s.wr.wpos + 1, written := s.wr.written + 1 })
  buffer : ∀ s v c, P s → P (setWriter s (bufferGroup v c s.wr))
  drained : ∀ s, P s → P (setWriter s (drainByte s.wr))

/-- And the scan driver's. -/
structure ScanClosed (P : State → Prop) : Prop where
  prev : ∀ s ch j v, P s → P (prevWrite s ch j v)
  seq : ∀ s q, P s → P (setSeq s q)
  load : ∀ s c, P s → P (setRunindex s (runidxAt s c))
  store : ∀ s c, P s → P (setRunidx s c s.runindex)

/-! ## The bit reader -/

theorem readValue_ends (h : ReadClosed P) {n : Nat} {s : State} (hs : P s) : Ends Prod.snd P (readValue n s) := by
  unfold readValue
  split
  · exact hs
  split
  · exact trivial
  split
  · exact ⟨by decide, hs⟩
  · exact h.reader _ _ _ hs (consume_consumed _ _ _)

theorem readBit_ends (h : ReadClosed P) {s : State} (hs : P s) : Ends Prod.snd P (readBit s) := by
  unfold readBit
  split
  · exact ⟨by decide, hs⟩
  · exact h.reader _ _ _ hs (consume_consumed _ _ _)

theorem peekByte_ends (h : ReadClosed P) {s : State} (hs : P s) : Ends Prod.snd P (peekByte s) := by
  unfold peekByte
  split
  · exact ⟨by decide, hs⟩
  · exact h.reader _ _ _ hs (fillBelow_same _ _ _)

theorem skipBits_ends (h : ReadClosed P) {n : Nat} {s : State} (hs : P s) : Ends id P (skipBits n s) := by
  unfold skipBits
  split
  · exact trivial
  split
  · exact ⟨by decide, hs⟩
  · exact h.reader _ _ _ hs (consume_consumed _ _ _)

theorem highLoop_ends (h : ReadClosed P) : ∀ (fuel n : Nat) {s : State}, P s → Ends Prod.snd P (highLoop fuel n s)
  | 0, _, _, hs => ⟨by decide, hs⟩
  | fuel + 1, n, s, hs => by
    unfold highLoop
    refine (readBit_ends h hs).bind fun a ha => ?_
    simp only
    split
    · exact ha
    · exact highLoop_ends h fuel _ ha

theorem readHigh_ends (h : ReadClosed P) {s : State} (hs : P s) : Ends Prod.snd P (readHigh s) :=
  highLoop_ends h _ _ hs

theorem decodeValue_ends (h : ReadClosed P) {k q : Nat} {g : Int} {s : State} (hs : P s) :
    Ends Prod.snd P (decodeValue k g q s) := by
  unfold decodeValue
  refine (readHigh_ends h hs).bind fun a ha => ?_
  simp only
  split
  · exact (readValue_ends h ha).bind fun b hb => hb
  split
  · exact ha
  · exact (readValue_ends h ha).bind fun b hb => hb

theorem shortCode_ends (h : ReadClosed P) {k : Nat} {s : State} (hs : P s) : Ends Prod.snd P (shortCode k s) := by
  unfold shortCode
  split
  · exact hs
  refine (peekByte_ends h hs).bind fun a ha => ?_
  simp only
  split
  · exact ha
  · exact (skipBits_ends h ha).bind fun b hb => hb

/-! ## The bit writer -/

theorem emitByte_ends (h : WriteClosed P) {b : Byte} {s : State} (hs : P s) : Ends id P (emitByte b s) := by
  unfold emitByte
  split
  · exact ⟨by decide, hs⟩
  · exact h.emit _ _ hs (by omega)

theorem appendBit_ends (h : WriteClosed P) {x : Bool} {s : State} (hs : P s) : Ends id P (appendBit x s) := by
  unfold appendBit
  simp only
  split
  · exact emitByte_ends h hs
  · exact h.bit _ _ hs (by assumption)

theorem appendBits_ends (h : WriteClosed P) : ∀ (l : List Bool) {s : State}, P s → Ends id P (appendBits l s)
  | [], _, hs => hs
  | _ :: l, _, hs => (appendBit_ends h hs).bind fun _ ha => appendBits_ends h l ha

theorem appendGroup_ends (h : WriteClosed P) {v n : Nat} {s : State} (hs : P s) : Ends id P (appendGroup v n s) := by
  unfold appendGroup
  split
  · exact trivial
  split
  · exact trivial
  · exact (appendBits_ends h _ hs).bind fun a ha => h.buffer _ _ _ ha

theorem appendGroups_ends (h : WriteClosed P) :
    ∀ (l : List (Nat × Nat)) {s : State}, P s → Ends id P (appendGroups l s)
  | [], _, hs => hs
  | _ :: l, _, hs => (appendGroup_ends h hs).bind fun _ ha => appendGroups_ends h l ha

theorem encodeValue_ends (h : WriteClosed P) {k m : Nat} {g : Int} {s : State} (hs : P s) :
    Ends id P (encodeValue k m g s) := by
  unfold encodeValue
  simp only
  split
  · exact trivial
  split
  · exact appendGroups_ends h _ hs
  split
  · exact appendGroups_ends h _ hs
  · exact trivial

/-! ## The regular sample -/

theorem getK_ends (h : ArithClosed P) {q : Nat} {s : State} (hs : P s) : Ends id P (getK q s) := by
  unfold getK
  split
  · exact h.work _ _ hs
  · exact ⟨by decide, hs⟩

theorem getRunK_ends (h : ArithClosed P) {t : Nat} {s : State} (hs : P s) : Ends id P (getRunK t s) := by
  unfold getRunK
  split
  · exact h.work _ _ hs
  · exact ⟨by decide, hs⟩

theorem reduceError_ends {e : Int} {s : State} (hs : P s) : Ends (fun _ => s) P (reduceError e s) :=
  Ends.require fun _ => Ends.require fun _ => hs

theorem reconstruct_ends {px err : Int} {s : State} (hs : P s) : Ends (fun _ => s) P (reconstruct px err s) :=
  Ends.require fun _ => hs

theorem predictSample_ends (h : UnitClosed P) {s : State} (hs : P s) : Ends id P (predictSample s) := by
  unfold predictSample
  refine Ends.require fun _ => ?_
  exact (getK_ends h.toArithClosed (h.work _ _ hs)).bind fun a ha =>
    Ends.require fun _ => h.work _ _ ha

theorem rebuildSample_keeps (h : UnitClosed P) {i ch : Nat} {s : State} (hs : P s) : P (rebuildSample i ch s) :=
  h.cur _ _ _ _ (h.work _ _ (h.ctx _ _ _ hs))

theorem encodeRegular_ends (h : WriteClosed P) {i ch : Nat} {s : State} (hs : P s) :
    Ends id P (encodeRegular i ch s) := by
  unfold encodeRegular
  refine (predictSample_ends h.toUnitClosed hs).bind fun a ha => (reduceError_ends ha).bind fun _ ha => ?_
  simp only
  refine (encodeValue_ends h (h.work _ _ ha)).bind fun b hb => ?_
  exact rebuildSample_keeps h.toUnitClosed hb

theorem readError_ends (h : ReadClosed P) {s : State} (hs : P s) : Ends Prod.snd P (readError s) := by
  unfold readError
  refine (shortCode_ends h hs).bind fun a ha => ?_
  obtain ⟨e, t⟩ := a
  cases e with
  | some e => exact ha
  | none =>
    refine (decodeValue_ends h ha).bind fun b hb => ?_
    simp only
    split
    · exact ⟨by decide, h.work _ _ hb⟩
    · exact h.work _ _ hb

theorem decodeRegular_ends (h : ReadClosed P) {i ch : Nat} {s : State} (hs : P s) :
    Ends id P (decodeRegular i ch s) := by
  unfold decodeRegular
  refine (predictSample_ends h.toUnitClosed hs).bind fun a ha => ?_
  refine (readError_ends h ha).bind fun b hb => ?_
  exact rebuildSample_keeps h.toUnitClosed (h.work _ _ hb)

/-! ## Run mode -/

theorem encodeSegments_ends (h : WriteClosed P) :
    ∀ (fuel n : Nat) {s : State}, P s → Ends Prod.snd P (encodeSegments fuel n s)
  | 0, _, _, hs => hs
  | fuel + 1, n, s, hs => by
    unfold encodeSegments
    split
    · exact (appendGroup_ends h hs).bind fun a ha => encodeSegments_ends h fuel _ (h.inc _ ha)
    · exact hs

theorem encodeLength_ends (h : WriteClosed P) {n : Nat} {eol : Bool} {s : State} (hs : P s) :
    Ends id P (encodeLength n eol s) := by
  unfold encodeLength
  refine (encodeSegments_ends h _ _ hs).bind fun a ha => ?_
  simp only
  split
  · split
    · exact appendGroup_ends h ha
    · exact ha
  · exact appendGroup_ends h ha

theorem decodeSegments_ends (h : ReadClosed P) {rem : Nat} :
    ∀ (fuel n : Nat) {s : State}, P s → Ends Prod.snd P (decodeSegments rem fuel n s)
  | 0, _, _, hs => hs
  | fuel + 1, n, s, hs => by
    unfold decodeSegments
    refine (readBit_ends h hs).bind fun a ha => ?_
    simp only
    split
    · have hinc : P (if min (2 ^ jNow a.2) (rem - n) = 2 ^ jNow a.2 then incIdx a.2 else a.2) := by
        split
        · exact h.inc _ ha
        · exact ha
      split
      · exact hinc
      · exact decodeSegments_ends h fuel _ hinc
    · exact ha

theorem readRemainder_ends (h : ReadClosed P) {rem idx : Nat} {s : State} (hs : P s) :
    Ends Prod.snd P (readRemainder rem idx s) := by
  unfold readRemainder
  split
  · exact readValue_ends h hs
  · exact hs

theorem decodeLength_ends (h : ReadClosed P) {rem : Nat} {s : State} (hs : P s) :
    Ends id P (decodeLength rem s) := by
  unfold decodeLength
  refine (decodeSegments_ends h _ _ hs).bind fun a ha => ?_
  refine (readRemainder_ends h ha).bind fun b hb => ?_
  simp only
  split
  · exact ⟨by decide, hb⟩
  · exact h.work _ _ hb

theorem encodeRiError_ends (h : WriteClosed P) {t : Nat} {err : Int} {s : State} (hs : P s) :
    Ends id P (encodeRiError t err s) := by
  unfold encodeRiError
  refine (getRunK_ends h.toArithClosed hs).bind fun a ha => ?_
  simp only
  refine Ends.require fun _ => ?_
  exact (encodeValue_ends h ha).bind fun b hb => h.rctx _ _ _ _ hb

theorem decodeRiError_ends (h : ReadClosed P) {t : Nat} {s : State} (hs : P s) :
    Ends id P (decodeRiError t s) := by
  unfold decodeRiError
  refine (getRunK_ends h.toArithClosed hs).bind fun a ha => ?_
  refine (decodeValue_ends h ha).bind fun b hb => ?_
  simp only
  split
  · exact ⟨by decide, hb⟩
  · exact h.work _ _ (h.rctx _ _ _ _ hb)

theorem encodeRi_ends (h : WriteClosed P) {x ra rb : Int} {s : State} (hs : P s) :
    Ends id P (encodeRi x ra rb s) := by
  unfold encodeRi
  split
  all_goals
    exact (reduceError_ends hs).bind fun _ hs => (encodeRiError_ends h (h.work _ _ hs)).bind fun _ ha =>
      (reconstruct_ends ha).bind fun _ hb => h.work _ _ hb

theorem decodeRi_ends (h : ReadClosed P) {ra rb : Int} {s : State} (hs : P s) :
    Ends id P (decodeRi ra rb s) := by
  unfold decodeRi
  split
  all_goals exact (decodeRiError_ends h hs).bind fun _ ha => (reconstruct_ends ha).bind fun _ hb => h.work _ _ hb

theorem encodeRiChannel_ends (h : WriteClosed P) {j ch : Nat} {ra : Int} {s : State} (hs : P s) :
    Ends id P (encodeRiChannel j s ch ra) := by
  unfold encodeRiChannel
  exact (reduceError_ends hs).bind fun _ hs => (encodeRiError_ends h (h.work _ _ hs)).bind fun _ ha =>
    (reconstruct_ends ha).bind fun _ hb => h.cur _ _ _ _ (h.work _ _ hb)

theorem decodeRiChannel_ends (h : ReadClosed P) {j ch : Nat} {ra : Int} {s : State} (hs : P s) :
    Ends id P (decodeRiChannel j s ch ra) := by
  unfold decodeRiChannel
  exact (decodeRiError_ends h (h.work _ _ hs)).bind fun _ ha =>
    (reconstruct_ends ha).bind fun _ hb => h.cur _ _ _ _ (h.work _ _ hb)

theorem encodeInterruption_ends (h : WriteClosed P) {nch j : Nat} {ras : List Int} {s : State} (hs : P s) :
    Ends id P (encodeInterruption nch j ras s) := by
  unfold encodeInterruption
  split
  · exact (encodeRiChannel_ends h hs).bind fun a ha => (encodeRiChannel_ends h ha).bind fun b hb =>
      encodeRiChannel_ends h hb
  · exact (encodeRi_ends h (h.work _ _ hs)).bind fun a ha => h.cur _ _ _ _ ha

theorem decodeInterruption_ends (h : ReadClosed P) {nch j : Nat} {ras : List Int} {s : State} (hs : P s) :
    Ends id P (decodeInterruption nch j ras s) := by
  unfold decodeInterruption
  split
  · exact (decodeRiChannel_ends h hs).bind fun a ha => (decodeRiChannel_ends h ha).bind fun b hb =>
      decodeRiChannel_ends h hb
  · exact (decodeRi_ends h (h.work _ _ hs)).bind fun a ha => h.cur _ _ _ _ ha

theorem foldl_keeps {γ : Type} {f : State → γ → State} (hf : ∀ s a, P s → P (f s a)) :
    ∀ (l : List γ) {s : State}, P s → P (l.foldl f s)
  | [], _, hs => hs
  | a :: l, s, hs => foldl_keeps hf l (hf s a hs)

theorem writeElement_keeps (h : UnitClosed P) {vs : List Int} {j : Nat} {s : State} (hs : P s) :
    P (writeElement vs j s) := foldl_keeps (fun _ _ ha => h.cur _ _ _ _ ha) _ hs

theorem scanRun_keeps (h : UnitClosed P) {nch i : Nat} {ras : List Int} :
    ∀ (left n : Nat) {s : State}, P s → P (scanRun nch ras i left n s).2
  | 0, _, _, hs => hs
  | left + 1, n, s, hs => by
    unfold scanRun
    split
    · exact scanRun_keeps h left _ (writeElement_keeps h hs)
    · exact hs

theorem fillRun_keeps (h : UnitClosed P) {ras : List Int} :
    ∀ (n j : Nat) {s : State}, P s → P (fillRun ras n j s)
  | 0, _, _, hs => hs
  | n + 1, _, _, hs => fillRun_keeps h n _ (writeElement_keeps h hs)

theorem encodeRun_ends (h : WriteClosed P) {nch i : Nat} {s : State} (hs : P s) :
    Ends Prod.snd P (encodeRun nch i s) := by
  unfold encodeRun
  simp only
  refine (encodeLength_ends h (h.work _ _ (scanRun_keeps h.toUnitClosed _ _ hs))).bind fun a ha => ?_
  split
  · exact ha
  · exact (encodeInterruption_ends h ha).bind fun b hb => h.dec _ hb

theorem decodeRun_ends (h : ReadClosed P) {nch i : Nat} {s : State} (hs : P s) :
    Ends Prod.snd P (decodeRun nch i s) := by
  unfold decodeRun
  simp only
  refine (decodeLength_ends h (h.work _ _ hs)).bind fun a ha => ?_
  have hf := fillRun_keeps h.toUnitClosed (ras := elementAt nch s ((i : Int) - 1)) a.w.runlen i ha
  split
  · exact hf
  · exact (decodeInterruption_ends h hf).bind fun b hb => h.dec _ hb

/-! ## The scan -/

/-- What the operations of a scan in the direction `d` keep. -/
structure DirClosed (d : Bool) (P : State → Prop) : Prop where
  dir : ∀ s, P s → s.dir = d
  read : d = true → ReadClosed P
  write : d = false → WriteClosed P
  scan : ScanClosed P
  deliver : d = true → ∀ s l r, P s → P { s with lineDst := l, lineRoom := r }

theorem DirClosed.unit {d : Bool} (h : DirClosed d P) : UnitClosed P := by
  cases d with
  | false => exact (h.write rfl).toUnitClosed
  | true => exact (h.read rfl).toUnitClosed

variable {d : Bool}

theorem codeRegular_ends (h : DirClosed d P) {i ch : Nat} {s : State} (hs : P s) :
    Ends id P (codeRegular i ch s) := by
  unfold codeRegular
  rw [h.dir s hs]
  cases d with
  | false => exact encodeRegular_ends (h.write rfl) hs
  | true => exact decodeRegular_ends (h.read rfl) hs

theorem codeRun_ends (h : DirClosed d P) {nch i : Nat} {s : State} (hs : P s) :
    Ends Prod.snd P (codeRun nch i s) := by
  unfold codeRun
  rw [h.dir s hs]
  cases d with
  | false => exact encodeRun_ends (h.write rfl) hs
  | true => exact decodeRun_ends (h.read rfl) hs

theorem channelContext_keeps (h : UnitClosed P) {i ch : Nat} {s : State} (hs : P s) : P (channelContext i s ch) :=
  h.work _ _ (h.work _ _ hs)

theorem guardLine_keeps (h : UnitClosed P) (hp : ScanClosed P) {s : State} (hs : P s) : P (guardLine s) :=
  foldl_keeps (fun _ _ ha => h.cur _ _ _ _ (hp.prev _ _ _ _ ha)) _ hs

theorem sampleTurn_ends (h : DirClosed d P) {s : State} (hs : P s) : Ends id P (sampleTurn s) := by
  unfold sampleTurn
  simp only
  split
  · exact (codeRun_ends h (h.scan.seq _ _ (channelContext_keeps h.unit hs))).bind fun a ha => h.scan.seq _ _ ha
  · exact (codeRegular_ends h (h.scan.seq _ _ (channelContext_keeps h.unit hs))).bind fun a ha => h.scan.seq _ _ ha

theorem lineStep_ends (h : DirClosed d P) {s : State} (hs : P s) : Ends id P (lineStep s) :=
  Ends.require fun _ => sampleTurn_ends h hs

theorem tripletTurn_ends (h : DirClosed d P) {s : State} (hs : P s) : Ends id P (tripletTurn s) := by
  unfold tripletTurn
  simp only
  split
  · refine (codeRun_ends h (h.scan.seq _ _ ?_)).bind fun a ha => h.scan.seq _ _ ha
    exact channelContext_keeps h.unit (channelContext_keeps h.unit (channelContext_keeps h.unit hs))
  · exact (codeRegular_ends h (channelContext_keeps h.unit (h.scan.seq _ _ hs))).bind fun a ha =>
      (codeRegular_ends h (channelContext_keeps h.unit ha)).bind fun b hb =>
        (codeRegular_ends h (channelContext_keeps h.unit hb)).bind fun c hc => h.scan.seq _ _ hc

theorem lineStep3_ends (h : DirClosed d P) {s : State} (hs : P s) : Ends id P (lineStep3 s) :=
  Ends.require fun _ => tripletTurn_ends h hs

theorem lineLoop_ends {turn : State → Res State} (ht : ∀ s, P s → Ends id P (turn s)) :
    ∀ (fuel : Nat) {s : State}, P s → Ends id P (lineLoop turn fuel s)
  | 0, _, hs => hs
  | fuel + 1, s, hs => by
    unfold lineLoop
    split
    · exact (ht s hs).bind fun a ha => lineLoop_ends ht fuel ha
    · exact hs

theorem codeLine_ends (h : DirClosed d P) {s : State} (hs : P s) : Ends id P (codeLine s) :=
  lineLoop_ends (fun _ ha => lineStep_ends h ha) _ (h.scan.seq _ _ hs)

theorem codeLine3_ends (h : DirClosed d P) {s : State} (hs : P s) : Ends id P (codeLine3 s) :=
  lineLoop_ends (fun _ ha => lineStep3_ends h ha) _ (h.scan.seq _ _ hs)

theorem writeLine_keeps (h : UnitClosed P) :
    ∀ (l : List (List Int)) (j : Nat) {s : State}, P s → P (writeLine l j s)
  | [], _, _, hs => hs
  | _ :: l, _, _, hs => writeLine_keeps h l _ (writeElement_keeps h hs)

theorem loadLine_ends (h : UnitClosed P) {c y : Nat} {s : State} (hs : P s) : Ends id P (loadLine c y s) := by
  unfold loadLine
  split
  · exact ⟨by decide, hs⟩
  split
  · exact ⟨by decide, hs⟩
  split
  · exact writeLine_keeps h _ _ hs
  · exact trivial

theorem deliverLine_ends (h : ∀ s l r, P s → P { s with lineDst := l, lineRoom := r }) {c y : Nat} {s : State} (hs : P s) : Ends id P (deliverLine c y s) := by
  unfold deliverLine
  split
  · split
    · exact ⟨by decide, hs⟩
    · exact h _ _ _ hs
  · exact hs

theorem takeLine_ends (h : UnitClosed P) {c y : Nat} {s : State} (hs : P s) : Ends id P (takeLine c y s) := by
  unfold takeLine
  split
  · exact hs
  · exact loadLine_ends h hs

theorem handLine_ends (h : DirClosed d P) {c y : Nat} {s : State} (hs : P s) : Ends id P (handLine c y s) := by
  unfold handLine
  rw [h.dir s hs]
  cases d with
  | false => exact hs
  | true => exact deliverLine_ends (h.deliver rfl) hs

theorem codeElements_ends (h : DirClosed d P) {s : State} (hs : P s) : Ends id P (codeElements s) := by
  unfold codeElements
  split
  · exact codeLine3_ends h hs
  · exact codeLine_ends h hs

theorem beginLine_ends (h : DirClosed d P) {y c : Nat} {s : State} (hs : P s) : Ends id P (beginLine y c s) :=
  (takeLine_ends h.unit (h.scan.seq _ _ hs)).bind fun _ ha => guardLine_keeps h.unit h.scan (h.scan.load _ _ ha)

theorem codeSlotLine_ends (h : DirClosed d P) {y c : Nat} {s : State} (hs : P s) :
    Ends id P (codeSlotLine y c s) :=
  (beginLine_ends h hs).bind fun _ ha => (codeElements_ends h ha).bind fun _ hb =>
    handLine_ends h (h.scan.store _ _ hb)

theorem codeSlots_ends (h : DirClosed d P) {y : Nat} :
    ∀ (n c : Nat) {s : State}, P s → Ends id P (codeSlots y n c s)
  | 0, _, _, hs => hs
  | n + 1, _, _, hs => (codeSlotLine_ends h hs).bind fun _ ha => codeSlots_ends h n _ ha

theorem codeLines_ends (h : DirClosed d P) : ∀ (n y : Nat) {s : State}, P s → Ends id P (codeLines n y s)
  | 0, _, _, hs => hs
  | n + 1, _, _, hs => (codeSlots_ends h _ _ hs).bind fun _ ha => codeLines_ends h n _ ha

theorem codeScan_ends (h : DirClosed d P) {s : State} (hs : P s) : Ends id P (codeScan s) := codeLines_ends h _ _ hs

/-! ## The ends -/

theorem endRead_ends {s : State} (hs : P s) (hp : ∀ p, P { s with bytePos := p }) : Ends id P (endRead s) := by
  unfold endRead
  split
  · exact ⟨by decide, hs⟩
  split
  · exact ⟨by decide, hs⟩
  · exact hp _

theorem flushLoop_ends (h : WriteClosed P) : ∀ (n : Nat) {s : State}, P s → Ends id P (flushLoop n s)
  | 0, _, hs => hs
  | n + 1, s, hs => by
    unfold flushLoop
    split
    · exact hs
    split
    · exact ⟨by decide, hs⟩
    · exact flushLoop_ends h n (h.drained _ hs)

theorem closeStuffing_ends (h : WriteClosed P) {s : State} (hs : P s) : Ends id P (closeStuffing s) := by
  unfold closeStuffing
  split
  · exact emitByte_ends h hs
  · exact hs

theorem endWrite_ends (h : WriteClosed P) (hend : ∀ s, P s → P (closeWriter s)) {s : State} (hs : P s) :
    Ends id P (endWrite s) :=
  (appendBits_ends h _ hs).bind fun _ ha => (closeStuffing_ends h ha).bind fun _ hb => hend _ hb

end Sys2Proof.Machine
end

