-- ==== Sys2Proof/Laws/Frames.lean ====
section
/-! SUPPORT. What each class of operations leaves alone. -/

namespace Sys2Proof.Machine

variable {P : State → Prop}

/-! ## The classes, by the writes they make -/

theorem arithmetic_ends (h : ArithClosed P) {i : Instr} (hi : opClass i = .arithmetic) {s t : State} (hs : P s)
    (hx : exec i s = .next t) : Answers P t := by
  cases i <;> simp only [opClass, reduceCtorEq] at hi
  case trQerr => refine Ends.finish ?_ hx; exact Ends.require fun _ => h.result _ _ hs
  case trModr => refine Ends.finish ?_ hx; exact Ends.require fun _ => h.result _ _ hs
  case trErrval => refine Ends.finish ?_ hx; exact (reduceError_ends hs).bind fun _ hs => h.work _ _ hs
  case trCorrp => refine Ends.finish ?_ hx; exact Ends.require fun _ => h.work _ _ hs
  case trRecon => refine Ends.finish ?_ hx; exact (reconstruct_ends hs).bind fun _ hs => h.work _ _ hs
  case trIsnear => exact .inl (Host.Outcome.next.inj hx ▸ h.result _ _ hs)
  case qtDeft => exact .inl (Host.Outcome.next.inj hx ▸ h.result _ _ hs)
  case qtQuant => refine Ends.finish ?_ hx; exact Ends.require fun _ => h.result _ _ hs
  case qtCtxid => refine Ends.finish ?_ hx; exact Ends.require fun _ => h.work _ _ hs
  case rcGetk => refine Ends.finish ?_ hx; exact Ends.require fun _ => getK_ends h hs
  case rcCorr => refine Ends.finish ?_ hx; exact Ends.require fun _ => h.result _ _ hs
  case rcUpd => refine Ends.finish ?_ hx; exact Ends.require fun _ => h.ctx _ _ _ hs
  case rmGetk => refine Ends.finish ?_ hx; exact Ends.require fun _ => getRunK_ends h hs
  case rmMap => refine Ends.finish ?_ hx; exact Ends.require fun _ => h.result _ _ hs
  case rmErrval => refine Ends.finish ?_ hx; exact Ends.require fun _ => h.result _ _ hs
  case rmUpd => refine Ends.finish ?_ hx; exact Ends.require fun _ => h.rctx _ _ _ _ hs
  case gtBuild => exact .inl (Host.Outcome.next.inj hx ▸ hs)
  case spNeigh => refine Ends.finish ?_ hx; exact Ends.require fun _ => h.work _ _ hs
  case spPred => exact .inl (Host.Outcome.next.inj hx ▸ h.work _ _ hs)
  case spMape => exact .inl (Host.Outcome.next.inj hx ▸ h.work _ _ hs)
  case spUnmape => exact .inl (Host.Outcome.next.inj hx ▸ h.result _ _ hs)
  case rnIncidx => exact .inl (Host.Outcome.next.inj hx ▸ h.inc _ hs)
  case rnDecidx => exact .inl (Host.Outcome.next.inj hx ▸ h.dec _ hs)

theorem reading_ends (h : ReadClosed P) {i : Instr} (hi : opClass i = .reading) {s t : State} (hs : P s)
    (hx : exec i s = .next t) : Answers P t := by
  cases i <;> simp only [opClass, reduceCtorEq] at hi
  case brFill =>
    refine Ends.finish (Ends.require fun _ => ?_) hx
    split
    · exact h.reader _ _ _ hs (cacheFill_same (by assumption))
    · exact ⟨by decide, hs⟩
  case brRdv => refine Ends.finish ?_ hx; exact (readValue_ends h hs).bind fun _ ha => h.result _ _ ha
  case brPeek => refine Ends.finish ?_ hx; exact (peekByte_ends h hs).bind fun _ ha => h.result _ _ ha
  case brRdb => refine Ends.finish ?_ hx; exact (readBit_ends h hs).bind fun _ ha => h.result _ _ ha
  case brSkip => refine Ends.finish ?_ hx; exact skipBits_ends h hs
  case brHigh => refine Ends.finish ?_ hx; exact (readHigh_ends h hs).bind fun _ ha => h.result _ _ ha
  case brDecv =>
    refine Ends.finish ?_ hx
    exact Ends.require fun _ => (decodeValue_ends h hs).bind fun _ ha => h.work _ _ ha
  case gtLook =>
    refine Ends.finish ((shortCode_ends h hs).bind fun a ha => ?_) hx
    simp only
    split
    · exact h.result _ _ ha
    · exact h.result _ _ ha
  case spDecreg => refine Ends.finish ?_ hx; exact Ends.require fun _ => decodeRegular_ends h hs
  case rnDeclen => refine Ends.finish ?_ hx; exact Ends.require fun _ => decodeLength_ends h hs
  case rnDecrierr => refine Ends.finish ?_ hx; exact Ends.require fun _ => decodeRiError_ends h hs
  case rnDecri => refine Ends.finish ?_ hx; exact decodeRi_ends h hs
  case rnDecrun =>
    refine Ends.finish ?_ hx
    exact Ends.require fun _ => (decodeRun_ends h hs).bind fun _ ha => h.result _ _ ha

theorem writing_ends (h : WriteClosed P) {i : Instr} (hi : opClass i = .writing) {s t : State} (hs : P s)
    (hx : exec i s = .next t) : Answers P t := by
  cases i <;> simp only [opClass, reduceCtorEq] at hi
  case bwApp => refine Ends.finish ?_ hx; exact appendGroup_ends h hs
  case bwFlush => refine Ends.finish ?_ hx; exact flushLoop_ends h _ hs
  case bwEncv => refine Ends.finish ?_ hx; exact Ends.require fun _ => encodeValue_ends h hs
  case spEncreg => refine Ends.finish ?_ hx; exact Ends.require fun _ => encodeRegular_ends h hs
  case rnEnclen => refine Ends.finish ?_ hx; exact Ends.require fun _ => encodeLength_ends h hs
  case rnEncrierr => refine Ends.finish ?_ hx; exact Ends.require fun _ => encodeRiError_ends h hs
  case rnEncri => refine Ends.finish ?_ hx; exact encodeRi_ends h hs
  case rnEncrun =>
    refine Ends.finish ?_ hx
    exact Ends.require fun _ => (encodeRun_ends h hs).bind fun _ ha => h.result _ _ ha

/-- The writes of the set-ups keep the property, and those of the two ends of a scan. -/
structure SetupClosed (P : State → Prop) : Prop extends WriteClosed P where
  traits : ∀ s t, P s → P (setTraits s t)
  table : ∀ s q, P s → P { s with qt := q }
  ctxInit : ∀ s r, P s → P { s with ctx := initCtx r }
  rctxInit : ∀ s r, P s → P { s with rctx := initRctx r }
  place : ∀ s r, P s → P (setReader s r)
  open' : ∀ s p cap, P s → P (setWriter s (initWriter p cap))
  position : ∀ s p, P s → P { s with bytePos := p }
  close : ∀ s, P s → P (closeWriter s)

theorem setup_ends (h : SetupClosed P) {i : Instr} (hi : opClass i = .setup) {s t : State} (hs : P s)
    (hx : exec i s = .next t) : Answers P t := by
  cases i <;> simp only [opClass, reduceCtorEq] at hi
  case trInit => refine Ends.finish ?_ hx; exact Ends.require fun _ => h.traits _ _ hs
  case qtBuild => exact .inl (Host.Outcome.next.inj hx ▸ h.table _ _ hs)
  case rcInit => exact .inl (Host.Outcome.next.inj hx ▸ h.ctxInit _ _ hs)
  case rmInit => exact .inl (Host.Outcome.next.inj hx ▸ h.rctxInit _ _ hs)
  case brInit => refine Ends.finish ?_ hx; exact Ends.require fun _ => h.place _ _ hs
  case brEnd => refine Ends.finish ?_ hx; exact endRead_ends hs fun _ => h.position _ _ hs
  case bwInit => refine Ends.finish ?_ hx; exact Ends.require fun _ => h.open' _ _ _ hs
  case bwEnd => refine Ends.finish ?_ hx; exact endWrite_ends h.toWriteClosed h.close hs

theorem scanning_ends {d : Bool} (h : DirClosed d P) {i : Instr} (hi : opClass i = .scanning) {s t : State} (hs : P s)
    (hx : exec i s = .next t) : Answers P t := by
  cases i <;> simp only [opClass, reduceCtorEq] at hi
  case scGuard => exact .inl (Host.Outcome.next.inj hx ▸ guardLine_keeps h.unit h.scan hs)
  case scLine => refine Ends.finish ?_ hx; exact codeLine_ends h hs
  case scLine3 => refine Ends.finish ?_ hx; exact codeLine3_ends h hs
  case scScan => refine Ends.finish ?_ hx; exact codeScan_ends h hs

theorem codeword_ends {d : Bool} (h : DirClosed d P) {i : Instr} (hi : opClass i = .codeword) {s t : State} (hs : P s)
    (hx : exec i s = .next t) : Answers P t := by
  have hd := h.dir s hs
  have hv : ∀ j g, Ends id P (valueCodeword j g s) := by
    intro j g
    unfold valueCodeword
    rw [hd]
    cases d with
    | false => exact Ends.require fun _ => appendGroups_ends (h.write rfl) _ hs
    | true =>
      exact (decodeValue_ends (h.read rfl) hs).bind fun a ha => Ends.require fun _ => h.unit.work _ _ ha
  cases i <;> simp only [opClass, reduceCtorEq] at hi
  case cwGolomb => refine Ends.finish ?_ hx; exact hv _ _
  case cwEscape => refine Ends.finish ?_ hx; exact hv _ _
  case cwRunseg =>
    refine Ends.finish (x := runSegment s) ?_ hx
    unfold runSegment
    rw [hd]
    cases d with
    | false => exact (appendGroup_ends (h.write rfl) hs).bind fun a ha => h.unit.inc _ ha
    | true =>
      exact (readBit_ends (h.read rfl) hs).bind fun a ha => Ends.require fun _ => h.unit.inc _ (h.unit.work _ _ ha)
  case cwRunrem n =>
    refine Ends.finish (x := runRemainder n s) ?_ hx
    unfold runRemainder
    refine Ends.require fun _ => ?_
    rw [hd]
    cases d with
    | false => exact appendGroup_ends (h.write rfl) hs
    | true =>
      refine Ends.require fun _ => (readBit_ends (h.read rfl) hs).bind fun a ha => Ends.require fun _ =>
        (readValue_ends (h.read rfl) ha).bind fun b hb => Ends.require fun _ => ?_
      split
      · exact ⟨by decide, hb⟩
      · exact h.unit.work _ _ hb
  case cwRuneol =>
    refine Ends.finish (x := runEndOfLine s) ?_ hx
    unfold runEndOfLine
    rw [hd]
    cases d with
    | false => rw [if_neg (by decide)]; exact appendGroup_ends (h.write rfl) hs
    | true =>
      exact (readBit_ends (h.read rfl) hs).bind fun a ha => Ends.require fun _ => h.unit.work _ _ ha
  case cwPad n =>
    refine Ends.finish (x := padCodeword n s) ?_ hx
    unfold padCodeword
    rw [hd]
    cases d with
    | false => exact Ends.require fun _ => appendGroup_ends (h.write rfl) hs
    | true =>
      exact Ends.require fun _ => (readValue_ends (h.read rfl) hs).bind fun a ha => Ends.require fun _ => ha
  case cwStuff =>
    refine Ends.finish (x := stuffCodeword s) ?_ hx
    exact Ends.require fun _ => hs

/-- A property with the direction beside it, for the operations that look at the direction. -/
theorem DirClosed.of_closed {d : Bool} (hr : ReadClosed P) (hw : WriteClosed P) (hp : ScanClosed P)
    (hd : d = true → ∀ s l r, P s → P { s with lineDst := l, lineRoom := r }) : DirClosed d fun s => P s ∧ s.dir = d where
  dir _ h := h.2
  read _ := { work := fun _ _ h => ⟨hr.work _ _ h.1, h.2⟩, result := fun _ _ h => ⟨hr.result _ _ h.1, h.2⟩,
              ctx := fun _ _ _ h => ⟨hr.ctx _ _ _ h.1, h.2⟩, rctx := fun _ _ _ _ h => ⟨hr.rctx _ _ _ _ h.1, h.2⟩,
              inc := fun _ h => ⟨hr.inc _ h.1, h.2⟩, dec := fun _ h => ⟨hr.dec _ h.1, h.2⟩,
              cur := fun _ _ _ _ h => ⟨hr.cur _ _ _ _ h.1, h.2⟩, reader := fun _ _ _ h hc => ⟨hr.reader _ _ _ h.1 hc, h.2⟩ }
  write _ := { work := fun _ _ h => ⟨hr.work _ _ h.1, h.2⟩, result := fun _ _ h => ⟨hr.result _ _ h.1, h.2⟩,
               ctx := fun _ _ _ h => ⟨hr.ctx _ _ _ h.1, h.2⟩, rctx := fun _ _ _ _ h => ⟨hr.rctx _ _ _ _ h.1, h.2⟩,
               inc := fun _ h => ⟨hr.inc _ h.1, h.2⟩, dec := fun _ h => ⟨hr.dec _ h.1, h.2⟩,
               cur := fun _ _ _ _ h => ⟨hr.cur _ _ _ _ h.1, h.2⟩, bit := fun _ _ h hl => ⟨hw.bit _ _ h.1 hl, h.2⟩,
               emit := fun _ _ h hl => ⟨hw.emit _ _ h.1 hl, h.2⟩, buffer := fun _ _ _ h => ⟨hw.buffer _ _ _ h.1, h.2⟩,
               drained := fun _ h => ⟨hw.drained _ h.1, h.2⟩ }
  scan := { prev := fun _ _ _ _ h => ⟨hp.prev _ _ _ _ h.1, h.2⟩, seq := fun _ _ h => ⟨hp.seq _ _ h.1, h.2⟩,
            load := fun _ _ h => ⟨hp.load _ _ h.1, h.2⟩, store := fun _ _ h => ⟨hp.store _ _ h.1, h.2⟩ }
  deliver h _ _ _ hs := ⟨hd h _ _ _ hs.1, hs.2⟩

end Sys2Proof.Machine
end

