-- ==== Sys2Proof/Laws/Traits.lean ====
section
/-! SUPPORT. The arithmetic of the traits: `clog2`, the bounds of R130, range reduction, reconstruction. -/

namespace Sys2Proof.Machine

/-! ## `clog2` (R121) -/

theorem clog2From_spec (n fuel x : Nat) (h : n ≤ 2 ^ (x + fuel)) :
    n ≤ 2 ^ clog2From n fuel x ∧ ∀ y, x ≤ y → n ≤ 2 ^ y → clog2From n fuel x ≤ y := by
  induction fuel generalizing x with
  | zero => exact ⟨h, fun y hy _ => hy⟩
  | succ fuel ih =>
    rw [clog2From]
    split
    · exact ⟨by assumption, fun y hy _ => hy⟩
    · obtain ⟨h1, h2⟩ := ih (x + 1) (by rwa [Nat.add_right_comm, Nat.add_assoc])
      refine ⟨h1, fun y hy hn => h2 y ?_ hn⟩
      rcases Nat.lt_or_ge x y with hlt | hge
      · exact hlt
      · obtain rfl : x = y := le_antisymm hy hge
        contradiction

/-- `2^clog2(n) >= n`. -/
theorem le_two_pow_clog2 (n : Nat) : n ≤ 2 ^ clog2 n := (clog2From_spec n n 0 (by
  rw [Nat.zero_add]; exact Nat.lt_two_pow_self.le)).1

/-- `clog2(n)` is the least such. -/
theorem clog2_le {n x : Nat} (h : n ≤ 2 ^ x) : clog2 n ≤ x := (clog2From_spec n n 0 (by
  rw [Nat.zero_add]; exact Nat.lt_two_pow_self.le)).2 x (Nat.zero_le x) h

theorem le_clog2 {n x : Nat} (h : 2 ^ x < n) : x + 1 ≤ clog2 n := by
  by_contra hc
  have := Nat.pow_le_pow_right (n := 2) (by decide) (show clog2 n ≤ x by omega)
  have := le_two_pow_clog2 n
  omega

/-! ## `range` (R120) -/

theorem rangeOf_spec (maxVal near : Nat) :
    (rangeOf maxVal near - 1) * (2 * near + 1) ≤ maxVal + 2 * near ∧
      maxVal + 2 * near < rangeOf maxVal near * (2 * near + 1) ∧ 1 ≤ rangeOf maxVal near := by
  refine ⟨?_, ?_, by simp [rangeOf]⟩
  · simp only [rangeOf, Nat.add_sub_cancel]; exact Nat.div_mul_le_self _ _
  · exact (Nat.lt_mul_div_succ (maxVal + 2 * near) (Nat.succ_pos (2 * near))).trans_eq (Nat.mul_comm _ _)

theorem legalTraits_iff {maxVal near reset : Nat} : legalTraits maxVal near reset = true ↔
    3 ≤ maxVal ∧ maxVal ≤ 65535 ∧ near ≤ (maxVal - 1) / 2 ∧ 3 ≤ reset ∧ reset ≤ 255 := by
  simp [legalTraits, and_assoc]

/-- The bounds of legal traits (R130). -/
structure TraitsBounds (t : Traits) : Prop where
  maxLow : 3 ≤ t.maxVal
  maxHigh : t.maxVal ≤ 65535
  near : 2 * t.near + 1 ≤ t.maxVal
  resetLow : 3 ≤ t.reset
  resetHigh : t.reset ≤ 255
  rangeLow : 2 ≤ t.range
  rangeHigh : t.range ≤ t.maxVal + 1
  rangeMul : t.maxVal + 2 * t.near < t.range * (2 * t.near + 1)
  rangeMul' : (t.range - 1) * (2 * t.near + 1) ≤ t.maxVal + 2 * t.near
  rangePow : t.range ≤ 2 ^ t.qbpp
  qbppLow : 1 ≤ t.qbpp
  qbppHigh : t.qbpp ≤ 16
  bppLow : 2 ≤ t.bpp
  bppHigh : t.bpp ≤ 16
  limitLow : 20 ≤ t.limit
  limitHigh : t.limit ≤ 64
  room : t.qbpp + 18 ≤ t.limit
  qbppBpp : t.qbpp ≤ t.bpp + 1

theorem GoodTraits.bounds {t : Traits} (h : GoodTraits t) : TraitsBounds t := by
  obtain ⟨hleg, hfour, hrange, hqbpp, hbpp, hlimit, -, -, -, -⟩ := h
  obtain ⟨h1, h2, h3, h4, h5⟩ := legalTraits_iff.1 hleg
  obtain ⟨r1, r2, r3⟩ := rangeOf_spec t.maxVal t.near
  rw [← hrange] at r1 r2 r3
  have hn : 2 * t.near + 1 ≤ t.maxVal := by omega
  have hlow : 2 ≤ t.range := by
    by_contra hc
    have : t.range = 1 := by omega
    rw [this] at r2; omega
  have hhigh : t.range ≤ t.maxVal + 1 := by
    by_contra hc
    have : (t.maxVal + 1) * (2 * t.near + 1) ≤ (t.range - 1) * (2 * t.near + 1) := Nat.mul_le_mul_right _ (by omega)
    nlinarith
  have hb := le_two_pow_clog2 t.maxVal
  rw [← hbpp] at hb
  have hbl : 2 ≤ t.bpp := by rw [hbpp]; exact le_clog2 (by omega)
  have hbh : t.bpp ≤ 16 := by rw [hbpp]; exact clog2_le (by omega)
  have hq := le_two_pow_clog2 t.range
  rw [← hqbpp] at hq
  have hql : 1 ≤ t.qbpp := by rw [hqbpp]; exact le_clog2 (by omega)
  have hqb : t.qbpp ≤ t.bpp + 1 := by
    rw [hqbpp]; refine clog2_le ?_; rw [pow_succ]; omega
  have hqh : t.qbpp ≤ 16 := by rw [hqbpp]; exact clog2_le (by omega)
  have hroom : t.qbpp ≤ t.bpp ∨ 3 ≤ t.bpp := by
    by_cases hnear : t.near = 0
    · by_cases hp : t.maxVal = 2 ^ t.bpp
      · right
        by_contra hc
        have hb2 : t.bpp = 2 := by omega
        rw [hb2] at hp
        exact hfour ⟨by omega, hnear⟩
      · left
        rw [hqbpp]; exact clog2_le (by omega)
    · left
      rw [hqbpp]; refine clog2_le (le_trans ?_ hb)
      by_contra hc
      have : t.maxVal * (2 * t.near + 1) ≤ (t.range - 1) * (2 * t.near + 1) := Nat.mul_le_mul_right _ (by omega)
      nlinarith [Nat.pos_of_ne_zero hnear]
  exact { maxLow := h1, maxHigh := h2, near := hn, resetLow := h4, resetHigh := h5, rangeLow := hlow, rangeHigh := hhigh,
          rangeMul := r2, rangeMul' := r1, rangePow := hq, qbppLow := hql, qbppHigh := hqh, bppLow := hbl,
          bppHigh := hbh, limitLow := by omega, limitHigh := by omega, room := by omega, qbppBpp := hqb }

/-! ## The error path (R122 to R124) -/

theorem isDifference_iff {t : Traits} {e : Int} : isDifference t e = true ↔ -(t.maxVal : Int) ≤ e ∧ e ≤ t.maxVal := by
  simp [isDifference]

theorem isSample_iff {t : Traits} {x : Int} : isSample t x = true ↔ 0 ≤ x ∧ x ≤ t.maxVal := by simp [isSample]

/-- A difference in range quantizes within `near`, and below `range`. -/
theorem qerr_spec {t : Traits} (hb : TraitsBounds t) {e : Int} (he : isDifference t e = true) :
    -(t.near : Int) ≤ e - qerr t.near e * (2 * t.near + 1) ∧ e - qerr t.near e * (2 * t.near + 1) ≤ t.near ∧
      -(t.range : Int) < qerr t.near e ∧ qerr t.near e < t.range := by
  obtain ⟨h1, h2⟩ := isDifference_iff.1 he
  have hD : (0 : Int) < 2 * t.near + 1 := by omega
  have hmul : (t.maxVal : Int) + 2 * t.near < t.range * (2 * t.near + 1) := by exact_mod_cast hb.rangeMul
  unfold qerr
  split
  · have hd := Int.mul_ediv_add_emod (t.near + e) (2 * t.near + 1)
    have hm1 := Int.emod_nonneg (t.near + e) (ne_of_gt hD)
    have hm2 := Int.emod_lt_of_pos (t.near + e) hD
    generalize (t.near + e) / (2 * t.near + 1) = q at *
    generalize (t.near + e) % (2 * t.near + 1) = r at *
    refine ⟨by nlinarith, by nlinarith, ?_, ?_⟩ <;> by_contra hc <;> push Not at hc <;> nlinarith
  · have hd := Int.mul_ediv_add_emod (t.near - e) (2 * t.near + 1)
    have hm1 := Int.emod_nonneg (t.near - e) (ne_of_gt hD)
    have hm2 := Int.emod_lt_of_pos (t.near - e) hD
    generalize (t.near - e) / (2 * t.near + 1) = q at *
    generalize (t.near - e) % (2 * t.near + 1) = r at *
    refine ⟨by nlinarith, by nlinarith, ?_, ?_⟩ <;> by_contra hc <;> push Not at hc <;> nlinarith

/-- Range reduction: the result set, and congruence modulo `range`. -/
theorem modr_spec {range : Nat} {q : Int} (h1 : -(range : Int) < q) (h2 : q < range) :
    -((range : Int) / 2) ≤ modr range q ∧ modr range q ≤ ((range : Int) + 1) / 2 - 1 ∧
      (modr range q = q ∨ modr range q = q + range ∨ modr range q = q - range) := by
  simp only [modr]
  split <;> split <;> omega

theorem errval_spec {t : Traits} (hb : TraitsBounds t) {e : Int} (he : isDifference t e = true) :
    -((t.range : Int) / 2) ≤ errval t e ∧ errval t e ≤ ((t.range : Int) + 1) / 2 - 1 := by
  obtain ⟨-, -, h3, h4⟩ := qerr_spec hb he
  exact ⟨(modr_spec h3 h4).1, (modr_spec h3 h4).2.1⟩

/-! ## Reconstruction (R126, R127) -/

theorem corrp_sample (t : Traits) (p : Int) : isSample t (corrp t.maxVal p) = true := by
  rw [isSample_iff]; unfold corrp; split <;> [skip; split] <;> omega

/-- A reconstructed sample is a sample, whatever the error. -/
theorem recon_sample (t : Traits) (px err : Int) : isSample t (recon t px err) = true := corrp_sample t _

/-- The clamp leaves a value no further from a sample. -/
theorem corrp_near {t : Traits} {v x : Int} (hx : isSample t x = true) {n : Int}
    (h : -n ≤ v - x ∧ v - x ≤ n) : -n ≤ corrp t.maxVal v - x ∧ corrp t.maxVal v - x ≤ n := by
  obtain ⟨h1, h2⟩ := isSample_iff.1 hx
  unfold corrp; split <;> [skip; split] <;> omega

/-- Reconstruction from the coded error, normalised by a sign, is within `near` of the sample (R130, R276, R307). -/
theorem recon_sign_near {t : Traits} (hb : TraitsBounds t) {x px σ : Int} (hσ : σ = 1 ∨ σ = -1)
    (hx : isSample t x = true) (hp : isSample t px = true) :
    -(t.near : Int) ≤ recon t px (errval t ((x - px) * σ) * σ) - x ∧
      recon t px (errval t ((x - px) * σ) * σ) - x ≤ t.near := by
  obtain ⟨x1, x2⟩ := isSample_iff.1 hx
  obtain ⟨p1, p2⟩ := isSample_iff.1 hp
  have he : isDifference t ((x - px) * σ) = true := by
    rw [isDifference_iff]; rcases hσ with rfl | rfl <;> constructor <;> omega
  obtain ⟨q1, q2, q3, q4⟩ := qerr_spec hb he
  obtain ⟨-, -, hm⟩ := modr_spec q3 q4
  have hmul : (t.maxVal : Int) + 2 * t.near < t.range * (2 * t.near + 1) := by exact_mod_cast hb.rangeMul
  refine corrp_near hx ?_
  unfold errval wrapSample deq
  generalize hq : qerr t.near ((x - px) * σ) = q at *
  have key : px + q * σ * (2 * t.near + 1) - x ≤ t.near ∧ -(t.near : Int) ≤ px + q * σ * (2 * t.near + 1) - x := by
    rcases hσ with rfl | rfl <;> constructor <;> linarith
  have e1 : px + (q + t.range) * σ * (2 * t.near + 1) =
      px + q * σ * (2 * t.near + 1) + σ * (t.range * (2 * t.near + 1)) := by ring
  have e2 : px + (q - t.range) * σ * (2 * t.near + 1) =
      px + q * σ * (2 * t.near + 1) - σ * (t.range * (2 * t.near + 1)) := by ring
  generalize hD : (t.range : Int) * (2 * t.near + 1) = D at *
  rcases hm with hm | hm | hm <;> rw [hm]
  · generalize px + q * σ * (2 * t.near + 1) = v at *
    rw [if_neg (by omega), if_neg (by omega)]; omega
  · rw [e1]
    generalize px + q * σ * (2 * t.near + 1) = v at *
    rcases hσ with rfl | rfl
    · rw [if_neg (by omega), if_pos (by omega)]; omega
    · rw [if_pos (by omega)]; omega
  · rw [e2]
    generalize px + q * σ * (2 * t.near + 1) = v at *
    rcases hσ with rfl | rfl
    · rw [if_pos (by omega)]; omega
    · rw [if_neg (by omega), if_pos (by omega)]; omega

/-- Reconstruction from the coded error is within `near` of the sample (R130). -/
theorem recon_errval_near {t : Traits} (hb : TraitsBounds t) {x px : Int} (hx : isSample t x = true)
    (hp : isSample t px = true) :
    -(t.near : Int) ≤ recon t px (errval t (x - px)) - x ∧ recon t px (errval t (x - px)) - x ≤ t.near := by
  have h := recon_sign_near hb (σ := 1) (.inl rfl) hx hp
  rwa [mul_one, mul_one] at h

/-- `TR.ERRVAL` of a difference that is not near is not 0 (R305). -/
theorem errval_ne_zero {t : Traits} (hb : TraitsBounds t) {e : Int} (he : isDifference t e = true)
    (hn : t.near < e.natAbs) : errval t e ≠ 0 := by
  obtain ⟨q1, q2, q3, q4⟩ := qerr_spec hb he
  obtain ⟨-, -, hm⟩ := modr_spec q3 q4
  have hq : qerr t.near e ≠ 0 := by intro h0; rw [h0] at q1 q2; omega
  unfold errval
  omega

/-- The magnitude of a coded error (R130). -/
theorem errval_abs {t : Traits} (hb : TraitsBounds t) {e : Int} (he : isDifference t e = true) :
    2 * (errval t e).natAbs ≤ t.range ∧ (errval t e).natAbs ≤ 32768 := by
  obtain ⟨h1, h2⟩ := errval_spec hb he
  have := hb.rangeHigh
  have := hb.maxHigh
  omega

/-! ## The parts with their operand ranges (R10, R103) -/

theorem isReducible_iff {t : Traits} {q : Int} : isReducible t q = true ↔ -(t.range : Int) < q ∧ q < t.range := by
  simp [isReducible]

theorem isPrediction_iff {t : Traits} {p : Int} : isPrediction t p = true ↔ -128 ≤ p ∧ p ≤ t.maxVal + 127 := by
  simp [isPrediction]

@[simp] theorem reduceError_setWork (e : Int) (s : State) (w : Work) : reduceError e (setWork s w) = reduceError e s := rfl

@[simp] theorem reconstruct_setWork (px err : Int) (s : State) (w : Work) :
    reconstruct px err (setWork s w) = reconstruct px err s := rfl

/-- All `TR.ERRVAL` can answer: the reduced error, or a refusal where an operand of its parts is out of range (R124). -/
theorem reduceError_eq (e : Int) (s : State) : reduceError e s =
    if isDifference s.tr e = true ∧ isReducible s.tr (qerr s.tr.near e) = true then .ok (errval s.tr e)
    else refuse .operandRange := by
  unfold reduceError
  cases isDifference s.tr e <;> cases isReducible s.tr (qerr s.tr.near e) <;> rfl

/-- With good traits a difference in range quantizes within range (R122). -/
theorem reduceError_ok {s : State} (hb : TraitsBounds s.tr) {e : Int} (he : isDifference s.tr e = true) :
    reduceError e s = .ok (errval s.tr e) := by
  rw [reduceError_eq, if_pos ⟨he, isReducible_iff.2 (qerr_spec hb he).2.2⟩]

/-- All `TR.RECON` can answer (R127). -/
theorem reconstruct_eq (px err : Int) (s : State) : reconstruct px err s =
    if isSample s.tr px = true then .ok (recon s.tr px err) else refuse .operandRange := by
  unfold reconstruct
  cases isSample s.tr px <;> rfl

theorem reconstruct_ok {s : State} {px err : Int} (h : isSample s.tr px = true) :
    reconstruct px err s = .ok (recon s.tr px err) := by rw [reconstruct_eq, if_pos h]

/-! ## The error mapping (R274, R275) -/

theorem unmap_map (e : Int) : unmapError (mapError e) = e := by
  unfold mapError unmapError
  split <;> split <;> omega

theorem map_unmap (m : Nat) : mapError (unmapError m) = m := by
  unfold mapError unmapError
  split <;> split <;> omega

theorem xorMask_xorMask {s v : Int} : xorMask s (xorMask s v) = v := by
  unfold xorMask; split <;> omega

theorem asgn_asgn (v s : Int) : asgn (asgn v s) s = v := by
  unfold asgn; split <;> omega

/-- The mapped value of a coded error, with or without the correction mask, is at most `range` (R276). -/
theorem mapError_le {t : Traits} (hb : TraitsBounds t) {e mask : Int} (he : isDifference t e = true) :
    mapError (xorMask mask (errval t e)) ≤ t.range := by
  obtain ⟨h1, h2⟩ := errval_spec hb he
  unfold mapError xorMask
  split <;> split <;> omega

end Sys2Proof.Machine
end

