-- ==== Sys2Proof/Laws/Contexts.lean ====
section
/-! SUPPORT. The two context files: the updates keep the bounds of R164 and R185, the Golomb parameter exists within them,
and run-interruption errors map both ways (R183). -/

namespace Sys2Proof.Machine

/-! ## The doubling search (R161, R181) -/

theorem kSearch_some {n target fuel k j : Nat} (h : kSearch n target fuel k = some j) :
    k ≤ j ∧ j < k + fuel ∧ target ≤ n * 2 ^ j ∧ ∀ i, k ≤ i → i < j → n * 2 ^ i < target := by
  induction fuel generalizing k with
  | zero => simp [kSearch] at h
  | succ fuel ih =>
    rw [kSearch] at h
    split at h
    · cases h
      exact ⟨le_rfl, by omega, by assumption, fun i h1 h2 => absurd h2 (by omega)⟩
    · rename_i hk
      obtain ⟨h1, h2, h3, h4⟩ := ih h
      refine ⟨by omega, by omega, h3, fun i hi hj => ?_⟩
      rcases Nat.lt_or_ge k i with hlt | hge
      · exact h4 i hlt hj
      · obtain rfl : i = k := by omega
        omega

theorem kSearch_exists {n target fuel k j : Nat} (hk : k ≤ j) (hj : j < k + fuel) (h : target ≤ n * 2 ^ j) :
    ∃ i, kSearch n target fuel k = some i ∧ i ≤ j := by
  induction fuel generalizing k with
  | zero => omega
  | succ fuel ih =>
    rw [kSearch]
    split
    · exact ⟨k, rfl, hk⟩
    · rcases Nat.lt_or_ge k j with hlt | hge
      · exact ih hlt (by omega)
      · obtain rfl : j = k := by omega
        contradiction

/-- The Golomb parameter is the least `k` with `n << k >= target` (R161). -/
theorem golombK_spec {n target k : Nat} (h : golombK n target = some k) :
    k < 32 ∧ target ≤ n * 2 ^ k ∧ ∀ i < k, n * 2 ^ i < target := by
  obtain ⟨-, h2, h3, h4⟩ := kSearch_some h
  exact ⟨by omega, h3, fun i hi => h4 i (Nat.zero_le i) hi⟩

theorem golombK_exists {n target j : Nat} (hj : j < 32) (h : target ≤ n * 2 ^ j) :
    ∃ k, golombK n target = some k ∧ k ≤ j := kSearch_exists (Nat.zero_le j) (by omega) h

/-! ## The bounds (R164, R185) -/

theorem initialA_le {t : Traits} (hb : TraitsBounds t) : initialA t.range ≤ 1024 := by
  have := hb.rangeHigh
  have := hb.maxHigh
  unfold initialA; omega

theorem GoodCtx.init {t : Traits} (hb : TraitsBounds t) : GoodCtx t { a := initialA t.range, b := 0, c := 0, n := 1 } := by
  have := hb.resetLow
  constructor <;> (simp; try omega)

theorem GoodRun.init {t : Traits} (hb : TraitsBounds t) : GoodRun t { a := initialA t.range, n := 1, nn := 0 } := by
  have := hb.resetLow
  constructor <;> (simp; try omega)

/-- The accumulator of a regular context stays below `2^24` (R164). -/
theorem GoodCtx.a_lt {t : Traits} (hb : TraitsBounds t) {r : RegCtx} (h : GoodCtx t r) : r.a < 2 ^ 24 := by
  have := h.aMax; have := initialA_le hb; have := h.nMax; have := hb.resetHigh
  omega

/-- The Golomb parameter of a good context exists, and is at most 24 (R164). -/
theorem GoodCtx.golombK {t : Traits} (hb : TraitsBounds t) {r : RegCtx} (h : GoodCtx t r) :
    ∃ k, golombK r.n r.a = some k ∧ k ≤ 24 := by
  have := h.a_lt hb; have := h.nPos
  exact golombK_exists (by decide) (by nlinarith)

/-- The Golomb parameter of a good run context exists, and is at most 25 (R185). -/
theorem GoodRun.golombK {t : Traits} (hb : TraitsBounds t) {r : RunCtx} (h : GoodRun t r) {i : Nat} (hi : i ≤ 1) :
    ∃ k, Machine.golombK r.n (runTemp i r) = some k ∧ k ≤ 25 := by
  have h1 := h.aMax; have h2 := initialA_le hb; have h3 := h.nMax; have h4 := hb.resetHigh; have h5 := h.nPos
  have h6 : r.n / 2 * i ≤ r.n / 2 := by interval_cases i <;> omega
  refine golombK_exists (by decide) ?_
  unfold runTemp
  generalize r.n / 2 * i = x at *
  omega

/-- What the rebias leaves, from any bias (R163, R164). -/
theorem rebias_bounds {r : RegCtx} (hn : 1 ≤ r.n) (hc : -128 ≤ r.c ∧ r.c ≤ 127) :
    (rebias r).n = r.n ∧ (rebias r).a = r.a ∧ -((rebias r).n : Int) < (rebias r).b ∧ (rebias r).b ≤ 0 ∧
      -128 ≤ (rebias r).c ∧ (rebias r).c ≤ 127 := by
  unfold rebias
  split
  · refine ⟨rfl, rfl, ?_, ?_, ?_, ?_⟩ <;> simp only <;> omega
  · split
    · refine ⟨rfl, rfl, ?_, ?_, ?_, ?_⟩ <;> simp only <;> omega
    · refine ⟨rfl, rfl, ?_, ?_, ?_, ?_⟩ <;> omega

theorem accumulate_c (near reset : Nat) (r : RegCtx) (err : Int) : (accumulate near reset r err).c = r.c := by
  unfold accumulate; split <;> rfl

theorem accumulate_n_pos (near reset : Nat) (r : RegCtx) (err : Int) : 1 ≤ (accumulate near reset r err).n := by
  unfold accumulate; split <;> simp

/-- `RC.UPD` keeps `N >= 1`, `-N < B <= 0` and the range of `C`, whatever the parameters (R164). -/
theorem updateRegular_bounds (t : Traits) {r : RegCtx} (err : Int) (hc : -128 ≤ r.c ∧ r.c ≤ 127) :
    1 ≤ (updateRegular t r err).n ∧ -((updateRegular t r err).n : Int) < (updateRegular t r err).b ∧
      (updateRegular t r err).b ≤ 0 ∧ -128 ≤ (updateRegular t r err).c ∧ (updateRegular t r err).c ≤ 127 := by
  have hn := accumulate_n_pos t.near t.reset r err
  obtain ⟨h1, -, h⟩ := rebias_bounds (r := accumulate t.near t.reset r err) hn (by rw [accumulate_c]; exact hc)
  exact ⟨h1 ▸ hn, h⟩

/-- `RC.UPD` keeps a context good (R164). -/
theorem GoodCtx.update {t : Traits} (hb : TraitsBounds t) {r : RegCtx} (h : GoodCtx t r) {err : Int}
    (he : err.natAbs ≤ 65535) : GoodCtx t (updateRegular t r err) := by
  have hn := accumulate_n_pos t.near t.reset r err
  obtain ⟨h1, h2, h3, h4, h5, h6⟩ := rebias_bounds (r := accumulate t.near t.reset r err) hn
    (by rw [accumulate_c]; exact ⟨h.cLow, h.cHigh⟩)
  have hnm : (accumulate t.near t.reset r err).n ≤ t.reset ∧
      (accumulate t.near t.reset r err).a ≤ initialA t.range + (accumulate t.near t.reset r err).n * 65535 := by
    have := h.nMax; have := h.aMax; have := hb.resetLow
    unfold accumulate
    split
    · simp only; omega
    · simp only; omega
  exact ⟨h1 ▸ hn, h1 ▸ hnm.1, h3, h4, h5, h6, by rw [updateRegular, h2, h1]; exact hnm.2⟩

/-- `RM.UPD` keeps `Nn <= N - 1`, whatever the parameters (R185). -/
theorem updateRun_nn (t reset : Nat) {r : RunCtx} (err : Int) (em : Nat) (h : r.nn + 1 ≤ r.n) :
    (updateRun t reset r err em).nn + 1 ≤ (updateRun t reset r err em).n := by
  unfold updateRun
  simp only
  split <;> split <;> simp only <;> omega

/-- `RM.UPD` keeps a run context good (R185). -/
theorem GoodRun.update {t : Traits} (hb : TraitsBounds t) {r : RunCtx} (h : GoodRun t r) {i em : Nat} {err : Int}
    (he : (em + 1 - i) / 2 ≤ 65535) : GoodRun t (updateRun i t.reset r err em) := by
  have h1 := h.nPos; have h2 := h.nMax; have h3 := h.aMax; have h4 := hb.resetLow
  have hnn := updateRun_nn i t.reset err em h.nnMax
  generalize hx : (em + 1 - i) / 2 = x at *
  refine ⟨?_, ?_, hnn, ?_⟩ <;> unfold updateRun <;> simp only [hx] <;> split <;> simp only <;> omega

/-! ## The mapping of run-interruption errors (R182, R183, R305) -/

theorem mapBit_ne_zero {r : RunCtx} {err : Int} {k : Nat} (h : mapBit r err k = true) : err ≠ 0 := by
  simp only [mapBit, decide_eq_true_eq] at h; omega

/-- `EMErrval` is not negative where `err` is not 0 or `t` is 0 (R305). -/
theorem emErrval_nonneg {r : RunCtx} {err : Int} {k t : Nat} (ht : t = 0 ∨ (t = 1 ∧ err ≠ 0)) :
    0 ≤ emErrval t err (mapBit r err k) := by
  unfold emErrval
  cases h : mapBit r err k with
  | false => simp only [Bool.toNat_false]; omega
  | true => have := mapBit_ne_zero h; simp only [Bool.toNat_true]; omega

/-- `RM.ERRVAL` undoes the mapping of `RN.ENCRIERR` (R183). -/
theorem runErrval_emErrval {r : RunCtx} {err : Int} {k t : Nat} (ht : t = 0 ∨ (t = 1 ∧ err ≠ 0)) :
    runErrval r ((emErrval t err (mapBit r err k)).toNat + t) k = err := by
  have h0 := emErrval_nonneg (r := r) (k := k) ht
  have htemp : (emErrval t err (mapBit r err k)).toNat + t = 2 * err.natAbs - (mapBit r err k).toNat := by
    unfold emErrval at h0 ⊢; omega
  rw [htemp]
  unfold runErrval
  cases h : mapBit r err k with
  | false =>
    simp only [mapBit, decide_eq_false_iff_not] at h
    simp only [Bool.toNat_false]
    by_cases hz : err = 0
    · subst hz; simp
    · by_cases hc : k ≠ 0 ∨ r.n ≤ 2 * r.nn
      · rw [if_neg]
        · omega
        · simp only [decide_eq_decide]; omega
      · rw [if_pos]
        · omega
        · simp only [decide_eq_decide]; omega
  | true =>
    have hz := mapBit_ne_zero h
    simp only [mapBit, decide_eq_true_eq] at h
    simp only [Bool.toNat_true]
    by_cases hc : k ≠ 0 ∨ r.n ≤ 2 * r.nn
    · rw [if_pos]
      · omega
      · simp only [decide_eq_decide]; omega
    · rw [if_neg]
      · omega
      · simp only [decide_eq_decide]; omega

/-- The search finds the least parameter that serves (R161). -/
theorem golombK_eq {n a k : Nat} (hk : k < 32) (h1 : a ≤ n * 2 ^ k) (h2 : ∀ i < k, n * 2 ^ i < a) :
    golombK n a = some k := by
  obtain ⟨j, hj, hle⟩ := golombK_exists hk h1
  obtain ⟨_, h3, h4⟩ := golombK_spec hj
  rcases Nat.lt_or_ge j k with h | h
  · exact absurd (h2 j h) (by omega)
  · rw [hj, le_antisymm hle h]

/-- And none where none below 32 serves (R375). -/
theorem golombK_none {n a : Nat} (h : ∀ k < 32, n * 2 ^ k < a) : golombK n a = none := by
  cases hk : golombK n a with
  | none => rfl
  | some k => obtain ⟨h1, h2, -⟩ := golombK_spec hk; exact absurd (h k h1) (by omega)

end Sys2Proof.Machine
end

