-- ==== Sys2Proof/Laws/ShortCode.lean ====
section
/-! SUPPORT. The short-code tables give what the generic decoder gives, and miss on every longer codeword (R211 to R213). -/

namespace Sys2Proof.Machine

theorem take8_length (l : List Bool) : ((l ++ List.replicate 8 false).take 8).length = 8 := by
  rw [List.length_take, List.length_append, List.length_replicate]; omega

/-- The table entry of the peeked byte, read off the bits that are left. -/
theorem gtEntry_peek (k : Nat) (l : List Bool) :
    gtEntry k (bitsVal ((l ++ List.replicate 8 false).take 8)) =
      match unaryPrefix ((l ++ List.replicate 8 false).take 8) with
      | none => (0, 0)
      | some (h, rest) =>
        if h + 1 + k ≤ 8 then (unmapError (h * 2 ^ k + bitsVal (rest.take k)), h + 1 + k) else (0, 0) := by
  have := bitsOf_bitsVal ((l ++ List.replicate 8 false).take 8)
  rw [take8_length] at this
  rw [gtEntry, this] <;> rfl

theorem take8_unary {h : Nat} {t : List Bool} (hh : h < 8) :
    (((List.replicate h false ++ true :: t) ++ List.replicate 8 false).take 8) =
      List.replicate h false ++ true :: ((t ++ List.replicate 8 false).take (8 - (h + 1))) := by
  rw [List.append_assoc, List.take_append, List.length_replicate, List.take_of_length_le (by simp; omega),
    List.cons_append]
  obtain ⟨n, hn⟩ : ∃ n, 8 - h = n + 1 := ⟨7 - h, by omega⟩
  rw [hn, List.take_succ_cons, show 8 - (h + 1) = n by omega]

theorem take8_zeros {h : Nat} {t : List Bool} (hh : 8 ≤ h) :
    (((List.replicate h false ++ t) ++ List.replicate 8 false).take 8) = List.replicate 8 false := by
  rw [List.append_assoc, List.take_append_of_le_length (by simpa using hh), List.take_replicate]
  simp [hh]

/-- A codeword of at most 8 bits hits (R212). -/
theorem shortCode_hit {s : State} {h k : Nat} {t : List Bool} (hr : remaining s = List.replicate h false ++ true :: t)
    (hl : h + 1 + k ≤ 8) (hk : k ≤ t.length) :
    ∃ r, Consumed s.rd (h + 1 + k) r ∧
      shortCode k s = .ok (some (unmapError (h * 2 ^ k + bitsVal (t.take k))), setReader s r) := by
  have hav : h + 1 + k ≤ avail s := by
    rw [avail, hr, List.length_append, List.length_replicate, List.length_cons]; omega
  unfold shortCode peekByte
  rw [if_neg (by omega), if_neg (by omega), ok_bind]
  simp only
  rw [gtEntry_peek, hr, take8_unary (by omega), unaryPrefix_replicate]
  simp only
  rw [if_pos hl]
  have hfb := fillBelow_same s.bs 8 s.rd
  have hav' : avail (setReader s (fillBelow s.bs 8 s.rd)) = avail s := by
    rw [avail, remaining_consumed hfb, List.drop_zero, avail]
  rw [if_neg (by rw [hav']; simp only; omega)]
  obtain ⟨r, hc, he⟩ := skipBits_ok (s := setReader s (fillBelow s.bs 8 s.rd)) (n := h + 1 + k) (by omega)
    (by rw [hav']; exact hav)
  simp only
  rw [he]
  refine ⟨r, ?_, ?_⟩
  · have := hfb.trans hc; rwa [Nat.zero_add] at this
  · rw [ok_bind, setReader_setReader, List.take_take, Nat.min_eq_left (by omega),
      List.take_append_of_le_length hk]

/-- Every longer codeword misses, and nothing is consumed (R212). -/
theorem shortCode_miss {s : State} {h k : Nat} {t : List Bool} (hr : remaining s = List.replicate h false ++ true :: t)
    (hl : 8 < h + 1 + k) : ∃ r, Consumed s.rd 0 r ∧ shortCode k s = .ok (none, setReader s r) := by
  unfold shortCode
  by_cases hk : 15 < k
  · rw [if_pos hk]; exact ⟨s.rd, .refl _, rfl⟩
  · rw [if_neg hk]
    refine ⟨_, fillBelow_same s.bs 8 s.rd, ?_⟩
    unfold peekByte
    rw [if_neg (by rw [avail, hr, List.length_append, List.length_cons]; omega), ok_bind]
    simp only
    rw [gtEntry_peek, hr]
    by_cases hh : h < 8
    · rw [take8_unary hh, unaryPrefix_replicate]
      simp only [if_neg (show ¬h + 1 + k ≤ 8 by omega), true_or, if_true]
    · rw [take8_zeros (by omega)]
      simp [unaryPrefix]

/-- The first zeros of a codeword, and what follows its one. -/
theorem valueBits_unary (k m glimit q : Nat) :
    ∃ h t, valueBits k m glimit q = List.replicate h false ++ true :: t ∧
      ((m / 2 ^ k + q + 1 < glimit ∧ h = m / 2 ^ k ∧ t = bitsOf (m % 2 ^ k) k) ∨
        (glimit ≤ m / 2 ^ k + q + 1 ∧ h = glimit - q - 1 ∧ t = bitsOf ((m - 1) % 2 ^ q) q)) := by
  unfold valueBits
  split
  · exact ⟨_, _, rfl, .inl ⟨by assumption, rfl, rfl⟩⟩
  · exact ⟨_, _, rfl, .inr ⟨by omega, rfl, rfl⟩⟩

/-- The short code of a mapped value, in regular mode (R213). -/
theorem shortCode_valueBits {s : State} {k m glimit q : Nat} {rest : List Bool} (hg : q + 9 ≤ glimit)
    (hr : remaining s = valueBits k m glimit q ++ rest) :
    if (valueBits k m glimit q).length ≤ 8 then
      ∃ r, Consumed s.rd (valueBits k m glimit q).length r ∧
        shortCode k s = .ok (some (unmapError m), setReader s r)
    else ∃ r, Consumed s.rd 0 r ∧ shortCode k s = .ok (none, setReader s r) := by
  obtain ⟨h, t, hv, ⟨hh, rfl, rfl⟩ | ⟨hh, rfl, rfl⟩⟩ := valueBits_unary k m glimit q
  · rw [hv, List.append_assoc, List.cons_append] at hr
    have hlen : (valueBits k m glimit q).length = m / 2 ^ k + 1 + k := by
      rw [hv, List.length_append, List.length_replicate, List.length_cons, bitsOf_length, Nat.add_right_comm]; rfl
    rw [hlen]
    split
    · obtain ⟨r, hc, he⟩ := shortCode_hit hr (by assumption) (by rw [List.length_append, bitsOf_length]; omega)
      refine ⟨r, hc, ?_⟩
      rw [he, List.take_left' (bitsOf_length _ _), bitsVal_bitsOf (Nat.mod_lt _ (Nat.two_pow_pos k)), Nat.div_add_mod']
    · exact shortCode_miss hr (by omega)
  · rw [hv, List.append_assoc, List.cons_append] at hr
    rw [if_neg]
    · exact shortCode_miss hr (by omega)
    · rw [hv, List.length_append, List.length_replicate, List.length_cons]; omega

end Sys2Proof.Machine
end

