-- ==== Sys2Proof/Laws/Sample.lean ====
section
/-! SUPPORT. Quantization, prediction and the regular sample: what `SP.ENCREG` and `SP.DECREG` leave, and that the decoder
reads back what the encoder wrote (R143 to R147, R270 to R277). -/

namespace Sys2Proof.Machine

/-! ## Bins and context ids -/

theorem binOf_range (near t1 t2 t3 : Nat) (d : Int) : -4 ≤ binOf near t1 t2 t3 d ∧ binOf near t1 t2 t3 d ≤ 4 := by
  unfold binOf
  repeat' split
  all_goals decide

theorem isBin_iff {q : Int} : isBin q = true ↔ -4 ≤ q ∧ q ≤ 4 := by simp [isBin]

theorem ctxid_natAbs_le {q1 q2 q3 : Int} (h1 : -4 ≤ q1 ∧ q1 ≤ 4) (h2 : -4 ≤ q2 ∧ q2 ≤ 4) (h3 : -4 ≤ q3 ∧ q3 ≤ 4) :
    (ctxid q1 q2 q3).natAbs ≤ 364 := by
  unfold ctxid; omega

/-- The context id of an element names a context (R146). -/
theorem quantizeContext_isContext (s : State) : isContext (contextIndex (quantizeContext s)) = true := by
  have := ctxid_natAbs_le (binOf_range s.tr.near s.tr.t1 s.tr.t2 s.tr.t3 (s.w.rd - s.w.rb))
    (binOf_range s.tr.near s.tr.t1 s.tr.t2 s.tr.t3 (s.w.rb - s.w.rc))
    (binOf_range s.tr.near s.tr.t1 s.tr.t2 s.tr.t3 (s.w.rc - s.w.ra))
  exact decide_eq_true (Nat.lt_succ_of_le this)

/-! ## Context files -/

theorem ctxAt_setCtx (s : State) (q p : Nat) (v : RegCtx) :
    ctxAt (setCtx s q v) p = if p % 365 = q % 365 then v else ctxAt s p := by
  simp only [ctxAt, setCtx, Vector.getElem_set, eq_comm]

@[simp] theorem ctxAt_setWork (s : State) (w : Work) (q : Nat) : ctxAt (setWork s w) q = ctxAt s q := rfl

@[simp] theorem ctxAt_setReader (s : State) (r : Reader) (q : Nat) : ctxAt (setReader s r) q = ctxAt s q := rfl

theorem rctxAt_setRctx (s : State) (q p : Nat) (v : RunCtx) :
    rctxAt (setRctx s q v) p = if p % 2 = q % 2 then v else rctxAt s p := by
  simp only [rctxAt, setRctx, Vector.getElem_set, eq_comm]

/-! ## Prediction (R272) -/

/-- The prediction lies between the left and the upper neighbour. -/
theorem medianPrediction_between (ra rb rc : Int) :
    min ra rb ≤ medianPrediction ra rb rc ∧ medianPrediction ra rb rc ≤ max ra rb := by
  unfold medianPrediction neg1 xorMask
  simp only
  repeat' split
  all_goals omega

/-! ## One regular sample -/

theorem isCorrected_iff {t : Traits} {p : Int} : isCorrected t p = true ↔ -128 ≤ p ∧ p ≤ t.maxVal + 128 := by
  simp [isCorrected]

/-- Two samples and a context within its bounds give a prediction in range (R24, R272, R273). -/
theorem isCorrected_of {s : State} (ha : isSample s.tr s.w.ra = true) (hb : isSample s.tr s.w.rb = true)
    (hc : -128 ≤ (ctxAt s (contextIndex s)).c ∧ (ctxAt s (contextIndex s)).c ≤ 127) :
    isCorrected s.tr (biasedPrediction s) = true := by
  rw [isSample_iff] at ha hb
  obtain ⟨h1, h2⟩ := medianPrediction_between s.w.ra s.w.rb s.w.rc
  rw [isCorrected_iff, biasedPrediction]
  unfold asgn
  split <;> omega

theorem predictSample_ok {s : State} {k : Nat} (hq : isContext (contextIndex s) = true)
    (hp : isCorrected s.tr (biasedPrediction s) = true)
    (hk : golombK (ctxAt s (contextIndex s)).n (ctxAt s (contextIndex s)).a = some k) :
    predictSample s = .ok (setWork s { s.w with
      sign := neg1 s.w.qs
      k := k
      pred := medianPrediction s.w.ra s.w.rb s.w.rc
      px := correctedPrediction s }) := by
  unfold predictSample getK
  rw [require_bind, if_pos hq]
  have : ctxAt (setWork s { s.w with sign := neg1 s.w.qs }) (contextIndex s) = ctxAt s (contextIndex s) := rfl
  rw [this, hk]
  change (require (isCorrected s.tr (biasedPrediction s)) _ >>= _) = _
  rw [require_bind, if_pos hp]
  rfl

theorem predictSample_refused {s : State} {k : Nat} (hq : isContext (contextIndex s) = true)
    (hp : isCorrected s.tr (biasedPrediction s) = false)
    (hk : golombK (ctxAt s (contextIndex s)).n (ctxAt s (contextIndex s)).a = some k) :
    predictSample s = refuse .operandRange := by
  unfold predictSample getK
  rw [require_bind, if_pos hq]
  have : ctxAt (setWork s { s.w with sign := neg1 s.w.qs }) (contextIndex s) = ctxAt s (contextIndex s) := rfl
  rw [this, hk]
  change (require (isCorrected s.tr (biasedPrediction s)) _ >>= _) = _
  rw [hp]
  rfl

/-- The parameter of a good context (R161, R164). -/
theorem ScanInv.golombK {s : State} (h : ScanInv s) (q : Nat) :
    ∃ k, Machine.golombK (ctxAt s q).n (ctxAt s q).a = some k ∧ k ≤ 24 := (h.ctx q).golombK h.traits.bounds

theorem correctedPrediction_sample (s : State) : isSample s.tr (correctedPrediction s) = true := corrp_sample _ _

theorem isDifference_asgn {t : Traits} {x p s : Int} (hx : isSample t x = true) (hp : isSample t p = true) :
    isDifference t (asgn (x - p) s) = true := by
  rw [isSample_iff] at hx hp
  rw [isDifference_iff]
  unfold asgn; split <;> omega

theorem regularError_abs {s : State} (hb : TraitsBounds s.tr) (hx : isSample s.tr s.w.x = true) :
    (regularError s).natAbs ≤ 32768 :=
  (errval_abs hb (isDifference_asgn hx (correctedPrediction_sample s))).2

theorem asgn_mul (v s : Int) : asgn v s = v * (if s = 0 then 1 else -1) := by unfold asgn; split <;> omega

/-- The rebuilt regular sample is within `near` of the input (R130, R276). -/
theorem regular_near {s : State} (hb : TraitsBounds s.tr) (hx : isSample s.tr s.w.x = true) :
    -(s.tr.near : Int) ≤ recon s.tr (correctedPrediction s) (asgn (regularError s) (neg1 s.w.qs)) - s.w.x ∧
      recon s.tr (correctedPrediction s) (asgn (regularError s) (neg1 s.w.qs)) - s.w.x ≤ s.tr.near := by
  unfold regularError
  rw [asgn_mul, asgn_mul]
  exact recon_sign_near hb (by split <;> simp) hx (correctedPrediction_sample s)

/-- The prediction difference of a regular sample, normalised in sign, is within the range of `TR.ERRVAL` (R122, R276). -/
def regularInRange (s : State) : Prop :=
  isDifference s.tr (asgn (s.w.x - correctedPrediction s) (neg1 s.w.qs)) = true

theorem regularInRange_of_sample {s : State} (hx : isSample s.tr s.w.x = true) : regularInRange s :=
  isDifference_asgn hx (correctedPrediction_sample s)

theorem regularInRange_iff {s : State} : regularInRange s ↔ (s.w.x - correctedPrediction s).natAbs ≤ s.tr.maxVal := by
  rw [regularInRange, isDifference_iff]; unfold asgn; split <;> omega

/-- Every mapped value a regular sample gives can be coded (R244, R276). -/
theorem encodable_regular {s : State} (hb : TraitsBounds s.tr) {k : Nat} (hk : k ≤ 24) (hx : regularInRange s) :
    encodable k (regularValue k s) s.tr.limit s.tr.qbpp := by
  have hm : regularValue k s ≤ s.tr.range := mapError_le hb hx
  have h1 := hb.rangePow; have h2 := hb.qbppLow; have h3 := hb.qbppHigh; have h4 := hb.limitHigh; have h5 := hb.room
  have hd : regularValue k s / 2 ^ k ≤ regularValue k s := Nat.div_le_self _ _
  generalize regularValue k s = m at *
  refine ⟨by omega, by omega, by omega, ?_⟩
  have hlow : ∀ n, s.tr.qbpp ≤ n → 2 ^ s.tr.qbpp ≤ 2 ^ n := fun n hn => Nat.pow_le_pow_right (by decide) hn
  split
  · by_cases hq : s.tr.qbpp ≤ 5
    · have := hlow 5 hq; omega
    · omega
  · refine ⟨by omega, by omega, ?_⟩
    by_contra hc
    have := hlow 1 (by omega)
    omega

theorem curWrite_eq (s : State) (ch : Nat) (j v : Int) :
    curWrite s ch j v = { s with buf := sparseWrite 0 s.buf (bufKey (s.seq.y % 2) s.seq.c ch j) v } := rfl

/-- `SP.ENCREG` on a sample that can be coded and whose bits fit (R276). -/
theorem encodeRegular_ok {i ch k : Nat} {s : State} (hb : TraitsBounds s.tr) (hx : regularInRange s)
    (hq : isContext (contextIndex s) = true) (hp : isCorrected s.tr (biasedPrediction s) = true)
    (hk : golombK (ctxAt s (contextIndex s)).n (ctxAt s (contextIndex s)).a = some k)
    (he : encodable k (regularValue k s) s.tr.limit s.tr.qbpp)
    (hf : fits s.wr (valueBits k (regularValue k s) s.tr.limit s.tr.qbpp)) :
    ∃ v, Appended s.wr (valueBits k (regularValue k s) s.tr.limit s.tr.qbpp) v ∧
      encodeRegular i ch s = .ok (regularAfter i ch k (regularError s) (regularValue k s)
        (afterAppend s (valueBits k (regularValue k s) s.tr.limit s.tr.qbpp) v)) := by
  unfold encodeRegular
  rw [predictSample_ok hq hp hk, ok_bind]
  let s1 : State := setWork s { s.w with
    sign := neg1 s.w.qs
    k := k
    pred := medianPrediction s.w.ra s.w.rb s.w.rc
    px := correctedPrediction s
    err := regularError s
    merr := regularValue k s }
  obtain ⟨v, hv, hev⟩ := encodeValue_ok (s := s1) (k := k) (m := regularValue k s) (glimit := s.tr.limit) he hf
  refine ⟨v, hv, ?_⟩
  simp only [setWork_w, reduceError_setWork]
  rw [reduceError_ok hb hx, ok_bind]
  change (encodeValue k (regularValue k s) s.tr.limit s1 >>= fun s => .ok (rebuildSample i ch s)) = _
  rw [hev]
  rfl

/-- The correction mask is the same on both sides (R162, R277). -/
theorem correction_decode (r : RegCtx) (k near : Nat) :
    (if k = 0 then errorCorrection r near else 0) = errorCorrection r (k ||| near) := by
  by_cases hk : k = 0
  · subst hk; simp
  · rw [if_neg hk, errorCorrection, if_pos]
    intro h0
    rw [Nat.or_eq_zero_iff] at h0
    exact hk h0.1

/-- The error `SP.DECREG` finds for a mapped value (R277). -/
def decodedError (k m : Nat) (s : State) : Int :=
  xorMask (errorCorrection (ctxAt s (contextIndex s)) (k ||| s.tr.near)) (unmapError m)

/-- Reading the error of a regular sample (R277): `MERR` is written where the short-code table misses. -/
theorem readError_ok {k m : Nat} {s : State} {rest : List Bool} (hk : s.w.k = k)
    (he : encodable k m s.tr.limit s.tr.qbpp) (hg : s.tr.qbpp + 9 ≤ s.tr.limit) (hm : (unmapError m).natAbs ≤ 65535)
    (hr : remaining s = valueBits k m s.tr.limit s.tr.qbpp ++ rest) :
    ∃ r, Consumed s.rd (valueBits k m s.tr.limit s.tr.qbpp).length r ∧
      readError s = .ok (unmapError m, setWork (setReader s r) { s.w with
        merr := if (valueBits k m s.tr.limit s.tr.qbpp).length ≤ 8 then s.w.merr else m }) := by
  have hsc := shortCode_valueBits (s := s) (k := k) (m := m) hg hr
  unfold readError
  rw [hk]
  split at hsc
  · obtain ⟨r, hc, hs⟩ := hsc
    refine ⟨r, hc, ?_⟩
    rw [hs, if_pos (by assumption)]
    rfl
  · obtain ⟨r, hc, hs⟩ := hsc
    obtain ⟨u, hu, hd⟩ := decodeValue_valueBits (s := setReader s r) he (by
      rw [remaining_consumed hc, List.drop_zero]; exact hr)
    refine ⟨u, by have := hc.trans hu; rwa [Nat.zero_add] at this, ?_⟩
    rw [hs, if_neg (by assumption), ok_bind]
    simp only [setReader_w, setReader_tr, hk, hd, ok_bind]
    rw [if_neg (by unfold Config.errMag; omega)]
    rfl

theorem setWork_setWork (s : State) (a b : Work) : setWork (setWork s a) b = setWork s b := rfl

theorem setCtx_setWork (s : State) (a : Work) (q : Nat) (r : RegCtx) :
    setCtx (setWork s a) q r = setWork (setCtx s q r) a := rfl

theorem setReader_setWork (s : State) (a : Work) (r : Reader) :
    setReader (setWork s a) r = setWork (setReader s r) a := rfl

/-- The last steps of a regular sample, after its first ones (R277). -/
theorem rebuildSample_regularAfter {i ch k merr : Nat} {err : Int} {v : State} :
    rebuildSample i ch (setWork v { v.w with
      sign := neg1 v.w.qs
      k := k
      pred := medianPrediction v.w.ra v.w.rb v.w.rc
      px := correctedPrediction v
      err := err
      merr := merr }) = regularAfter i ch k err merr v := by
  simp only [rebuildSample, regularAfter, updCtx, ctxAt_setWork, contextIndex, setWork_w, setWork_tr, setCtx_setWork,
    setWork_setWork, setCtx_tr]

/-- `SP.DECREG` with the mask the encoder uses (R277). -/
theorem decodeRegular_eq (i ch : Nat) (s : State) :
    decodeRegular i ch s = predictSample s >>= fun p => readError p >>= fun q =>
      .ok (rebuildSample i ch (setWork q.2 { q.2.w with
        err := xorMask (errorCorrection (ctxAt q.2 (contextIndex q.2)) (q.2.w.k ||| q.2.tr.near)) q.1 })) := by
  unfold decodeRegular
  simp only [← correction_decode]

/-- `SP.DECREG` on the codeword of a mapped value (R277). -/
theorem decodeRegular_ok {i ch k m : Nat} {s : State} {rest : List Bool} (hq : isContext (contextIndex s) = true) (hp : isCorrected s.tr (biasedPrediction s) = true)
    (hk : golombK (ctxAt s (contextIndex s)).n (ctxAt s (contextIndex s)).a = some k)
    (he : encodable k m s.tr.limit s.tr.qbpp) (hg : s.tr.qbpp + 9 ≤ s.tr.limit) (hm : (unmapError m).natAbs ≤ 65535)
    (hr : remaining s = valueBits k m s.tr.limit s.tr.qbpp ++ rest) :
    ∃ r, Consumed s.rd (valueBits k m s.tr.limit s.tr.qbpp).length r ∧
      decodeRegular i ch s = .ok (regularAfter i ch k (decodedError k m s)
        (if (valueBits k m s.tr.limit s.tr.qbpp).length ≤ 8 then s.w.merr else m) (setReader s r)) := by
  rw [decodeRegular_eq, predictSample_ok hq hp hk, ok_bind]
  obtain ⟨r, hc, hs⟩ := readError_ok (s := setWork s { s.w with
    sign := neg1 s.w.qs
    k := k
    pred := medianPrediction s.w.ra s.w.rb s.w.rc
    px := correctedPrediction s }) (k := k) (m := m) rfl he hg hm hr
  refine ⟨r, hc, ?_⟩
  simp only [setWork_tr, setWork_w] at hs
  rw [hs, ok_bind]
  refine congrArg Except.ok ?_
  simp only [setWork_w, setWork_tr, setReader_tr, ctxAt_setWork, ctxAt_setReader]
  rw [setReader_setWork, setWork_setWork, setWork_setWork]
  exact rebuildSample_regularAfter (v := setReader s r)

/-- `SP.DECREG` on a codeword whose error is too large (R277, R371). -/
theorem decodeRegular_large {i ch k m : Nat} {s : State} {rest : List Bool} (hq : isContext (contextIndex s) = true) (hp : isCorrected s.tr (biasedPrediction s) = true)
    (hk : golombK (ctxAt s (contextIndex s)).n (ctxAt s (contextIndex s)).a = some k)
    (hk31 : k ≤ 31) (he : m / 2 ^ k + s.tr.qbpp + 1 < s.tr.limit) (hg : s.tr.qbpp + 9 ≤ s.tr.limit)
    (hl : 8 < (valueBits k m s.tr.limit s.tr.qbpp).length) (hm : 65535 < (unmapError m).natAbs)
    (hr : remaining s = valueBits k m s.tr.limit s.tr.qbpp ++ rest) :
    ∃ u, u.pr = s.pr ∧ u.bs = s.bs ∧ decodeRegular i ch s = raise .invalidCompressedData u := by
  let v := setWork s { s.w with
    sign := neg1 s.w.qs
    k := k
    pred := medianPrediction s.w.ra s.w.rb s.w.rc
    px := correctedPrediction s }
  have hv : remaining v = valueBits k m s.tr.limit s.tr.qbpp ++ rest := hr
  have hs := shortCode_valueBits (s := v) hg hv
  rw [if_neg (by omega)] at hs
  obtain ⟨r, hc, hs⟩ := hs
  obtain ⟨r', -, hd⟩ := decodeValue_golombBits (s := setReader v r) hk31 he (by rw [remaining_consumed hc, List.drop_zero]; exact hv)
  refine ⟨setWork (setReader v r') { v.w with merr := m }, rfl, rfl, ?_⟩
  rw [decodeRegular_eq, predictSample_ok hq hp hk, ok_bind]
  change (readError v >>= _) = _
  unfold readError
  rw [show v.w.k = k from rfl, hs, ok_bind]
  simp only
  rw [show (setReader v r).w.k = k from rfl, show (setReader v r).tr = s.tr from rfl, hd, ok_bind]
  simp only
  rw [if_pos (show Config.errMag < (unmapError m).natAbs from hm)]
  rfl

/-- The decoder finds the error the encoder coded (R277). -/
theorem decodedError_regularValue (k : Nat) (s : State) : decodedError k (regularValue k s) s = regularError s := by
  unfold decodedError regularValue
  rw [unmap_map, xorMask_xorMask]

/-- A mapped value that a codeword carries at `K = 0` unmasks to a legal error (R277). -/
theorem decodedError_abs {k m : Nat} {s : State} (hb : TraitsBounds s.tr) (he : encodable k m s.tr.limit s.tr.qbpp)
    (hm : (unmapError m).natAbs ≤ 65535) : (decodedError k m s).natAbs ≤ 65535 := by
  unfold decodedError errorCorrection
  by_cases hk : k ||| s.tr.near = 0
  · rw [if_neg (by omega)]
    rw [Nat.or_eq_zero_iff] at hk
    obtain ⟨-, -, -, hm'⟩ := he
    rw [hk.1] at hm'
    have : 2 ^ s.tr.qbpp ≤ 2 ^ 16 := Nat.pow_le_pow_right (by decide) hb.qbppHigh
    have hbound : m ≤ 65536 := by
      split at hm'
      · simp at hm'; omega
      · omega
    have hu : (unmapError m).natAbs ≤ 32768 := by unfold unmapError; split <;> omega
    unfold xorMask; split <;> omega
  · rw [if_pos hk]
    simpa [xorMask] using hm

/-- The interval of each bin (R143). -/
theorem binOf_cases (near t1 t2 t3 : Nat) (d q : Int) (h : binOf near t1 t2 t3 d = q) :
    (q = -4 ∧ d ≤ -t3) ∨ (q = -3 ∧ -t3 < d ∧ d ≤ -t2) ∨ (q = -2 ∧ -t2 < d ∧ d ≤ -t1) ∨ (q = -1 ∧ -t1 < d ∧ d < -near) ∨
      (q = 0 ∧ -near ≤ d ∧ d ≤ near) ∨ (q = 1 ∧ near < d ∧ d < t1) ∨ (q = 2 ∧ t1 ≤ d ∧ d < t2) ∨
      (q = 3 ∧ t2 ≤ d ∧ d < t3) ∨ (q = 4 ∧ t3 ≤ d) := by
  subst h; unfold binOf
  split_ifs <;> simp <;> omega

end Sys2Proof.Machine
end

