-- ==== Sys2Proof/Laws/Invariant.lean ====
section
/-! SUPPORT. Soundness is kept by the writes of every unit, by taking an error, and by a whole scan (`10_state.md` R40). -/

namespace Sys2Proof.Machine

/-- The bounds of a regular context that no parameter enters (R164). -/
theorem ctxAt_updCtx {s : State} (h : ∀ q, 1 ≤ (ctxAt s q).n ∧ -((ctxAt s q).n : Int) < (ctxAt s q).b ∧
    (ctxAt s q).b ≤ 0 ∧ -128 ≤ (ctxAt s q).c ∧ (ctxAt s q).c ≤ 127) (q : Nat) (err : Int) (p : Nat) :
    1 ≤ (ctxAt (updCtx q err s) p).n ∧ -((ctxAt (updCtx q err s) p).n : Int) < (ctxAt (updCtx q err s) p).b ∧
      (ctxAt (updCtx q err s) p).b ≤ 0 ∧ -128 ≤ (ctxAt (updCtx q err s) p).c ∧
      (ctxAt (updCtx q err s) p).c ≤ 127 := by
  unfold updCtx
  rw [ctxAt_setCtx]
  split
  · exact updateRegular_bounds s.tr err ⟨(h q).2.2.2.1, (h q).2.2.2.2⟩
  · exact h p

theorem rctxAt_updRctx {s : State} (h : ∀ t, (rctxAt s t).nn + 1 ≤ (rctxAt s t).n) (t : Nat) (err : Int) (em p : Nat) :
    (rctxAt (updRctx t err em s) p).nn + 1 ≤ (rctxAt (updRctx t err em s) p).n := by
  unfold updRctx
  rw [rctxAt_setRctx]
  split
  · exact updateRun_nn t s.tr.reset err em (h t)
  · exact h p

theorem Sound.unit : UnitClosed Sound where
  work _ _ h := ⟨h.bytes, h.buf, h.runidxWf, h.params, h.ctx, h.rctx, h.runindex, h.runidx, h.writer⟩
  result _ _ h := ⟨h.bytes, h.buf, h.runidxWf, h.params, h.ctx, h.rctx, h.runindex, h.runidx, h.writer⟩
  ctx _ q err h := ⟨h.bytes, h.buf, h.runidxWf, h.params, fun he p => ctxAt_updCtx (h.ctx he) q err p, h.rctx,
    h.runindex, h.runidx, h.writer⟩
  rctx _ t err em h := ⟨h.bytes, h.buf, h.runidxWf, h.params, h.ctx, fun he p => rctxAt_updRctx (h.rctx he) t err em p,
    h.runindex, h.runidx, h.writer⟩
  inc _ h := ⟨h.bytes, h.buf, h.runidxWf, h.params, h.ctx, h.rctx, fun _ => Nat.min_le_left _ _, h.runidx, h.writer⟩
  dec _ h := ⟨h.bytes, h.buf, h.runidxWf, h.params, h.ctx, h.rctx,
    fun he => (Nat.sub_le _ _).trans (h.runindex he), h.runidx, h.writer⟩
  cur _ _ _ _ h := ⟨h.bytes, sparseWrite_wf h.buf, h.runidxWf, h.params, h.ctx, h.rctx, h.runindex, h.runidx, h.writer⟩

theorem Sound.reading : ReadClosed Sound where
  toUnitClosed := Sound.unit
  reader _ _ _ h _ := ⟨h.bytes, h.buf, h.runidxWf, h.params, h.ctx, h.rctx, h.runindex, h.runidx, h.writer⟩

theorem writerOk_same {w v : Writer} (h : SameStream w v) (hw : writerOk w = true) : writerOk v = true := by
  unfold writerOk byteRoom at *
  rwa [h.wacc, h.wff]

theorem Sound.writing : WriteClosed Sound where
  toUnitClosed := Sound.unit
  bit s x h hl := ⟨h.bytes, h.buf, h.runidxWf, h.params, h.ctx, h.rctx, h.runindex, h.runidx, fun he hd => by
    have hw : s.wr.wacc.length < byteRoom s.wr := of_decide_eq_true (h.writer he hd)
    rw [List.length_append, List.length_singleton] at hl
    refine decide_eq_true ?_
    change (s.wr.wacc ++ [x]).length < byteRoom s.wr
    rw [List.length_append, List.length_singleton]
    omega⟩
  emit s b h _ := ⟨memWrite_wf h.bytes, h.buf, h.runidxWf, h.params, h.ctx, h.rctx, h.runindex, h.runidx, fun _ _ => by
    refine decide_eq_true ?_
    change 0 < if byteIsFF b then 7 else 8
    split <;> decide⟩
  buffer _ v c h := ⟨h.bytes, h.buf, h.runidxWf, h.params, h.ctx, h.rctx, h.runindex, h.runidx,
    fun he hd => writerOk_same (bufferGroup_same v c _) (h.writer he hd)⟩
  drained _ h := ⟨h.bytes, h.buf, h.runidxWf, h.params, h.ctx, h.rctx, h.runindex, h.runidx,
    fun he hd => writerOk_same (drainByte_same _) (h.writer he hd)⟩

theorem runidxAt_setRunidx {s : State} (h : sparseWf 0 s.runidx = true) (c r p : Nat) :
    runidxAt (setRunidx s c r) p = if p = c then r else runidxAt s p := sparseRead_write h

theorem Sound.scanning : ScanClosed Sound where
  prev _ _ _ _ h := ⟨h.bytes, sparseWrite_wf h.buf, h.runidxWf, h.params, h.ctx, h.rctx, h.runindex, h.runidx, h.writer⟩
  seq _ _ h := ⟨h.bytes, h.buf, h.runidxWf, h.params, h.ctx, h.rctx, h.runindex, h.runidx, h.writer⟩
  load _ c h := ⟨h.bytes, h.buf, h.runidxWf, h.params, h.ctx, h.rctx, fun he => h.runidx he c, h.runidx, h.writer⟩
  store s c h := ⟨h.bytes, h.buf, sparseWrite_wf h.runidxWf, h.params, h.ctx, h.rctx, h.runindex, fun he p => by
    rw [runidxAt_setRunidx h.runidxWf]
    split
    · exact h.runindex he
    · exact h.runidx he p, h.writer⟩

theorem Sound.deliver {s : State} (h : Sound s) (l : List Line) (r : Option Nat) :
    Sound { s with lineDst := l, lineRoom := r } :=
  ⟨h.bytes, h.buf, h.runidxWf, h.params, h.ctx, h.rctx, h.runindex, h.runidx, h.writer⟩

/-! ## Taking an error -/

theorem foldl_memWrite_wf {f : Nat → Nat} {g : Nat → Byte} :
    ∀ (l : List Nat) {m : Memory}, Memory.wf m = true →
      Memory.wf (l.foldl (fun m j => memWrite m (f j) (g j)) m) = true
  | [], _, h => h
  | _ :: l, _, h => foldl_memWrite_wf l (memWrite_wf h)

theorem freeSink_wf {s : State} (h : Memory.wf s.bs = true) : Memory.wf (freeSink s) = true := by
  unfold freeSink
  split
  · exact h
  · exact foldl_memWrite_wf _ h

theorem Sound.raised {e : ErrKind} {s : State} (he : e ≠ .none) (h : Sound s) : Inv (raiseErr e s) where
  bytes := freeSink_wf h.bytes
  buf := sparseOfList_wf _
  runidxWf := sparseOfList_wf _
  params := h.params
  ctx := fun h => absurd h he
  rctx := fun h => absurd h he
  runindex := fun h => absurd h he
  runidx := fun h => absurd h he
  writer := fun h => absurd h he
  notBusy := rfl

/-! ## A whole scan -/

theorem ctxAt_init (s : State) (r q : Nat) :
    ctxAt { s with ctx := initCtx r } q = { a := initialA r, b := 0, c := 0, n := 1 } := by
  simp [ctxAt, initCtx]

theorem rctxAt_init (s : State) (r t : Nat) :
    rctxAt { s with rctx := initRctx r } t = { a := initialA r, n := 1, nn := 0 } := by
  simp [rctxAt, initRctx]

theorem Sound.setup {s : State} (h : Sound s) (d : Bool) (p0 n : Nat) : Sound (scanSetup d p0 n s) where
  bytes := h.bytes
  buf := rfl
  runidxWf := rfl
  params := h.params
  ctx := fun _ q => by
    rw [show ctxAt (scanSetup d p0 n s) q = ctxAt { s with ctx := initCtx (scanTraits s.pr).range } q from rfl,
      ctxAt_init]
    simp
  rctx := fun _ t => by
    rw [show rctxAt (scanSetup d p0 n s) t = rctxAt { s with rctx := initRctx (scanTraits s.pr).range } t from rfl,
      rctxAt_init]
  runindex := fun _ => Nat.zero_le _
  runidx := fun _ _ => Nat.zero_le _
  writer := fun _ hd => by
    have hd : d = false := hd
    subst hd
    rfl

theorem Sound.close {s : State} (h : Sound s) : Sound (closeWriter s) :=
  ⟨h.bytes, h.buf, h.runidxWf, h.params, h.ctx, h.rctx, h.runindex, h.runidx,
    fun he hd => writerOk_same (bufferEnd_same _) (h.writer he hd)⟩

theorem Sound.position {s : State} (h : Sound s) (p : Nat) : Sound { s with bytePos := p } :=
  ⟨h.bytes, h.buf, h.runidxWf, h.params, h.ctx, h.rctx, h.runindex, h.runidx, h.writer⟩

theorem Sound.setups : SetupClosed Sound where
  toWriteClosed := Sound.writing
  traits _ _ h := ⟨h.bytes, h.buf, h.runidxWf, h.params, h.ctx, h.rctx, h.runindex, h.runidx, h.writer⟩
  table _ _ h := ⟨h.bytes, h.buf, h.runidxWf, h.params, h.ctx, h.rctx, h.runindex, h.runidx, h.writer⟩
  ctxInit s r h := ⟨h.bytes, h.buf, h.runidxWf, h.params, fun _ q => by rw [ctxAt_init]; simp, h.rctx, h.runindex,
    h.runidx, h.writer⟩
  rctxInit s r h := ⟨h.bytes, h.buf, h.runidxWf, h.params, h.ctx, fun _ t => by rw [rctxAt_init], h.runindex,
    h.runidx, h.writer⟩
  place _ _ h := ⟨h.bytes, h.buf, h.runidxWf, h.params, h.ctx, h.rctx, h.runindex, h.runidx, h.writer⟩
  open' _ _ _ h := ⟨h.bytes, h.buf, h.runidxWf, h.params, h.ctx, h.rctx, h.runindex, h.runidx, fun _ _ => rfl⟩
  position _ p h := h.position p
  close _ h := h.close

theorem Sound.done {s : State} (h : Sound s) : Sound (scanDone s) :=
  ⟨h.bytes, h.buf, h.runidxWf, h.params, h.ctx, h.rctx, h.runindex, h.runidx, h.writer⟩

theorem Sound.sr1 {s : State} (h : Sound s) : Sound (freeSr1 s) :=
  ⟨h.bytes, h.buf, h.runidxWf, h.params, h.ctx, h.rctx, h.runindex, h.runidx, h.writer⟩

/-- A scan command is accepted, or refused (R92, R340, R341). -/
theorem acceptScan_cases (p0 n : Nat) (s : State) :
    (∃ r, acceptScan p0 n s = refuse r) ∨
      (acceptScan p0 n s = .ok () ∧ isIdle s = true ∧ s.configured = true ∧ legalParams s.build s.pr = true ∧ p0 ≤ n) := by
  unfold acceptScan
  cases h1 : isIdle s
  · exact .inl ⟨_, rfl⟩
  cases h2 : s.configured
  · exact .inl ⟨_, rfl⟩
  cases h3 : legalParams s.build s.pr
  · exact .inl ⟨_, rfl⟩
  by_cases h4 : p0 ≤ n
  · exact .inr ⟨by simp [h4], rfl, rfl, rfl, h4⟩
  · exact .inl ⟨.operandRange, by simp [h4]⟩

/-- A property the operations of a scan keep, and the ends too, is kept by a scan command. -/
theorem runScan_ends {P : State → Prop} {d : Bool} {p0 n : Nat} {s : State} (h : DirClosed d P)
    (hset : legalParams s.build s.pr = true → P (scanSetup d p0 n s)) (hclose : ∀ s, P s → P (closeWriter s))
    (hpos : ∀ s p, P s → P { s with bytePos := p }) :
    match runScan d p0 n s with
    | .ok t => ∃ u, P u ∧ (t = scanDone u ∨ t = scanDone (freeSr1 u))
    | .error (.raised e u) => e ≠ .none ∧ P u
    | .error (.refused _) => True := by
  unfold runScan
  rcases acceptScan_cases p0 n s with ⟨r, hr⟩ | ⟨hr, -, -, hl, -⟩
  · rw [hr]; trivial
  rw [hr, ok_bind]
  have hc := codeScan_ends h (hset hl)
  change match (codeScan (scanSetup d p0 n s) >>= endScan) with | .ok t => _ | .error (.raised e u) => _ | .error (.refused _) => _
  cases hr : codeScan (scanSetup d p0 n s) with
  | error e =>
    rw [hr] at hc
    rcases e with ⟨e, u⟩ | r
    · exact hc
    · trivial
  | ok u =>
    rw [hr] at hc
    rw [ok_bind]
    have hu : P u := hc
    unfold endScan
    rw [h.dir u hu]
    cases d with
    | false =>
      have he := endWrite_ends (h.write rfl) hclose (h.scan.seq _ { u.seq with fsm := .endOfScan } hu)
      change match (endWrite (setFsm u .endOfScan) >>= fun s => .ok (scanDone s)) with
        | .ok t => _ | .error (.raised e u) => _ | .error (.refused _) => _
      cases hw : endWrite (setFsm u .endOfScan) with
      | error e =>
        rw [show setSeq u { u.seq with fsm := .endOfScan } = setFsm u .endOfScan from rfl, hw] at he
        rcases e with ⟨e, v⟩ | r
        · exact he
        · trivial
      | ok v =>
        rw [show setSeq u { u.seq with fsm := .endOfScan } = setFsm u .endOfScan from rfl, hw] at he
        exact ⟨v, he, .inl rfl⟩
    | true =>
      have hf := h.scan.seq _ { u.seq with fsm := .endOfScan } hu
      have he : Ends id P (endRead (setFsm u .endOfScan)) := endRead_ends hf fun p => hpos _ p hf
      change match (endRead (setFsm u .endOfScan) >>= fun s => .ok (scanDone (freeSr1 s))) with
        | .ok t => _ | .error (.raised e u) => _ | .error (.refused _) => _
      cases hw : endRead (setFsm u .endOfScan) with
      | error e =>
        rw [hw] at he
        rcases e with ⟨e, v⟩ | r
        · exact he
        · trivial
      | ok v =>
        rw [hw] at he
        exact ⟨v, he, .inr rfl⟩

end Sys2Proof.Machine
end

