-- ==== Sys2Proof/Laws/Kept.lean ====
section
/-! SUPPORT. What the units keep of a fixed state: the closures behind the frames, and how two closed properties combine. -/

namespace Sys2Proof.Machine

variable {P Q : State → Prop}

/-! ## Two properties at once -/

theorem UnitClosed.and (hp : UnitClosed P) (hq : UnitClosed Q) : UnitClosed fun s => P s ∧ Q s where
  work _ _ h := ⟨hp.work _ _ h.1, hq.work _ _ h.2⟩
  result _ _ h := ⟨hp.result _ _ h.1, hq.result _ _ h.2⟩
  ctx _ _ _ h := ⟨hp.ctx _ _ _ h.1, hq.ctx _ _ _ h.2⟩
  rctx _ _ _ _ h := ⟨hp.rctx _ _ _ _ h.1, hq.rctx _ _ _ _ h.2⟩
  inc _ h := ⟨hp.inc _ h.1, hq.inc _ h.2⟩
  dec _ h := ⟨hp.dec _ h.1, hq.dec _ h.2⟩
  cur _ _ _ _ h := ⟨hp.cur _ _ _ _ h.1, hq.cur _ _ _ _ h.2⟩

theorem ReadClosed.and (hp : ReadClosed P) (hq : ReadClosed Q) : ReadClosed fun s => P s ∧ Q s where
  toUnitClosed := hp.toUnitClosed.and hq.toUnitClosed
  reader _ _ _ h hc := ⟨hp.reader _ _ _ h.1 hc, hq.reader _ _ _ h.2 hc⟩

theorem WriteClosed.and (hp : WriteClosed P) (hq : WriteClosed Q) : WriteClosed fun s => P s ∧ Q s where
  toUnitClosed := hp.toUnitClosed.and hq.toUnitClosed
  bit _ _ h hl := ⟨hp.bit _ _ h.1 hl, hq.bit _ _ h.2 hl⟩
  emit _ _ h hl := ⟨hp.emit _ _ h.1 hl, hq.emit _ _ h.2 hl⟩
  buffer _ _ _ h := ⟨hp.buffer _ _ _ h.1, hq.buffer _ _ _ h.2⟩
  drained _ h := ⟨hp.drained _ h.1, hq.drained _ h.2⟩

theorem SetupClosed.and (hp : SetupClosed P) (hq : SetupClosed Q) : SetupClosed fun s => P s ∧ Q s where
  toWriteClosed := hp.toWriteClosed.and hq.toWriteClosed
  traits _ _ h := ⟨hp.traits _ _ h.1, hq.traits _ _ h.2⟩
  table _ _ h := ⟨hp.table _ _ h.1, hq.table _ _ h.2⟩
  ctxInit _ _ h := ⟨hp.ctxInit _ _ h.1, hq.ctxInit _ _ h.2⟩
  rctxInit _ _ h := ⟨hp.rctxInit _ _ h.1, hq.rctxInit _ _ h.2⟩
  place _ _ h := ⟨hp.place _ _ h.1, hq.place _ _ h.2⟩
  open' _ _ _ h := ⟨hp.open' _ _ _ h.1, hq.open' _ _ _ h.2⟩
  position _ _ h := ⟨hp.position _ _ h.1, hq.position _ _ h.2⟩
  close _ h := ⟨hp.close _ h.1, hq.close _ h.2⟩

theorem ScanClosed.and (hp : ScanClosed P) (hq : ScanClosed Q) : ScanClosed fun s => P s ∧ Q s where
  prev _ _ _ _ h := ⟨hp.prev _ _ _ _ h.1, hq.prev _ _ _ _ h.2⟩
  seq _ _ h := ⟨hp.seq _ _ h.1, hq.seq _ _ h.2⟩
  load _ _ h := ⟨hp.load _ _ h.1, hq.load _ _ h.2⟩
  store _ _ h := ⟨hp.store _ _ h.1, hq.store _ _ h.2⟩

theorem DirClosed.and {d : Bool} (hp : DirClosed d P) (hq : DirClosed d Q) : DirClosed d fun s => P s ∧ Q s where
  dir _ h := hp.dir _ h.1
  read h := (hp.read h).and (hq.read h)
  write h := (hp.write h).and (hq.write h)
  scan := hp.scan.and hq.scan
  deliver h _ _ _ hs := ⟨hp.deliver h _ _ _ hs.1, hq.deliver h _ _ _ hs.2⟩

/-! ## `SR0.busy` -/

theorem busy_reading (b : Bool) : ReadClosed fun s => s.busy = b where
  work _ _ h := h
  result _ _ h := h
  ctx _ _ _ h := h
  rctx _ _ _ _ h := h
  inc _ h := h
  dec _ h := h
  cur _ _ _ _ h := h
  reader _ _ _ h _ := h

theorem busy_writing (b : Bool) : WriteClosed fun s => s.busy = b where
  toUnitClosed := (busy_reading b).toUnitClosed
  bit _ _ h _ := h
  emit _ _ h _ := h
  buffer _ _ _ h := h
  drained _ h := h

theorem busy_scanning (b : Bool) : ScanClosed fun s => s.busy = b where
  prev _ _ _ _ h := h
  seq _ _ h := h
  load _ _ h := h
  store _ _ h := h

theorem busy_setups (b : Bool) : SetupClosed fun s => s.busy = b where
  toWriteClosed := busy_writing b
  traits _ _ h := h
  table _ _ h := h
  ctxInit _ _ h := h
  rctxInit _ _ h := h
  place _ _ h := h
  open' _ _ _ h := h
  position _ _ h := h
  close _ h := h

/-! ## The parameters -/

/-- The parameter registers are those of `s`. -/
def SameParams (s t : State) : Prop := t.pr = s.pr ∧ t.configured = s.configured

theorem params_reading (s : State) : ReadClosed (SameParams s) where
  work _ _ h := h
  result _ _ h := h
  ctx _ _ _ h := h
  rctx _ _ _ _ h := h
  inc _ h := h
  dec _ h := h
  cur _ _ _ _ h := h
  reader _ _ _ h _ := h

theorem params_writing (s : State) : WriteClosed (SameParams s) where
  toUnitClosed := (params_reading s).toUnitClosed
  bit _ _ h _ := h
  emit _ _ h _ := h
  buffer _ _ _ h := h
  drained _ h := h

theorem params_scanning (s : State) : ScanClosed (SameParams s) where
  prev _ _ _ _ h := h
  seq _ _ h := h
  load _ _ h := h
  store _ _ h := h

theorem params_setups (s : State) : SetupClosed (SameParams s) where
  toWriteClosed := params_writing s
  traits _ _ h := h
  table _ _ h := h
  ctxInit _ _ h := h
  rctxInit _ _ h := h
  place _ _ h := h
  open' _ _ _ h := h
  position _ _ h := h
  close _ h := h

/-! ## What the line operations keep -/

theorem Kept.refl (s : State) : Kept s s :=
  ⟨rfl, rfl, rfl, rfl, rfl, rfl, rfl, rfl, rfl, rfl, rfl, rfl, rfl, rfl, rfl, rfl⟩

theorem KeptLine.refl (s : State) : KeptLine s s := ⟨Kept.refl s, rfl, rfl, rfl, rfl⟩

theorem kept_reading (s : State) : ReadClosed (Kept s) where
  work _ _ h := ⟨h.1, h.2, h.3, h.4, h.5, h.6, h.7, h.8, h.9, h.10, h.11, h.12, h.13, h.14, h.15, h.16⟩
  result _ _ h := ⟨h.1, h.2, h.3, h.4, h.5, h.6, h.7, h.8, h.9, h.10, h.11, h.12, h.13, h.14, h.15, h.16⟩
  ctx _ _ _ h := ⟨h.1, h.2, h.3, h.4, h.5, h.6, h.7, h.8, h.9, h.10, h.11, h.12, h.13, h.14, h.15, h.16⟩
  rctx _ _ _ _ h := ⟨h.1, h.2, h.3, h.4, h.5, h.6, h.7, h.8, h.9, h.10, h.11, h.12, h.13, h.14, h.15, h.16⟩
  inc _ h := ⟨h.1, h.2, h.3, h.4, h.5, h.6, h.7, h.8, h.9, h.10, h.11, h.12, h.13, h.14, h.15, h.16⟩
  dec _ h := ⟨h.1, h.2, h.3, h.4, h.5, h.6, h.7, h.8, h.9, h.10, h.11, h.12, h.13, h.14, h.15, h.16⟩
  cur _ _ _ _ h := ⟨h.1, h.2, h.3, h.4, h.5, h.6, h.7, h.8, h.9, h.10, h.11, h.12, h.13, h.14, h.15, h.16⟩
  reader _ _ _ h _ := ⟨h.1, h.2, h.3, h.4, h.5, h.6, h.7, h.8, h.9, h.10, h.11, h.12, h.13, h.14, h.15, h.16⟩

theorem kept_writing (s : State) : WriteClosed (Kept s) where
  toUnitClosed := (kept_reading s).toUnitClosed
  bit _ _ h _ := ⟨h.1, h.2, h.3, h.4, h.5, h.6, h.7, h.8, h.9, h.10, h.11, h.12, h.13, h.14, h.15, h.16⟩
  emit _ _ h _ := ⟨h.1, h.2, h.3, h.4, h.5, h.6, h.7, h.8, h.9, h.10, h.11, h.12, h.13, h.14, h.15, h.16⟩
  buffer _ _ _ h := ⟨h.1, h.2, h.3, h.4, h.5, h.6, h.7, h.8, h.9, h.10, h.11, h.12, h.13, h.14, h.15, h.16⟩
  drained _ h := ⟨h.1, h.2, h.3, h.4, h.5, h.6, h.7, h.8, h.9, h.10, h.11, h.12, h.13, h.14, h.15, h.16⟩

theorem kept_scanning (s : State) : ScanClosed (Kept s) where
  prev _ _ _ _ h := ⟨h.1, h.2, h.3, h.4, h.5, h.6, h.7, h.8, h.9, h.10, h.11, h.12, h.13, h.14, h.15, h.16⟩
  seq _ _ h := ⟨h.1, h.2, h.3, h.4, h.5, h.6, h.7, h.8, h.9, h.10, h.11, h.12, h.13, h.14, h.15, h.16⟩
  load _ _ h := ⟨h.1, h.2, h.3, h.4, h.5, h.6, h.7, h.8, h.9, h.10, h.11, h.12, h.13, h.14, h.15, h.16⟩
  store _ _ h := ⟨h.1, h.2, h.3, h.4, h.5, h.6, h.7, h.8, h.9, h.10, h.11, h.12, h.13, h.14, h.15, h.16⟩

theorem Kept.deliver {s t : State} (h : Kept s t) (l : List Line) (r : Option Nat) :
    Kept s { t with lineDst := l, lineRoom := r } :=
  ⟨h.1, h.2, h.3, h.4, h.5, h.6, h.7, h.8, h.9, h.10, h.11, h.12, h.13, h.14, h.15, h.16⟩

theorem keptLine_reading (s : State) : ReadClosed (KeptLine s) where
  work _ w h := ⟨(kept_reading s).work _ w h.1, h.2, h.3, h.4, h.5⟩
  result _ r h := ⟨(kept_reading s).result _ r h.1, h.2, h.3, h.4, h.5⟩
  ctx _ q e h := ⟨(kept_reading s).ctx _ q e h.1, h.2, h.3, h.4, h.5⟩
  rctx _ t e m h := ⟨(kept_reading s).rctx _ t e m h.1, h.2, h.3, h.4, h.5⟩
  inc _ h := ⟨(kept_reading s).inc _ h.1, h.2, h.3, h.4, h.5⟩
  dec _ h := ⟨(kept_reading s).dec _ h.1, h.2, h.3, h.4, h.5⟩
  cur _ c j v h := ⟨(kept_reading s).cur _ c j v h.1, h.2, h.3, h.4, h.5⟩
  reader _ r n h hc := ⟨(kept_reading s).reader _ r n h.1 hc, h.2, h.3, h.4, h.5⟩

theorem keptLine_writing (s : State) : WriteClosed (KeptLine s) where
  toUnitClosed := (keptLine_reading s).toUnitClosed
  bit _ x h hl := ⟨(kept_writing s).bit _ x h.1 hl, h.2, h.3, h.4, h.5⟩
  emit _ b h hl := ⟨(kept_writing s).emit _ b h.1 hl, h.2, h.3, h.4, h.5⟩
  buffer _ v c h := ⟨(kept_writing s).buffer _ v c h.1, h.2, h.3, h.4, h.5⟩
  drained _ h := ⟨(kept_writing s).drained _ h.1, h.2, h.3, h.4, h.5⟩

/-! ## The sink, the reader, the lines -/

theorem keptSink_reading (s : State) : ReadClosed (KeptSink s) where
  work _ _ h := ⟨h.1, h.2⟩
  result _ _ h := ⟨h.1, h.2⟩
  ctx _ _ _ h := ⟨h.1, h.2⟩
  rctx _ _ _ _ h := ⟨h.1, h.2⟩
  inc _ h := ⟨h.1, h.2⟩
  dec _ h := ⟨h.1, h.2⟩
  cur _ _ _ _ h := ⟨h.1, h.2⟩
  reader _ _ _ h _ := ⟨h.1, h.2⟩

theorem keptSink_scanning (s : State) : ScanClosed (KeptSink s) where
  prev _ _ _ _ h := ⟨h.1, h.2⟩
  seq _ _ h := ⟨h.1, h.2⟩
  load _ _ h := ⟨h.1, h.2⟩
  store _ _ h := ⟨h.1, h.2⟩

/-- The reader has only moved forward, in the same data. -/
def ReadsForward (s t : State) : Prop :=
  s.rd.rp ≤ t.rd.rp ∧ t.rd.rstart = s.rd.rstart ∧ t.rd.rend = s.rd.rend

theorem readsForward_reading (s : State) : ReadClosed (ReadsForward s) where
  work _ _ h := h
  result _ _ h := h
  ctx _ _ _ h := h
  rctx _ _ _ _ h := h
  inc _ h := h
  dec _ h := h
  cur _ _ _ _ h := h
  reader _ _ _ h hc := ⟨h.1.trans (by rw [setReader_rd, hc.rp]; omega), hc.rstart.trans h.2.1, hc.rend.trans h.2.2⟩

/-- The reader and the lines delivered are those of `s`. -/
def SameReader (s t : State) : Prop := t.rd = s.rd ∧ t.lineDst = s.lineDst

theorem sameReader_writing (s : State) : WriteClosed (SameReader s) where
  work _ _ h := h
  result _ _ h := h
  ctx _ _ _ h := h
  rctx _ _ _ _ h := h
  inc _ h := h
  dec _ h := h
  cur _ _ _ _ h := h
  bit _ _ h _ := h
  emit _ _ h _ := h
  buffer _ _ _ h := h
  drained _ h := h

theorem sameReader_scanning (s : State) : ScanClosed (SameReader s) where
  prev _ _ _ _ h := h
  seq _ _ h := h
  load _ _ h := h
  store _ _ h := h

/-- The sink is canonical, and only positions the writer moved over were written (R70). -/
def Stored (s t : State) : Prop := Memory.wf t.bs = true ∧ StoresForward s t

theorem StoresForward.refl (s : State) : StoresForward s s := ⟨le_rfl, fun _ _ => rfl, rfl, rfl⟩

theorem StoresForward.same {s t u : State} (h : StoresForward s t) (hb : u.bs = t.bs) (hw : SameStream t.wr u.wr) :
    StoresForward s u :=
  ⟨by rw [hw.wpos]; exact h.forward, fun a ha => by rw [hb]; exact h.bytes a (by rw [← hw.wpos]; exact ha),
    hw.wcap.trans h.wcap, hw.wstart.trans h.wstart⟩

theorem stored_writing (s : State) : WriteClosed (Stored s) where
  work _ _ h := ⟨h.1, h.2.same rfl (.refl _)⟩
  result _ _ h := ⟨h.1, h.2.same rfl (.refl _)⟩
  ctx _ _ _ h := ⟨h.1, h.2.same rfl (.refl _)⟩
  rctx _ _ _ _ h := ⟨h.1, h.2.same rfl (.refl _)⟩
  inc _ h := ⟨h.1, h.2.same rfl (.refl _)⟩
  dec _ h := ⟨h.1, h.2.same rfl (.refl _)⟩
  cur _ _ _ _ h := ⟨h.1, h.2.same rfl (.refl _)⟩
  bit t _ h _ := ⟨h.1, h.2.forward, h.2.bytes, h.2.wcap, h.2.wstart⟩
  emit t b h _ := by
    refine ⟨memWrite_wf h.1, Nat.le_succ_of_le h.2.forward, fun a ha => ?_, h.2.wcap, h.2.wstart⟩
    have hf := h.2.forward
    simp only [setWriter_wr] at ha
    simp only [setWriter_bs, setBytes_bs]
    rw [memRead_write h.1, if_neg (by omega)]
    exact h.2.bytes a (by omega)
  buffer _ v c h := ⟨h.1, h.2.same rfl (bufferGroup_same v c _)⟩
  drained _ h := ⟨h.1, h.2.same rfl (drainByte_same _)⟩

theorem stored_scanning (s : State) : ScanClosed (Stored s) where
  prev _ _ _ _ h := ⟨h.1, h.2.same rfl (.refl _)⟩
  seq _ _ h := ⟨h.1, h.2.same rfl (.refl _)⟩
  load _ _ h := ⟨h.1, h.2.same rfl (.refl _)⟩
  store _ _ h := ⟨h.1, h.2.same rfl (.refl _)⟩

/-- The reader and the line buffers are those of `s`. -/
def KeptBuffers (s t : State) : Prop := t.rd = s.rd ∧ t.buf = s.buf

theorem keptBuffers_arithmetic (s : State) : ArithClosed (KeptBuffers s) where
  work _ _ h := h
  result _ _ h := h
  ctx _ _ _ h := h
  rctx _ _ _ _ h := h
  inc _ h := h
  dec _ h := h

theorem ArithClosed.and (hp : ArithClosed P) (hq : ArithClosed Q) : ArithClosed fun s => P s ∧ Q s where
  work _ _ h := ⟨hp.work _ _ h.1, hq.work _ _ h.2⟩
  result _ _ h := ⟨hp.result _ _ h.1, hq.result _ _ h.2⟩
  ctx _ _ _ h := ⟨hp.ctx _ _ _ h.1, hq.ctx _ _ _ h.2⟩
  rctx _ _ _ _ h := ⟨hp.rctx _ _ _ _ h.1, hq.rctx _ _ _ _ h.2⟩
  inc _ h := ⟨hp.inc _ h.1, hq.inc _ h.2⟩
  dec _ h := ⟨hp.dec _ h.1, hq.dec _ h.2⟩

end Sys2Proof.Machine
end

