-- ==== Sys2Proof/Laws/Params.lean ====
section
/-! SUPPORT. Legal parameter blocks (R5, R331), and the traits a scan sets up from one (R332). -/

namespace Sys2Proof.Machine

/-- The conditions of a legal block, on its resolved values. -/
theorem legalParams_iff {b : Build} {p : Params} : legalParams b p = true ↔
    (1 ≤ p.width ∧ 1 ≤ p.height ∧ 2 ≤ p.bps ∧ p.bps ≤ 16 ∧ 1 ≤ p.ncomp ∧
      (p.ilv = .sample → p.ncomp = 3) ∧ p.width ≤ b.maxDim ∧ p.height ≤ b.maxDim ∧ p.ncomp ≤ b.maxComp) ∧
    (3 ≤ resolvedMaxVal p ∧ resolvedMaxVal p ≤ 2 ^ p.bps - 1 ∧ p.near ≤ (resolvedMaxVal p - 1) / 2 ∧
      ¬(resolvedMaxVal p = 4 ∧ p.near = 0) ∧ (p.reset = 0 ∨ 3 ≤ p.reset ∧ p.reset ≤ 255) ∧
      p.near + 1 ≤ resolvedT1 p ∧ resolvedT1 p ≤ resolvedT2 p ∧ resolvedT2 p ≤ resolvedT3 p ∧
      resolvedT3 p ≤ resolvedMaxVal p) ∧
    p.rectX + p.rectW ≤ p.width ∧ p.rectY + p.rectH ≤ p.height ∧ 1 ≤ p.rectW ∧ 1 ≤ p.rectH := by
  have himg : legalImage b p = true ↔ 1 ≤ p.width ∧ 1 ≤ p.height ∧ 2 ≤ p.bps ∧
      p.bps ≤ 16 ∧ 1 ≤ p.ncomp ∧ (p.ilv = .sample → p.ncomp = 3) ∧ p.width ≤ b.maxDim ∧
      p.height ≤ b.maxDim ∧ p.ncomp ≤ b.maxComp := by
    simp only [legalImage, legalSize, Bool.and_eq_true, decide_eq_true_eq, Bool.or_eq_true, ne_eq, and_assoc,
      imp_iff_not_or]
    tauto
  have hrect : legalRect p = true ↔ p.rectX + p.rectW ≤ p.width ∧ p.rectY + p.rectH ≤ p.height ∧ 1 ≤ p.rectW ∧
      1 ≤ p.rectH := by
    simp only [legalRect, Bool.and_eq_true, decide_eq_true_eq, and_assoc]
  have hcode : legalCoding p = true ↔ 3 ≤ resolvedMaxVal p ∧ resolvedMaxVal p ≤ 2 ^ p.bps - 1 ∧
      p.near ≤ (resolvedMaxVal p - 1) / 2 ∧ ¬(resolvedMaxVal p = 4 ∧ p.near = 0) ∧
      (p.reset = 0 ∨ 3 ≤ p.reset ∧ p.reset ≤ 255) ∧ p.near + 1 ≤ resolvedT1 p ∧ resolvedT1 p ≤ resolvedT2 p ∧
      resolvedT2 p ≤ resolvedT3 p ∧ resolvedT3 p ≤ resolvedMaxVal p := by
    simp only [legalCoding, legalPreset, Bool.and_eq_true, decide_eq_true_eq, Bool.or_eq_true, Bool.not_eq_true',
      Bool.and_eq_false_iff, decide_eq_false_iff_not]
    have h1 : resolvedT1 p = if p.t1 = 0 then defaultT1 (resolvedMaxVal p) p.near else p.t1 := rfl
    have h2 : resolvedT2 p = if p.t2 = 0 then defaultT2 (resolvedMaxVal p) p.near else p.t2 := rfl
    have h3 : resolvedT3 p = if p.t3 = 0 then defaultT3 (resolvedMaxVal p) p.near else p.t3 := rfl
    generalize resolvedT1 p = u1 at *
    generalize resolvedT2 p = u2 at *
    generalize resolvedT3 p = u3 at *
    generalize resolvedMaxVal p = m at *
    split at h1 <;> split at h2 <;> split at h3 <;> omega
  rw [legalParams, Bool.and_eq_true, Bool.and_eq_true, himg, hcode, hrect, and_assoc]

/-- The traits of a legal block are good ones (R130, R142). -/
theorem scanTraits_good {b : Build} {p : Params} (h : legalParams b p = true) : GoodTraits (scanTraits p) := by
  obtain ⟨⟨-, -, -, hb, -⟩, ⟨h3, hm, hn, h4, hr, t1, t12, t23, t3⟩, -⟩ := legalParams_iff.1 h
  have hpow : 2 ^ p.bps ≤ 2 ^ 16 := Nat.pow_le_pow_right (by decide) hb
  refine { legal := ?_, notFour := h4, range := rfl, qbpp := rfl, bpp := rfl, limit := rfl, t1 := t1, t12 := t12,
           t23 := t23, t3 := t3 }
  refine legalTraits_iff.2 ⟨h3, by change resolvedMaxVal p ≤ 65535; omega, hn, ?_⟩
  change 3 ≤ resolvedReset p ∧ resolvedReset p ≤ 255
  unfold resolvedReset Config.defaultReset
  split <;> omega

end Sys2Proof.Machine
end

