-- ==== Sys2Proof/Laws/RunMode.lean ====
section
/-! SUPPORT. Run mode: the run length, the run-interruption error and the run-interruption sample are coded and read back
(`47_run_mode.md` R303 to R308). -/

namespace Sys2Proof.Machine

theorem jOf_le (r : Nat) : jOf r ≤ 15 := by
  have h : ∀ r < 32, jOf r ≤ 15 := by decide
  by_cases hr : r < 32
  · exact h r hr
  · unfold jOf
    rw [List.getD_eq_default _ _ (by simpa [jTable] using hr)]

/-! ## The run length (R303, R304) -/

theorem segmentBits_le (fuel n r : Nat) :
    (segmentBits fuel n r).1.length + (segmentBits fuel n r).2.1 ≤ n := by
  induction fuel generalizing n r with
  | zero => simp [segmentBits]
  | succ fuel ih =>
    unfold segmentBits
    split
    · have := ih (n - 2 ^ jOf r) (min 31 (r + 1))
      have := Nat.two_pow_pos (jOf r)
      simp only [List.length_cons]
      omega
    · simp

theorem segmentBits_index (fuel n r : Nat) (hr : r ≤ 31) : (segmentBits fuel n r).2.2 ≤ 31 := by
  induction fuel generalizing n r with
  | zero => exact hr
  | succ fuel ih =>
    unfold segmentBits
    split
    · exact ih _ _ (Nat.min_le_left _ _)
    · exact hr

/-- What the segments leave is less than one (R303). -/
theorem segmentBits_left {fuel n r : Nat} (h : n ≤ fuel) :
    (segmentBits fuel n r).2.1 < 2 ^ jOf (segmentBits fuel n r).2.2 := by
  induction fuel generalizing n r with
  | zero =>
    simp only [segmentBits]
    have := Nat.two_pow_pos (jOf r)
    omega
  | succ fuel ih =>
    unfold segmentBits
    have := Nat.two_pow_pos (jOf r)
    split
    · exact ih (by omega)
    · simp only; omega

theorem lengthIndex_le {r n : Nat} (hr : r ≤ 31) : lengthIndex r n ≤ 31 := segmentBits_index n n r hr

theorem lengthBits_length_le (r n : Nat) (eol : Bool) : (lengthBits r n eol).length ≤ n + 16 := by
  have h := segmentBits_le n n r
  have hj := jOf_le (segmentBits n n r).2.2
  unfold lengthBits
  simp only
  split
  · split <;> simp <;> omega
  · simp; omega

/-- A run that ends its line takes at most one bit an element. -/
theorem lengthBits_eol_le (r n : Nat) : (lengthBits r n true).length ≤ n := by
  have h := segmentBits_le n n r
  unfold lengthBits
  simp only [if_true]
  split <;> simp <;> omega

/-- The state after bits were appended and the run index moved. -/
theorem encodeSegments_ok {fuel n : Nat} {s : State} (hf : fits s.wr (segmentBits fuel n s.runindex).1) :
    ∃ v, Appended s.wr (segmentBits fuel n s.runindex).1 v ∧ encodeSegments fuel n s =
      .ok ((segmentBits fuel n s.runindex).2.1,
        { afterAppend s (segmentBits fuel n s.runindex).1 v with runindex := (segmentBits fuel n s.runindex).2.2 }) := by
  induction fuel generalizing n s with
  | zero => exact ⟨s.wr, .refl _, rfl⟩
  | succ fuel ih =>
    by_cases hle : 2 ^ jOf s.runindex ≤ n
    · have hseg : segmentBits (fuel + 1) n s.runindex =
          (true :: (segmentBits fuel (n - 2 ^ jOf s.runindex) (min 31 (s.runindex + 1))).1,
            (segmentBits fuel (n - 2 ^ jOf s.runindex) (min 31 (s.runindex + 1))).2) := by
        rw [segmentBits, if_pos hle]
      rw [hseg] at hf ⊢
      have hpl := plainAppend_appended s.wr [true]
      obtain ⟨v, hv, he⟩ := appendGroup_ok (value := 1) (count := 1) (s := s) (by decide) (by decide)
        (fits_append hpl hf).1
      obtain ⟨u, hu, he'⟩ := ih (s := incIdx (afterAppend s [true] v)) (n := n - 2 ^ jOf s.runindex)
        (fits_append hv hf).2
      refine ⟨u, hv.trans hu, ?_⟩
      have hn : 2 ^ jNow s ≤ n := hle
      rw [encodeSegments, if_pos hn]
      simp only
      rw [he, ok_bind]
      refine he'.trans ?_
      simp only
      rw [show ∀ l, afterAppend s (true :: l) u = afterAppend (afterAppend s [true] v) l u from
        fun l => (afterAppend_trans hv).symm]
      rfl
    · have hseg : segmentBits (fuel + 1) n s.runindex = ([], n, s.runindex) := by rw [segmentBits, if_neg hle]
      rw [hseg]
      refine ⟨s.wr, .refl _, ?_⟩
      have hn : ¬2 ^ jNow s ≤ n := hle
      rw [encodeSegments, if_neg hn]
      rfl

/-- `RN.ENCLEN` where its bits fit (R303). -/
theorem encodeLength_ok {n : Nat} {eol : Bool} {s : State} (hf : fits s.wr (lengthBits s.runindex n eol)) :
    ∃ v, Appended s.wr (lengthBits s.runindex n eol) v ∧ encodeLength n eol s =
      .ok { afterAppend s (lengthBits s.runindex n eol) v with runindex := lengthIndex s.runindex n } := by
  unfold lengthBits at hf ⊢
  simp only at hf ⊢
  have hpl := plainAppend_appended s.wr (segmentBits n n s.runindex).1
  obtain ⟨v, hv, he⟩ := encodeSegments_ok (fits_append hpl hf).1
  have hleft := segmentBits_left (r := s.runindex) (Nat.le_refl n)
  have hfit := (fits_append hv hf).2
  unfold encodeLength lengthIndex
  rw [he, ok_bind]
  simp only
  have key : ∀ (value count : Nat), count ≤ 31 → value < 2 ^ count → fits v (bitsOf value count) →
      ∃ u, Appended s.wr ((segmentBits n n s.runindex).1 ++ bitsOf value count) u ∧
        appendGroup value count { afterAppend s (segmentBits n n s.runindex).1 v with
          runindex := (segmentBits n n s.runindex).2.2 } =
        .ok { afterAppend s ((segmentBits n n s.runindex).1 ++ bitsOf value count) u with
          runindex := (segmentBits n n s.runindex).2.2 } := by
    intro value count hc hval hfit
    obtain ⟨u, hu, hg⟩ := appendGroup_ok (s := { afterAppend s (segmentBits n n s.runindex).1 v with
      runindex := (segmentBits n n s.runindex).2.2 }) hc hval hfit
    refine ⟨u, hv.trans hu, ?_⟩
    rw [hg, ← afterAppend_trans hv]
    rfl
  cases eol with
  | true =>
    simp only [if_true] at hfit ⊢
    by_cases h0 : (segmentBits n n s.runindex).2.1 = 0
    · simp only [h0, ne_eq, not_true_eq_false, if_false, List.append_nil]
      exact ⟨v, hv, rfl⟩
    · simp only [ne_eq, h0, not_false_eq_true, if_true] at hfit ⊢
      exact key 1 1 (by decide) (by decide) hfit
  | false =>
    simp only [Bool.false_eq_true, if_false] at hfit ⊢
    have hb : false :: bitsOf (segmentBits n n s.runindex).2.1 (jOf (segmentBits n n s.runindex).2.2) =
        bitsOf (segmentBits n n s.runindex).2.1 (jOf (segmentBits n n s.runindex).2.2 + 1) := by
      rw [bitsOf, Nat.testBit_lt_two_pow hleft]
    rw [hb] at hfit ⊢
    have hj := jOf_le (segmentBits n n s.runindex).2.2
    exact key _ _ (by omega) (hleft.trans (Nat.pow_lt_pow_right (by decide) (Nat.lt_succ_self _))) hfit

/-- The first bits of a run length, and the samples they stand for (R304). -/
theorem decodeSegments_ok {rem fuelS fuel n idx : Nat} {s : State} {rest : List Bool} (hs : n ≤ fuelS) (hf : n < fuel)
    (hi : idx < rem) (hn : idx + n ≤ rem)
    (hr : remaining s = (segmentBits fuelS n s.runindex).1 ++ ((if idx + n = rem then
      (if (segmentBits fuelS n s.runindex).2.1 ≠ 0 then [true] else []) else [false]) ++ rest)) :
    ∃ r, Consumed s.rd ((segmentBits fuelS n s.runindex).1 ++ (if idx + n = rem then
        (if (segmentBits fuelS n s.runindex).2.1 ≠ 0 then [true] else []) else [false])).length r ∧
      decodeSegments rem fuel idx s = .ok (if idx + n = rem then rem else idx + n - (segmentBits fuelS n s.runindex).2.1,
        { s with rd := r, runindex := (segmentBits fuelS n s.runindex).2.2 }) := by
  induction fuelS generalizing n idx fuel s with
  | zero =>
    obtain ⟨fuel, rfl⟩ : ∃ f, fuel = f + 1 := ⟨fuel - 1, by omega⟩
    obtain rfl : n = 0 := by omega
    rw [if_neg (by omega)] at hr ⊢
    obtain ⟨r, hc, he⟩ := readBit_ok (s := s) (b := false) (rest := rest) hr
    refine ⟨r, hc, ?_⟩
    rw [decodeSegments, he, ok_bind, if_neg (by omega)]
    rfl
  | succ fuelS ih =>
    obtain ⟨fuel, rfl⟩ : ∃ f, fuel = f + 1 := ⟨fuel - 1, by omega⟩
    have hpos := Nat.two_pow_pos (jOf s.runindex)
    by_cases hle : 2 ^ jOf s.runindex ≤ n
    · have hseg : segmentBits (fuelS + 1) n s.runindex =
          (true :: (segmentBits fuelS (n - 2 ^ jOf s.runindex) (min 31 (s.runindex + 1))).1,
            (segmentBits fuelS (n - 2 ^ jOf s.runindex) (min 31 (s.runindex + 1))).2) := by
        rw [segmentBits, if_pos hle]
      rw [hseg] at hr ⊢
      obtain ⟨r, hc, he⟩ := readBit_ok (s := s) hr
      have hmin : min (2 ^ jNow (setReader s r)) (rem - idx) = 2 ^ jNow (setReader s r) :=
        Nat.min_eq_left (show 2 ^ jOf s.runindex ≤ rem - idx by omega)
      rw [decodeSegments, he, ok_bind]
      simp only [hmin, if_true]
      have hrem : remaining (incIdx (setReader s r)) =
          (segmentBits fuelS (n - 2 ^ jOf s.runindex) (min 31 (s.runindex + 1))).1 ++ ((if idx + n = rem then
            (if (segmentBits fuelS (n - 2 ^ jOf s.runindex) (min 31 (s.runindex + 1))).2.1 ≠ 0 then [true] else [])
            else [false]) ++ rest) := by
        refine (remaining_congr (s := setReader s r) rfl rfl).trans ?_
        rw [remaining_consumed hc, hr]
        rfl
      by_cases hend : idx + 2 ^ jOf s.runindex = rem
      · have hz : n - 2 ^ jOf s.runindex = 0 := by omega
        have hnil : segmentBits fuelS 0 (min 31 (s.runindex + 1)) = ([], 0, min 31 (s.runindex + 1)) := by
          cases fuelS with
          | zero => rfl
          | succ f =>
            have := Nat.two_pow_pos (jOf (min 31 (s.runindex + 1)))
            rw [segmentBits, if_neg (by omega)]
        rw [hz, hnil]
        refine ⟨r, ?_, ?_⟩
        · rw [if_pos (by omega)]; exact hc
        · rw [if_pos (show idx + 2 ^ jNow (setReader s r) = rem from hend), if_pos (by omega),
            show idx + 2 ^ jNow (setReader s r) = rem from hend]
          rfl
      · rw [if_neg (show ¬idx + 2 ^ jNow (setReader s r) = rem from hend)]
        have hsum : idx + 2 ^ jOf s.runindex + (n - 2 ^ jOf s.runindex) = idx + n := by omega
        obtain ⟨u, hu, hd⟩ := ih (s := incIdx (setReader s r)) (n := n - 2 ^ jOf s.runindex) (fuel := fuel)
          (idx := idx + 2 ^ jOf s.runindex) (by omega) (by omega) (by omega) (by omega) (by rw [hsum]; exact hrem)
        rw [hsum] at hu hd
        refine ⟨u, ?_, hd⟩
        have := hc.trans hu
        rw [List.cons_append, List.length_cons, Nat.add_comm]
        exact this
    · have hseg : segmentBits (fuelS + 1) n s.runindex = ([], n, s.runindex) := by rw [segmentBits, if_neg hle]
      rw [hseg] at hr ⊢
      simp only [List.nil_append] at hr ⊢
      by_cases hend : idx + n = rem
      · have hn0 : n ≠ 0 := by omega
        simp only [if_pos hend, ne_eq, hn0, not_false_eq_true, if_true] at hr ⊢
        obtain ⟨r, hc, he⟩ := readBit_ok (s := s) hr
        refine ⟨r, hc, ?_⟩
        have hmin : min (2 ^ jNow (setReader s r)) (rem - idx) = n :=
          (Nat.min_eq_right (show rem - idx ≤ 2 ^ jOf s.runindex by omega)).trans (by omega)
        rw [decodeSegments, he, ok_bind]
        simp only [hmin, if_true]
        rw [if_neg (show ¬n = 2 ^ jNow (setReader s r) from fun h => hle (Nat.le_of_eq h.symm)), if_pos hend, hend]
        rfl
      · simp only [if_neg hend] at hr ⊢
        obtain ⟨r, hc, he⟩ := readBit_ok (s := s) (b := false) (rest := rest) hr
        refine ⟨r, hc, ?_⟩
        rw [decodeSegments, he, ok_bind]
        simp only [Bool.false_eq_true, if_false, Nat.add_sub_cancel]
        rfl

/-- `RN.DECLEN` reads back the run length `RN.ENCLEN` wrote (R304). -/
theorem decodeLength_ok {rem n : Nat} {s : State} {rest : List Bool} (h1 : 1 ≤ rem) (hn : n ≤ rem)
    (hr : remaining s = lengthBits s.runindex n (decide (n = rem)) ++ rest) :
    ∃ r, Consumed s.rd (lengthBits s.runindex n (decide (n = rem))).length r ∧ decodeLength rem s =
      .ok { s with rd := r, runindex := lengthIndex s.runindex n, w := { s.w with runlen := n } } := by
  have hleft := segmentBits_left (r := s.runindex) (Nat.le_refl n)
  have hle := segmentBits_le n n s.runindex
  unfold lengthBits at hr ⊢
  unfold lengthIndex
  simp only [decide_eq_true_eq] at hr ⊢
  by_cases hend : n = rem
  · simp only [if_pos hend] at hr ⊢
    obtain ⟨r, hc, he⟩ := decodeSegments_ok (s := s) (fuelS := n) (fuel := rem + 1) (n := n) (idx := 0) (rem := rem)
      (rest := rest) (Nat.le_refl n) (by omega) (by omega) (by omega) (by
        rw [hr, if_pos (show 0 + n = rem by omega), List.append_assoc])
    rw [if_pos (show 0 + n = rem by omega)] at hc he
    refine ⟨r, hc, ?_⟩
    rw [decodeLength, he, ok_bind]
    simp only [readRemainder, ne_eq, not_true_eq_false, false_and, if_false, ok_bind, Nat.add_zero, Nat.lt_irrefl]
    rw [← hend]
    rfl
  · simp only [if_neg hend] at hr ⊢
    obtain ⟨r, hc, he⟩ := decodeSegments_ok (s := s) (fuelS := n) (fuel := rem + 1) (n := n) (idx := 0) (rem := rem)
      (rest := bitsOf (segmentBits n n s.runindex).2.1 (jOf (segmentBits n n s.runindex).2.2) ++ rest)
      (Nat.le_refl n) (by omega) (by omega) (by omega) (by
        rw [hr, if_neg (show ¬0 + n = rem by omega), List.append_assoc]; rfl)
    rw [if_neg (show ¬0 + n = rem by omega)] at hc he
    have hrem : remaining { s with rd := r, runindex := (segmentBits n n s.runindex).2.2 } =
        bitsOf (segmentBits n n s.runindex).2.1 (jOf (segmentBits n n s.runindex).2.2) ++ rest := by
      refine (remaining_congr (s := setReader s r) rfl rfl).trans ?_
      rw [remaining_consumed hc, hr]
      simp
    rw [decodeLength, he, ok_bind]
    simp only [readRemainder, jNow, Nat.zero_add]
    by_cases hj : 0 < jOf (segmentBits n n s.runindex).2.2
    · have hjle := jOf_le (segmentBits n n s.runindex).2.2
      obtain ⟨u, hu, hv⟩ := readValue_ok (by rw [bitsOf_length]; omega) hrem
      rw [bitsOf_length] at hu hv
      rw [if_pos ⟨by omega, hj⟩, hv, ok_bind, bitsVal_bitsOf hleft]
      simp only
      rw [Nat.sub_add_cancel (by omega), if_neg (by omega)]
      refine ⟨u, ?_, rfl⟩
      have := hc.trans hu
      simpa [Nat.add_assoc, Nat.add_comm 1] using this
    · have hj0 : jOf (segmentBits n n s.runindex).2.2 = 0 := by omega
      rw [hj0, pow_zero] at hleft
      have h0 : (segmentBits n n s.runindex).2.1 = 0 := by omega
      rw [if_neg (by omega), ok_bind]
      simp only [h0, Nat.sub_zero, Nat.add_zero]
      rw [if_neg (by omega)]
      refine ⟨r, ?_, rfl⟩
      simpa [h0, hj0, bitsOf] using hc

/-! ## The run-interruption error (R305, R306) -/

/-- The limit of a run-interruption codeword, as a natural number. -/
def riGlimit (s : State) : Nat := s.tr.limit - jOf s.runindex - 1

theorem riLimit_eq {s : State} (hb : TraitsBounds s.tr) : riLimit s = (riGlimit s : Int) := by
  have := jOf_le s.runindex; have := hb.limitLow
  unfold riLimit riGlimit jNow; omega

/-- Every run-interruption error gives a codeword (R305). -/
theorem encodable_ri {s : State} (hb : TraitsBounds s.tr) {k m : Nat} (hk : k ≤ 25) (hm : m ≤ s.tr.range) :
    encodable k m (riGlimit s) s.tr.qbpp := by
  have h1 := hb.rangePow; have h2 := hb.qbppLow; have h3 := hb.qbppHigh; have h4 := hb.limitHigh; have h5 := hb.room
  have hj := jOf_le s.runindex
  unfold riGlimit
  have hd : m / 2 ^ k ≤ m := Nat.div_le_self _ _
  refine ⟨by omega, by omega, by omega, ?_⟩
  generalize hx : m / 2 ^ k = x at *
  split
  · omega
  · refine ⟨?_, by omega, by omega⟩
    by_contra hc
    obtain rfl : m = 0 := by omega
    simp at hx
    omega

/-- The bits of one mapped value are at most 90 (R407). -/
theorem valueBits_length_le {k m glimit q : Nat} (hk : k ≤ 25) (hq : q ≤ 16) (hg : glimit ≤ 64) (hq1 : q + 2 ≤ glimit) :
    (valueBits k m glimit q).length ≤ 90 := by
  unfold valueBits
  split
  · simp only [List.length_append, List.length_replicate, List.length_cons, bitsOf_length]; omega
  · simp only [List.length_append, List.length_replicate, List.length_cons, bitsOf_length]; omega

/-- The mapped value of a run-interruption error. -/
def riMapped (t : Nat) (err : Int) (k : Nat) (s : State) : Nat := (emErrval t err (mapBit (rctxAt s t) err k)).toNat

theorem riMapped_le {t : Nat} {err : Int} {k : Nat} {s : State} (he : 2 * err.natAbs ≤ s.tr.range) :
    riMapped t err k s ≤ s.tr.range := by
  unfold riMapped emErrval; omega

/-- The bits of a run-interruption error. -/
def riBits (t : Nat) (err : Int) (k : Nat) (s : State) : List Bool :=
  valueBits k (riMapped t err k s) (riGlimit s) s.tr.qbpp

/-- The context after a run-interruption error. -/
def riContext (t : Nat) (err : Int) (k : Nat) (s : State) : RunCtx :=
  updateRun t s.tr.reset (rctxAt s t) err (riMapped t err k s)

/-- `RN.ENCRIERR` where its codeword fits (R305). -/
theorem encodeRiError_ok {t k : Nat} {err : Int} {s : State} (hb : TraitsBounds s.tr)
    (hk : golombK (rctxAt s t).n (runTemp t (rctxAt s t)) = some k) (hle : k ≤ 25) (he : 2 * err.natAbs ≤ s.tr.range)
    (ht : t = 0 ∨ (t = 1 ∧ err ≠ 0)) (hf : fits s.wr (riBits t err k s)) :
    ∃ v, Appended s.wr (riBits t err k s) v ∧ encodeRiError t err s =
      .ok (setWork (setRctx (afterAppend s (riBits t err k s) v) t (riContext t err k s)) { s.w with k := k }) := by
  have hn : 0 ≤ emErrval t err (mapBit (rctxAt s t) err k) := emErrval_nonneg ht
  obtain ⟨v, hv, hev⟩ := encodeValue_ok (s := setK s k) (encodable_ri (s := s) hb hle (riMapped_le he)) hf
  refine ⟨v, hv, ?_⟩
  rw [encodeRiError, getRunK, hk]
  simp only [ok_bind]
  rw [require_bind, if_pos (show decide (0 ≤ emErrval t err (mapBit (rctxAt (setK s k) t) err (setK s k).w.k)) = true from
    decide_eq_true hn), show riLimit (setK s k) = (riGlimit s : Int) from riLimit_eq hb]
  change (encodeValue k (riMapped t err k s) (riGlimit s : Int) (setK s k) >>= _) = _
  rw [hev]
  rfl

/-- `RN.DECRIERR` on the codeword of an error (R306). -/
theorem decodeRiError_ok {t k : Nat} {err : Int} {s : State} {rest : List Bool} (hb : TraitsBounds s.tr)
    (hk : golombK (rctxAt s t).n (runTemp t (rctxAt s t)) = some k) (hle : k ≤ 25) (he : 2 * err.natAbs ≤ s.tr.range)
    (ht : t = 0 ∨ (t = 1 ∧ err ≠ 0)) (hr : remaining s = riBits t err k s ++ rest) :
    ∃ r, Consumed s.rd (riBits t err k s).length r ∧ decodeRiError t s =
      .ok (setWork (setRctx (setReader s r) t (riContext t err k s)) { s.w with k := k, err := err }) := by
  obtain ⟨r, hc, hd⟩ := decodeValue_valueBits (s := setK s k) (encodable_ri (s := s) hb hle (riMapped_le he)) hr
  refine ⟨r, hc, ?_⟩
  have hinv : runErrval (rctxAt s t) (riMapped t err k s + t) k = err := runErrval_emErrval ht
  have hmag : ¬Config.errMag < err.natAbs := by
    have := hb.rangeHigh; have := hb.maxHigh
    unfold Config.errMag; omega
  rw [decodeRiError, getRunK, hk]
  simp only [ok_bind]
  rw [show riLimit (setK s k) = (riGlimit s : Int) from riLimit_eq hb]
  change (decodeValue k (riGlimit s : Int) s.tr.qbpp (setK s k) >>= _) = _
  rw [hd]
  simp only [ok_bind]
  rw [show runErrval (rctxAt (setReader (setK s k) r) t) (riMapped t err k s + t) (setReader (setK s k) r).w.k = err from
    hinv, if_neg hmag]
  rfl

/-- `RN.DECRIERR` on a codeword whose error is too large (R306, R371). -/
theorem decodeRiError_large {t k em : Nat} {s : State} {rest : List Bool} (hb : TraitsBounds s.tr)
    (hk : golombK (rctxAt s t).n (runTemp t (rctxAt s t)) = some k) (hk31 : k ≤ 31)
    (he : em / 2 ^ k + s.tr.qbpp + 1 < riGlimit s) (hm : 65535 < (runErrval (rctxAt s t) (em + t) k).natAbs)
    (hr : remaining s = valueBits k em (riGlimit s) s.tr.qbpp ++ rest) :
    ∃ u, u.pr = s.pr ∧ u.bs = s.bs ∧ decodeRiError t s = raise .invalidCompressedData u := by
  obtain ⟨r, hc, hd⟩ := decodeValue_golombBits (s := setK s k) hk31 he hr
  refine ⟨setReader (setK s k) r, rfl, rfl, ?_⟩
  rw [decodeRiError, getRunK, hk]
  simp only [ok_bind]
  rw [show riLimit (setK s k) = (riGlimit s : Int) from riLimit_eq hb]
  change (decodeValue k (riGlimit s : Int) s.tr.qbpp (setK s k) >>= _) = _
  rw [hd]
  simp only [ok_bind]
  rw [if_pos (show Config.errMag < (runErrval (rctxAt (setReader (setK s k) r) t) (em + t) (setReader (setK s k) r).w.k).natAbs
    from hm)]

/-! ## The run-interruption sample (R307, R308) -/

/-- The prediction of a run-interruption sample: `Ra` where the two neighbours are near, else `Rb`. -/
def riBase (near : Nat) (ra rb : Int) : Int := if isNear near ra rb then ra else rb

/-- Its sign. -/
def riSign (near : Nat) (ra rb : Int) : Int := if isNear near ra rb then 1 else sgn1 (rb - ra)

/-- Its error. -/
def riError (t : Traits) (x ra rb : Int) : Int := errval t ((x - riBase t.near ra rb) * riSign t.near ra rb)

theorem sgn1_cases (a : Int) : sgn1 a = 1 ∨ sgn1 a = -1 := by unfold sgn1; split <;> simp

theorem riSign_cases (near : Nat) (ra rb : Int) : riSign near ra rb = 1 ∨ riSign near ra rb = -1 := by
  unfold riSign; split
  · simp
  · exact sgn1_cases _

theorem riBase_sample {t : Traits} {ra rb : Int} (ha : isSample t ra = true) (hr : isSample t rb = true) :
    isSample t (riBase t.near ra rb) = true := by unfold riBase; split <;> assumption

/-- The operand of `TR.ERRVAL` is in range (R122, R307). -/
theorem riDifference {t : Traits} {x ra rb : Int} (hx : isSample t x = true) (ha : isSample t ra = true)
    (hr : isSample t rb = true) : isDifference t ((x - riBase t.near ra rb) * riSign t.near ra rb) = true := by
  have hbase := riBase_sample ha hr
  rw [isSample_iff] at hx hbase
  rw [isDifference_iff]
  rcases riSign_cases t.near ra rb with h | h <;> rw [h] <;> constructor <;> omega

theorem riError_abs {t : Traits} (hb : TraitsBounds t) {x ra rb : Int} (hx : isSample t x = true)
    (ha : isSample t ra = true) (hr : isSample t rb = true) : 2 * (riError t x ra rb).natAbs ≤ t.range := by
  exact (errval_abs hb (riDifference hx ha hr)).1

/-- The rebuilt sample is within `near` of the input (R130, R307). -/
theorem ri_near {t : Traits} (hb : TraitsBounds t) {x ra rb : Int} (hx : isSample t x = true)
    (ha : isSample t ra = true) (hr : isSample t rb = true) :
    -(t.near : Int) ≤ recon t (riBase t.near ra rb) (riError t x ra rb * riSign t.near ra rb) - x ∧
      recon t (riBase t.near ra rb) (riError t x ra rb * riSign t.near ra rb) - x ≤ t.near := by
  exact recon_sign_near hb (riSign_cases _ _ _) hx (riBase_sample ha hr)

/-- Entry 1 codes an error that is not 0, where the sample is not near `Ra` (R305, R307). -/
theorem riType_ok {s : State} (hb : TraitsBounds s.tr) {x ra rb : Int} (hx : isSample s.tr x = true)
    (ha : isSample s.tr ra = true) (hn : isNear s.tr.near ra rb = true → isNear s.tr.near x ra = false) :
    riType s ra rb = 0 ∨ (riType s ra rb = 1 ∧ riError s.tr x ra rb ≠ 0) := by
  unfold riType riError riBase riSign
  by_cases h : isNear s.tr.near ra rb = true
  · rw [if_pos h, if_pos h, if_pos h]
    right
    refine ⟨rfl, ?_⟩
    rw [mul_one]
    rw [isSample_iff] at hx ha
    refine errval_ne_zero hb (isDifference_iff.2 (by omega)) ?_
    have := hn h
    simp only [isNear, decide_eq_false_iff_not, not_le] at this
    exact this
  · rw [if_neg h]; exact .inl rfl

/-- `RN.ENCRI`, its two cases at once (R307). -/
theorem encodeRi_eq (x ra rb : Int) (s : State) : encodeRi x ra rb s =
    reduceError ((x - riBase s.tr.near ra rb) * riSign s.tr.near ra rb) s >>= fun err =>
      encodeRiError (riType s ra rb) err (setWork s { s.w with err := err }) >>= fun s' =>
        reconstruct (riBase s.tr.near ra rb) (err * riSign s.tr.near ra rb) s' >>= fun rx =>
          .ok (setWork s' { s'.w with rx := rx }) := by
  unfold encodeRi riBase riSign riType
  split
  · simp only [mul_one]
  · rfl

/-- `RN.DECRI`, its two cases at once (R308). -/
theorem decodeRi_eq (ra rb : Int) (s : State) : decodeRi ra rb s =
    decodeRiError (riType s ra rb) s >>= fun s' =>
      reconstruct (riBase s.tr.near ra rb) (s'.w.err * riSign s.tr.near ra rb) s' >>= fun rx =>
        .ok (setWork s' { s'.w with rx := rx }) := by
  unfold decodeRi riBase riSign riType
  split
  · simp only [mul_one]
  · rfl

/-- `RN.ENCRI` where its codeword fits (R307). -/
theorem encodeRi_ok {x ra rb : Int} {k : Nat} {s : State} (hb : TraitsBounds s.tr)
    (hk : golombK (rctxAt s (riType s ra rb)).n (runTemp (riType s ra rb) (rctxAt s (riType s ra rb))) = some k)
    (hle : k ≤ 25) (hx : isSample s.tr x = true) (ha : isSample s.tr ra = true) (hr : isSample s.tr rb = true)
    (hn : isNear s.tr.near ra rb = true → isNear s.tr.near x ra = false)
    (hf : fits s.wr (riBits (riType s ra rb) (riError s.tr x ra rb) k s)) :
    ∃ v, Appended s.wr (riBits (riType s ra rb) (riError s.tr x ra rb) k s) v ∧ encodeRi x ra rb s =
      .ok (setWork (setRctx (afterAppend s (riBits (riType s ra rb) (riError s.tr x ra rb) k s) v) (riType s ra rb)
        (riContext (riType s ra rb) (riError s.tr x ra rb) k s)) { s.w with
          k := k
          err := riError s.tr x ra rb
          rx := recon s.tr (riBase s.tr.near ra rb) (riError s.tr x ra rb * riSign s.tr.near ra rb) }) := by
  have hab := riError_abs hb hx ha hr
  have ht := riType_ok hb hx ha hn
  obtain ⟨v, hv, he⟩ := encodeRiError_ok (s := setWork s { s.w with err := riError s.tr x ra rb }) hb hk hle hab ht hf
  refine ⟨v, hv, ?_⟩
  rw [encodeRi_eq, reduceError_ok hb (riDifference hx ha hr), ok_bind]
  change (encodeRiError (riType s ra rb) (riError s.tr x ra rb) (setWork s { s.w with err := riError s.tr x ra rb }) >>= _) =
    _
  rw [he, ok_bind, reconstruct_ok]
  · rfl
  · exact (riBase_sample ha hr : isSample s.tr _ = true)

/-- Entry 1 has no codeword for a sample near `Ra` (R10, R305). -/
theorem encodeRi_refused {x ra rb : Int} {k : Nat} {s : State} (hb : TraitsBounds s.tr)
    (hk : golombK (rctxAt s 1).n (runTemp 1 (rctxAt s 1)) = some k) (hx : isSample s.tr x = true)
    (ha : isSample s.tr ra = true) (hn : isNear s.tr.near ra rb = true) (hn' : isNear s.tr.near x ra = true) :
    encodeRi x ra rb s = refuse .escapeRange := by
  have h0 : errval s.tr (x - ra) = 0 := by
    rw [isSample_iff] at hx ha
    obtain ⟨q1, q2, q3, q4⟩ := qerr_spec hb (e := x - ra) (isDifference_iff.2 (by omega))
    have hnear : (x - ra).natAbs ≤ s.tr.near := of_decide_eq_true hn'
    have hq : qerr s.tr.near (x - ra) = 0 := by
      unfold qerr
      split
      · exact Int.ediv_eq_zero_of_lt (by omega) (by omega)
      · rw [Int.ediv_eq_zero_of_lt (by omega) (by omega)]; rfl
    have := hb.rangeLow
    rw [errval, hq, modr]
    simp only [lt_self_iff_false, if_false]
    rw [if_neg (by omega)]
  have hd : isDifference s.tr (x - ra) = true := by
    rw [isSample_iff] at hx ha; exact isDifference_iff.2 (by omega)
  rw [encodeRi, if_pos hn, reduceError_ok hb hd, ok_bind]
  simp only [h0]
  rw [encodeRiError, getRunK, show rctxAt (setWork s { s.w with err := 0 }) 1 = rctxAt s 1 from rfl, hk]
  simp only [ok_bind]
  have hm : mapBit (rctxAt (setK (setWork s { s.w with err := 0 }) k) 1) 0 k = false := by
    rw [Bool.eq_false_iff]; exact fun h => mapBit_ne_zero h rfl
  rw [show (setK (setWork s { s.w with err := 0 }) k).w.k = k from rfl, hm]
  rfl

/-- `RN.DECRI` on the bits of a sample (R308). -/
theorem decodeRi_ok {x ra rb : Int} {k : Nat} {s : State} {rest : List Bool} (hb : TraitsBounds s.tr)
    (hk : golombK (rctxAt s (riType s ra rb)).n (runTemp (riType s ra rb) (rctxAt s (riType s ra rb))) = some k)
    (hle : k ≤ 25) (hx : isSample s.tr x = true) (ha : isSample s.tr ra = true) (hr : isSample s.tr rb = true)
    (hn : isNear s.tr.near ra rb = true → isNear s.tr.near x ra = false)
    (hrem : remaining s = riBits (riType s ra rb) (riError s.tr x ra rb) k s ++ rest) :
    ∃ r, Consumed s.rd (riBits (riType s ra rb) (riError s.tr x ra rb) k s).length r ∧ decodeRi ra rb s =
      .ok (setWork (setRctx (setReader s r) (riType s ra rb) (riContext (riType s ra rb) (riError s.tr x ra rb) k s))
        { s.w with
          k := k
          err := riError s.tr x ra rb
          rx := recon s.tr (riBase s.tr.near ra rb) (riError s.tr x ra rb * riSign s.tr.near ra rb) }) := by
  have hab := riError_abs hb hx ha hr
  have ht := riType_ok hb hx ha hn
  obtain ⟨r, hc, he⟩ := decodeRiError_ok hb hk hle hab ht hrem
  refine ⟨r, hc, ?_⟩
  rw [decodeRi_eq, he, ok_bind, reconstruct_ok]
  · rfl
  · exact (riBase_sample ha hr : isSample s.tr _ = true)

end Sys2Proof.Machine
end

