-- ==== Sys2Proof/Laws/ScanState.lean ====
section
/-! SUPPORT. The bounds of a scan through the elementary writes, and what an encoder and a decoder in step share. -/

namespace Sys2Proof.Machine

/-! ## The bounds of a scan -/

/-- The bounds look only at the traits, the context files, the run indexes and the buffers. -/
theorem ScanInv.congr {s t : State} (h : ScanInv s) (htr : t.tr = s.tr) (hctx : t.ctx = s.ctx) (hrctx : t.rctx = s.rctx)
    (hri : t.runindex = s.runindex) (hrx : t.runidx = s.runidx) (hbuf : t.buf = s.buf) : ScanInv t := by
  have hc : ∀ q, ctxAt t q = ctxAt s q := fun q => by unfold ctxAt; simp only [hctx]
  have hr : ∀ q, rctxAt t q = rctxAt s q := fun q => by unfold rctxAt; simp only [hrctx]
  refine ⟨htr ▸ h.traits, fun q => ?_, fun q => ?_, hri ▸ h.runindex, fun c => ?_, fun k => ?_, hbuf ▸ h.bufWf,
    hrx ▸ h.runidxWf⟩
  · rw [hc, htr]; exact h.ctx q
  · rw [hr, htr]; exact h.rctx q
  · unfold runidxAt; rw [hrx]; exact h.runidx c
  · rw [htr, hbuf]; exact h.buf k

theorem ScanInv.cur {s : State} (h : ScanInv s) {v : Int} (hv : isSample s.tr v = true) (ch : Nat) (j : Int) :
    ScanInv (curWrite s ch j v) := by
  refine ⟨h.traits, h.ctx, h.rctx, h.runindex, h.runidx, fun k => ?_, curWrite_wf h.bufWf ch j v, h.runidxWf⟩
  change isSample s.tr (sparseRead 0 (sparseWrite 0 s.buf _ v) k) = true
  rw [sparseRead_write h.bufWf]
  split
  · exact hv
  · exact h.buf k

theorem ScanInv.prev {s : State} (h : ScanInv s) {v : Int} (hv : isSample s.tr v = true) (ch : Nat) (j : Int) :
    ScanInv (prevWrite s ch j v) := by
  refine ⟨h.traits, h.ctx, h.rctx, h.runindex, h.runidx, fun k => ?_, prevWrite_wf h.bufWf ch j v, h.runidxWf⟩
  change isSample s.tr (sparseRead 0 (sparseWrite 0 s.buf _ v) k) = true
  rw [sparseRead_write h.bufWf]
  split
  · exact hv
  · exact h.buf k

theorem ScanInv.setCtx {s : State} (h : ScanInv s) {q : Nat} {r : RegCtx} (hr : GoodCtx s.tr r) :
    ScanInv (setCtx s q r) := by
  refine ⟨h.traits, fun p => ?_, h.rctx, h.runindex, h.runidx, h.buf, h.bufWf, h.runidxWf⟩
  rw [ctxAt_setCtx]
  split
  · exact hr
  · exact h.ctx p

theorem ScanInv.setRctx {s : State} (h : ScanInv s) {t : Nat} {r : RunCtx} (hr : GoodRun s.tr r) :
    ScanInv (setRctx s t r) := by
  refine ⟨h.traits, h.ctx, fun p => ?_, h.runindex, h.runidx, h.buf, h.bufWf, h.runidxWf⟩
  rw [rctxAt_setRctx]
  split
  · exact hr
  · exact h.rctx p

theorem ScanInv.setRunindex {s : State} (h : ScanInv s) {r : Nat} (hr : r ≤ 31) : ScanInv (setRunindex s r) :=
  ⟨h.traits, h.ctx, h.rctx, hr, h.runidx, h.buf, h.bufWf, h.runidxWf⟩

theorem ScanInv.setRunidx {s : State} (h : ScanInv s) {c r : Nat} (hr : r ≤ 31) : ScanInv (setRunidx s c r) := by
  refine ⟨h.traits, h.ctx, h.rctx, h.runindex, fun p => ?_, h.buf, h.bufWf, sparseWrite_wf h.runidxWf⟩
  rw [runidxAt_setRunidx h.runidxWf]
  split
  · exact hr
  · exact h.runidx p

theorem ScanInv.curSample {s : State} (h : ScanInv s) (ch : Nat) (j : Int) : isSample s.tr (curRead s ch j) = true :=
  h.buf _

theorem ScanInv.prevSample {s : State} (h : ScanInv s) (ch : Nat) (j : Int) : isSample s.tr (prevRead s ch j) = true :=
  h.buf _

/-- In buffers of samples every gradient is an operand of `QT.QUANT` (R145). -/
theorem gradientsInRange_of {s : State} (h : ∀ key, isSample s.tr (sparseRead 0 s.buf key) = true) (i ch : Nat) :
    gradientsInRange i ch s = true := by
  have key : ∀ k l, isDifference s.tr (sparseRead 0 s.buf k - sparseRead 0 s.buf l) = true := fun k l => by
    have h1 := isSample_iff.1 (h k)
    have h2 := isSample_iff.1 (h l)
    rw [isDifference_iff]; omega
  unfold gradientsInRange
  simp only [neighbours, setWork_w, curRead, prevRead, key, Bool.and_self]

theorem ScanInv.gradients {s : State} (h : ScanInv s) (i ch : Nat) : gradientsInRange i ch s = true :=
  gradientsInRange_of h.buf i ch

/-- The state of a scan at its start is within the bounds (R160, R180, R332). -/
theorem scanSetup_inv {s : State} (h : legalParams s.build s.pr = true) (d : Bool) (p0 n : Nat) :
    ScanInv (scanSetup d p0 n s) := by
  have hg : GoodTraits (scanSetup d p0 n s).tr := scanTraits_good h
  have h0 : isSample (scanSetup d p0 n s).tr 0 = true := isSample_iff.2 ⟨le_rfl, Int.natCast_nonneg _⟩
  refine ⟨hg, fun q => ?_, fun t => ?_, Nat.zero_le _, fun _ => Nat.zero_le _, fun _ => h0, rfl, rfl⟩
  · rw [show ctxAt (scanSetup d p0 n s) q = ctxAt { s with ctx := initCtx (scanTraits s.pr).range } q from rfl, ctxAt_init]
    exact GoodCtx.init hg.bounds
  · rw [show rctxAt (scanSetup d p0 n s) t = rctxAt { s with rctx := initRctx (scanTraits s.pr).range } t from rfl,
      rctxAt_init]
    exact GoodRun.init hg.bounds

/-! ## An encoder and a decoder in step -/

/-- The decoder `d` shares with the encoder `s` what its next operation computes from, the stream and the buffers apart. -/
structure InStep (s d : State) : Prop where
  pr : d.pr = s.pr
  tr : d.tr = s.tr
  ctx : d.ctx = s.ctx
  rctx : d.rctx = s.rctx
  runindex : d.runindex = s.runindex
  y : d.seq.y = s.seq.y
  c : d.seq.c = s.seq.c
  i : d.seq.i = s.seq.i

/-- An operation that keeps these fields on both sides keeps the two in step. -/
theorem InStep.kept {s t d e : State} (h : InStep s d) (hs : KeptLine s t) (hd : KeptLine d e) (hctx : e.ctx = t.ctx)
    (hrctx : e.rctx = t.rctx) (hri : e.runindex = t.runindex) : InStep t e where
  pr := by rw [hd.pr, hs.pr, h.pr]
  tr := by rw [hd.tr, hs.tr, h.tr]
  ctx := hctx
  rctx := hrctx
  runindex := hri
  y := by rw [hd.seq, hs.seq, h.y]
  c := by rw [hd.seq, hs.seq, h.c]
  i := by rw [hd.seq, hs.seq, h.i]

theorem KeptLine.trans {s t u : State} (h : KeptLine s t) (g : KeptLine t u) : KeptLine s u where
  pr := g.pr.trans h.pr
  configured := g.configured.trans h.configured
  tr := g.tr.trans h.tr
  err := g.err.trans h.err
  busy := g.busy.trans h.busy
  done := g.done.trans h.done
  dir := g.dir.trans h.dir
  sr1 := g.sr1.trans h.sr1
  qt := g.qt.trans h.qt
  bytePos := g.bytePos.trans h.bytePos
  lineSrc := g.lineSrc.trans h.lineSrc
  issue := g.issue.trans h.issue
  host := g.host.trans h.host
  free := g.free.trans h.free
  build := g.build.trans h.build
  resetIn := g.resetIn.trans h.resetIn
  seq := g.seq.trans h.seq
  runidx := g.runidx.trans h.runidx
  lineDst := g.lineDst.trans h.lineDst
  lineRoom := g.lineRoom.trans h.lineRoom

theorem BufOnly.kept {s t : State} (h : BufOnly s t) : KeptLine s t := by
  rw [h.eq]
  exact ⟨⟨rfl, rfl, rfl, rfl, rfl, rfl, rfl, rfl, rfl, rfl, rfl, rfl, rfl, rfl, rfl, rfl⟩, rfl, rfl, rfl, rfl⟩

end Sys2Proof.Machine
end

