-- ==== Sys2Proof/Laws/Channels.lean ====
section
/-! SUPPORT. One channel of an element, regular or interrupting a run: it is coded within `near`, and a decoder in step reads it
back (`46_sample_pipeline.md` R276, R277, `47_run_mode.md` R307 to R311). -/

namespace Sys2Proof.Machine

/-! ## One channel of an element -/

/-- What coding channel `ch` of element `j` looks at in the line buffers, the input apart, is the same. -/
structure SameNeighbours (s d : State) (ch j : Nat) : Prop where
  ra : curRead d ch ((j : Int) - 1) = curRead s ch ((j : Int) - 1)
  rb : prevRead d ch j = prevRead s ch j
  rc : prevRead d ch ((j : Int) - 1) = prevRead s ch ((j : Int) - 1)
  rd : prevRead d ch ((j : Int) + 1) = prevRead s ch ((j : Int) + 1)

/-- An encoder's operation on channel `ch` of element `j`, and the decoder's that reads it back. -/
structure ChannelCoded (s : State) (ch j : Nat) (enc dec : State → Res State) (t : State) (bits : List Bool) (v : Int) :
    Prop where
  run : enc s = .ok t
  wrote : Wrote s bits t
  short : bits.length ≤ 90
  kept : KeptLine s t
  inv : ScanInv t
  near : (v - curRead s ch j).natAbs ≤ s.tr.near
  buf : t.buf = (curWrite s ch j v).buf
  back : ∀ d rest, InStep s d → d.dir = true → SameNeighbours s d ch j → remaining d = bits ++ rest →
    ∃ e, dec d = .ok e ∧ Took d bits.length e ∧ KeptLine d e ∧ e.ctx = t.ctx ∧ e.rctx = t.rctx ∧
      e.runindex = t.runindex ∧ e.buf = (curWrite d ch j v).buf

theorem rctxAt_eq {s d : State} (h : d.rctx = s.rctx) (i : Nat) : rctxAt d i = rctxAt s i := by
  unfold rctxAt; simp only [h]

theorem riBits_eq {s d : State} (htr : d.tr = s.tr) (hr : d.rctx = s.rctx) (hi : d.runindex = s.runindex) (t : Nat)
    (err : Int) (k : Nat) : riBits t err k d = riBits t err k s := by
  unfold riBits riMapped riGlimit; rw [rctxAt_eq hr, htr, hi]

theorem riContext_eq {s d : State} (htr : d.tr = s.tr) (hr : d.rctx = s.rctx) (t : Nat) (err : Int) (k : Nat) :
    riContext t err k d = riContext t err k s := by
  unfold riContext riMapped; rw [rctxAt_eq hr, htr]

theorem setRctx_congr {s d : State} (h : d.rctx = s.rctx) (i : Nat) (r : RunCtx) :
    (setRctx d i r).rctx = (setRctx s i r).rctx := by
  simp only [setRctx, h]

theorem GoodRun.ri {s : State} (h : ScanInv s) {i k : Nat} {err : Int} (he : 2 * err.natAbs ≤ s.tr.range) :
    GoodRun s.tr (riContext i err k s) := by
  have hb := h.traits.bounds
  refine GoodRun.update hb (h.rctx i) ?_
  have h1 := riMapped_le (t := i) (k := k) he
  have := hb.rangeHigh; have := hb.maxHigh
  omega

theorem riBits_length_le {s : State} (h : ScanInv s) {t k : Nat} {err : Int} (hk : k ≤ 25) :
    (riBits t err k s).length ≤ 90 := by
  have hb := h.traits.bounds
  have hj := jOf_le s.runindex
  have h1 := hb.qbppHigh; have h2 := hb.limitHigh; have h3 := hb.room
  refine valueBits_length_le hk h1 ?_ ?_
  · unfold riGlimit; omega
  · unfold riGlimit; omega

/-- The encoder's state after a run-interruption error. -/
def riEncoded (t : Nat) (err : Int) (k : Nat) (v : Writer) (w : Work) (s : State) : State :=
  setWork (setRctx (afterAppend s (riBits t err k s) v) t (riContext t err k s)) w

theorem riEncoded_inv {s : State} (h : ScanInv s) {t k : Nat} {err : Int} (he : 2 * err.natAbs ≤ s.tr.range)
    (v : Writer) (w : Work) : ScanInv (riEncoded t err k v w s) := by
  have h1 : ScanInv (afterAppend s (riBits t err k s) v) := h.congr rfl rfl rfl rfl rfl rfl
  have h2 : ScanInv (setRctx (afterAppend s (riBits t err k s) v) t (riContext t err k s)) := h1.setRctx (GoodRun.ri h he)
  exact h2.congr rfl rfl rfl rfl rfl rfl

theorem riEncoded_kept (t : Nat) (err : Int) (k : Nat) (v : Writer) (w : Work) (s : State) (ch : Nat) (j x : Int) :
    KeptLine s (curWrite (riEncoded t err k v w s) ch j x) :=
  ⟨⟨rfl, rfl, rfl, rfl, rfl, rfl, rfl, rfl, rfl, rfl, rfl, rfl, rfl, rfl, rfl, rfl⟩, rfl, rfl, rfl, rfl⟩

/-- The decoder's state after a run-interruption error whose context update is `c`. -/
def riDecoded (t : Nat) (c : RunCtx) (r : Reader) (w : Work) (d : State) : State :=
  setWork (setRctx (setReader d r) t c) w

theorem riDecoded_kept (t : Nat) (c : RunCtx) (r : Reader) (w : Work) (d : State) (ch : Nat) (j x : Int) :
    KeptLine d (curWrite (riDecoded t c r w d) ch j x) :=
  ⟨⟨rfl, rfl, rfl, rfl, rfl, rfl, rfl, rfl, rfl, rfl, rfl, rfl, rfl, rfl, rfl, rfl⟩, rfl, rfl, rfl, rfl⟩

theorem riEncoded_rctx {s d : State} (h : d.rctx = s.rctx) (t : Nat) (err : Int) (k : Nat) (v : Writer) (w w' : Work)
    (r : Reader) : (riDecoded t (riContext t err k s) r w' d).rctx = (riEncoded t err k v w s).rctx := by
  simp only [riDecoded, riEncoded, setWork_rctx, setRctx_rctx, setReader_rctx, h]
  rfl

/-- A coded channel, from what the encoder and the decoder answer. -/
theorem channelCoded_of {s : State} (h : ScanInv s) {j ch t k : Nat} {err x : Int} {enc dec : State → Res State}
    {v : Writer} {w : Work} (hk : k ≤ 25) (he : 2 * err.natAbs ≤ s.tr.range) (hx : isSample s.tr x = true)
    (hn : (x - curRead s ch j).natAbs ≤ s.tr.near) (hv : Appended s.wr (riBits t err k s) v)
    (henc : enc s = .ok (curWrite (riEncoded t err k v w s) ch j x))
    (hdec : ∀ d rest, InStep s d → SameNeighbours s d ch j → remaining d = riBits t err k s ++ rest →
      ∃ r w', Consumed d.rd (riBits t err k s).length r ∧
        dec d = .ok (curWrite (riDecoded t (riContext t err k s) r w' d) ch j x)) :
    ChannelCoded s ch j enc dec (curWrite (riEncoded t err k v w s) ch j x) (riBits t err k s) x where
  run := henc
  wrote := ⟨hv, rfl⟩
  short := riBits_length_le h hk
  kept := riEncoded_kept t err k v w s ch j x
  inv := (riEncoded_inv h he v w).cur hx ch j
  near := hn
  buf := rfl
  back d rest hd _ hp hr := by
    obtain ⟨r, w', hc, hdec⟩ := hdec d rest hd hp hr
    exact ⟨_, hdec, ⟨hc, rfl⟩, riDecoded_kept _ _ _ _ _ _ _ _, hd.ctx,
      riEncoded_rctx hd.rctx t err k v w w' r, hd.runindex, rfl⟩

/-- One channel of an interruption triplet (R311). -/
theorem riChannel_coded {s : State} (h : ScanInv s) {j ch : Nat} {ra : Int} (hroom : roomFor s.wr 90) : ∃ t bits v, ChannelCoded s ch j (fun s => encodeRiChannel j s ch ra)
      (fun d => decodeRiChannel j d ch ra) t bits v := by
  have hb := h.traits.bounds
  obtain ⟨k, hk, hle⟩ := (h.rctx 0).golombK hb (i := 0) (by decide)
  have hx := h.curSample ch j
  have hrb := h.prevSample ch j
  obtain ⟨x, hxe⟩ : ∃ x, x = curRead s ch j := ⟨_, rfl⟩
  obtain ⟨rb, hrbe⟩ : ∃ rb, rb = prevRead s ch j := ⟨_, rfl⟩
  rw [← hxe] at hx
  rw [← hrbe] at hrb
  obtain ⟨err, herr⟩ : ∃ err, err = errval s.tr (sgn1 (rb - ra) * (x - rb)) := ⟨_, rfl⟩
  have hdiff : isDifference s.tr (sgn1 (rb - ra) * (x - rb)) = true := by
    rw [isSample_iff] at hx hrb
    rw [isDifference_iff]
    rcases sgn1_cases (rb - ra) with h1 | h1 <;> rw [h1] <;> constructor <;> omega
  have hab : 2 * err.natAbs ≤ s.tr.range := herr ▸ (errval_abs hb hdiff).1
  have hnear : (recon s.tr rb (err * sgn1 (rb - ra)) - x).natAbs ≤ s.tr.near := by
    have := recon_sign_near hb (sgn1_cases (rb - ra)) hx hrb
    rw [Int.mul_comm (x - rb), ← herr] at this
    omega
  let s1 : State := setWork s { s.w with ra := ra, rb := rb, x := x, err := err }
  have hfit : fits s1.wr (riBits 0 err k s1) := hroom.fits (riBits_length_le (h.congr rfl rfl rfl rfl rfl rfl) hle)
  obtain ⟨v, hv, he⟩ := encodeRiError_ok (s := s1) hb hk hle hab (.inl rfl) hfit
  refine ⟨_, _, _, channelCoded_of (t := 0) (k := k) (err := err) (v := v)
    (w := { s1.w with k := k, rx := recon s.tr rb (err * sgn1 (rb - ra)) }) h hle hab (recon_sample _ _ _)
    (by rw [← hxe]; exact hnear) hv ?_ ?_⟩
  · simp only [encodeRiChannel]
    rw [← hxe, ← hrbe, reduceError_ok hb hdiff, ok_bind, ← herr]
    change (encodeRiError 0 err s1 >>= _) = _
    rw [he, ok_bind, reconstruct_ok]
    · rfl
    · exact hrb
  · intro d rest hd hprev hrem
    let d1 : State := setWork d { d.w with ra := ra, rb := rb }
    have hbits : riBits 0 err k d1 = riBits 0 err k s := riBits_eq hd.tr hd.rctx hd.runindex 0 err k
    have hctx : riContext 0 err k d1 = riContext 0 err k s := riContext_eq hd.tr hd.rctx 0 err k
    have htr : d1.tr = s.tr := hd.tr
    obtain ⟨r, hc, hdec⟩ := decodeRiError_ok (s := d1) (t := 0) (k := k) (err := err) (rest := rest) (htr ▸ hb)
      (by rw [show rctxAt d1 0 = rctxAt s 0 from rctxAt_eq hd.rctx 0]; exact hk) hle (htr ▸ hab) (.inl rfl)
      (by rw [hbits]; exact hrem)
    rw [hbits] at hc
    rw [hctx] at hdec
    refine ⟨r, { d1.w with k := k, err := err, rx := recon s.tr rb (err * sgn1 (rb - ra)) }, hc, ?_⟩
    simp only [decodeRiChannel]
    rw [hprev.rb, ← hrbe]
    change (decodeRiError 0 d1 >>= _) = _
    rw [hdec, ok_bind, reconstruct_ok, ← hd.tr]
    · rfl
    · exact htr ▸ hrb

/-- The interruption element where it is one sample (R307, R309). -/
theorem riSample_coded {s : State} (h : ScanInv s) {j : Nat} {ra : Int} (hra : isSample s.tr ra = true)
    (hn : isNear s.tr.near (curRead s 0 j) ra = false) (hroom : roomFor s.wr 90) :
    ∃ t bits v, ChannelCoded s 0 j (encodeInterruption 1 j [ra]) (decodeInterruption 1 j [ra]) t bits v := by
  have hb := h.traits.bounds
  have hx := h.curSample 0 j
  have hrb := h.prevSample 0 j
  obtain ⟨x, hxe⟩ : ∃ x, x = curRead s 0 j := ⟨_, rfl⟩
  obtain ⟨rb, hrbe⟩ : ∃ rb, rb = prevRead s 0 j := ⟨_, rfl⟩
  rw [← hxe] at hx hn
  rw [← hrbe] at hrb
  obtain ⟨ty, hty⟩ : ∃ ty, ty = riType s ra rb := ⟨_, rfl⟩
  have hty1 : ty ≤ 1 := by rw [hty]; unfold riType; split <;> decide
  obtain ⟨k, hk, hle⟩ := (h.rctx ty).golombK hb hty1
  obtain ⟨err, herr⟩ : ∃ err, err = riError s.tr x ra rb := ⟨_, rfl⟩
  have hab : 2 * err.natAbs ≤ s.tr.range := herr ▸ riError_abs hb hx hra hrb
  have hnear : (recon s.tr (riBase s.tr.near ra rb) (err * riSign s.tr.near ra rb) - x).natAbs ≤ s.tr.near := by
    have := ri_near hb hx hra hrb
    rw [← herr] at this
    omega
  let s1 : State := setWork s { s.w with ra := ra, rb := rb, x := x }
  have hty' : riType s1 ra rb = ty := hty.symm
  have hfit : fits s1.wr (riBits (riType s1 ra rb) (riError s1.tr x ra rb) k s1) :=
    hroom.fits (riBits_length_le (h.congr rfl rfl rfl rfl rfl rfl) hle)
  obtain ⟨v, hv, he⟩ := encodeRi_ok (s := s1) (x := x) (ra := ra) (rb := rb) (k := k) hb (by rw [hty']; exact hk) hle hx hra
    hrb (fun _ => hn) hfit
  rw [hty', show riError s1.tr x ra rb = err from herr.symm] at hv he
  refine ⟨_, _, _, channelCoded_of (t := ty) (k := k) (err := err) (v := v)
    (w := { s1.w with k := k, err := err, rx := recon s.tr (riBase s.tr.near ra rb) (err * riSign s.tr.near ra rb) })
    h hle hab (recon_sample _ _ _) (by rw [← hxe]; exact hnear) hv ?_ ?_⟩
  · unfold encodeInterruption
    simp only [show ¬(1 : Nat) = 3 by decide, if_false, List.getD_cons_zero]
    rw [← hxe, ← hrbe]
    change (encodeRi x ra rb s1 >>= _) = _
    rw [he]
    rfl
  · intro d rest hd hprev hrem
    let d1 : State := setWork d { d.w with ra := ra, rb := rb }
    have htr : d1.tr = s.tr := hd.tr
    have hty2 : riType d1 ra rb = ty := by rw [hty]; unfold riType; rw [htr]
    have herr2 : riError d1.tr x ra rb = err := by rw [htr, herr]
    have hbits : riBits ty err k d1 = riBits ty err k s := riBits_eq hd.tr hd.rctx hd.runindex ty err k
    have hctx : riContext ty err k d1 = riContext ty err k s := riContext_eq hd.tr hd.rctx ty err k
    obtain ⟨r, hc, hdec⟩ := decodeRi_ok (s := d1) (x := x) (ra := ra) (rb := rb) (k := k) (rest := rest) (htr ▸ hb)
      (by rw [hty2, show rctxAt d1 ty = rctxAt s ty from rctxAt_eq hd.rctx ty]; exact hk) hle (htr ▸ hx) (htr ▸ hra)
      (htr ▸ hrb) (fun _ => htr ▸ hn) (by rw [hty2, herr2, hbits]; exact hrem)
    rw [hty2, herr2, hbits] at hc
    rw [hty2, herr2, hctx] at hdec
    refine ⟨r, { d1.w with k := k, err := err, rx := recon s.tr (riBase s.tr.near ra rb) (err * riSign s.tr.near ra rb) },
      hc, ?_⟩
    unfold decodeInterruption
    simp only [show ¬(1 : Nat) = 3 by decide, if_false, List.getD_cons_zero]
    rw [hprev.rb, ← hrbe]
    change (decodeRi ra rb d1 >>= _) = _
    rw [hdec, ← hd.tr]
    rfl

theorem channelContext_kept (i ch : Nat) (s : State) : KeptLine s (channelContext i s ch) :=
  ⟨⟨rfl, rfl, rfl, rfl, rfl, rfl, rfl, rfl, rfl, rfl, rfl, rfl, rfl, rfl, rfl, rfl⟩, rfl, rfl, rfl, rfl⟩

theorem channelContext_inv {s : State} (h : ScanInv s) (i ch : Nat) : ScanInv (channelContext i s ch) :=
  h.congr rfl rfl rfl rfl rfl rfl

theorem afterAppend_kept (s : State) (bits : List Bool) (v : Writer) : KeptLine s (afterAppend s bits v) :=
  ⟨⟨rfl, rfl, rfl, rfl, rfl, rfl, rfl, rfl, rfl, rfl, rfl, rfl, rfl, rfl, rfl, rfl⟩, rfl, rfl, rfl, rfl⟩

theorem setReader_kept (s : State) (r : Reader) : KeptLine s (setReader s r) :=
  ⟨⟨rfl, rfl, rfl, rfl, rfl, rfl, rfl, rfl, rfl, rfl, rfl, rfl, rfl, rfl, rfl, rfl⟩, rfl, rfl, rfl, rfl⟩

theorem regularAfter_kept (i ch k : Nat) (err : Int) (m : Nat) (s : State) : KeptLine s (regularAfter i ch k err m s) :=
  ⟨⟨rfl, rfl, rfl, rfl, rfl, rfl, rfl, rfl, rfl, rfl, rfl, rfl, rfl, rfl, rfl, rfl⟩, rfl, rfl, rfl, rfl⟩

theorem regularAfter_inv {s : State} (h : ScanInv s) {i ch k m : Nat} {err : Int} (he : err.natAbs ≤ 65535) :
    ScanInv (regularAfter i ch k err m s) := by
  have h2 : ScanInv (setCtx s (contextIndex s) (updateRegular s.tr (ctxAt s (contextIndex s)) err)) :=
    h.setCtx ((h.ctx _).update h.traits.bounds he)
  unfold regularAfter
  refine ScanInv.cur ?_ (recon_sample _ _ _) ch i
  exact h2.congr rfl rfl rfl rfl rfl rfl

theorem regularAfter_ctx (i ch k : Nat) (err : Int) (m : Nat) (s : State) : (regularAfter i ch k err m s).ctx =
    (setCtx s (contextIndex s) (updateRegular s.tr (ctxAt s (contextIndex s)) err)).ctx := rfl

theorem regularAfter_buf (i ch k : Nat) (err : Int) (m : Nat) (s : State) : (regularAfter i ch k err m s).buf =
    (curWrite s ch i (recon s.tr (correctedPrediction s) (asgn err (neg1 s.w.qs)))).buf := rfl

theorem curWrite_buf_congr {s t : State} (h : t.buf = s.buf) (hy : t.seq.y = s.seq.y) (hc : t.seq.c = s.seq.c) (ch : Nat)
    (j v : Int) : (curWrite t ch j v).buf = (curWrite s ch j v).buf := by
  simp only [curWrite, setBuf_buf, h, hy, hc]

/-- One channel of a regular sample, with its context (R276, R277). -/
theorem regular_coded {s : State} (h : ScanInv s) (hdir : s.dir = false) {j ch : Nat} (hroom : roomFor s.wr 90) :
    ∃ t bits v, ChannelCoded s ch j (fun s => encodeRegular j ch (channelContext j s ch))
      (fun d => decodeRegular j ch (channelContext j d ch)) t bits v := by
  have hb := h.traits.bounds
  obtain ⟨s1, hs1⟩ : ∃ s1, s1 = channelContext j s ch := ⟨_, rfl⟩
  have h1 : ScanInv s1 := hs1 ▸ h.congr rfl rfl rfl rfl rfl rfl
  have htr : s1.tr = s.tr := by rw [hs1]; rfl
  have hx1 : s1.w.x = curRead s ch j := by
    rw [hs1]
    change (if s.dir then s.w.x else curRead s ch j) = _
    rw [hdir]; rfl
  have hx : isSample s1.tr s1.w.x = true := by rw [htr, hx1]; exact h.curSample ch j
  have hq : isContext (contextIndex s1) = true := by rw [hs1]; exact quantizeContext_isContext _
  have hp : isCorrected s1.tr (biasedPrediction s1) = true := isCorrected_of
    (by rw [htr, hs1]; exact h.curSample _ _) (by rw [htr, hs1]; exact h.prevSample _ _)
    ⟨(h1.ctx _).cLow, (h1.ctx _).cHigh⟩
  obtain ⟨k, hk, hle⟩ := h1.golombK (contextIndex s1)
  have henc := encodable_regular (htr ▸ hb) hle (regularInRange_of_sample hx)
  obtain ⟨bits, hbits⟩ : ∃ bits, bits = valueBits k (regularValue k s1) s1.tr.limit s1.tr.qbpp := ⟨_, rfl⟩
  have hshort : bits.length ≤ 90 := by
    rw [hbits, htr]
    exact valueBits_length_le (by omega) hb.qbppHigh hb.limitHigh (by have := hb.room; omega)
  have hfit : fits s1.wr (valueBits k (regularValue k s1) s1.tr.limit s1.tr.qbpp) := by
    rw [← hbits, hs1]; exact hroom.fits hshort
  obtain ⟨v, hv, he⟩ := encodeRegular_ok (i := j) (ch := ch) (htr ▸ hb) (regularInRange_of_sample hx) hq hp hk henc hfit
  rw [← hbits] at hv he
  obtain ⟨rx, hrx⟩ : ∃ rx, rx = recon s1.tr (correctedPrediction s1) (asgn (regularError s1) (neg1 s1.w.qs)) := ⟨_, rfl⟩
  have hnear : (rx - curRead s ch j).natAbs ≤ s.tr.near := by
    have := regular_near (htr ▸ hb) hx
    rw [← hrx, hx1, htr] at this
    omega
  have herr := regularError_abs (htr ▸ hb) hx
  have hkept := (channelContext_kept j ch s).trans
    ((afterAppend_kept _ bits v).trans (regularAfter_kept j ch k (regularError s1) (regularValue k s1) _))
  have hinv : ScanInv (afterAppend s1 bits v) := h1.congr rfl rfl rfl rfl rfl rfl
  have hbuf : s1.buf = s.buf := by rw [hs1]; rfl
  have hseq : s1.seq = s.seq := by rw [hs1]; rfl
  have hwr : s1.wr = s.wr := by rw [hs1]; rfl
  have hbs : s1.bs = s.bs := by rw [hs1]; rfl
  refine ⟨regularAfter j ch k (regularError s1) (regularValue k s1) (afterAppend s1 bits v), bits, rx, by rw [← hs1]; exact he,
    (Wrote.mk hv rfl : Wrote s1 bits (regularAfter j ch k (regularError s1) (regularValue k s1)
      (afterAppend s1 bits v))).of_same hwr.symm hbs.symm, hshort, hs1 ▸ hkept,
    regularAfter_inv hinv (by omega), hnear, ?_, ?_⟩
  · rw [regularAfter_buf, hrx]
    exact curWrite_buf_congr hbuf (congrArg Seq.y hseq) (congrArg Seq.c hseq) ch j _
  · intro d rest hd hdd hn hrem
    obtain ⟨d1, hd1⟩ : ∃ d1, d1 = channelContext j d ch := ⟨_, rfl⟩
    have hw : d1.w.ra = s1.w.ra ∧ d1.w.rb = s1.w.rb ∧ d1.w.rc = s1.w.rc ∧ d1.w.qs = s1.w.qs := by
      subst hd1 hs1
      simp only [channelContext, quantizeContext, neighbours, setWork_w, setWork_tr, hn.ra, hn.rb, hn.rc, hn.rd, hd.tr,
        and_self]
    have hdtr : d1.tr = s1.tr := by rw [hd1, hs1]; exact hd.tr
    have hctx : d1.ctx = s1.ctx := by rw [hd1, hs1]; exact hd.ctx
    have hat : ∀ q, ctxAt d1 q = ctxAt s1 q := fun q => by unfold ctxAt; simp only [hctx]
    have hidx : contextIndex d1 = contextIndex s1 := by unfold contextIndex; rw [hw.2.2.2]
    have hbp : biasedPrediction d1 = biasedPrediction s1 := by
      unfold biasedPrediction; rw [hidx, hat, hw.1, hw.2.1, hw.2.2.1, hw.2.2.2]
    have hpx : correctedPrediction d1 = correctedPrediction s1 := by unfold correctedPrediction; rw [hbp, hdtr]
    have hmag : (unmapError (regularValue k s1)).natAbs ≤ 65535 := by
      have hm : regularValue k s1 ≤ s1.tr.range :=
        mapError_le (htr ▸ hb) (isDifference_asgn hx (correctedPrediction_sample s1))
      have h2 := hb.rangeHigh; have h3 := hb.maxHigh
      rw [← htr] at h2 h3
      unfold unmapError; split <;> omega
    have hrem1 : remaining d1 = bits ++ rest := by rw [hd1]; exact hrem
    have hdb : bits = valueBits k (regularValue k s1) d1.tr.limit d1.tr.qbpp := by rw [hdtr]; exact hbits
    obtain ⟨r, hc, hdec⟩ := decodeRegular_ok (i := j) (ch := ch) (k := k) (m := regularValue k s1) (s := d1) (rest := rest)
      (by rw [hidx]; exact hq) (by rw [hbp, hdtr]; exact hp) (by rw [hidx, hat]; exact hk) (by rw [hdtr]; exact henc)
      (by rw [hdtr, htr]; have := hb.room; omega) hmag (by rw [← hdb]; exact hrem1)
    rw [← hdb] at hc hdec
    have herr2 : decodedError k (regularValue k s1) d1 = regularError s1 := by
      rw [← decodedError_regularValue k s1]
      unfold decodedError
      rw [hidx, hat, hdtr]
    rw [herr2] at hdec
    have hdk := (channelContext_kept j ch d).trans ((setReader_kept _ r).trans (regularAfter_kept j ch k (regularError s1)
      (if bits.length ≤ 8 then d1.w.merr else regularValue k s1) _))
    have hdbuf : d1.buf = d.buf := by rw [hd1]; rfl
    have hdseq : d1.seq = d.seq := by rw [hd1]; rfl
    have hdr : d1.rd = d.rd := by rw [hd1]; rfl
    have hds : d1.bs = d.bs := by rw [hd1]; rfl
    refine ⟨_, by rw [← hd1]; exact hdec, (Took.mk hc rfl : Took d1 bits.length (regularAfter j ch k (regularError s1)
      (if bits.length ≤ 8 then d1.w.merr else regularValue k s1) (setReader d1 r))).of_same hdr.symm hds.symm, hd1 ▸ hdk,
      ?_, ?_, ?_, ?_⟩
    · rw [regularAfter_ctx, regularAfter_ctx, setCtx_ctx, setCtx_ctx,
        show contextIndex (setReader d1 r) = contextIndex s1 from hidx,
        show contextIndex (afterAppend s1 bits v) = contextIndex s1 from rfl, show (setReader d1 r).tr = s1.tr from hdtr,
        show ctxAt (setReader d1 r) (contextIndex s1) = ctxAt s1 (contextIndex s1) from hat _]
      simp only [show (setReader d1 r).ctx = s1.ctx from hctx]
      rfl
    · change d1.rctx = s1.rctx; rw [hd1, hs1]; exact hd.rctx
    · change d1.runindex = s1.runindex; rw [hd1, hs1]; exact hd.runindex
    · rw [regularAfter_buf, show correctedPrediction (setReader d1 r) = correctedPrediction s1 from hpx,
        show (setReader d1 r).tr = s1.tr from hdtr, show (setReader d1 r).w.qs = s1.w.qs from hw.2.2.2, ← hrx]
      exact curWrite_buf_congr hdbuf (congrArg Seq.y hdseq) (congrArg Seq.c hdseq) ch j _

end Sys2Proof.Machine
end

