-- ==== Sys2Proof/Laws/Elements.lean ====
section
/-! SUPPORT. One element of a line, a sample or a triplet, coded and read back (`46_sample_pipeline.md` R276 to R278,
`47_run_mode.md` R311). -/

namespace Sys2Proof.Machine

/-- Element `j` of the current line holds `vs` on its first channels, and every other place of the buffers is as in `s`. -/
def ElementSet (s t : State) (nch j : Nat) (vs : List Int) : Prop :=
  ∀ p < 2, ∀ c, ∀ ch < 3, ∀ j', InLine j' → cell t p c ch j' =
    if p = s.seq.y % 2 ∧ c = s.seq.c ∧ j' = j ∧ ch < nch then vs.getD ch 0 else cell s p c ch j'

/-- An encoder's operation on element `j`, and the decoder's that reads it back. -/
structure ElementCoded (s : State) (nch j : Nat) (enc dec : State → Res State) (t : State) (bits : List Bool)
    (vs : List Int) : Prop where
  run : enc s = .ok t
  wrote : Wrote s bits t
  short : bits.length ≤ 90 * nch
  kept : KeptLine s t
  inv : ScanInv t
  len : vs.length = nch
  near : ∀ ch < nch, (vs.getD ch 0 - curRead s ch j).natAbs ≤ s.tr.near
  cells : ElementSet s t nch j vs
  back : ∀ d rest, InStep s d → d.dir = true → sparseWf 0 d.buf = true → (∀ ch < nch, SameNeighbours s d ch j) →
    remaining d = bits ++ rest → ∃ e, dec d = .ok e ∧ Took d bits.length e ∧ KeptLine d e ∧ e.ctx = t.ctx ∧
      e.rctx = t.rctx ∧ e.runindex = t.runindex ∧ sparseWf 0 e.buf = true ∧ ElementSet d e nch j vs

theorem elementSet_curWrite {s t : State} (hw : sparseWf 0 s.buf = true) {j : Nat} {v : Int} (hj : InLine (j : Int))
    (hb : t.buf = (curWrite s 0 j v).buf) : ElementSet s t 1 j [v] := by
  intro p hp c ch hch j' hj'
  rw [cell_congr hb, cell_curWrite hw hp (by decide) hch hj hj']
  by_cases h : ch = 0
  · subst h; simp
  · rw [if_neg (by omega), if_neg (by omega)]

/-- An element of one channel. -/
theorem ChannelCoded.element {s t : State} {j : Nat} {enc dec : State → Res State} {bits : List Bool} {v : Int}
    (h : ChannelCoded s 0 j enc dec t bits v) (hi : ScanInv s) (hj : InLine (j : Int)) :
    ElementCoded s 1 j enc dec t bits [v] where
  run := h.run
  wrote := h.wrote
  short := h.short
  kept := h.kept
  inv := h.inv
  len := rfl
  near ch hch := by
    obtain rfl : ch = 0 := by omega
    exact h.near
  cells := elementSet_curWrite hi.bufWf hj h.buf
  back d rest hd hdir hw hn hr := by
    obtain ⟨e, h1, h2, h3, h4, h5, h6, h7⟩ := h.back d rest hd hdir (hn 0 (by decide)) hr
    exact ⟨e, h1, h2, h3, h4, h5, h6, h7 ▸ curWrite_wf hw 0 j v, elementSet_curWrite hw hj h7⟩

/-! ## Triplets -/

/-- The neighbours of another channel stay the same on both sides. -/
theorem SameNeighbours.after {s d t e : State} {ch ch' j : Nat} {v : Int} (h : SameNeighbours s d ch' j)
    (hs : sparseWf 0 s.buf = true) (hd : sparseWf 0 d.buf = true) (hch : ch < 3) (hch' : ch' < 3)
    (ht : t.buf = (curWrite s ch j v).buf) (hts : t.seq = s.seq)
    (he : e.buf = (curWrite d ch j v).buf) (hes : e.seq = d.seq) : SameNeighbours t e ch' j := by
  have hj0 : InLine (j : Int) := by omega
  have hc : ∀ j', InLine j' → j' ≠ j → curRead e ch' j' = curRead d ch' j' ∧ curRead t ch' j' = curRead s ch' j' := by
    intro j' hj' hne
    constructor
    · rw [curRead_congr (s := curWrite d ch j v) he (congrArg Seq.y hes) (congrArg Seq.c hes),
        curRead_curWrite hd hch hch' hj0 hj', if_neg (by omega)]
    · rw [curRead_congr (s := curWrite s ch j v) ht (congrArg Seq.y hts) (congrArg Seq.c hts),
        curRead_curWrite hs hch hch' hj0 hj', if_neg (by omega)]
  have hp : ∀ j', InLine j' → prevRead e ch' j' = prevRead d ch' j' ∧ prevRead t ch' j' = prevRead s ch' j' := by
    intro j' hj'
    constructor
    · rw [prevRead_congr (s := curWrite d ch j v) he (congrArg Seq.y hes) (congrArg Seq.c hes),
        prevRead_curWrite hd hch hch' hj0 hj']
    · rw [prevRead_congr (s := curWrite s ch j v) ht (congrArg Seq.y hts) (congrArg Seq.c hts),
        prevRead_curWrite hs hch hch' hj0 hj']
  constructor
  · rw [(hc _ (by omega) (by omega)).1, (hc _ (by omega) (by omega)).2, h.ra]
  · rw [(hp _ hj0).1, (hp _ hj0).2, h.rb]
  · rw [(hp _ (by omega)).1, (hp _ (by omega)).2, h.rc]
  · rw [(hp _ (by omega)).1, (hp _ (by omega)).2, h.rd]

/-- Three channel writes set the element. -/
theorem elementSet_three {s a b t : State} (hw : sparseWf 0 s.buf = true) {j : Nat} {x y z : Int} (hj : InLine (j : Int))
    (ha : a.buf = (curWrite s 0 j x).buf) (has : a.seq = s.seq) (hb : b.buf = (curWrite a 1 j y).buf)
    (hbs : b.seq = a.seq) (ht : t.buf = (curWrite b 2 j z).buf) : ElementSet s t 3 j [x, y, z] := by
  have hwa : sparseWf 0 a.buf = true := ha ▸ curWrite_wf hw 0 j x
  have hwb : sparseWf 0 b.buf = true := hb ▸ curWrite_wf hwa 1 j y
  intro p hp c ch hch j' hj'
  rw [cell_congr ht, cell_curWrite hwb hp (by decide) hch hj hj', cell_congr hb, cell_curWrite hwa hp (by decide) hch hj hj',
    cell_congr ha, cell_curWrite hw hp (by decide) hch hj hj', hbs, has]
  by_cases hx : p = s.seq.y % 2 ∧ c = s.seq.c ∧ j' = j
  · obtain rfl | rfl | rfl : ch = 0 ∨ ch = 1 ∨ ch = 2 := by omega
    · rw [if_neg (by omega), if_neg (by omega), if_pos ⟨hx.1, hx.2.1, rfl, hx.2.2⟩, if_pos ⟨hx.1, hx.2.1, hx.2.2, by decide⟩]
      rfl
    · rw [if_neg (by omega), if_pos ⟨hx.1, hx.2.1, rfl, hx.2.2⟩, if_pos ⟨hx.1, hx.2.1, hx.2.2, by decide⟩]
      rfl
    · rw [if_pos ⟨hx.1, hx.2.1, rfl, hx.2.2⟩, if_pos ⟨hx.1, hx.2.1, hx.2.2, by decide⟩]
      rfl
  · rw [if_neg (by omega), if_neg (by omega), if_neg (by omega), if_neg (by omega)]

/-- An element of three channels, coded in order. -/
theorem triplet_coded {s : State} (h : ScanInv s) (hdir : s.dir = false) {j : Nat}
    (hroom : roomFor s.wr 270) {f g : Nat → State → Res State}
    (hc : ∀ ch < 3, ∀ u, ScanInv u → u.dir = false → roomFor u.wr 90 → ∃ t bits v,
      ChannelCoded u ch j (f ch) (g ch) t bits v) :
    ∃ t bits vs, ElementCoded s 3 j (fun s => f 0 s >>= fun s => f 1 s >>= f 2)
      (fun d => g 0 d >>= fun d => g 1 d >>= g 2) t bits vs := by
  have hj0 : InLine (j : Int) := by omega
  obtain ⟨a, as, x, ha⟩ := hc 0 (by decide) s h hdir (hroom.mono (by decide))
  obtain ⟨b, bs, y, hb⟩ := hc 1 (by decide) a ha.inv (ha.kept.dir.trans hdir)
    (hroom.after ha.wrote.writer (by have := ha.short; omega))
  have hroom2 : roomFor b.wr 90 := hroom.after (ha.wrote.trans hb.wrote).writer (by
    have := ha.short; have := hb.short; rw [List.length_append]; omega)
  obtain ⟨t, cs, z, ht⟩ := hc 2 (by decide) b hb.inv (hb.kept.dir.trans (ha.kept.dir.trans hdir)) hroom2
  have hwa := ha.inv.bufWf
  have hwb := hb.inv.bufWf
  have hcur : ∀ ch < 3, ∀ (u v : State) (ch' : Nat) (w : Int), ch' < 3 → ch ≠ ch' → sparseWf 0 u.buf = true →
      v.buf = (curWrite u ch' j w).buf → v.seq = u.seq → curRead v ch j = curRead u ch j := by
    intro ch hch u v ch' w hch' hne hu hv hseq
    rw [curRead_congr (s := curWrite u ch' j w) hv (congrArg Seq.y hseq) (congrArg Seq.c hseq),
      curRead_curWrite hu hch' hch hj0 hj0, if_neg (by omega)]
  refine ⟨t, as ++ (bs ++ cs), [x, y, z], ?_⟩
  refine { run := ?_, wrote := ha.wrote.trans (hb.wrote.trans ht.wrote), short := ?_,
           kept := ha.kept.trans (hb.kept.trans ht.kept), inv := ht.inv, len := rfl, near := ?_,
           cells := elementSet_three h.bufWf hj0 ha.buf ha.kept.seq hb.buf hb.kept.seq ht.buf, back := ?_ }
  · rw [ha.run, ok_bind, hb.run, ok_bind, ht.run]
  · have := ha.short; have := hb.short; have := ht.short
    simp only [List.length_append]; omega
  · intro ch hch
    obtain rfl | rfl | rfl : ch = 0 ∨ ch = 1 ∨ ch = 2 := by omega
    · exact ha.near
    · have h1 := hcur 1 (by decide) s a 0 x (by decide) (by decide) h.bufWf ha.buf ha.kept.seq
      rw [← h1, ← ha.kept.tr]
      exact hb.near
    · have h1 := hcur 2 (by decide) s a 0 x (by decide) (by decide) h.bufWf ha.buf ha.kept.seq
      have h2 := hcur 2 (by decide) a b 1 y (by decide) (by decide) hwa hb.buf hb.kept.seq
      rw [← h1, ← h2, ← ha.kept.tr, ← hb.kept.tr]
      exact ht.near
  · intro d rest hd hdd hw hn hr
    obtain ⟨e, e1, e2, e3, e4, e5, e6, e7⟩ := ha.back d (bs ++ cs ++ rest) hd hdd (hn 0 (by decide)) (by
      rw [hr]; simp)
    have hwe : sparseWf 0 e.buf = true := e7 ▸ curWrite_wf hw 0 j x
    have n1 : SameNeighbours a e 1 j := (hn 1 (by decide)).after h.bufWf hw (by decide) (by decide) ha.buf ha.kept.seq
      e7 e3.seq
    have n2 : SameNeighbours a e 2 j := (hn 2 (by decide)).after h.bufWf hw (by decide) (by decide) ha.buf ha.kept.seq
      e7 e3.seq
    obtain ⟨f', f1, f2, f3, f4, f5, f6, f7⟩ := hb.back e (cs ++ rest) (hd.kept ha.kept e3 e4 e5 e6)
      (e3.dir.trans hdd) n1 (e2.remaining (by rw [hr]; simp))
    have hwf : sparseWf 0 f'.buf = true := f7 ▸ curWrite_wf hwe 1 j y
    have n3 : SameNeighbours b f' 2 j := n2.after hwa hwe (by decide) (by decide) hb.buf hb.kept.seq f7 f3.seq
    obtain ⟨g', g1, g2, g3, g4, g5, g6, g7⟩ := ht.back f' rest
      ((hd.kept ha.kept e3 e4 e5 e6).kept hb.kept f3 f4 f5 f6) (f3.dir.trans (e3.dir.trans hdd)) n3
      (f2.remaining (e2.remaining (by rw [hr]; simp)))
    refine ⟨g', by rw [e1, ok_bind, f1, ok_bind, g1], ?_, e3.trans (f3.trans g3), g4, g5, g6,
      g7 ▸ curWrite_wf hwf 2 j z, elementSet_three hw hj0 e7 e3.seq f7 f3.seq g7⟩
    have := e2.trans (f2.trans g2)
    simpa only [List.length_append, Nat.add_assoc] using this

end Sys2Proof.Machine
end

