-- ==== Sys2Proof/Laws/Runs.lean ====
section
/-! SUPPORT. A run as a whole: the elements it takes, the bits it writes, and a decoder in step that reads it back
(`47_run_mode.md` R309 to R311). -/

namespace Sys2Proof.Machine

/-! ## Which elements change -/

/-- Elements `i .. i + n - 1` of the current line hold `vs` on their first channels; every other place is as in `s`. -/
def RunSet (s t : State) (nch i n : Nat) (vs : List Int) : Prop :=
  ∀ p < 2, ∀ c, ∀ ch < 3, ∀ j', InLine j' → cell t p c ch j' =
    if p = s.seq.y % 2 ∧ c = s.seq.c ∧ (i : Int) ≤ j' ∧ j' < i + n ∧ ch < nch then vs.getD ch 0 else cell s p c ch j'

/-- Every place outside elements `i .. i + n - 1` of the current line is as in `s`. -/
def Outside (s t : State) (nch i n : Nat) : Prop :=
  ∀ p < 2, ∀ c, ∀ ch < 3, ∀ j', InLine j' →
    ¬(p = s.seq.y % 2 ∧ c = s.seq.c ∧ (i : Int) ≤ j' ∧ j' < i + n ∧ ch < nch) → cell t p c ch j' = cell s p c ch j'

variable {s t a d e : State} {nch i j n m : Nat} {vs ras : List Int}

theorem RunSet.zero (h : t.buf = s.buf) : RunSet s t nch i 0 vs := by
  intro p _ c ch _ j' _
  rw [if_neg (by omega), cell_congr h]

theorem RunSet.cons (h : ElementSet s a nch i vs) (hs : a.seq = s.seq) (g : RunSet a t nch (i + 1) n vs) :
    RunSet s t nch i (n + 1) vs := by
  intro p hp c ch hch j' hj'
  rw [g p hp c ch hch j' hj', h p hp c ch hch j' hj', hs]
  by_cases hj : p = s.seq.y % 2 ∧ c = s.seq.c ∧ (i : Int) ≤ j' ∧ j' < i + (n + 1 : Nat) ∧ ch < nch
  · rw [if_pos hj]
    by_cases hi : j' = i
    · rw [if_neg (by omega), if_pos ⟨hj.1, hj.2.1, hi, hj.2.2.2.2⟩]
    · rw [if_pos ⟨hj.1, hj.2.1, by omega, by omega, hj.2.2.2.2⟩]
  · rw [if_neg hj, if_neg (by omega), if_neg (by omega)]

theorem RunSet.outside (h : RunSet s t nch i n vs) : Outside s t nch i n := fun p hp c ch hch j' hj' hn => by
  rw [h p hp c ch hch j' hj', if_neg hn]

theorem ElementSet.outside (h : ElementSet s t nch j vs) : Outside s t nch j 1 := fun p hp c ch hch j' hj' hn => by
  rw [h p hp c ch hch j' hj', if_neg (by omega)]

theorem Outside.of_buf (h : t.buf = s.buf) : Outside s t nch i n := fun _ _ _ _ _ _ _ _ => cell_congr h _ _ _ _

theorem Outside.trans (h : Outside s a nch i m) (hs : a.seq.y = s.seq.y) (hc : a.seq.c = s.seq.c)
    (g : Outside a t nch (i + m) n) : Outside s t nch i (m + n) := by
  intro p hp c ch hch j' hj' hn
  rw [g p hp c ch hch j' hj' (by rw [hs, hc]; omega), h p hp c ch hch j' hj' (by omega)]

theorem Outside.cur (h : Outside s t nch i n) (hy : t.seq.y = s.seq.y) (hc : t.seq.c = s.seq.c) {ch : Nat} (hch : ch < 3)
    {j' : Int} (hj : InLine j') (hn : j' < i ∨ i + n ≤ j' ∨ nch ≤ ch) : curRead t ch j' = curRead s ch j' := by
  rw [curRead_eq_cell, curRead_eq_cell, hy, hc, h _ (Nat.mod_lt _ (by decide)) _ _ hch _ hj (by omega)]

theorem Outside.prev (h : Outside s t nch i n) (hy : t.seq.y = s.seq.y) (hc : t.seq.c = s.seq.c) {ch : Nat} (hch : ch < 3)
    {j' : Int} (hj : InLine j') : prevRead t ch j' = prevRead s ch j' := by
  rw [prevRead_eq_cell, prevRead_eq_cell, hy, hc, h _ (Nat.mod_lt _ (by decide)) _ _ hch _ hj (by omega)]

theorem RunSet.cur (h : RunSet s t nch i n vs) (hy : t.seq.y = s.seq.y) (hc : t.seq.c = s.seq.c) (h3 : nch ≤ 3) {ch : Nat}
    (hch : ch < nch) {j' : Int} (hj : InLine j') (h1 : (i : Int) ≤ j') (h2 : j' < i + n) :
    curRead t ch j' = vs.getD ch 0 := by
  rw [curRead_eq_cell, hy, hc, h _ (Nat.mod_lt _ (by decide)) _ _ (by omega) _ hj, if_pos ⟨rfl, rfl, h1, h2, hch⟩]

theorem ElementSet.cur (h : ElementSet s t nch j vs) (hy : t.seq.y = s.seq.y) (hc : t.seq.c = s.seq.c) (h3 : nch ≤ 3)
    {ch : Nat} (hch : ch < nch) (hj : InLine (j : Int)) : curRead t ch j = vs.getD ch 0 := by
  rw [curRead_eq_cell, hy, hc, h _ (Nat.mod_lt _ (by decide)) _ _ (by omega) _ hj, if_pos ⟨rfl, rfl, rfl, hch⟩]

/-! ## The forward scan and the fill -/

/-- The values of an element are samples. -/
def Samples (t : Traits) (vs : List Int) : Prop := ∀ v ∈ vs, isSample t v = true

theorem elementAt_samples (h : ScanInv s) (nch : Nat) (j : Int) : Samples s.tr (elementAt nch s j) := by
  intro v hv
  simp only [elementAt, List.mem_map] at hv
  obtain ⟨ch, _, rfl⟩ := hv
  exact h.curSample ch j

theorem writeElement_inv (h : ScanInv s) (hv : Samples s.tr vs) (j : Nat) : ScanInv (writeElement vs j s) := by
  have key : ∀ (n : Nat) (s : State), ScanInv s → Samples s.tr vs →
      ScanInv ((vs.zipIdx n).foldl (fun s p => curWrite s p.2 j p.1) s) := by
    clear h hv
    induction vs with
    | nil => intro n s h _; exact h
    | cons v vs ih =>
      intro n s h hv
      rw [List.zipIdx_cons, List.foldl_cons]
      exact ih (n + 1) _ (h.cur (hv v (by simp)) n j) fun w hw => hv w (by simp [hw])
  exact key 0 s h hv

theorem elementsNear_iff {near : Nat} (hl : ras.length = nch) (j : Int) :
    elementsNear near (elementAt nch s j) ras = true ↔ ∀ ch < nch, isNear near (curRead s ch j) (ras.getD ch 0) = true := by
  unfold elementsNear
  rw [List.all_eq_true]
  constructor
  · intro h ch hch
    refine h (curRead s ch j, ras.getD ch 0) ?_
    rw [List.mem_iff_getElem]
    refine ⟨ch, by simp [elementAt, hl, hch], ?_⟩
    rw [List.getElem_zip, List.getD_eq_getElem _ _ (by omega)]
    simp [elementAt]
  · rintro h ⟨x, r⟩ hx
    rw [List.mem_iff_getElem] at hx
    obtain ⟨ch, hc, he⟩ := hx
    have hch : ch < nch := by simp [elementAt] at hc; omega
    have := h ch hch
    rw [List.getElem_zip, Prod.mk.injEq] at he
    obtain ⟨h1, h2⟩ := he
    rw [List.getD_eq_getElem _ _ (by omega), h2] at this
    simp [elementAt] at h1
    rwa [h1] at this

/-- The forward scan of a run (R309): it takes the elements that are near, and stops at the first that is not. -/
theorem scanRun_spec (hl : ras.length = nch) (h3 : nch ≤ 3) (i : Nat) : ∀ (left runlen : Nat) (s : State), ScanInv s →
    Samples s.tr ras → ∃ m ≤ left, ∃ t, scanRun nch ras i left runlen s = (runlen + m, t) ∧
      BufOnly s t ∧ ScanInv t ∧ RunSet s t nch (i + runlen) m ras ∧
      (∀ ch < nch, ∀ j : Int, ((i + runlen : Nat) : Int) ≤ j → j < ((i + runlen : Nat) : Int) + m →
        (ras.getD ch 0 - curRead s ch j).natAbs ≤ s.tr.near) ∧
      (m < left → elementsNear s.tr.near (elementAt nch s ((i + runlen + m : Nat) : Int)) ras = false) := by
  intro left
  induction left with
  | zero =>
    intro runlen s h _
    exact ⟨0, le_rfl, s, rfl, .refl h.bufWf, h, .zero rfl, fun _ _ _ _ _ => by omega, fun h0 => absurd h0 (lt_irrefl _)⟩
  | succ left ih =>
    intro runlen s h hv
    have hj : InLine ((i + runlen : Nat) : Int) := by omega
    by_cases hn : elementsNear s.tr.near (elementAt nch s ((i + runlen : Nat) : Int)) ras = true
    · obtain ⟨h1, h2⟩ := writeElement_spec (s := s) (vs := ras) (j := i + runlen) h.bufWf (by omega) hj
      rw [hl] at h2
      have hset : ElementSet s (writeElement ras (i + runlen) s) nch (i + runlen) ras := h2
      have hinv := writeElement_inv h hv (i + runlen)
      obtain ⟨m, hm, t, e1, e2, e3, e4, e5, e6⟩ := ih (runlen + 1) _ hinv (by rw [h1.tr_eq]; exact hv)
      refine ⟨m + 1, by omega, t, ?_, h1.trans e2, e3, RunSet.cons hset h1.seq_eq e4, ?_, ?_⟩
      · rw [scanRun, if_pos hn, e1, Nat.add_assoc, Nat.add_comm 1 m]
      · intro ch hch j' hj1 hj2
        by_cases hj' : j' = ((i + runlen : Nat) : Int)
        · have := (elementsNear_iff hl _).1 hn ch hch
          rw [isNear, decide_eq_true_eq] at this
          rw [hj']
          omega
        · have := e5 ch hch j' (by omega) (by omega)
          rwa [h1.tr_eq, (ElementSet.outside hset).cur (by rw [h1.seq_eq]) (by rw [h1.seq_eq]) (by omega) (by omega)
            (by omega)] at this
      · intro hlt
        have := e6 (by omega)
        rw [h1.tr_eq] at this
        rw [← this, show i + (runlen + 1) + m = i + runlen + (m + 1) by omega]
        congr 1
        unfold elementAt
        refine List.map_congr_left fun ch hch => ?_
        rw [List.mem_range] at hch
        exact ((ElementSet.outside hset).cur (by rw [h1.seq_eq]) (by rw [h1.seq_eq]) (by omega) (by omega)
          (by omega)).symm
    · refine ⟨0, by omega, s, ?_, .refl h.bufWf, h, .zero rfl, fun _ _ _ _ _ => by omega, fun _ => Bool.eq_false_iff.2 hn⟩
      rw [scanRun, if_neg hn]; rfl

/-- The elements of a decoded run (R310). -/
theorem fillRun_spec (hl : ras.length = nch) (h3 : nch ≤ 3) : ∀ (n i : Nat) (s : State), sparseWf 0 s.buf = true →
    BufOnly s (fillRun ras n i s) ∧ RunSet s (fillRun ras n i s) nch i n ras := by
  intro n
  induction n with
  | zero => intro i s hw; exact ⟨.refl hw, .zero rfl⟩
  | succ n ih =>
    intro i s hw
    obtain ⟨h1, h2⟩ := writeElement_spec (s := s) (vs := ras) (j := i) hw (by omega) (by omega)
    rw [hl] at h2
    obtain ⟨h4, h5⟩ := ih (i + 1) (writeElement ras i s) h1.wf
    exact ⟨h1.trans h4, RunSet.cons h2 h1.seq_eq h5⟩

/-! ## The interruption -/

/-- The interruption element (R307, R308, R311). -/
theorem interruption_coded (h : ScanInv s) (hdir : s.dir = false) (hch : nch = 1 ∨ nch = 3) (hl : ras.length = nch)
    (hv : Samples s.tr ras) (hn : elementsNear s.tr.near (elementAt nch s j) ras = false)
    (hroom : roomFor s.wr 270) : ∃ t bits vs,
      ElementCoded s nch j (encodeInterruption nch j ras) (decodeInterruption nch j ras) t bits vs := by
  rcases hch with rfl | rfl
  · obtain ⟨ra, rfl⟩ : ∃ ra, ras = [ra] := List.length_eq_one_iff.1 hl
    have hne : isNear s.tr.near (curRead s 0 j) ra = false := by
      rw [Bool.eq_false_iff] at hn ⊢
      intro hc
      refine hn ((elementsNear_iff (nch := 1) rfl _).2 fun ch hch => ?_)
      obtain rfl : ch = 0 := by omega
      exact hc
    obtain ⟨t, bits, v, hc⟩ := riSample_coded h (j := j) (hv ra (by simp)) hne (hroom.mono (by decide))
    exact ⟨t, bits, [v], hc.element h (by omega)⟩
  · obtain ⟨t, bits, vs, hc⟩ := triplet_coded h hdir hroom
      (f := fun ch s => encodeRiChannel j s ch (ras.getD ch 0)) (g := fun ch s => decodeRiChannel j s ch (ras.getD ch 0))
      (fun ch _ u hu _ hr => riChannel_coded hu hr)
    refine ⟨t, bits, vs, ?_⟩
    have he : encodeInterruption 3 j ras = fun s => encodeRiChannel j s 0 (ras.getD 0 0) >>= fun s =>
        encodeRiChannel j s 1 (ras.getD 1 0) >>= fun s => encodeRiChannel j s 2 (ras.getD 2 0) := by
      funext s; rfl
    have hd : decodeInterruption 3 j ras = fun s => decodeRiChannel j s 0 (ras.getD 0 0) >>= fun s =>
        decodeRiChannel j s 1 (ras.getD 1 0) >>= fun s => decodeRiChannel j s 2 (ras.getD 2 0) := by
      funext s; rfl
    rw [he, hd]
    exact hc

/-! ## The run as a whole -/

/-- The decoder's buffers hold what the encoder's next elements, from `i`, look at: the previous line, and the elements of
the current line before `i`. -/
structure SameLines (s d : State) (nch i : Nat) : Prop where
  prev : ∀ ch < nch, ∀ j : Int, -1 ≤ j → j ≤ s.pr.width → prevRead d ch j = prevRead s ch j
  cur : ∀ ch < nch, ∀ j : Int, -1 ≤ j → j < i → curRead d ch j = curRead s ch j

/-- A run of `n` elements from `i`, coded, and the decoder that reads it back. -/
structure RunCoded (s : State) (nch i n : Nat) (enc dec : State → Res (Nat × State)) (t : State) (bits : List Bool) :
    Prop where
  run : enc s = .ok (n, t)
  wrote : Wrote s bits t
  short : bits.length ≤ elementBits * n
  pos : 1 ≤ n
  width : i + n ≤ s.pr.width
  kept : KeptLine s t
  inv : ScanInv t
  near : ∀ ch < nch, ∀ j : Int, (i : Int) ≤ j → j < i + n → (curRead t ch j - curRead s ch j).natAbs ≤ s.tr.near
  outside : Outside s t nch i n
  back : ∀ d rest, InStep s d → d.dir = true → sparseWf 0 d.buf = true → SameLines s d nch i →
    remaining d = bits ++ rest → ∃ e, dec d = .ok (n, e) ∧ Took d bits.length e ∧ KeptLine d e ∧ e.ctx = t.ctx ∧
      e.rctx = t.rctx ∧ e.runindex = t.runindex ∧ sparseWf 0 e.buf = true ∧ Outside d e nch i n ∧
      ∀ ch < nch, ∀ j : Int, (i : Int) ≤ j → j < i + n → curRead e ch j = curRead t ch j

/-- What the encoder's state is after the length of a run. -/
def lengthCoded (bits : List Bool) (v : Writer) (r : Nat) (s : State) : State :=
  { afterAppend s bits v with runindex := r }

theorem lengthCoded_kept (bits : List Bool) (v : Writer) (r : Nat) (s : State) (w : Work) :
    KeptLine s (lengthCoded bits v r (setWork s w)) :=
  ⟨⟨rfl, rfl, rfl, rfl, rfl, rfl, rfl, rfl, rfl, rfl, rfl, rfl, rfl, rfl, rfl, rfl⟩, rfl, rfl, rfl, rfl⟩

theorem lengthCoded_inv (h : ScanInv s) (bits : List Bool) (v : Writer) {r : Nat} (hr : r ≤ 31) (w : Work) :
    ScanInv (lengthCoded bits v r (setWork s w)) := by
  have h1 : ScanInv (setRunindex s r) := h.setRunindex hr
  exact h1.congr rfl rfl rfl rfl rfl rfl

/-- What the decoder's state is after the length of a run. -/
def lengthRead (r : Reader) (i : Nat) (w : Work) (d : State) : State := { d with rd := r, runindex := i, w := w }

theorem lengthRead_kept (r : Reader) (i : Nat) (w : Work) (d : State) : KeptLine d (lengthRead r i w d) :=
  ⟨⟨rfl, rfl, rfl, rfl, rfl, rfl, rfl, rfl, rfl, rfl, rfl, rfl, rfl, rfl, rfl, rfl⟩, rfl, rfl, rfl, rfl⟩

theorem decIdx_kept (s : State) : KeptLine s (decIdx s) :=
  ⟨⟨rfl, rfl, rfl, rfl, rfl, rfl, rfl, rfl, rfl, rfl, rfl, rfl, rfl, rfl, rfl, rfl⟩, rfl, rfl, rfl, rfl⟩

/-- The decoder after the length and the elements of a run: what of it is known. -/
theorem decodedLength (hl : ras.length = nch) (h3 : nch ≤ 3) {i n w : Nat} (hw : sparseWf 0 d.buf = true)
    (r : Reader) (k : Nat) (wk : Work) (hd : InStep s d) (hk : KeptLine s t) (hctx : t.ctx = s.ctx)
    (hrctx : t.rctx = s.rctx) (hri : t.runindex = k) (h : Consumed d.rd w r) :
    ∃ e, e = fillRun ras n i (lengthRead r k wk d) ∧ InStep t e ∧ KeptLine d e ∧ Took d w e ∧
      sparseWf 0 e.buf = true ∧ RunSet d e nch i n ras ∧ e.ctx = t.ctx ∧ e.rctx = t.rctx ∧ e.runindex = t.runindex := by
  obtain ⟨h1, h2⟩ := fillRun_spec (s := lengthRead r k wk d) hl h3 n i hw
  have hkept := (lengthRead_kept r k wk d).trans h1.kept
  have e1 : (fillRun ras n i (lengthRead r k wk d)).ctx = d.ctx := by rw [h1.eq]; rfl
  have e2 : (fillRun ras n i (lengthRead r k wk d)).rctx = d.rctx := by rw [h1.eq]; rfl
  have e3 : (fillRun ras n i (lengthRead r k wk d)).runindex = k := by rw [h1.eq]; rfl
  have e4 : (fillRun ras n i (lengthRead r k wk d)).rd = r := by rw [h1.eq]; rfl
  have e5 : (fillRun ras n i (lengthRead r k wk d)).bs = d.bs := by rw [h1.eq]; rfl
  refine ⟨_, rfl, hd.kept hk hkept (by rw [e1, hd.ctx, hctx]) (by rw [e2, hd.rctx, hrctx]) (by rw [e3, hri]), hkept,
    ⟨by rw [e4]; exact h, e5⟩, h1.wf, ?_, by rw [e1, hd.ctx, hctx], by rw [e2, hd.rctx, hrctx], by rw [e3, hri]⟩
  exact h2

/-- A run is coded, and read back (R309 to R311). -/
theorem run_coded (h : ScanInv s) (hdir : s.dir = false) (hch : nch = 1 ∨ nch = 3)
    (hi : i < s.pr.width) (hroom : roomFor s.wr (elementBits * (s.pr.width - i))) :
    ∃ n t bits, RunCoded s nch i n (encodeRun nch i) (decodeRun nch i) t bits := by
  have h3 : nch ≤ 3 := by omega
  obtain ⟨ras, hras⟩ : ∃ ras, ras = elementAt nch s ((i : Int) - 1) := ⟨_, rfl⟩
  have hl : ras.length = nch := by rw [hras]; exact elementAt_length _ _ _
  have hv : Samples s.tr ras := by rw [hras]; exact elementAt_samples h nch _
  have hdras : ∀ d, SameLines s d nch i → elementAt nch d ((i : Int) - 1) = ras := by
    intro d hd
    rw [hras]
    unfold elementAt
    refine List.map_congr_left fun ch hch => ?_
    rw [List.mem_range] at hch
    exact hd.cur ch hch _ (by omega) (by omega)
  obtain ⟨m, hm, a, ha, hab, hai, haset, hanear, hastop⟩ := scanRun_spec hl h3 i (s.pr.width - i) 0 s h hv
  rw [Nat.zero_add] at ha
  simp only [Nat.add_zero] at haset hanear hastop
  obtain ⟨lb, hlb⟩ : ∃ lb, lb = lengthBits s.runindex m (decide (m = s.pr.width - i)) := ⟨_, rfl⟩
  have hri : a.runindex = s.runindex := by rw [hab.eq]
  have hwr : a.wr = s.wr := by rw [hab.eq]
  have hbs : a.bs = s.bs := by rw [hab.eq]
  have hactx : a.ctx = s.ctx := by rw [hab.eq]
  have harctx : a.rctx = s.rctx := by rw [hab.eq]
  obtain ⟨w, hw⟩ : ∃ w : Work, w = { a.w with runlen := m, ra := ras.getD 0 0 } := ⟨_, rfl⟩
  have hlen : lb.length ≤ m + 16 := by rw [hlb]; exact lengthBits_length_le _ _ _
  have hleneol : m = s.pr.width - i → lb.length ≤ m := fun he => by
    rw [hlb, decide_eq_true he]; exact lengthBits_eol_le _ _
  have hlenroom : lb.length ≤ elementBits * (s.pr.width - i) := by
    unfold elementBits; omega
  obtain ⟨v, hv1, hv2⟩ := encodeLength_ok (n := m) (eol := decide (m = s.pr.width - i)) (s := setWork a w) (by
    change fits a.wr (lengthBits a.runindex m _)
    rw [hri, hwr, ← hlb]; exact hroom.fits hlenroom)
  replace hv1 : Appended s.wr lb v := by
    rw [hlb, ← hwr, ← hri]; exact hv1
  replace hv2 : encodeLength m (decide (m = s.pr.width - i)) (setWork a w) =
      .ok (lengthCoded lb v (lengthIndex s.runindex m) (setWork a w)) := by
    rw [hv2, show (setWork a w).runindex = s.runindex from hri, ← hlb]; rfl
  obtain ⟨b, hb⟩ : ∃ b, b = lengthCoded lb v (lengthIndex s.runindex m) (setWork a w) := ⟨_, rfl⟩
  rw [← hb] at hv2
  have hbkept : KeptLine s b := by rw [hb]; exact hab.kept.trans (lengthCoded_kept _ _ _ _ _)
  have hbinv : ScanInv b := by rw [hb]; exact lengthCoded_inv hai _ _ (lengthIndex_le h.runindex) _
  have hbbuf : b.buf = a.buf := by rw [hb]; rfl
  have hbwr : Wrote s lb b := by
    refine ⟨by rw [hb]; exact hv1, ?_⟩
    rw [hb]
    change writeBytes a.bs a.wr.wpos (newBytes a.wr lb) = _
    rw [hbs, hwr]
  have hbset : RunSet s b nch i m ras := fun p hp c ch hch j' hj' => by
    rw [cell_congr hbbuf]; exact haset p hp c ch hch j' hj'
  have hbctx : b.ctx = s.ctx := by rw [hb]; exact hactx
  have hbrctx : b.rctx = s.rctx := by rw [hb]; exact harctx
  have hbri : b.runindex = lengthIndex s.runindex m := by rw [hb]; rfl
  have hbseq : b.seq = s.seq := hbkept.seq
  have henc : encodeRun nch i s = (if m = s.pr.width - i then .ok (s.pr.width - i, b) else
      encodeInterruption nch (i + m) ras b >>= fun t => .ok (m + 1, decIdx t)) := by
    unfold encodeRun
    simp only [← hras, ha, ← hw]
    rw [hv2, ok_bind]
  -- the decoder up to the end of the run's elements
  have hdec : ∀ d rest, InStep s d → sparseWf 0 d.buf = true → SameLines s d nch i → remaining d = lb ++ rest →
      ∃ e, decodeRun nch i d = (if m = s.pr.width - i then .ok (s.pr.width - i, e) else
          decodeInterruption nch (i + m) ras e >>= fun t => .ok (m + 1, decIdx t)) ∧
        InStep b e ∧ KeptLine d e ∧ Took d lb.length e ∧ sparseWf 0 e.buf = true ∧ RunSet d e nch i m ras ∧
        e.ctx = b.ctx ∧ e.rctx = b.rctx ∧ e.runindex = b.runindex := by
    intro d rest hd hdw hsl hrem
    obtain ⟨r, hr1, hr2⟩ := decodeLength_ok (rem := s.pr.width - i) (n := m) (rest := rest)
      (s := setWork d { d.w with ra := ras.getD 0 0 }) (by omega) hm (by
        change remaining d = lengthBits d.runindex m _ ++ rest
        rw [hd.runindex, ← hlb]; exact hrem)
    replace hr1 : Consumed d.rd lb.length r := by
      rw [hlb, ← hd.runindex]; exact hr1
    obtain ⟨e, he1, he2⟩ := decodedLength (ras := ras) hl h3 hdw (i := i) (n := m) r (lengthIndex s.runindex m)
      { d.w with ra := ras.getD 0 0, runlen := m } hd hbkept hbctx hbrctx hbri hr1
    refine ⟨e, ?_, he2⟩
    unfold decodeRun
    simp only [hdras d hsl, hd.pr]
    rw [hr2, ok_bind, show (setWork d { d.w with ra := ras.getD 0 0 }).runindex = s.runindex from hd.runindex]
    simp only
    rw [he1]
    rfl
  by_cases hend : m = s.pr.width - i
  · rw [if_pos hend] at henc
    refine ⟨s.pr.width - i, b, lb, ?_⟩
    refine { run := henc, wrote := hbwr, short := ?_, pos := by omega, width := by omega, kept := hbkept, inv := hbinv,
             near := ?_, outside := hend ▸ hbset.outside, back := ?_ }
    · have := hleneol hend; unfold elementBits; omega
    · intro ch hch j' h1 h2
      rw [hbset.cur (congrArg Seq.y hbseq) (congrArg Seq.c hbseq) h3 hch (by omega) h1 (by omega)]
      exact hanear ch hch j' h1 (by omega)
    · intro d rest hd _ hdw hsl hrem
      obtain ⟨e, e0, e1, e2, e3, e4, e5, e6, e7, e8⟩ := hdec d rest hd hdw hsl hrem
      rw [if_pos hend] at e0
      refine ⟨e, e0, e3, e2, e6, e7, e8, e4, hend ▸ e5.outside, fun ch hch j' h1 h2 => ?_⟩
      rw [hbset.cur (congrArg Seq.y hbseq) (congrArg Seq.c hbseq) h3 hch (by omega) h1 (by omega),
        e5.cur (congrArg Seq.y e2.seq) (congrArg Seq.c e2.seq) h3 hch (by omega) h1 (by omega)]
  · rw [if_neg hend] at henc
    have hmlt : m < s.pr.width - i := by omega
    have hstop : elementsNear b.tr.near (elementAt nch b ((i + m : Nat) : Int)) ras = false := by
      rw [hbkept.tr, ← hastop hmlt]
      congr 1
      unfold elementAt
      refine List.map_congr_left fun ch hch => ?_
      rw [List.mem_range] at hch
      exact hbset.outside.cur (congrArg Seq.y hbseq) (congrArg Seq.c hbseq) (by omega) (by omega) (by omega)
    have hbroom : roomFor b.wr 270 := hroom.after hbwr.writer (by unfold elementBits; omega)
    obtain ⟨c, cb, vs, hc⟩ := interruption_coded (j := i + m) hbinv (hbkept.dir.trans hdir) hch hl (by rw [hbkept.tr]; exact hv)
      hstop hbroom
    rw [hc.run, ok_bind] at henc
    have hcseq : c.seq = s.seq := hc.kept.seq.trans hbseq
    have hcnear : ∀ ch < nch, (vs.getD ch 0 - curRead s ch ((i + m : Nat) : Int)).natAbs ≤ s.tr.near := by
      intro ch hch
      have := hc.near ch hch
      rwa [hbset.outside.cur (congrArg Seq.y hbseq) (congrArg Seq.c hbseq) (by omega) (by omega) (by omega),
        hbkept.tr] at this
    have hout : Outside s c nch i (m + 1) := hbset.outside.trans (congrArg Seq.y hbseq) (congrArg Seq.c hbseq) hc.cells.outside
    have hcin : ∀ ch < nch, ∀ j' : Int, (i : Int) ≤ j' → j' < i + m → curRead c ch j' = ras.getD ch 0 := by
      intro ch hch j' h1 h2
      rw [hc.cells.outside.cur (congrArg Seq.y hc.kept.seq) (congrArg Seq.c hc.kept.seq) (by omega) (by omega) (by omega),
        hbset.cur (congrArg Seq.y hbseq) (congrArg Seq.c hbseq) h3 hch (by omega) h1 h2]
    have hclast : ∀ ch < nch, curRead c ch ((i + m : Nat) : Int) = vs.getD ch 0 := fun ch hch =>
      hc.cells.cur (congrArg Seq.y hc.kept.seq) (congrArg Seq.c hc.kept.seq) h3 hch (by omega)
    refine ⟨m + 1, decIdx c, lb ++ cb, ?_⟩
    refine { run := henc, wrote := (hbwr.trans hc.wrote).same rfl rfl, short := ?_, pos := by omega, width := by omega,
             kept := hbkept.trans (hc.kept.trans (decIdx_kept c)), inv := ?_, near := ?_, outside := hout, back := ?_ }
    · have := hc.short; rw [List.length_append]; unfold elementBits; omega
    · exact hc.inv.setRunindex (by have := hc.inv.runindex; omega)
    · intro ch hch j' h1 h2
      change (curRead c ch j' - _).natAbs ≤ _
      by_cases hj : j' = ((i + m : Nat) : Int)
      · rw [hj, hclast ch hch]; exact hcnear ch hch
      · rw [hcin ch hch j' h1 (by omega)]; exact hanear ch hch j' h1 (by omega)
    · intro d rest hd hdd hdw hsl hrem
      obtain ⟨e, e0, e1, e2, e3, e4, e5, e6, e7, e8⟩ := hdec d (cb ++ rest) hd hdw hsl (by rw [hrem, List.append_assoc])
      rw [if_neg hend] at e0
      have hcurd : ∀ ch < nch, ∀ j' : Int, -1 ≤ j' → j' < i + m → curRead e ch j' = curRead b ch j' := by
        intro ch hch j' h1 h2
        by_cases hji : j' < i
        · rw [e5.outside.cur (congrArg Seq.y e2.seq) (congrArg Seq.c e2.seq) (by omega) (by omega) (by omega),
            hbset.outside.cur (congrArg Seq.y hbseq) (congrArg Seq.c hbseq) (by omega) (by omega) (by omega)]
          exact hsl.cur ch hch j' h1 hji
        · rw [e5.cur (congrArg Seq.y e2.seq) (congrArg Seq.c e2.seq) h3 hch (by omega) (by omega) h2,
            hbset.cur (congrArg Seq.y hbseq) (congrArg Seq.c hbseq) h3 hch (by omega) (by omega) h2]
      have hprevd : ∀ ch < nch, ∀ j' : Int, -1 ≤ j' → j' ≤ s.pr.width → prevRead e ch j' = prevRead b ch j' := by
        intro ch hch j' h1 h2
        rw [e5.outside.prev (congrArg Seq.y e2.seq) (congrArg Seq.c e2.seq) (by omega) (by omega),
          hbset.outside.prev (congrArg Seq.y hbseq) (congrArg Seq.c hbseq) (by omega) (by omega)]
        exact hsl.prev ch hch j' h1 h2
      have hnb : ∀ ch < nch, SameNeighbours b e ch (i + m) := fun ch hch =>
        ⟨hcurd ch hch _ (by omega) (by omega), hprevd ch hch _ (by omega) (by omega), hprevd ch hch _ (by omega) (by omega),
          hprevd ch hch _ (by omega) (by omega)⟩
      obtain ⟨g, g1, g2, g3, g4, g5, g6, g7, g8⟩ := hc.back e rest e1 (e2.dir.trans hdd) e4 hnb (e3.remaining (by
        rw [hrem, List.append_assoc]))
      rw [g1, ok_bind] at e0
      refine ⟨decIdx g, e0, ?_, e2.trans (g3.trans (decIdx_kept g)), g4, g5, ?_, g7, ?_, ?_⟩
      · rw [List.length_append]; exact (e3.trans g2).same rfl rfl
      · change g.runindex - 1 = c.runindex - 1; rw [g6]
      · exact e5.outside.trans (congrArg Seq.y e2.seq) (congrArg Seq.c e2.seq) g8.outside
      · intro ch hch j' h1 h2
        change curRead g ch j' = curRead c ch j'
        by_cases hj : j' = ((i + m : Nat) : Int)
        · rw [hj, hclast ch hch]
          exact g8.cur (congrArg Seq.y g3.seq) (congrArg Seq.c g3.seq) h3 hch (by omega)
        · rw [hcin ch hch j' h1 (by omega),
            g8.outside.cur (congrArg Seq.y g3.seq) (congrArg Seq.c g3.seq) (by omega) (by omega) (by omega),
            e5.cur (congrArg Seq.y e2.seq) (congrArg Seq.c e2.seq) h3 hch (by omega) h1 (by omega)]

end Sys2Proof.Machine
end

