-- ==== Sys2Proof/Laws/DecodeTotal.lean ====
section
/-! SUPPORT. A decode always ends: on whatever data, no part of it is refused (`70_reset_and_hazards.md` R407). -/

namespace Sys2Proof.Machine

variable {α β : Type} {P : State → Prop} {s : State}

/-- The operation is not refused, and the property holds of the state it completes in. -/
def Goes (f : α → State) (P : State → Prop) : Res α → Prop
  | .ok a => P (f a)
  | .error (.raised _ _) => True
  | .error (.refused _) => False

theorem Goes.ok {f : α → State} {a : α} (h : P (f a)) : Goes f P (.ok a) := h

theorem Goes.bind {Q : State → Prop} {f : α → State} {g : β → State} {x : Res α} {k : α → Res β} (hx : Goes f P x)
    (hk : ∀ a, P (f a) → Goes g Q (k a)) : Goes g Q (x >>= k) := by
  rcases x with (⟨e, s⟩ | r) | a
  · exact trivial
  · exact hx
  · exact hk a hx

theorem Goes.require {g : β → State} {b : Bool} {r : Refusal} {k : Unit → Res β} (h : b = true) (hk : Goes g P (k ())) :
    Goes g P (Machine.require b r >>= k) := by
  subst h; exact hk

theorem Goes.mono {Q : State → Prop} {f : α → State} {x : Res α} (h : Goes f P x) (hpq : ∀ s, P s → Q s) : Goes f Q x := by
  rcases x with (⟨e, s⟩ | r) | a
  · exact trivial
  · exact h
  · exact hpq _ h

theorem Goes.next {x : Res State} (h : Goes id P x) : ∃ t, finish x = .next t := by
  rcases x with (⟨e, s⟩ | r) | a
  · exact ⟨_, rfl⟩
  · exact h.elim
  · exact ⟨_, rfl⟩

/-! ## Reading -/

theorem gtEntry_length (k b : Nat) : (gtEntry k b).2 ≤ 8 := by
  unfold gtEntry
  split
  · exact Nat.zero_le _
  · split
    · assumption
    · exact Nat.zero_le _

section Reading

variable (hr : ∀ s r, P s → P (setReader s r))
include hr

theorem readValue_goes {n : Nat} (hn : n ≤ 31) (h : P s) : Goes Prod.snd P (readValue n s) := by
  unfold readValue
  split
  · exact h
  rw [if_neg (by omega)]
  split
  · exact trivial
  · exact hr _ _ h

theorem readBit_goes (h : P s) : Goes Prod.snd P (readBit s) := by
  unfold readBit
  split
  · exact trivial
  · exact hr _ _ h

theorem peekByte_goes (h : P s) : Goes Prod.snd P (peekByte s) := by
  unfold peekByte
  split
  · exact trivial
  · exact hr _ _ h

theorem skipBits_goes {n : Nat} (hn : n ≤ 31) (h : P s) : Goes id P (skipBits n s) := by
  unfold skipBits
  rw [if_neg (by omega)]
  split
  · exact trivial
  · exact hr _ _ h

theorem highLoop_goes (fuel n : Nat) (h : P s) : Goes Prod.snd P (highLoop fuel n s) := by
  induction fuel generalizing n s with
  | zero => exact trivial
  | succ fuel ih =>
    refine (readBit_goes hr h).bind fun a ha => ?_
    simp only
    split
    · exact ha
    · exact ih _ ha

theorem decodeValue_goes {k q : Nat} {g : Int} (hk : k ≤ 31) (hq : q ≤ 31) (h : P s) :
    Goes Prod.snd P (decodeValue k g q s) := by
  refine (highLoop_goes hr _ _ h).bind fun a ha => ?_
  simp only
  split
  · exact (readValue_goes hr hq ha).bind fun b hb => hb
  split
  · exact ha
  · exact (readValue_goes hr hk ha).bind fun b hb => hb

theorem shortCode_goes {k : Nat} (h : P s) : Goes Prod.snd P (shortCode k s) := by
  unfold shortCode
  split
  · exact h
  refine (peekByte_goes hr h).bind fun a ha => ?_
  simp only
  split
  · exact ha
  · exact (skipBits_goes hr ((gtEntry_length k a.1).trans (by decide)) ha).bind fun b hb => hb

end Reading

/-! ## The samples and the runs -/

/-- What a decode needs of a state: the direction, a width a read can take, corrections within their bounds, and samples
in the line buffers. -/
structure Decodable (s : State) : Prop where
  dir : s.dir = true
  qbpp : s.tr.qbpp ≤ 31
  ctx : ∀ q, -128 ≤ (ctxAt s q).c ∧ (ctxAt s q).c ≤ 127
  buf : ∀ key, isSample s.tr (sparseRead 0 s.buf key) = true
  bufWf : sparseWf 0 s.buf = true

theorem Decodable.congr {t : State} (h : Decodable s) (hd : t.dir = s.dir) (ht : t.tr = s.tr) (hc : t.ctx = s.ctx)
    (hb : t.buf = s.buf) : Decodable t := by
  obtain ⟨h1, h2, h3, h4, h5⟩ := h
  exact ⟨hd.trans h1, ht ▸ h2, fun q => by unfold ctxAt; rw [hc]; exact h3 q, by rw [ht, hb]; exact h4, hb ▸ h5⟩

theorem Decodable.write {s : State} (h : Decodable s) {v : Int} (hv : isSample s.tr v = true) (key : Nat) :
    Decodable (setBuf s (sparseWrite 0 s.buf key v)) := by
  refine ⟨h.dir, h.qbpp, h.ctx, fun k => ?_, sparseWrite_wf h.bufWf⟩
  change isSample s.tr (sparseRead 0 (sparseWrite 0 s.buf key v) k) = true
  rw [sparseRead_write h.bufWf]
  split
  · exact hv
  · exact h.buf k

theorem Decodable.cur {s : State} (h : Decodable s) {v : Int} (hv : isSample s.tr v = true) (ch : Nat) (j : Int) :
    Decodable (curWrite s ch j v) := h.write hv _

theorem Decodable.context (h : Decodable s) (i ch : Nat) : Decodable (channelContext i s ch) := h.congr rfl rfl rfl rfl

theorem Decodable.fsm (h : Decodable s) (f : Fsm) : Decodable (setFsm s f) := h.congr rfl rfl rfl rfl

/-- The same with a Golomb parameter in `K`. -/
def DecodableK (s : State) : Prop := Decodable s ∧ s.w.k ≤ 31

theorem decodable_reader (s : State) (r : Reader) (h : Decodable s) : Decodable (setReader s r) := h.congr rfl rfl rfl rfl

theorem decodableK_reader (s : State) (r : Reader) (h : DecodableK s) : DecodableK (setReader s r) :=
  ⟨decodable_reader s r h.1, h.2⟩

theorem getK_goes {q : Nat} (h : Decodable s) : Goes id DecodableK (getK q s) := by
  unfold getK
  split
  · rename_i k hk
    exact ⟨h.congr rfl rfl rfl rfl, Nat.le_of_lt_succ (golombK_spec hk).1⟩
  · exact trivial

theorem getRunK_goes {q : Nat} (h : Decodable s) : Goes id DecodableK (getRunK q s) := by
  unfold getRunK
  split
  · rename_i k hk
    exact ⟨h.congr rfl rfl rfl rfl, Nat.le_of_lt_succ (golombK_spec hk).1⟩
  · exact trivial

theorem updCtx_decodable (h : Decodable s) (q : Nat) (err : Int) : Decodable (updCtx q err s) := by
  refine ⟨h.dir, h.qbpp, fun p => ?_, h.buf, h.bufWf⟩
  unfold updCtx
  rw [ctxAt_setCtx]
  split
  · obtain ⟨-, -, -, -, h5, h6⟩ := rebias_bounds (accumulate_n_pos s.tr.near s.tr.reset (ctxAt s q) err)
      (by rw [accumulate_c]; exact h.ctx q)
    exact ⟨h5, h6⟩
  · exact h.ctx p

theorem rebuildSample_decodable (h : Decodable s) (i ch : Nat) : Decodable (rebuildSample i ch s) := by
  have h1 := updCtx_decodable h (contextIndex s) s.w.err
  refine Decodable.cur ?_ (recon_sample _ _ _) ch i
  exact h1.congr rfl rfl rfl rfl

theorem decodeRegular_goes {i ch : Nat} (hq : isContext (contextIndex s) = true) (hra : isSample s.tr s.w.ra = true)
    (hrb : isSample s.tr s.w.rb = true) (h : Decodable s) : Goes id Decodable (decodeRegular i ch s) := by
  unfold decodeRegular
  have hp : Goes id DecodableK (predictSample s) := by
    unfold predictSample
    refine Goes.require hq ?_
    unfold getK
    split
    · rename_i k hk
      exact Goes.require (isCorrected_of hra hrb (h.ctx _)) ⟨h.congr rfl rfl rfl rfl, Nat.le_of_lt_succ (golombK_spec hk).1⟩
    · exact trivial
  refine hp.bind fun a ha => ?_
  have he : Goes Prod.snd Decodable (readError a) := by
    unfold readError
    refine (shortCode_goes decodableK_reader ha).bind fun b hb => ?_
    obtain ⟨e, t⟩ := b
    cases e with
    | some e => exact hb.1
    | none =>
      refine (decodeValue_goes decodableK_reader hb.2 hb.1.qbpp hb).bind fun c hc => ?_
      simp only
      split
      · exact trivial
      · exact hc.1.congr rfl rfl rfl rfl
  refine he.bind fun b hb => ?_
  refine Goes.ok (f := id) (rebuildSample_decodable ?_ i ch)
  exact hb.congr rfl rfl rfl rfl

theorem decodeSegments_goes {rem : Nat} (fuel n : Nat) (h : Decodable s) :
    Goes Prod.snd Decodable (decodeSegments rem fuel n s) := by
  induction fuel generalizing n s with
  | zero => exact h
  | succ fuel ih =>
    refine (readBit_goes decodable_reader h).bind fun a ha => ?_
    simp only
    split
    · have hinc : Decodable (if min (2 ^ jNow a.2) (rem - n) = 2 ^ jNow a.2 then incIdx a.2 else a.2) := by
        split
        · exact ha.congr rfl rfl rfl rfl
        · exact ha
      split
      · exact hinc
      · exact ih _ hinc
    · exact ha

theorem decodeLength_goes {rem : Nat} (h : Decodable s) : Goes id Decodable (decodeLength rem s) := by
  refine (decodeSegments_goes _ _ h).bind fun a ha => ?_
  have hm : Goes Prod.snd Decodable (readRemainder rem a.1 a.2) := by
    unfold readRemainder
    split
    · exact readValue_goes decodable_reader ((jOf_le _).trans (by decide)) ha
    · exact ha
  refine hm.bind fun b hb => ?_
  simp only
  split
  · exact trivial
  · exact hb.congr rfl rfl rfl rfl

theorem decodeRiError_goes {t : Nat} (h : Decodable s) : Goes id Decodable (decodeRiError t s) := by
  refine (getRunK_goes h).bind fun a ha => ?_
  refine (decodeValue_goes decodableK_reader ha.2 ha.1.qbpp ha).bind fun b hb => ?_
  simp only
  split
  · exact trivial
  · exact hb.1.congr rfl rfl rfl rfl

/-- Decoding keeps the traits, which say what a sample is. -/
def DecodableWith (T : Traits) (s : State) : Prop := Decodable s ∧ s.tr = T

theorem decodeRiError_goesWith {t : Nat} (h : Decodable s) : Goes id (DecodableWith s.tr) (decodeRiError t s) := by
  have hk := decodeRiError_ends (t := t) (keptLine_reading s) (KeptLine.refl s)
  have hg := decodeRiError_goes (t := t) h
  cases hx : decodeRiError t s with
  | ok a => rw [hx] at hk hg; exact ⟨hg, hk.tr⟩
  | error e => rw [hx] at hg; rcases e with ⟨e, u⟩ | r <;> exact hg

theorem decodeRiChannel_goes {j ch : Nat} {ra : Int} (h : Decodable s) : Goes id Decodable (decodeRiChannel j s ch ra) := by
  refine (decodeRiError_goesWith (s := setWork s { s.w with ra := ra, rb := prevRead s ch j }) (h.congr rfl rfl rfl rfl)).bind
    fun a ha => ?_
  rw [reconstruct_ok (by rw [show a.tr = s.tr from ha.2]; exact h.buf _), ok_bind]
  have h1 : ∀ w, Decodable (setWork a w) := fun w => ha.1.congr rfl rfl rfl rfl
  refine Goes.ok (f := id) (Decodable.cur (h1 _) ?_ ch j)
  exact recon_sample a.tr _ _

theorem decodeRi_goes {ra rb : Int} (h : Decodable s) (hra : isSample s.tr ra = true) (hrb : isSample s.tr rb = true) :
    Goes id (fun t => Decodable t ∧ isSample t.tr t.w.rx = true) (decodeRi ra rb s) := by
  rw [decodeRi_eq]
  refine (decodeRiError_goesWith h).bind fun a ha => ?_
  rw [reconstruct_ok (by rw [show a.tr = s.tr from ha.2]; exact riBase_sample hra hrb), ok_bind]
  exact ⟨ha.1.congr rfl rfl rfl rfl, recon_sample _ _ _⟩

/-- The elements of the current line are samples. -/
theorem elementAt_sample (h : Decodable s) (nch : Nat) (j : Int) (k : Nat) :
    isSample s.tr ((elementAt nch s j).getD k 0) = true := by
  unfold elementAt
  rw [List.getD_eq_getElem?_getD, List.getElem?_map]
  cases (List.range nch)[k]? with
  | none => exact isSample_iff.2 ⟨le_rfl, Int.natCast_nonneg _⟩
  | some ch => exact h.buf _

theorem decodeInterruption_goes {nch j : Nat} {ras : List Int} (hras : ∀ k, isSample s.tr (ras.getD k 0) = true)
    (h : Decodable s) : Goes id Decodable (decodeInterruption nch j ras s) := by
  unfold decodeInterruption
  split
  · exact (decodeRiChannel_goes h).bind fun a ha => (decodeRiChannel_goes ha).bind fun b hb => decodeRiChannel_goes hb
  · refine (decodeRi_goes (s := setWork s { s.w with ra := ras.getD 0 0, rb := prevRead s 0 j }) (h.congr rfl rfl rfl rfl)
      (hras 0) (h.buf _)).bind fun a ha => ?_
    exact Decodable.write ha.1 ha.2 _

theorem writeElement_decodable {vs : List Int} {j : Nat} (hvs : ∀ v ∈ vs, isSample s.tr v = true) (h : Decodable s) :
    Decodable (writeElement vs j s) ∧ (writeElement vs j s).tr = s.tr := by
  unfold writeElement
  have hz : ∀ p ∈ vs.zipIdx, isSample s.tr p.1 = true := fun p hp => hvs _ (List.fst_mem_of_mem_zipIdx hp)
  generalize vs.zipIdx = l at hz
  induction l generalizing s with
  | nil => exact ⟨h, rfl⟩
  | cons p l ih =>
    exact ih (s := curWrite s p.2 j p.1) hvs (h.write (hz p (by simp)) _) fun q hq => hz q (by simp [hq])

theorem fillRun_decodable {vs : List Int} (n j : Nat) (hvs : ∀ v ∈ vs, isSample s.tr v = true) (h : Decodable s) :
    Decodable (fillRun vs n j s) ∧ (fillRun vs n j s).tr = s.tr := by
  induction n generalizing j s with
  | zero => exact ⟨h, rfl⟩
  | succ n ih =>
    obtain ⟨h1, h2⟩ := writeElement_decodable (j := j) hvs h
    obtain ⟨h3, h4⟩ := ih (j + 1) (by rw [h2]; exact hvs) h1
    exact ⟨h3, h4.trans h2⟩

theorem decodeRun_goes {nch i : Nat} (h : Decodable s) : Goes Prod.snd Decodable (decodeRun nch i s) := by
  unfold decodeRun
  simp only
  have hmem : ∀ v ∈ elementAt nch s ((i : Int) - 1), isSample s.tr v = true := fun v hv => by
    unfold elementAt at hv
    obtain ⟨ch, -, rfl⟩ := List.mem_map.1 hv
    exact h.buf _
  have hget := elementAt_sample h nch ((i : Int) - 1)
  generalize elementAt nch s ((i : Int) - 1) = ras at *
  have hk := decodeLength_ends (rem := s.pr.width - i) (s := setWork s { s.w with ra := ras.getD 0 0 })
    (keptLine_reading s) ((keptLine_reading s).work s _ (KeptLine.refl s))
  have hg := decodeLength_goes (rem := s.pr.width - i) (s := setWork s { s.w with ra := ras.getD 0 0 }) (h.congr rfl rfl rfl rfl)
  cases hx : decodeLength (s.pr.width - i) (setWork s { s.w with ra := ras.getD 0 0 }) with
  | error e => rw [hx] at hg; rcases e with ⟨e, u⟩ | r <;> exact hg
  | ok a =>
    rw [hx] at hk hg
    have htr : a.tr = s.tr := (show KeptLine s a from hk).1.tr
    rw [ok_bind]
    obtain ⟨h1, h2⟩ := fillRun_decodable a.w.runlen i (by rw [htr]; exact hmem) (show Decodable a from hg)
    split
    · exact h1
    · refine (decodeInterruption_goes (by rw [h2, htr]; exact hget) h1).bind fun b hb => ?_
      exact hb.congr rfl rfl rfl rfl

/-! ## The lines and the scan -/

theorem Decodable.gradients (h : Decodable s) (i ch : Nat) : gradientsInRange i ch s = true :=
  gradientsInRange_of h.buf i ch

theorem sampleTurn_goes (h : Decodable s) : Goes id Decodable (sampleTurn s) := by
  unfold sampleTurn
  simp only
  have hc : Decodable (channelContext s.seq.i s 0) := h.congr rfl rfl rfl rfl
  split
  · unfold codeRun
    rw [if_pos (show (setFsm (channelContext s.seq.i s 0) .runMode).dir = true from h.dir)]
    exact (decodeRun_goes (s := setFsm (channelContext s.seq.i s 0) .runMode) (hc.congr rfl rfl rfl rfl)).bind fun a ha =>
      ha.congr rfl rfl rfl rfl
  · unfold codeRegular
    rw [if_pos (show (setFsm (channelContext s.seq.i s 0) .regularSample).dir = true from h.dir)]
    exact (decodeRegular_goes (s := setFsm (channelContext s.seq.i s 0) .regularSample)
      (quantizeContext_isContext _) (h.buf _) (h.buf _) (hc.congr rfl rfl rfl rfl)).bind fun a ha => ha.congr rfl rfl rfl rfl

theorem lineStep_goes (h : Decodable s) : Goes id Decodable (lineStep s) := Goes.require (h.gradients _ _) (sampleTurn_goes h)

theorem codeRegular_goes {i ch : Nat} (h : Decodable s) : Goes id Decodable (codeRegular i ch (channelContext i s ch)) := by
  unfold codeRegular
  rw [if_pos (show (channelContext i s ch).dir = true from h.dir)]
  exact decodeRegular_goes (quantizeContext_isContext _) (h.buf _) (h.buf _) (h.congr rfl rfl rfl rfl)

theorem tripletTurn_goes (h : Decodable s) : Goes id Decodable (tripletTurn s) := by
  unfold tripletTurn
  simp only
  split
  · unfold codeRun
    have hc : Decodable (setFsm (channelContext s.seq.i (channelContext s.seq.i (channelContext s.seq.i s 0) 1) 2) .runMode) :=
      (((h.context _ 0).context _ 1).context _ 2).fsm _
    generalize setFsm (channelContext s.seq.i (channelContext s.seq.i (channelContext s.seq.i s 0) 1) 2) .runMode = u at hc
    rw [if_pos hc.dir]
    exact (decodeRun_goes hc).bind fun a ha => ha.congr rfl rfl rfl rfl
  · refine (codeRegular_goes (s := setFsm s .regularSample) (h.congr rfl rfl rfl rfl)).bind fun a ha =>
      (codeRegular_goes ha).bind fun b hb => (codeRegular_goes hb).bind fun c hc => ?_
    exact hc.congr rfl rfl rfl rfl

theorem lineStep3_goes (h : Decodable s) : Goes id Decodable (lineStep3 s) :=
  Goes.require (by rw [h.gradients, h.gradients, h.gradients]; rfl) (tripletTurn_goes h)

theorem lineLoop_goes {turn : State → Res State} (ht : ∀ s, Decodable s → Goes id Decodable (turn s)) (fuel : Nat)
    (h : Decodable s) : Goes id Decodable (lineLoop turn fuel s) := by
  induction fuel generalizing s with
  | zero => exact h
  | succ fuel ih =>
    unfold lineLoop
    split
    · exact (ht s h).bind fun a ha => ih ha
    · exact h

theorem guardLine_decodable (h : Decodable s) : Decodable (guardLine s) := by
  unfold guardLine
  generalize List.range (channels s) = l
  induction l generalizing s with
  | nil => exact h
  | cons ch l ih =>
    refine ih (s := guardChannel s ch) ?_
    unfold guardChannel
    simp only
    have h1 : Decodable (prevWrite s ch s.pr.width (prevRead s ch ((s.pr.width : Int) - 1))) := h.write (h.buf _) _
    exact Decodable.write h1 (h1.buf _) _

theorem deliverLine_goes {c y : Nat} (h : Decodable s) : Goes id Decodable (deliverLine c y s) := by
  unfold deliverLine
  split
  · split
    · exact trivial
    · exact h.congr rfl rfl rfl rfl
  · exact h

theorem codeSlotLine_goes {y c : Nat} (h : Decodable s) : Goes id Decodable (codeSlotLine y c s) := by
  unfold codeSlotLine beginLine takeLine
  simp only
  rw [if_pos (by exact h.dir), ok_bind, ok_bind]
  have hb : Decodable (guardLine (setRunindex (setSeq s { fsm := .scanning, y := y, c := c, i := 0 })
      (runidxAt (setSeq s { fsm := .scanning, y := y, c := c, i := 0 }) c))) := guardLine_decodable (h.congr rfl rfl rfl rfl)
  have hl : ∀ u, Decodable u → Goes id Decodable (codeElements u) := fun u hu => by
    unfold codeElements
    split
    · exact lineLoop_goes (fun _ => lineStep3_goes) _ (hu.congr rfl rfl rfl rfl)
    · exact lineLoop_goes (fun _ => lineStep_goes) _ (hu.congr rfl rfl rfl rfl)
  refine (hl _ hb).bind fun a ha => ?_
  unfold finishLine handLine
  rw [if_pos (show (setRunidx a c a.runindex).dir = true from ha.dir)]
  exact deliverLine_goes (ha.congr rfl rfl rfl rfl)

theorem codeSlots_goes {y : Nat} (n c : Nat) (h : Decodable s) : Goes id Decodable (codeSlots y n c s) := by
  induction n generalizing c s with
  | zero => exact h
  | succ n ih => exact (codeSlotLine_goes h).bind fun a ha => ih _ ha

theorem codeLines_goes (n y : Nat) (h : Decodable s) : Goes id Decodable (codeLines n y s) := by
  induction n generalizing y s with
  | zero => exact h
  | succ n ih => exact (codeSlots_goes _ _ h).bind fun a ha => ih _ ha

/-- A decode that is accepted is not refused, whatever the data (R341, R407). -/
theorem decodeScan_goes {p0 n : Nat} (ha : acceptScan p0 n s = .ok ()) (hp : legalParams s.build s.pr = true) :
    ∃ t, execDecodeScan p0 n s = .next t := by
  have hd : Decodable (scanSetup true p0 n s) := by
    have hb := (scanTraits_good hp).bounds
    exact ⟨rfl, hb.qbppHigh.trans (by decide), fun q => by
      rw [show ctxAt (scanSetup true p0 n s) q = ctxAt { s with ctx := initCtx (scanTraits s.pr).range } q from rfl, ctxAt_init]
      exact ⟨by simp only; decide, by simp only; decide⟩, fun _ => isSample_iff.2 ⟨le_rfl, Int.natCast_nonneg _⟩, rfl⟩
  refine Goes.next (P := fun _ => True) ?_
  unfold runScan
  rw [ha, ok_bind]
  refine (codeLines_goes _ _ hd).bind fun a h => ?_
  unfold endScan
  rw [if_pos (show a.dir = true from h.dir)]
  unfold endRead
  split
  · exact trivial
  · split
    · exact trivial
    · exact trivial

end Sys2Proof.Machine
end

