-- ==== Sys2Proof/Laws/Lines.lean ====
section
/-! SUPPORT. A line: the turns of its loop and the whole, coded and read back (`48_scan_driver.md` R334, R335). -/

namespace Sys2Proof.Machine

variable {s t a d e : State} {nch i j n m : Nat} {turn : State → Res State} {bits : List Bool}

/-! ## Twins -/

theorem Twin.inStep (h : Twin s d) : InStep s d := ⟨h.pr, h.tr, h.ctx, h.rctx, h.runindex, h.y, h.c, h.i⟩

theorem Twin.sameLines (h : Twin s d) : SameLines s d (channels s) s.seq.i := ⟨h.prev, h.cur⟩

theorem Twin.of (h : InStep s d) (hs : s.dir = false) (hd : d.dir = true) (hw : sparseWf 0 d.buf = true)
    (hl : SameLines s d (channels s) s.seq.i) : Twin s d :=
  ⟨hs, hd, h.pr, h.tr, h.ctx, h.rctx, h.runindex, h.y, h.c, h.i, hw, hl.prev, hl.cur⟩

/-- Beside `Kept`, the stored run indexes and the lines: what a line leaves. -/
structure KeptScan (s t : State) : Prop extends Kept s t where
  runidx : t.runidx = s.runidx
  lineDst : t.lineDst = s.lineDst
  lineRoom : t.lineRoom = s.lineRoom

theorem KeptLine.scan (h : KeptLine s t) : KeptScan s t := ⟨h.1, h.runidx, h.lineDst, h.lineRoom⟩

theorem KeptScan.trans {u : State} (h : KeptScan s t) (g : KeptScan t u) : KeptScan s u where
  pr := g.pr.trans h.pr
  configured := g.configured.trans h.configured
  tr := g.tr.trans h.tr
  err := g.err.trans h.err
  busy := g.busy.trans h.busy
  done := g.done.trans h.done
  dir := g.dir.trans h.dir
  sr1 := g.sr1.trans h.sr1
  qt := g.qt.trans h.qt
  bytePos := g.bytePos.trans h.bytePos
  lineSrc := g.lineSrc.trans h.lineSrc
  issue := g.issue.trans h.issue
  host := g.host.trans h.host
  free := g.free.trans h.free
  build := g.build.trans h.build
  resetIn := g.resetIn.trans h.resetIn
  runidx := g.runidx.trans h.runidx
  lineDst := g.lineDst.trans h.lineDst
  lineRoom := g.lineRoom.trans h.lineRoom

theorem KeptScan.channels (h : KeptScan s t) : channels t = channels s := by unfold Machine.channels; rw [h.pr]

theorem channels_eq (s : State) : channels s = 1 ∨ channels s = 3 := by unfold channels; split <;> simp

/-- A new place of the sequencer keeps the rest. -/
theorem setSeq_keptScan (s : State) (q : Seq) : KeptScan s (setSeq s q) :=
  ⟨⟨rfl, rfl, rfl, rfl, rfl, rfl, rfl, rfl, rfl, rfl, rfl, rfl, rfl, rfl, rfl, rfl⟩, rfl, rfl, rfl⟩

/-- The state is `s` with other working registers and another state of the sequencer. -/
def Prepared (s t : State) : Prop := ∃ w f, t = { s with w := w, seq := { s.seq with fsm := f } }

theorem Prepared.trans {u : State} (h : Prepared s t) (g : Prepared t u) : Prepared s u := by
  obtain ⟨w, f, rfl⟩ := h
  obtain ⟨w', f', rfl⟩ := g
  exact ⟨w', f', rfl⟩

theorem channelContext_prepared (i : Nat) (s : State) (ch : Nat) : Prepared s (channelContext i s ch) :=
  ⟨_, s.seq.fsm, rfl⟩

theorem setFsm_prepared (s : State) (f : Fsm) : Prepared s (setFsm s f) := ⟨s.w, f, rfl⟩

theorem Prepared.inv (h : Prepared s t) (hs : ScanInv s) : ScanInv t := by
  obtain ⟨w, f, rfl⟩ := h
  exact hs.congr rfl rfl rfl rfl rfl rfl

theorem Prepared.dir (h : Prepared s t) : t.dir = s.dir := by obtain ⟨w, f, rfl⟩ := h; rfl

theorem Prepared.pr (h : Prepared s t) : t.pr = s.pr := by obtain ⟨w, f, rfl⟩ := h; rfl

theorem Prepared.wr (h : Prepared s t) : t.wr = s.wr := by obtain ⟨w, f, rfl⟩ := h; rfl

/-- The state a triplet's run starts from. -/
def tripletContext (i : Nat) (s : State) : State :=
  setFsm (channelContext i (channelContext i (channelContext i s 0) 1) 2) .runMode

theorem tripletContext_prepared (i : Nat) (s : State) : Prepared s (tripletContext i s) :=
  (((channelContext_prepared i s 0).trans (channelContext_prepared i _ 1)).trans (channelContext_prepared i _ 2)).trans
    (setFsm_prepared _ _)

/-! ## One turn -/

/-- The `n` elements from `seq.i` on are coded by an encoder, and a twin of it reads them back. -/
structure TurnCoded (s : State) (turn : State → Res State) (n : Nat) (t : State) (bits : List Bool) : Prop where
  run : turn s = .ok t
  wrote : Wrote s bits t
  short : bits.length ≤ elementBits * n
  width : s.seq.i + n ≤ s.pr.width
  kept : KeptScan s t
  seq : t.seq = { s.seq with fsm := .scanning, i := s.seq.i + n }
  inv : ScanInv t
  near : ∀ ch < channels s, ∀ j : Int, (s.seq.i : Int) ≤ j → j < s.seq.i + n →
    (curRead t ch j - curRead s ch j).natAbs ≤ s.tr.near
  outside : Outside s t (channels s) s.seq.i n
  back : ∀ d rest, Twin s d → remaining d = bits ++ rest → ∃ e, turn d = .ok e ∧ Took d bits.length e ∧ KeptScan d e ∧
    Twin t e ∧ Outside d e (channels s) s.seq.i n

theorem SameLines.neighbours (h : SameLines s d nch i) (hi : i < s.pr.width) {ch : Nat} (hch : ch < nch) :
    SameNeighbours s d ch i :=
  ⟨h.cur ch hch _ (by omega) (by omega), h.prev ch hch _ (by omega) (by omega), h.prev ch hch _ (by omega) (by omega),
    h.prev ch hch _ (by omega) (by omega)⟩

/-- An element as a run of one. -/
theorem ElementCoded.asRun {enc dec : State → Res State} {vs : List Int} (h : ElementCoded s nch i enc dec t bits vs)
    (hi : i < s.pr.width) (h3 : nch ≤ 3) :
    RunCoded s nch i 1 (fun s => enc s >>= fun t => .ok (1, t)) (fun d => dec d >>= fun t => .ok (1, t)) t bits where
  run := by simp only [h.run, ok_bind]
  wrote := h.wrote
  short := by have := h.short; unfold elementBits; omega
  pos := le_rfl
  width := hi
  kept := h.kept
  inv := h.inv
  near ch hch j' h1 h2 := by
    obtain rfl : j' = i := by omega
    rw [h.cells.cur (congrArg Seq.y h.kept.seq) (congrArg Seq.c h.kept.seq) h3 hch (by omega)]
    exact h.near ch hch
  outside := h.cells.outside
  back d rest hd hdd hdw hsl hrem := by
    obtain ⟨e, h1, h2, h3', h4, h5, h6, h7, h8⟩ := h.back d rest hd hdd hdw (fun ch hch => hsl.neighbours hi hch) hrem
    refine ⟨e, by simp only [h1, ok_bind], h2, h3', h4, h5, h6, h7, h8.outside, fun ch hch j' h9 h10 => ?_⟩
    obtain rfl : j' = i := by omega
    rw [h8.cur (congrArg Seq.y h3'.seq) (congrArg Seq.c h3'.seq) h3 hch (by omega),
      h.cells.cur (congrArg Seq.y h.kept.seq) (congrArg Seq.c h.kept.seq) h3 hch (by omega)]

/-- The decoder's buffers after the next elements (R334). -/
theorem SameLines.extend (h : SameLines s d nch i) (h3 : nch ≤ 3)
    (ht : Outside s t nch i n) (he : Outside d e nch i n) (hty : t.seq.y = s.seq.y) (htc : t.seq.c = s.seq.c)
    (hey : e.seq.y = d.seq.y) (hec : e.seq.c = d.seq.c) (hpr : t.pr = s.pr)
    (hc : ∀ ch < nch, ∀ j : Int, (i : Int) ≤ j → j < i + n → curRead e ch j = curRead t ch j) :
    SameLines t e nch (i + n) where
  prev ch hch j h1 h2 := by
    rw [hpr] at h2
    rw [he.prev hey hec (by omega) (by omega), ht.prev hty htc (by omega) (by omega)]
    exact h.prev ch hch j h1 h2
  cur ch hch j h1 h2 := by
    by_cases hj : j < i
    · rw [he.cur hey hec (by omega) (by omega) (by omega), ht.cur hty htc (by omega) (by omega) (by omega)]
      exact h.cur ch hch j h1 hj
    · exact hc ch hch j (by omega) (by omega)

/-- A turn, from the run or the element it codes. -/
theorem turn_of_run {s' : State} {enc dec : State → Res (Nat × State)} (hdir : s.dir = false)
    (hch : channels s = nch) (hs : Prepared s s') (hc : RunCoded s' nch s.seq.i n enc dec t bits)
    (hturn : turn s = enc s' >>= fun r => .ok (advance r.1 r.2))
    (hback : ∀ d, Twin s d → ∃ d', Prepared d d' ∧ turn d = dec d' >>= fun r => .ok (advance r.1 r.2)) :
    TurnCoded s turn n (advance n t) bits := by
  obtain ⟨w, f, rfl⟩ := hs
  subst hch
  have h3 : channels s ≤ 3 := by rcases channels_eq s with h | h <;> omega
  have hk : KeptScan s t :=
    (⟨⟨rfl, rfl, rfl, rfl, rfl, rfl, rfl, rfl, rfl, rfl, rfl, rfl, rfl, rfl, rfl, rfl⟩, rfl, rfl, rfl⟩ : KeptScan s
      { s with w := w, seq := { s.seq with fsm := f } }).trans hc.kept.scan
  have hseq : t.seq = { s.seq with fsm := f } := hc.kept.seq
  refine { run := by rw [hturn, hc.run, ok_bind], wrote := (Wrote.of_same (u := s) hc.wrote rfl rfl).same rfl rfl, short := hc.short,
           width := hc.width, kept := hk.trans (setSeq_keptScan _ _), seq := ?_, inv := hc.inv.congr rfl rfl rfl rfl rfl rfl,
           near := hc.near, outside := hc.outside, back := ?_ }
  · simp only [advance, setSeq_seq, hseq]
  · intro d rest hd hrem
    obtain ⟨d', ⟨w', f', rfl⟩, hdt⟩ := hback d hd
    have hin : InStep { s with w := w, seq := { s.seq with fsm := f } } { d with w := w', seq := { d.seq with fsm := f' } } :=
      ⟨hd.pr, hd.tr, hd.ctx, hd.rctx, hd.runindex, hd.y, hd.c, hd.i⟩
    have hsl : SameLines { s with w := w, seq := { s.seq with fsm := f } } { d with w := w', seq := { d.seq with fsm := f' } }
        (channels s) s.seq.i := ⟨hd.prev, hd.cur⟩
    obtain ⟨e, e1, e2, e3, e4, e5, e6, e7, e8, e9⟩ := hc.back _ rest hin hd.decoder hd.bufWf hsl hrem
    have hdk : KeptScan d e :=
      (⟨⟨rfl, rfl, rfl, rfl, rfl, rfl, rfl, rfl, rfl, rfl, rfl, rfl, rfl, rfl, rfl, rfl⟩, rfl, rfl, rfl⟩ : KeptScan d
        { d with w := w', seq := { d.seq with fsm := f' } }).trans e3.scan
    have heseq : e.seq = { d.seq with fsm := f' } := e3.seq
    refine ⟨advance n e, by rw [hdt, e1, ok_bind], (Took.of_same (u := d) e2 rfl rfl).same rfl rfl, hdk.trans (setSeq_keptScan _ _), ?_,
      e8⟩
    have hext : SameLines t e (channels s) (s.seq.i + n) := hsl.extend h3 hc.outside e8 (by rw [hseq])
      (by rw [hseq]) (by rw [heseq]) (by rw [heseq]) hc.kept.pr e9
    have hch : channels (advance n t) = channels s := (hk.trans (setSeq_keptScan _ _)).channels
    refine Twin.of ⟨hdk.pr.trans (hd.pr.trans hk.pr.symm), hdk.tr.trans (hd.tr.trans hk.tr.symm), e4, e5, e6, ?_, ?_, ?_⟩
      (hk.dir.trans hdir) (hdk.dir.trans hd.decoder) e7 ?_
    · change e.seq.y = t.seq.y; rw [heseq, hseq]; exact hd.y
    · change e.seq.c = t.seq.c; rw [heseq, hseq]; exact hd.c
    · change e.seq.i + n = t.seq.i + n; rw [heseq, hseq]; exact congrArg (· + n) hd.i
    · rw [hch, show (advance n t).seq.i = s.seq.i + n by simp only [advance, setSeq_seq, hseq]]
      exact ⟨hext.prev, hext.cur⟩

/-! ## The two kinds of turn -/

theorem channelContext_qs (h : InStep s d) {ch : Nat} (hn : SameNeighbours s d ch i) :
    (channelContext i d ch).w.qs = (channelContext i s ch).w.qs := by
  simp only [channelContext, quantizeContext, neighbours, setWork_w, setWork_tr, hn.ra, hn.rb, hn.rc, hn.rd, h.tr]

theorem codeRegular_coded (h : ScanInv s) (hdir : s.dir = false) {ch : Nat} (hroom : roomFor s.wr 90) :
    ∃ t bits v, ChannelCoded s ch j (fun s => codeRegular j ch (channelContext j s ch))
      (fun s => codeRegular j ch (channelContext j s ch)) t bits v := by
  obtain ⟨t, bits, v, hc⟩ := regular_coded h hdir (j := j) (ch := ch) hroom
  refine ⟨t, bits, v, { hc with run := ?_, back := ?_ }⟩
  · rw [← hc.run]
    change (if s.dir = true then _ else _) = _
    rw [hdir]; rfl
  · intro d rest hd hdd hn hr
    obtain ⟨e, he, h2⟩ := hc.back d rest hd hdd hn hr
    refine ⟨e, ?_, h2⟩
    rw [← he]
    change (if d.dir = true then _ else _) = _
    rw [hdd]; rfl

theorem codeRun_coded (h : ScanInv s) (hdir : s.dir = false) (hch : nch = 1 ∨ nch = 3)
    (hi : i < s.pr.width) (hroom : roomFor s.wr (elementBits * (s.pr.width - i))) :
    ∃ n t bits, RunCoded s nch i n (codeRun nch i) (codeRun nch i) t bits := by
  obtain ⟨n, t, bits, hc⟩ := run_coded h hdir hch hi hroom
  refine ⟨n, t, bits, { hc with run := ?_, back := ?_ }⟩
  · rw [← hc.run, codeRun, hdir]; rfl
  · intro d rest hd hdd hdw hn hr
    obtain ⟨e, he, h2⟩ := hc.back d rest hd hdd hdw hn hr
    exact ⟨e, by rw [← he, codeRun, hdd]; rfl, h2⟩

/-- The room one turn needs is in the room of the rest of the line. -/
theorem turnRoom {w : Writer} (hi : i < n) (h : roomFor w (elementBits * (n - i))) : roomFor w 270 :=
  h.mono (by unfold elementBits; omega)

/-- A sample or a run (R334). -/
theorem sampleTurn_coded (h : ScanInv s) (hdir : s.dir = false) (hch : channels s = 1)
    (hi : s.seq.i < s.pr.width) (hroom : roomFor s.wr (elementBits * (s.pr.width - s.seq.i))) :
    ∃ n t bits, 1 ≤ n ∧ TurnCoded s sampleTurn n t bits := by
  by_cases hq : (channelContext s.seq.i s 0).w.qs = 0
  · obtain ⟨n, t, bits, hc⟩ := codeRun_coded (s := setFsm (channelContext s.seq.i s 0) .runMode) (nch := 1)
      (h.congr rfl rfl rfl rfl rfl rfl) hdir (.inl rfl) hi hroom
    refine ⟨n, _, bits, hc.pos, turn_of_run (s' := setFsm (channelContext s.seq.i s 0) .runMode) hdir hch ⟨_, _, rfl⟩ hc ?_ fun d hd =>
      ⟨setFsm (channelContext s.seq.i d 0) .runMode, ⟨_, _, rfl⟩, ?_⟩⟩
    · simp only [sampleTurn]; rw [if_pos hq]
    · have hn := hd.sameLines.neighbours hi (ch := 0) (by omega)
      simp only [sampleTurn]; rw [hd.i, if_pos ((channelContext_qs hd.inStep hn).trans hq)]
  · obtain ⟨t, bits, v, hc⟩ := codeRegular_coded (s := setFsm s .regularSample) (j := s.seq.i) (ch := 0)
      (h.congr rfl rfl rfl rfl rfl rfl) hdir (hroom.mono (by unfold elementBits; omega))
    have hr := (hc.element (h.congr rfl rfl rfl rfl rfl rfl) (by omega)).asRun hi (by decide)
    refine ⟨1, _, bits, le_rfl, turn_of_run (s' := setFsm s .regularSample) hdir hch ⟨_, _, rfl⟩ hr ?_ fun d hd => 
      ⟨setFsm d .regularSample, ⟨_, _, rfl⟩, ?_⟩⟩
    · simp only [sampleTurn]; rw [if_neg hq, bind_assoc]; rfl
    · have hn := hd.sameLines.neighbours hi (ch := 0) (by omega)
      simp only [sampleTurn]; rw [hd.i, if_neg (by rw [channelContext_qs hd.inStep hn]; exact hq), bind_assoc]; rfl

/-- A triplet or a run of triplets (R335). -/
theorem tripletTurn_coded (h : ScanInv s) (hdir : s.dir = false) (hch : channels s = 3)
    (hi : s.seq.i < s.pr.width) (hroom : roomFor s.wr (elementBits * (s.pr.width - s.seq.i))) :
    ∃ n t bits, 1 ≤ n ∧ TurnCoded s tripletTurn n t bits := by
  have hflat : ∀ d, Twin s d → tripletFlat s.seq.i d = tripletFlat s.seq.i s := fun d hd => by
    have hn := fun ch (h : ch < 3) => channelContext_qs hd.inStep (hd.sameLines.neighbours hi (ch := ch) (by omega))
    unfold tripletFlat
    rw [hn 0 (by decide), hn 1 (by decide), hn 2 (by decide)]
  by_cases hq : tripletFlat s.seq.i s = true
  · have hp := tripletContext_prepared s.seq.i s
    obtain ⟨n, t, bits, hc⟩ := codeRun_coded (nch := 3) (i := s.seq.i) (hp.inv h) (hp.dir.trans hdir) (.inr rfl)
      (by rw [hp.pr]; exact hi) (by rw [hp.pr, hp.wr]; exact hroom)
    refine ⟨n, _, bits, hc.pos, turn_of_run hdir hch hp hc ?_ fun d hd =>
      ⟨tripletContext s.seq.i d, tripletContext_prepared _ _, ?_⟩⟩
    · rw [tripletTurn]; simp only; rw [if_pos hq]; rfl
    · rw [tripletTurn]; simp only; rw [hd.i, if_pos ((hflat d hd).trans hq)]; rfl
  · obtain ⟨t, bits, vs, hc⟩ := triplet_coded (s := setFsm s .regularSample) (j := s.seq.i) (h.congr rfl rfl rfl rfl rfl rfl)
      hdir (turnRoom hi hroom) (f := fun ch u => codeRegular s.seq.i ch (channelContext s.seq.i u ch))
      (g := fun ch u => codeRegular s.seq.i ch (channelContext s.seq.i u ch)) 
      (fun ch _ u hu hd hr => codeRegular_coded (j := s.seq.i) (ch := ch) hu hd hr)
    have hr := hc.asRun hi (by decide)
    refine ⟨1, _, bits, le_rfl, turn_of_run (s' := setFsm s .regularSample) hdir hch ⟨_, _, rfl⟩ hr ?_ fun d hd =>
      ⟨setFsm d .regularSample, ⟨_, _, rfl⟩, ?_⟩⟩
    · simp only [tripletTurn]; rw [if_neg hq]; simp only [bind_assoc]; rfl
    · simp only [tripletTurn]; rw [hd.i, if_neg (by rw [hflat d hd]; exact hq)]; simp only [bind_assoc]; rfl

theorem gradientsInRange_eq (h : InStep s d) {ch : Nat} (hn : SameNeighbours s d ch i) :
    gradientsInRange i ch d = gradientsInRange i ch s := by
  simp only [gradientsInRange, neighbours, setWork_w, hn.ra, hn.rb, hn.rc, hn.rd, h.tr]

/-- A turn behind a test that passes, and passes for a twin. -/
theorem TurnCoded.require {b : State → Bool} {r : Refusal} (h : TurnCoded s turn n t bits) (hb : b s = true)
    (hd : ∀ d, Twin s d → b d = b s) : TurnCoded s (fun u => Machine.require (b u) r >>= fun _ => turn u) n t bits := by
  refine { h with run := by simp only [hb]; exact h.run, back := fun d rest htw hrem => ?_ }
  obtain ⟨e, e1, e2⟩ := h.back d rest htw hrem
  exact ⟨e, by simp only [hd d htw, hb]; exact e1, e2⟩

/-- A turn of `SC.LINE` (R334). -/
theorem lineStep_coded (h : ScanInv s) (hdir : s.dir = false) (hch : channels s = 1) (hi : s.seq.i < s.pr.width)
    (hroom : roomFor s.wr (elementBits * (s.pr.width - s.seq.i))) :
    ∃ n t bits, 1 ≤ n ∧ TurnCoded s lineStep n t bits := by
  obtain ⟨n, t, bits, hn, ht⟩ := sampleTurn_coded h hdir hch hi hroom
  refine ⟨n, t, bits, hn, ht.require (b := fun u => gradientsInRange u.seq.i 0 u) (h.gradients _ _) fun d hd => ?_⟩
  simp only [hd.i, gradientsInRange_eq hd.inStep (hd.sameLines.neighbours hi (ch := 0) (by omega))]

/-- A turn of `SC.LINE3` (R335). -/
theorem lineStep3_coded (h : ScanInv s) (hdir : s.dir = false) (hch : channels s = 3) (hi : s.seq.i < s.pr.width)
    (hroom : roomFor s.wr (elementBits * (s.pr.width - s.seq.i))) :
    ∃ n t bits, 1 ≤ n ∧ TurnCoded s lineStep3 n t bits := by
  obtain ⟨n, t, bits, hn, ht⟩ := tripletTurn_coded h hdir hch hi hroom
  refine ⟨n, t, bits, hn, ht.require (b := fun u => gradientsInRange u.seq.i 0 u && gradientsInRange u.seq.i 1 u &&
    gradientsInRange u.seq.i 2 u) (by simp only [h.gradients, Bool.and_self]) fun d hd => ?_⟩
  have hg := fun ch (hc : ch < 3) => gradientsInRange_eq hd.inStep (hd.sameLines.neighbours hi (ch := ch) (by omega))
  simp only [hd.i, hg 0 (by decide), hg 1 (by decide), hg 2 (by decide)]

/-! ## The whole line -/

/-- Two turns, or a turn and the rest of the line. -/
theorem TurnCoded.trans {f g : State → Res State} {as bs : List Bool} (h : TurnCoded s f m a as)
    (k : TurnCoded a g n t bs) : TurnCoded s (fun s => f s >>= g) (m + n) t (as ++ bs) := by
  have hi : a.seq.i = s.seq.i + m := by rw [h.seq]
  have hch : channels a = channels s := h.kept.channels
  have h3 : channels s ≤ 3 := by rcases channels_eq s with h | h <;> omega
  have hkw := k.width
  rw [h.kept.pr, hi] at hkw
  have hout : Outside a t (channels s) (s.seq.i + m) n := by rw [← hch, ← hi]; exact k.outside
  refine { run := by simp only [h.run, ok_bind, k.run], wrote := h.wrote.trans k.wrote, short := ?_, width := by omega,
           kept := h.kept.trans k.kept, seq := ?_, inv := k.inv, near := ?_, outside := ?_, back := ?_ }
  · have := h.short; have := k.short; rw [List.length_append]; unfold elementBits at *; omega
  · rw [k.seq, h.seq]; simp only [Nat.add_assoc]
  · intro ch hc j h1 h2
    by_cases hj : j < ((s.seq.i + m : Nat) : Int)
    · rw [hout.cur (by rw [k.seq]) (by rw [k.seq]) (by omega) (by omega) (by omega)]
      exact h.near ch hc j h1 (by omega)
    · have := k.near ch (by omega) j (by omega) (by omega)
      rwa [h.outside.cur (by rw [h.seq]) (by rw [h.seq]) (by omega) (by omega) (by omega), h.kept.tr] at this
  · exact h.outside.trans (by rw [h.seq]) (by rw [h.seq]) hout
  · intro d rest hd hrem
    obtain ⟨e, e1, e2, e3, e4, e5⟩ := h.back d (bs ++ rest) hd (by rw [hrem, List.append_assoc])
    obtain ⟨u, u1, u2, u3, u4, u5⟩ := k.back e rest e4 (e2.remaining (by rw [hrem, List.append_assoc]))
    rw [hch, hi] at u5
    refine ⟨u, by simp only [e1, ok_bind, u1], ?_, e3.trans u3, u4, ?_⟩
    · rw [List.length_append]; exact e2.trans u2
    · exact e5.trans (by rw [e4.y, h.seq, hd.y]) (by rw [e4.c, h.seq, hd.c]) u5

/-- The rest of a line (R334, R335). -/
theorem lineLoop_coded
    (hturn : ∀ u, ScanInv u → u.dir = false → u.pr = s.pr → u.seq.i < s.pr.width →
      roomFor u.wr (elementBits * (s.pr.width - u.seq.i)) → ∃ n t bits, 1 ≤ n ∧ TurnCoded u turn n t bits) :
    ∀ (fuel : Nat) (u : State), ScanInv u → u.dir = false → u.pr = s.pr → u.seq.i < s.pr.width →
      s.pr.width - u.seq.i ≤ fuel → roomFor u.wr (elementBits * (s.pr.width - u.seq.i)) →
      ∃ t bits, TurnCoded u (lineLoop turn fuel) (s.pr.width - u.seq.i) t bits := by
  intro fuel
  induction fuel with
  | zero => intro u _ _ _ _ _; omega
  | succ fuel ih =>
    intro u hu hdir hpr hi hfuel hroom
    obtain ⟨m, a, as, hm, ha⟩ := hturn u hu hdir hpr hi hroom
    have hai : a.seq.i = u.seq.i + m := by rw [ha.seq]
    have haw := ha.width
    rw [hpr] at haw
    have hunf : ∀ v : State, v.seq.i < v.pr.width → lineLoop turn (fuel + 1) v = turn v >>= lineLoop turn fuel :=
      fun v hv => by rw [lineLoop, if_pos hv]
    by_cases hend : u.seq.i + m = s.pr.width
    · have hstop : ∀ v : State, v.seq.i = v.pr.width → lineLoop turn fuel v = .ok v := fun v hv => by
        cases fuel with
        | zero => rfl
        | succ f => rw [lineLoop, if_neg (by omega)]
      refine ⟨a, as, ?_⟩
      rw [show s.pr.width - u.seq.i = m by omega]
      refine { ha with run := ?_, back := ?_ }
      · rw [hunf u (by rw [hpr]; exact hi), ha.run, ok_bind, hstop a (by rw [hai, ha.kept.pr, hpr]; exact hend)]
      · intro d rest hd hrem
        obtain ⟨e, e1, e2, e3, e4, e5⟩ := ha.back d rest hd hrem
        refine ⟨e, ?_, e2, e3, e4, e5⟩
        rw [hunf d (by rw [hd.i, hd.pr, hpr]; exact hi), e1, ok_bind, hstop e (by
          rw [e4.i, e4.pr, hai, ha.kept.pr, hpr]; exact hend)]
    · obtain ⟨t, bs, ht⟩ := ih a ha.inv (ha.kept.dir.trans hdir) (ha.kept.pr.trans hpr) (by omega) (by omega)
        (hroom.after ha.wrote.writer (by have := ha.short; unfold elementBits at *; omega))
      have h2 := ha.trans ht
      rw [show m + (s.pr.width - a.seq.i) = s.pr.width - u.seq.i by omega] at h2
      refine ⟨t, as ++ bs, { h2 with run := ?_, back := ?_ }⟩
      · rw [hunf u (by rw [hpr]; exact hi)]; exact h2.run
      · intro d rest hd hrem
        obtain ⟨e, e1, e2⟩ := h2.back d rest hd hrem
        exact ⟨e, by rw [hunf d (by rw [hd.i, hd.pr, hpr]; exact hi)]; exact e1, e2⟩

/-- A whole line of one slot, single samples or triplets (R334, R335). -/
theorem line_coded (h : ScanInv s) (hdir : s.dir = false) (hpos : 1 ≤ s.pr.width)
    (hi : s.seq.i = 0) (hroom : roomFor s.wr (elementBits * s.pr.width)) :
    ∃ t bits, TurnCoded s codeElements s.pr.width t bits := by
  have hch : ∀ u : State, u.pr = s.pr → channels u = channels s := fun u hu => by unfold channels; rw [hu]
  have key : ∀ turn : State → Res State, (∀ u, ScanInv u → u.dir = false → u.pr = s.pr → u.seq.i < s.pr.width →
      roomFor u.wr (elementBits * (s.pr.width - u.seq.i)) → ∃ n t bits, 1 ≤ n ∧ TurnCoded u turn n t bits) →
      ∃ t bits, TurnCoded s (lineLoop turn s.pr.width) s.pr.width t bits := fun turn hturn => by
    have := lineLoop_coded hturn s.pr.width s h hdir rfl (by omega) (by omega) (by rw [hi, Nat.sub_zero]; exact hroom)
    rwa [hi, Nat.sub_zero] at this
  have hset : ∀ d : State, d.seq.i = 0 → setSeq d { d.seq with i := 0 } = d := fun d hd => by
    rw [← hd]; rfl
  by_cases hs : s.pr.ilv = .sample
  · obtain ⟨t, bits, ht⟩ := key lineStep3 fun u hu hud hupr hui hur => lineStep3_coded hu hud (by
      rw [hch u hupr]; unfold channels; rw [hs]) (by rw [hupr]; exact hui) (by rw [hupr]; exact hur)
    have hcode : ∀ d : State, d.pr = s.pr → d.seq.i = 0 → codeElements d = lineLoop lineStep3 s.pr.width d :=
      fun d hd hdi => by rw [codeElements, hd, if_pos hs, codeLine3, hset d hdi, hd]
    refine ⟨t, bits, { ht with run := ?_, back := ?_ }⟩
    · rw [hcode s rfl hi]; exact ht.run
    · intro d rest hd hrem
      obtain ⟨e, e1, e2⟩ := ht.back d rest hd hrem
      exact ⟨e, by rw [hcode d hd.pr (hd.i.trans hi)]; exact e1, e2⟩
  · obtain ⟨t, bits, ht⟩ := key lineStep fun u hu hud hupr hui hur => lineStep_coded hu hud (by
      rw [hch u hupr]; unfold channels; split <;> simp_all) (by rw [hupr]; exact hui) (by
      rw [hupr]; exact hur)
    have hcode : ∀ d : State, d.pr = s.pr → d.seq.i = 0 → codeElements d = lineLoop lineStep s.pr.width d :=
      fun d hd hdi => by rw [codeElements, hd, if_neg hs, codeLine, hset d hdi, hd]
    refine ⟨t, bits, { ht with run := ?_, back := ?_ }⟩
    · rw [hcode s rfl hi]; exact ht.run
    · intro d rest hd hrem
      obtain ⟨e, e1, e2⟩ := ht.back d rest hd hrem
      exact ⟨e, by rw [hcode d hd.pr (hd.i.trans hi)]; exact e1, e2⟩

end Sys2Proof.Machine
end

