-- ==== Sys2Proof/Laws/PerInstr.lean ====
section
/-! SUPPORT. The family `RoundTrip`: every well-formed operation is read back from its bytes, whatever follows them. -/

namespace Sys2Proof

/-! ## Words -/

theorem wordOfBytes_bytes (w : Word) :
    wordOfBytes (BitVec.ofNat 8 w.toNat) (BitVec.ofNat 8 (w.toNat / 2 ^ 8)) (BitVec.ofNat 8 (w.toNat / 2 ^ 16))
      (BitVec.ofNat 8 (w.toNat / 2 ^ 24)) = w := by
  apply BitVec.eq_of_toNat_eq
  have := w.isLt
  simp only [wordOfBytes, BitVec.toNat_ofNat]
  omega

theorem takeWords_words (ws : List Word) (rest : List Byte) :
    takeWords ws.length (ws.flatMap bytesOfWord ++ rest) = some (ws, rest) := by
  induction ws with
  | nil => rfl
  | cons w ws ih =>
    simp only [List.flatMap_cons, bytesOfWord, List.cons_append, List.nil_append, List.length_cons, takeWords, ih,
      wordOfBytes_bytes]

theorem operandU_wordU {n : Nat} (h : fitsUnsigned n = true) : (wordU n).toNat = n := by
  have : n < 2 ^ 32 := of_decide_eq_true h
  simp only [wordU, BitVec.toNat_ofNat]
  omega

theorem wordU_bit (eol : Bool) : (wordU (if eol then 1 else 0)).toNat = eol.toNat := by cases eol <;> rfl

theorem operandS_wordS {z : Int} (h : fitsSigned z = true) : (wordS z).toInt = z := by
  simp only [fitsSigned, Bool.and_eq_true, decide_eq_true_eq] at h
  simp only [wordS, BitVec.toInt_ofInt, Int.bmod]
  omega

theorem isContext_fits {q : Nat} (h : isContext q = true) : fitsUnsigned q = true := by
  simp only [isContext, fitsUnsigned, decide_eq_true_eq] at h ⊢
  omega

theorem isRunContext_fits {t : Nat} (h : isRunContext t = true) : fitsUnsigned t = true := by
  simp only [isRunContext, fitsUnsigned, decide_eq_true_eq] at h ⊢
  omega

theorem isCount_fits {n : Nat} (h : isCount n = true) : fitsUnsigned n = true := by
  simp only [isCount, fitsUnsigned, decide_eq_true_eq] at h ⊢
  omega

theorem isBin_fits {q : Int} (h : isBin q = true) : fitsSigned q = true := by
  simp only [isBin, fitsSigned, Bool.and_eq_true, decide_eq_true_eq] at h ⊢
  omega

/-- Reading an operation back, from its selector and its operand words. -/
theorem decode_of_words {i : Instr} {op : Nat} {ws : List Word} {rest : List Byte}
    (he : encode i = BitVec.ofNat 8 op :: ws.flatMap bytesOfWord) (ho : op < 256) (ha : arityOf op = some ws.length)
    (hb : buildOperation op ws = some i) (hw : wellFormed i = true) : decode (encode i ++ rest) = .ok (i, rest) := by
  have hop : (BitVec.ofNat 8 op).toNat = op := by
    rw [BitVec.toNat_ofNat]
    exact Nat.mod_eq_of_lt ho
  rw [he, List.cons_append]
  simp only [decode, hop, ha, takeWords_words, hb, hw, if_true]

namespace Laws.RoundTrip

set_option Elab.async false

/-- An operation is read back from its bytes; a codeword has none. -/
def Statement (i : Instr) : Prop :=
  wellFormed i = true → isOperation i = true → ∀ rest, decode (encode i ++ rest) = .ok (i, rest)

theorem configure (width height bps ncomp near ilv maxVal t1 t2 t3 reset rectX rectY rectW rectH : Nat) :
    Statement (.configure width height bps ncomp near ilv maxVal t1 t2 t3 reset rectX rectY rectW rectH) := by
  intro hw _ rest
  refine decode_of_words (ws := operandsOf _) rfl (by decide) rfl ?_ hw
  simp only [wellFormed, List.all_cons, List.all_nil, Bool.and_eq_true, Bool.and_true] at hw
  simp [buildOperation, operandsOf, operandU, operandU_wordU, hw]

theorem encodeScan (p0 cap : Nat) : Statement (.encodeScan p0 cap) := by
  intro hw _ rest
  refine decode_of_words (ws := operandsOf _) rfl (by decide) rfl ?_ hw
  simp only [wellFormed, Bool.and_eq_true] at hw
  simp [buildOperation, operandsOf, operandU, operandU_wordU, hw]

theorem decodeScan (p0 len : Nat) : Statement (.decodeScan p0 len) := by
  intro hw _ rest
  refine decode_of_words (ws := operandsOf _) rfl (by decide) rfl ?_ hw
  simp only [wellFormed, Bool.and_eq_true] at hw
  simp [buildOperation, operandsOf, operandU, operandU_wordU, hw]

theorem trInit (maxVal near reset : Nat) : Statement (.trInit maxVal near reset) := by
  intro hw _ rest
  refine decode_of_words (ws := operandsOf _) rfl (by decide) rfl ?_ hw
  simp only [wellFormed, Bool.and_eq_true] at hw
  simp [buildOperation, operandsOf, operandU, operandU_wordU, hw]

theorem trQerr (e : Int) : Statement (.trQerr e) := by
  intro hw _ rest
  refine decode_of_words (ws := operandsOf _) rfl (by decide) rfl ?_ hw
  simp only [wellFormed] at hw
  simp [buildOperation, operandsOf, operandS, operandS_wordS, hw]

theorem trModr (q : Int) : Statement (.trModr q) := by
  intro hw _ rest
  refine decode_of_words (ws := operandsOf _) rfl (by decide) rfl ?_ hw
  simp only [wellFormed] at hw
  simp [buildOperation, operandsOf, operandS, operandS_wordS, hw]

theorem trErrval (e : Int) : Statement (.trErrval e) := by
  intro hw _ rest
  refine decode_of_words (ws := operandsOf _) rfl (by decide) rfl ?_ hw
  simp only [wellFormed] at hw
  simp [buildOperation, operandsOf, operandS, operandS_wordS, hw]

theorem trCorrp (p : Int) : Statement (.trCorrp p) := by
  intro hw _ rest
  refine decode_of_words (ws := operandsOf _) rfl (by decide) rfl ?_ hw
  simp only [wellFormed] at hw
  simp [buildOperation, operandsOf, operandS, operandS_wordS, hw]

theorem trRecon (px err : Int) : Statement (.trRecon px err) := by
  intro hw _ rest
  refine decode_of_words (ws := operandsOf _) rfl (by decide) rfl ?_ hw
  simp only [wellFormed, Bool.and_eq_true] at hw
  simp [buildOperation, operandsOf, operandS, operandS_wordS, hw]

theorem trIsnear (a b : Int) : Statement (.trIsnear a b) := by
  intro hw _ rest
  refine decode_of_words (ws := operandsOf _) rfl (by decide) rfl ?_ hw
  simp only [wellFormed, Bool.and_eq_true] at hw
  simp [buildOperation, operandsOf, operandS, operandS_wordS, hw]

theorem qtDeft (maxVal near : Nat) : Statement (.qtDeft maxVal near) := by
  intro hw _ rest
  refine decode_of_words (ws := operandsOf _) rfl (by decide) rfl ?_ hw
  simp only [wellFormed, Bool.and_eq_true] at hw
  simp [buildOperation, operandsOf, operandU, operandU_wordU, hw]

theorem qtBuild (bpp near t1 t2 t3 : Nat) : Statement (.qtBuild bpp near t1 t2 t3) := by
  intro hw _ rest
  refine decode_of_words (ws := operandsOf _) rfl (by decide) rfl ?_ hw
  simp only [wellFormed, List.all_cons, List.all_nil, Bool.and_eq_true, Bool.and_true] at hw
  simp [buildOperation, operandsOf, operandU, operandU_wordU, hw]

theorem qtQuant (d : Int) : Statement (.qtQuant d) := by
  intro hw _ rest
  refine decode_of_words (ws := operandsOf _) rfl (by decide) rfl ?_ hw
  simp only [wellFormed] at hw
  simp [buildOperation, operandsOf, operandS, operandS_wordS, hw]

theorem qtCtxid (q1 q2 q3 : Int) : Statement (.qtCtxid q1 q2 q3) := by
  intro hw _ rest
  refine decode_of_words (ws := operandsOf _) rfl (by decide) rfl ?_ hw
  simp only [wellFormed, Bool.and_eq_true] at hw
  simp [buildOperation, operandsOf, operandS, operandS_wordS, isBin_fits, hw]

theorem rcInit (range : Nat) : Statement (.rcInit range) := by
  intro hw _ rest
  refine decode_of_words (ws := operandsOf _) rfl (by decide) rfl ?_ hw
  simp only [wellFormed] at hw
  simp [buildOperation, operandsOf, operandU, operandU_wordU, hw]

theorem rcGetk (q : Nat) : Statement (.rcGetk q) := by
  intro hw _ rest
  refine decode_of_words (ws := operandsOf _) rfl (by decide) rfl ?_ hw
  simp only [wellFormed] at hw
  simp [buildOperation, operandsOf, operandU, operandU_wordU, isContext_fits, hw]

theorem rcCorr (q k : Nat) : Statement (.rcCorr q k) := by
  intro hw _ rest
  refine decode_of_words (ws := operandsOf _) rfl (by decide) rfl ?_ hw
  simp only [wellFormed, Bool.and_eq_true] at hw
  simp [buildOperation, operandsOf, operandU, operandU_wordU, isContext_fits, hw]

theorem rcUpd (q : Nat) (err : Int) : Statement (.rcUpd q err) := by
  intro hw _ rest
  refine decode_of_words (ws := operandsOf _) rfl (by decide) rfl ?_ hw
  simp only [wellFormed, Bool.and_eq_true] at hw
  simp [buildOperation, operandsOf, operandU, operandS, operandU_wordU, operandS_wordS, isContext_fits, hw]

theorem rmInit (range : Nat) : Statement (.rmInit range) := by
  intro hw _ rest
  refine decode_of_words (ws := operandsOf _) rfl (by decide) rfl ?_ hw
  simp only [wellFormed] at hw
  simp [buildOperation, operandsOf, operandU, operandU_wordU, hw]

theorem rmGetk (t : Nat) : Statement (.rmGetk t) := by
  intro hw _ rest
  refine decode_of_words (ws := operandsOf _) rfl (by decide) rfl ?_ hw
  simp only [wellFormed] at hw
  simp [buildOperation, operandsOf, operandU, operandU_wordU, isRunContext_fits, hw]

theorem rmMap (t : Nat) (err : Int) (k : Nat) : Statement (.rmMap t err k) := by
  intro hw _ rest
  refine decode_of_words (ws := operandsOf _) rfl (by decide) rfl ?_ hw
  simp only [wellFormed, Bool.and_eq_true] at hw
  simp [buildOperation, operandsOf, operandU, operandS, operandU_wordU, operandS_wordS, isRunContext_fits, hw]

theorem rmErrval (t temp k : Nat) : Statement (.rmErrval t temp k) := by
  intro hw _ rest
  refine decode_of_words (ws := operandsOf _) rfl (by decide) rfl ?_ hw
  simp only [wellFormed, Bool.and_eq_true] at hw
  simp [buildOperation, operandsOf, operandU, operandU_wordU, isRunContext_fits, hw]

theorem rmUpd (t : Nat) (err : Int) (em : Nat) : Statement (.rmUpd t err em) := by
  intro hw _ rest
  refine decode_of_words (ws := operandsOf _) rfl (by decide) rfl ?_ hw
  simp only [wellFormed, Bool.and_eq_true] at hw
  simp [buildOperation, operandsOf, operandU, operandS, operandU_wordU, operandS_wordS, isRunContext_fits, hw]

theorem brInit (p0 len : Nat) : Statement (.brInit p0 len) := by
  intro hw _ rest
  refine decode_of_words (ws := operandsOf _) rfl (by decide) rfl ?_ hw
  simp only [wellFormed, Bool.and_eq_true] at hw
  simp [buildOperation, operandsOf, operandU, operandU_wordU, hw]

theorem brFill : Statement .brFill := fun hw _ _ => decode_of_words (ws := []) rfl (by decide) rfl rfl hw

theorem brRdv (n : Nat) : Statement (.brRdv n) := by
  intro hw _ rest
  refine decode_of_words (ws := operandsOf _) rfl (by decide) rfl ?_ hw
  simp only [wellFormed] at hw
  simp [buildOperation, operandsOf, operandU, operandU_wordU, isCount_fits, hw]

theorem brPeek : Statement .brPeek := fun hw _ _ => decode_of_words (ws := []) rfl (by decide) rfl rfl hw

theorem brRdb : Statement .brRdb := fun hw _ _ => decode_of_words (ws := []) rfl (by decide) rfl rfl hw

theorem brSkip (n : Nat) : Statement (.brSkip n) := by
  intro hw _ rest
  refine decode_of_words (ws := operandsOf _) rfl (by decide) rfl ?_ hw
  simp only [wellFormed] at hw
  simp [buildOperation, operandsOf, operandU, operandU_wordU, isCount_fits, hw]

theorem brHigh : Statement .brHigh := fun hw _ _ => decode_of_words (ws := []) rfl (by decide) rfl rfl hw

theorem brDecv (k glimit qbpp : Nat) : Statement (.brDecv k glimit qbpp) := by
  intro hw _ rest
  refine decode_of_words (ws := operandsOf _) rfl (by decide) rfl ?_ hw
  simp only [wellFormed, Bool.and_eq_true] at hw
  simp [buildOperation, operandsOf, operandU, operandU_wordU, isCount_fits, hw]

theorem brEnd : Statement .brEnd := fun hw _ _ => decode_of_words (ws := []) rfl (by decide) rfl rfl hw

theorem gtBuild : Statement .gtBuild := fun hw _ _ => decode_of_words (ws := []) rfl (by decide) rfl rfl hw

theorem gtLook (k : Nat) : Statement (.gtLook k) := by
  intro hw _ rest
  refine decode_of_words (ws := operandsOf _) rfl (by decide) rfl ?_ hw
  simp only [wellFormed] at hw
  simp [buildOperation, operandsOf, operandU, operandU_wordU, hw]

theorem bwInit (p0 cap : Nat) : Statement (.bwInit p0 cap) := by
  intro hw _ rest
  refine decode_of_words (ws := operandsOf _) rfl (by decide) rfl ?_ hw
  simp only [wellFormed, Bool.and_eq_true] at hw
  simp [buildOperation, operandsOf, operandU, operandU_wordU, hw]

theorem bwApp (value count : Nat) : Statement (.bwApp value count) := by
  intro hw _ rest
  refine decode_of_words (ws := operandsOf _) rfl (by decide) rfl ?_ hw
  simp only [wellFormed, Bool.and_eq_true] at hw
  simp [buildOperation, operandsOf, operandU, operandU_wordU, isCount_fits, hw]

theorem bwFlush : Statement .bwFlush := fun hw _ _ => decode_of_words (ws := []) rfl (by decide) rfl rfl hw

theorem bwEncv (k m glimit : Nat) : Statement (.bwEncv k m glimit) := by
  intro hw _ rest
  refine decode_of_words (ws := operandsOf _) rfl (by decide) rfl ?_ hw
  simp only [wellFormed, Bool.and_eq_true] at hw
  simp [buildOperation, operandsOf, operandU, operandU_wordU, isCount_fits, hw]

theorem bwEnd : Statement .bwEnd := fun hw _ _ => decode_of_words (ws := []) rfl (by decide) rfl rfl hw

theorem spNeigh (i : Nat) : Statement (.spNeigh i) := by
  intro hw _ rest
  refine decode_of_words (ws := operandsOf _) rfl (by decide) rfl ?_ hw
  simp only [wellFormed] at hw
  simp [buildOperation, operandsOf, operandU, operandU_wordU, hw]

theorem spPred (ra rb rc : Int) : Statement (.spPred ra rb rc) := by
  intro hw _ rest
  refine decode_of_words (ws := operandsOf _) rfl (by decide) rfl ?_ hw
  simp only [wellFormed, Bool.and_eq_true] at hw
  simp [buildOperation, operandsOf, operandS, operandS_wordS, hw]

theorem spMape (e : Int) : Statement (.spMape e) := by
  intro hw _ rest
  refine decode_of_words (ws := operandsOf _) rfl (by decide) rfl ?_ hw
  simp only [wellFormed] at hw
  simp [buildOperation, operandsOf, operandS, operandS_wordS, hw]

theorem spUnmape (m : Nat) : Statement (.spUnmape m) := by
  intro hw _ rest
  refine decode_of_words (ws := operandsOf _) rfl (by decide) rfl ?_ hw
  simp only [wellFormed] at hw
  simp [buildOperation, operandsOf, operandU, operandU_wordU, hw]

theorem spEncreg (i : Nat) : Statement (.spEncreg i) := by
  intro hw _ rest
  refine decode_of_words (ws := operandsOf _) rfl (by decide) rfl ?_ hw
  simp only [wellFormed] at hw
  simp [buildOperation, operandsOf, operandU, operandU_wordU, hw]

theorem spDecreg (i : Nat) : Statement (.spDecreg i) := by
  intro hw _ rest
  refine decode_of_words (ws := operandsOf _) rfl (by decide) rfl ?_ hw
  simp only [wellFormed] at hw
  simp [buildOperation, operandsOf, operandU, operandU_wordU, hw]

theorem rnIncidx : Statement .rnIncidx := fun hw _ _ => decode_of_words (ws := []) rfl (by decide) rfl rfl hw

theorem rnDecidx : Statement .rnDecidx := fun hw _ _ => decode_of_words (ws := []) rfl (by decide) rfl rfl hw

theorem rnEnclen (runlen : Nat) (eol : Bool) : Statement (.rnEnclen runlen eol) := by
  intro hw _ rest
  refine decode_of_words (ws := operandsOf _) rfl (by decide) rfl ?_ hw
  have h : fitsUnsigned runlen = true := hw
  simp [buildOperation, operandsOf, operandU, operandU_wordU h, wordU_bit, eol.toNat_le]

theorem rnDeclen (rem : Nat) : Statement (.rnDeclen rem) := by
  intro hw _ rest
  refine decode_of_words (ws := operandsOf _) rfl (by decide) rfl ?_ hw
  simp only [wellFormed] at hw
  simp [buildOperation, operandsOf, operandU, operandU_wordU, hw]

theorem rnEncrierr (t : Nat) (err : Int) : Statement (.rnEncrierr t err) := by
  intro hw _ rest
  refine decode_of_words (ws := operandsOf _) rfl (by decide) rfl ?_ hw
  simp only [wellFormed, Bool.and_eq_true] at hw
  simp [buildOperation, operandsOf, operandU, operandS, operandU_wordU, operandS_wordS, isRunContext_fits, hw]

theorem rnDecrierr (t : Nat) : Statement (.rnDecrierr t) := by
  intro hw _ rest
  refine decode_of_words (ws := operandsOf _) rfl (by decide) rfl ?_ hw
  simp only [wellFormed] at hw
  simp [buildOperation, operandsOf, operandU, operandU_wordU, isRunContext_fits, hw]

theorem rnEncri (x ra rb : Int) : Statement (.rnEncri x ra rb) := by
  intro hw _ rest
  refine decode_of_words (ws := operandsOf _) rfl (by decide) rfl ?_ hw
  simp only [wellFormed, Bool.and_eq_true] at hw
  simp [buildOperation, operandsOf, operandS, operandS_wordS, hw]

theorem rnDecri (ra rb : Int) : Statement (.rnDecri ra rb) := by
  intro hw _ rest
  refine decode_of_words (ws := operandsOf _) rfl (by decide) rfl ?_ hw
  simp only [wellFormed, Bool.and_eq_true] at hw
  simp [buildOperation, operandsOf, operandS, operandS_wordS, hw]

theorem rnEncrun (i : Nat) : Statement (.rnEncrun i) := by
  intro hw _ rest
  refine decode_of_words (ws := operandsOf _) rfl (by decide) rfl ?_ hw
  simp only [wellFormed] at hw
  simp [buildOperation, operandsOf, operandU, operandU_wordU, hw]

theorem rnDecrun (i : Nat) : Statement (.rnDecrun i) := by
  intro hw _ rest
  refine decode_of_words (ws := operandsOf _) rfl (by decide) rfl ?_ hw
  simp only [wellFormed] at hw
  simp [buildOperation, operandsOf, operandU, operandU_wordU, hw]

theorem scGuard : Statement .scGuard := fun hw _ _ => decode_of_words (ws := []) rfl (by decide) rfl rfl hw

theorem scLine : Statement .scLine := fun hw _ _ => decode_of_words (ws := []) rfl (by decide) rfl rfl hw

theorem scLine3 : Statement .scLine3 := fun hw _ _ => decode_of_words (ws := []) rfl (by decide) rfl rfl hw

theorem scScan : Statement .scScan := fun hw _ _ => decode_of_words (ws := []) rfl (by decide) rfl rfl hw

theorem cwGolomb (h r : Nat) : Statement (.cwGolomb h r) := fun _ h => Bool.noConfusion h

theorem cwEscape (v : Nat) : Statement (.cwEscape v) := fun _ h => Bool.noConfusion h

theorem cwRunseg : Statement (.cwRunseg) := fun _ h => absurd h (by decide)

theorem cwRunrem (n : Nat) : Statement (.cwRunrem n) := fun _ h => Bool.noConfusion h

theorem cwRuneol : Statement (.cwRuneol) := fun _ h => absurd h (by decide)

theorem cwPad (n : Nat) : Statement (.cwPad n) := fun _ h => Bool.noConfusion h

theorem cwStuff : Statement (.cwStuff) := fun _ h => absurd h (by decide)

end Laws.RoundTrip

end Sys2Proof
end

