-- ==== Sys2Proof/Laws/Stuffing.lean ====
section
/-! SUPPORT. The reader undoes the stuffing of the writer: the stuffed bytes hold no marker boundary, and their destuffed bits
are the bits that were appended (`44_bit_reader.md` R201, `45_bit_writer.md` R241). -/

namespace Sys2Proof.Machine

/-- The bits of stuffed bytes that follow a byte that was (`ff`) or was not `0xFF`. -/
def unstuff : Bool → List Byte → List Bool
  | _, [] => []
  | ff, b :: bs => bitsOf b.toNat (stuffRoom ff) ++ unstuff (byteIsFF b) bs

/-- Every byte after a `0xFF` has its top bit clear. -/
def Stuffed : Bool → List Byte → Prop
  | _, [] => True
  | ff, b :: bs => (ff = true → b.toNat < 128) ∧ Stuffed (byteIsFF b) bs

/-- Whether the last byte is `0xFF`. -/
def endsFF : Bool → List Byte → Bool
  | ff, [] => ff
  | _, b :: bs => endsFF (byteIsFF b) bs

theorem stuffedByte {ff : Bool} {bits : List Bool} (h : bits.length = stuffRoom ff) :
    bitsOf (BitVec.ofNat 8 (bitsVal bits)).toNat (stuffRoom ff) = bits ∧
      (ff = true → (BitVec.ofNat 8 (bitsVal bits)).toNat < 128) := by
  have hlt := bitsVal_lt bits
  have h8 : bitsVal bits < 256 := by
    rw [h] at hlt
    exact hlt.trans_le (by cases ff <;> decide)
  rw [BitVec.toNat_ofNat, Nat.mod_eq_of_lt h8, ← h]
  refine ⟨bitsOf_bitsVal bits, fun hf => ?_⟩
  rw [h, hf] at hlt
  exact hlt

/-- What stuffing does to the bits (R241). -/
theorem stuffBits_spec {ff : Bool} {acc bits : List Bool} (h : acc.length < stuffRoom ff) :
    acc ++ bits = unstuff ff (stuffBits ff acc bits).1 ++ (stuffBits ff acc bits).2.1 ∧
      Stuffed ff (stuffBits ff acc bits).1 ∧ endsFF ff (stuffBits ff acc bits).1 = (stuffBits ff acc bits).2.2 := by
  induction bits generalizing ff acc with
  | nil => exact ⟨by simp [stuffBits, unstuff], trivial, rfl⟩
  | cons x xs ih =>
    by_cases hr : (acc ++ [x]).length = stuffRoom ff
    · rw [stuffBits_cons_full hr]
      obtain ⟨h1, h2⟩ := stuffedByte hr
      obtain ⟨i1, i2, i3⟩ := ih (ff := byteIsFF (BitVec.ofNat 8 (bitsVal (acc ++ [x])))) (acc := []) (stuffRoom_pos _)
      refine ⟨?_, ⟨h2, i2⟩, i3⟩
      rw [unstuff, h1, List.append_assoc (acc ++ [x]), ← i1, List.append_assoc]; rfl
    · rw [stuffBits_cons_partial hr]
      have := ih (ff := ff) (acc := acc ++ [x]) (by rw [List.length_append, List.length_singleton] at *; omega)
      rwa [List.append_assoc] at this

/-- The reader's bits of bytes that lie in the array (R201). -/
theorem bitsFrom_unstuff {m : Memory} {p0 : Nat} (out : List Byte) (j : Nat) (hj : p0 ≤ j)
    (h : ∀ i < out.length, memRead m (j + i) = out.getD i 0) :
    bitsFrom m p0 out.length j = unstuff (decide (p0 < j ∧ memRead m (j - 1) = 0xFF)) out := by
  induction out generalizing j with
  | nil => rfl
  | cons b bs ih =>
    have hb : memRead m j = b := h 0 (by simp)
    rw [List.length_cons, bitsFrom, unstuff]
    congr 1
    · unfold byteBits stuffRoom
      rw [hb]
      simp only [decide_eq_true_eq]
    · rw [ih (j + 1) (by omega) fun i hi => by
        rw [Nat.add_assoc, Nat.add_comm 1 i, h (i + 1) (by simpa using hi)]; rfl]
      congr 1
      unfold byteIsFF
      rw [Nat.add_sub_cancel, hb]
      simp [show p0 < j + 1 by omega]

theorem byteIsFF_iff {b : Byte} : byteIsFF b = true ↔ b = 0xFF := by simp [byteIsFF]

/-- Stuffed bytes hold no marker boundary (R201, R241). -/
theorem no_marker {m : Memory} {len : Nat} (ff : Bool) (out : List Byte) (j : Nat) (hs : Stuffed ff out)
    (he : endsFF ff out = false) (h : ∀ i < out.length, memRead m (j + i) = out.getD i 0) (hl : j + out.length < len) :
    ∀ i, j ≤ i → i < j + out.length → ¬isMarker m len i = true := by
  induction out generalizing j ff with
  | nil => intro i h1 h2; simp at h2; omega
  | cons b bs ih =>
    intro i h1 h2
    have hb : memRead m j = b := h 0 (by simp)
    have hrest : ∀ i < bs.length, memRead m (j + 1 + i) = bs.getD i 0 := fun i hi => by
      rw [Nat.add_assoc, Nat.add_comm 1 i, h (i + 1) (by simpa using hi)]; rfl
    rw [List.length_cons] at h2 hl
    by_cases hi : i = j
    · rw [hi]
      intro hm
      simp only [isMarker, hb, Bool.and_eq_true, decide_eq_true_eq, Bool.or_eq_true] at hm
      obtain ⟨hff, hm⟩ := hm
      cases bs with
      | nil => exact absurd (byteIsFF_iff.2 hff) (by rw [show byteIsFF b = false from he]; simp)
      | cons c cs =>
        have hc : memRead m (j + 1) = c := hrest 0 (by simp)
        have := hs.2.1 (byteIsFF_iff.2 hff)
        rw [hc] at hm
        rcases hm with hm | hm
        · rw [List.length_cons] at hl; omega
        · omega
    · exact ih (byteIsFF b) (j + 1) hs.2 he hrest (by omega) i (by omega) (by omega)

/-- Stuffing is undone by the reader (R201, R241). -/
theorem stuffing_inverted {m : Memory} {p0 len : Nat} {bits : List Bool} (hp : (stuffBits false [] bits).2 = ([], false))
    (h : ∀ j < (stuffBits false [] bits).1.length, memRead m (p0 + j) = (stuffBits false [] bits).1.getD j 0)
    (hl : p0 + (stuffBits false [] bits).1.length < len)
    (hm : isMarker m len (p0 + (stuffBits false [] bits).1.length) = true) :
    markerPos m p0 len = some (p0 + (stuffBits false [] bits).1.length) ∧ dbits m p0 len = bits := by
  obtain ⟨h1, h2, h3⟩ := stuffBits_spec (ff := false) (acc := []) (bits := bits) (stuffRoom_pos _)
  rw [hp] at h1 h3
  rw [List.nil_append, List.append_nil] at h1
  generalize (stuffBits false [] bits).1 = out at *
  have hmp : markerPos m p0 len = some (p0 + out.length) := by
    unfold markerPos
    refine markerFrom_some (by omega) (by omega) hm (no_marker false out p0 h2 h3 h hl)
  refine ⟨hmp, ?_⟩
  unfold dbits dataEnd
  rw [hmp]
  simp only [Option.getD_some, Nat.add_sub_cancel_left]
  rw [bitsFrom_unstuff out p0 le_rfl h, h1]
  congr 1
  simp

end Sys2Proof.Machine
end

