-- ==== Sys2Proof/Laws/Scans.lean ====
section
/-! SUPPORT. A whole scan: the guards, the lines taken and delivered, the lines of every slot, coded and read back
(`48_scan_driver.md` R333, R336, R340 to R344). -/

namespace Sys2Proof.Machine

variable {s t a d e : State} {nch i j n m : Nat} {bits : List Bool}

/-! ## The guards (R333) -/

/-- The guard elements of the first `n` channels. -/
theorem guards_spec (hw : sparseWf 0 s.buf = true) (hpos : 1 ≤ s.pr.width) (hn : n ≤ 3) :
    BufOnly s ((List.range n).foldl guardChannel s) ∧ ∀ p < 2, ∀ c, ∀ ch < 3, ∀ j', InLine j' →
      cell ((List.range n).foldl guardChannel s) p c ch j' =
        if p = (s.seq.y + 1) % 2 ∧ c = s.seq.c ∧ ch < n ∧ j' = s.pr.width then prevRead s ch ((s.pr.width : Int) - 1)
        else if p = s.seq.y % 2 ∧ c = s.seq.c ∧ ch < n ∧ j' = -1 then prevRead s ch 0 else cell s p c ch j' := by
  induction n with
  | zero =>
    refine ⟨.refl hw, fun p _ c ch _ j' _ => ?_⟩
    rw [if_neg (by omega), if_neg (by omega)]; rfl
  | succ n ih =>
    obtain ⟨h1, h2⟩ := ih (by omega)
    rw [List.range_succ, List.foldl_append, List.foldl_cons, List.foldl_nil]
    generalize (List.range n).foldl guardChannel s = u at *
    have hp : ∀ j', InLine j' → j' ≠ s.pr.width → prevRead u n j' = prevRead s n j' := fun j' hj hne => by
      rw [prevRead_eq_cell, h1.seq_eq, h2 _ (Nat.mod_lt _ (by decide)) _ _ (by omega) _ hj, if_neg (by omega),
        if_neg (by omega)]
      rfl
    have hl : InLine ((s.pr.width : Int) - 1) := by omega
    have hl0 : InLine 0 := by omega
    have hlw : InLine (s.pr.width : Int) := by omega
    have hlm : InLine (-1) := by omega
    have hg : guardChannel u n = curWrite (prevWrite u n s.pr.width (prevRead s n ((s.pr.width : Int) - 1))) n (-1)
        (prevRead s n 0) := by
      simp only [guardChannel, h1.pr_eq]
      rw [prevRead_prevWrite h1.wf (by omega) (by omega) hlw hl0, if_neg (by omega), hp _ hl (by omega), hp _ hl0 (by omega)]
    have hw1 := prevWrite_wf h1.wf n s.pr.width (prevRead s n ((s.pr.width : Int) - 1))
    rw [hg]
    refine ⟨h1.trans ((BufOnly.prev h1.wf _ _ _).trans (BufOnly.cur hw1 _ _ _)), fun p hp2 c ch hch j' hj' => ?_⟩
    rw [cell_curWrite hw1 hp2 (by omega) hch hlm hj', cell_prevWrite h1.wf hp2 (by omega) hch hlw hj', h2 p hp2 c ch hch j' hj']
    simp only [show (prevWrite u n s.pr.width (prevRead s n ((s.pr.width : Int) - 1))).seq = u.seq from rfl, h1.seq_eq]
    by_cases hcn : ch = n
    · subst hcn
      split_ifs <;> omega
    · split_ifs <;> omega

theorem guards_inv (h : ScanInv s) (n : Nat) : ScanInv ((List.range n).foldl guardChannel s) := by
  induction n with
  | zero => exact h
  | succ n ih =>
    rw [List.range_succ, List.foldl_append, List.foldl_cons, List.foldl_nil]
    generalize (List.range n).foldl guardChannel s = u at *
    have h1 := ih.prev (ih.prevSample n ((u.pr.width : Int) - 1)) n u.pr.width
    exact h1.cur (h1.prevSample n 0) n (-1)

/-! ## Taking a line (R343) -/

theorem writeLine_spec (h3 : nch ≤ 3) (px : List (List Int)) : ∀ (j : Nat) (s : State), ScanInv s →
    (∀ e ∈ px, e.length = nch ∧ Samples s.tr e) →
    BufOnly s (writeLine px j s) ∧ ScanInv (writeLine px j s) ∧ ∀ p < 2, ∀ c, ∀ ch < 3, ∀ j', InLine j' →
      cell (writeLine px j s) p c ch j' =
        if p = s.seq.y % 2 ∧ c = s.seq.c ∧ (j : Int) ≤ j' ∧ j' < j + px.length ∧ ch < nch then
          (px.getD (j' - j).toNat []).getD ch 0
        else cell s p c ch j' := by
  induction px with
  | nil =>
    intro j s h _
    refine ⟨.refl h.bufWf, h, fun p _ c ch _ j' _ => ?_⟩
    rw [if_neg (by simp; omega)]; rfl
  | cons e px ih =>
    intro j s h he
    obtain ⟨hl, hs⟩ := he e (by simp)
    have hin : InLine (j : Int) := by omega
    obtain ⟨h1, h2⟩ := writeElement_spec (s := s) (vs := e) (j := j) h.bufWf (by omega) hin
    have h4 := writeElement_inv h hs j
    obtain ⟨h5, h6, h7⟩ := ih (j + 1) (writeElement e j s) h4 (fun e' he' => by
      rw [h1.tr_eq]; exact he e' (by simp [he']))
    refine ⟨h1.trans h5, h6, fun p hp c ch hch j' hj' => ?_⟩
    rw [writeLine, h7 p hp c ch hch j' hj', h2 p hp c ch hch j' hj', h1.seq_eq, hl, List.length_cons]
    by_cases hx : p = s.seq.y % 2 ∧ c = s.seq.c ∧ (j : Int) ≤ j' ∧ j' < j + (px.length + 1 : Nat) ∧ ch < nch
    · rw [if_pos hx]
      by_cases hjj : j' = j
      · rw [if_neg (by omega), if_pos ⟨hx.1, hx.2.1, hjj, hx.2.2.2.2⟩, hjj, Int.sub_self]; rfl
      · rw [if_pos ⟨hx.1, hx.2.1, by omega, by omega, hx.2.2.2.2⟩]
        obtain ⟨k, hk⟩ : ∃ k : Nat, j' = j + 1 + k := ⟨(j' - j - 1).toNat, by omega⟩
        rw [show (j' - ((j + 1 : Nat) : Int)).toNat = k by omega, show (j' - (j : Int)).toNat = k + 1 by omega,
          List.getD_cons_succ]
    · rw [if_neg hx, if_neg (by omega), if_neg (by omega)]

theorem lineElements_some {w : Nat} {l : Line} {px : List (List Int)} (h : lineElements w nch l = some px) :
    px.length = w ∧ (∀ e ∈ px, e.length = nch) ∧ px = l.px.take w := by
  unfold lineElements at h
  simp only at h
  split at h
  · rename_i hc
    cases h
    refine ⟨hc.1, fun e he => ?_, rfl⟩
    have := List.all_eq_true.1 hc.2 e he
    exact of_decide_eq_true this
  · cases h

/-! ## The start of a line -/

theorem Kept.trans {u : State} (h : Kept s t) (g : Kept t u) : Kept s u where
  pr := g.pr.trans h.pr
  configured := g.configured.trans h.configured
  tr := g.tr.trans h.tr
  err := g.err.trans h.err
  busy := g.busy.trans h.busy
  done := g.done.trans h.done
  dir := g.dir.trans h.dir
  sr1 := g.sr1.trans h.sr1
  qt := g.qt.trans h.qt
  bytePos := g.bytePos.trans h.bytePos
  lineSrc := g.lineSrc.trans h.lineSrc
  issue := g.issue.trans h.issue
  host := g.host.trans h.host
  free := g.free.trans h.free
  build := g.build.trans h.build
  resetIn := g.resetIn.trans h.resetIn

/-- The state at the start of line `y` of slot `c`, its buffers as in `b`. -/
def begun (y c : Nat) (b : List (Nat × Int)) (s : State) : State :=
  { s with seq := { fsm := .scanning, y := y, c := c, i := 0 }, runindex := runidxAt s c, buf := b }

theorem begun_kept (y c : Nat) (b : List (Nat × Int)) (s : State) : KeptScan s (begun y c b s) :=
  ⟨⟨rfl, rfl, rfl, rfl, rfl, rfl, rfl, rfl, rfl, rfl, rfl, rfl, rfl, rfl, rfl, rfl⟩, rfl, rfl, rfl⟩

/-- The guarded buffers of line `y` of slot `c`, over those of `s`. -/
def Guarded (y c : Nat) (s t : State) : Prop :=
  ∀ p < 2, ∀ c', ∀ ch < 3, ∀ j, InLine j → cell t p c' ch j =
    if p = (y + 1) % 2 ∧ c' = c ∧ ch < channels s ∧ j = s.pr.width then cell s ((y + 1) % 2) c ch ((s.pr.width : Int) - 1)
    else if p = y % 2 ∧ c' = c ∧ ch < channels s ∧ j = -1 then cell s ((y + 1) % 2) c ch 0 else cell s p c' ch j

theorem guardLine_guarded (hw : sparseWf 0 s.buf = true) (hpos : 1 ≤ s.pr.width)
    (y c : Nat) : ∃ b, guardLine (setRunindex (setSeq s { fsm := .scanning, y := y, c := c, i := 0 }) (runidxAt s c)) =
      begun y c b s ∧ sparseWf 0 b = true ∧ Guarded y c s (begun y c b s) := by
  have h3 : channels s ≤ 3 := by rcases channels_eq s with h | h <;> omega
  obtain ⟨h1, h2⟩ := guards_spec (s := setRunindex (setSeq s { fsm := .scanning, y := y, c := c, i := 0 }) (runidxAt s c))
    hw hpos h3
  change BufOnly _ (guardLine (setRunindex (setSeq s { fsm := .scanning, y := y, c := c, i := 0 }) (runidxAt s c))) at h1
  have he := h1.eq
  refine ⟨_, he, h1.wf, fun p hp c' ch hch j hj => ?_⟩
  have := h2 p hp c' ch hch j hj
  change cell (guardLine (setRunindex (setSeq s { fsm := .scanning, y := y, c := c, i := 0 }) (runidxAt s c))) p c' ch j = _
    at this
  rw [he] at this
  exact this

/-! ## Encoder and decoder between lines -/

/-- Line buffers of slot `c` and parity `p` that hold the same elements. -/
def LinesAgree (s d : State) (p c : Nat) : Prop :=
  ∀ ch < channels s, ∀ j : Int, -1 ≤ j → j < s.pr.width → cell d p c ch j = cell s p c ch j

/-- The decoder has delivered line `y` of slot `c`, within `near` of the line the encoder was given (R342). -/
def Delivers (s d : State) (c y : Nat) : Prop :=
  ∃ out src, heldLine d.lineDst c y = some out ∧ heldLine s.lineSrc c y = some src ∧ out.px.length = s.pr.rectW ∧
    ∀ j < s.pr.rectW, ∀ ch < channels s,
      ((out.px.getD j []).getD ch 0 - (src.px.getD (s.pr.rectX + j) []).getD ch 0).natAbs ≤ s.tr.near

/-- A decoder that stands where the encoder stands: before line `y` of slot `c` (R336). -/
structure Tracks (s d : State) (y c : Nat) : Prop where
  encoder : s.dir = false
  decoder : d.dir = true
  pr : d.pr = s.pr
  tr : d.tr = s.tr
  ctx : d.ctx = s.ctx
  rctx : d.rctx = s.rctx
  runidx : d.runidx = s.runidx
  bufWf : sparseWf 0 d.buf = true
  coded : ∀ c' < c, LinesAgree s d (y % 2) c'
  ahead : ∀ c', c ≤ c' → c' < slots s.pr → LinesAgree s d ((y + 1) % 2) c'
  order : ∀ l ∈ d.lineDst, l.y < y ∨ (l.y = y ∧ l.c < c)
  lines : ∀ y' c', c' < slots s.pr → (y' < y ∨ (y' = y ∧ c' < c)) → s.pr.rectY ≤ y' → y' < s.pr.rectY + s.pr.rectH →
    Delivers s d c' y'

/-- How many lines of the `n` from `y` are inside the rectangle. -/
def rectLines (p : Params) (n y : Nat) : Nat := min (y + n) (p.rectY + p.rectH) - max y p.rectY

/-- The host's room after `k` lines. -/
def roomAfter (r : Option Nat) (k : Nat) : Option Nat := r.map (· - k)

theorem Accepts.after {k n : Nat} (h : Accepts d (k + n)) (he : e.lineRoom = roomAfter d.lineRoom k) : Accepts e n := by
  unfold Accepts roomAfter at *
  rw [he]
  cases hd : d.lineRoom with
  | none => intro m hm; cases hm
  | some m =>
    intro m' hm'
    have := h m hd
    simp only [Option.map_some, Option.some.injEq] at hm'
    omega

theorem roomAfter_add (r : Option Nat) (k n : Nat) : roomAfter (roomAfter r k) n = roomAfter r (k + n) := by
  cases r <;> simp [roomAfter, Nat.sub_sub]

/-- The lines of an encoder from `(y, c)` to `(y', c')`, `n` elements and `k` delivered lines in all, coded and read back. -/
structure SpanCoded (s : State) (op : State → Res State) (n k y c y' c' : Nat) (t : State) (bits : List Bool) : Prop where
  run : op s = .ok t
  wrote : Wrote s bits t
  short : bits.length ≤ elementBits * n
  kept : Kept s t
  inv : ScanInv t
  back : ∀ d rest, Tracks s d y c → Accepts d k → remaining d = bits ++ rest → ∃ e, op d = .ok e ∧
    Took d bits.length e ∧ Kept d e ∧ Tracks t e y' c' ∧ e.lineRoom = roomAfter d.lineRoom k
  full : ∀ d rest, Tracks s d y c → ¬Accepts d k → remaining d = bits ++ rest → ∃ u, u.pr = d.pr ∧
    op d = raise .uncompressedBufferTooSmall u

/-- The line the encoder loads (R343). -/
theorem loadLine_ok {y c : Nat} {l : Line} {px : List (List Int)} (h : ScanInv s)
    (hl : heldLine s.lineSrc c y = some l) (he : lineElements s.pr.width (channels s) l = some px)
    (hpx : px.all (fun e => e.all (isSample s.tr)) = true) :
    ∃ t, loadLine c y s = .ok t ∧ BufOnly s t ∧ ScanInv t ∧ ∀ p < 2, ∀ c', ∀ ch < 3, ∀ j, InLine j → cell t p c' ch j =
      if p = s.seq.y % 2 ∧ c' = s.seq.c ∧ 0 ≤ j ∧ j < s.pr.width ∧ ch < channels s then (px.getD j.toNat []).getD ch 0
      else cell s p c' ch j := by
  have h3 : channels s ≤ 3 := by rcases channels_eq s with h | h <;> omega
  obtain ⟨e1, e2, -⟩ := lineElements_some he
  have hs : ∀ e ∈ px, e.length = channels s ∧ Samples s.tr e := fun e hm =>
    ⟨e2 e hm, fun v hv => List.all_eq_true.1 (List.all_eq_true.1 hpx e hm) v hv⟩
  obtain ⟨w1, w2, w3⟩ := writeLine_spec h3 px 0 s h hs
  refine ⟨writeLine px 0 s, ?_, w1, w2, fun p hp c' ch hch j hj => ?_⟩
  · simp only [loadLine, hl, he]; rw [if_pos hpx]
  · rw [w3 p hp c' ch hch j hj, e1]
    simp only [Nat.cast_zero, zero_add, sub_zero]

/-- What a decode delivers of a line (R342). -/
def deliveredLines (c y : Nat) (s : State) : List Line :=
  if s.pr.rectY ≤ y ∧ y < s.pr.rectY + s.pr.rectH then [{ c := c, y := y, px := deliveredPart s }] else []

/-- All `LineOut` can do (R342): the line is delivered where it is inside the rectangle and the host accepts it. -/
theorem deliverLine_ok {c y : Nat} (h : Accepts s (rectLines s.pr 1 y)) : deliverLine c y s = .ok { s with
    lineDst := s.lineDst ++ deliveredLines c y s
    lineRoom := roomAfter s.lineRoom (rectLines s.pr 1 y) } := by
  unfold deliverLine deliveredLines
  split
  · rename_i hr
    have h1 : rectLines s.pr 1 y = 1 := by unfold rectLines; omega
    rw [h1] at h ⊢
    rw [if_neg (fun h0 => by have := h 0 h0; omega)]
    rfl
  · rename_i hr
    have h1 : rectLines s.pr 1 y = 0 := by unfold rectLines; omega
    rw [List.append_nil, h1, show roomAfter s.lineRoom 0 = s.lineRoom by unfold roomAfter; cases s.lineRoom <;> rfl]

/-- A line inside the rectangle that the host does not accept (R342). -/
theorem deliverLine_full {c y : Nat} (h : s.lineRoom = some 0) (hr : s.pr.rectY ≤ y ∧ y < s.pr.rectY + s.pr.rectH) :
    deliverLine c y s = raise .uncompressedBufferTooSmall s := by
  unfold deliverLine
  rw [if_pos hr, if_pos h]

theorem heldLine_append_old {l l' : List Line} {c y : Nat} {x : Line} (h : heldLine l c y = some x) :
    heldLine (l ++ l') c y = some x := by
  unfold heldLine at *
  rw [List.find?_append, h]; rfl

theorem heldLine_append_new {l : List Line} {c y : Nat} {x : Line} (h : ∀ k ∈ l, k.y < y ∨ (k.y = y ∧ k.c < c))
    (hx : x.c = c ∧ x.y = y) : heldLine (l ++ [x]) c y = some x := by
  unfold heldLine
  have : l.find? (fun l => decide (l.c = c) && decide (l.y = y)) = none := by
    rw [List.find?_eq_none]
    intro k hk
    have := h k hk
    simp only [Bool.and_eq_true, decide_eq_true_eq, not_and]
    omega
  rw [List.find?_append, this]
  simp [hx]

theorem Delivers.of {e : State} {c y : Nat} (h : Delivers s d c y) (hs : t.lineSrc = s.lineSrc) (hpr : t.pr = s.pr)
    (htr : t.tr = s.tr) (he : ∃ l, e.lineDst = d.lineDst ++ l) : Delivers t e c y := by
  obtain ⟨out, src, h1, h2, h3, h4⟩ := h
  obtain ⟨l, hl⟩ := he
  refine ⟨out, src, by rw [hl]; exact heldLine_append_old h1, by rw [hs]; exact h2, by rw [hpr]; exact h3, ?_⟩
  rw [hpr, htr, show channels t = channels s by unfold channels; rw [hpr]]
  exact h4

/-- The line of one slot (R336). -/
theorem slotLine_coded {y c : Nat} (h : ScanInv s) (hdir : s.dir = false) (hp : legalParams s.build s.pr = true)
    (hc : c < slots s.pr) {l : Line} {px : List (List Int)} (hl : heldLine s.lineSrc c y = some l)
    (he : lineElements s.pr.width (channels s) l = some px) (hpx : px.all (fun e => e.all (isSample s.tr)) = true)
    (hroom : roomFor s.wr (elementBits * s.pr.width)) :
    ∃ t bits, SpanCoded s (codeSlotLine y c) s.pr.width (rectLines s.pr 1 y) y c y (c + 1) t bits := by
  obtain ⟨⟨w1, -⟩, -, r1, -⟩ := legalParams_iff.1 hp
  have h3 : channels s ≤ 3 := by rcases channels_eq s with h | h <;> omega
  obtain ⟨a, a1, a2, a3, a4⟩ := loadLine_ok (s := setSeq s { fsm := .scanning, y := y, c := c, i := 0 })
    (h.congr rfl rfl rfl rfl rfl rfl) hl he hpx
  have hapr : a.pr = s.pr := by rw [a2.eq]; rfl
  have haseq : a.seq = { fsm := .scanning, y := y, c := c, i := 0 } := by rw [a2.eq]; rfl
  have hach : channels a = channels s := by unfold channels; rw [hapr]
  obtain ⟨b, b1, b2, b3⟩ := guardLine_guarded (s := a) a2.wf (by rw [hapr]; exact w1) y c
  have harx : runidxAt a c = runidxAt s c := by unfold runidxAt; rw [a2.eq]; rfl
  rw [show setSeq a { fsm := .scanning, y := y, c := c, i := 0 } = a by rw [← haseq]; rfl] at b1
  have hbegin : beginLine y c s = .ok (begun y c b a) := by
    rw [beginLine]
    simp only [takeLine]
    rw [if_neg (by simp [hdir]), a1, ok_bind, ← b1]
  obtain ⟨S, hS⟩ : ∃ S, S = begun y c b a := ⟨_, rfl⟩
  rw [← hS] at hbegin b3
  have hSinv : ScanInv S := by
    rw [hS, ← b1]
    exact guards_inv (a3.setRunindex (a3.runidx c)) _
  have hSk : KeptScan s S := by
    rw [hS]
    exact (setSeq_keptScan s _).trans (a2.kept.scan.trans (begun_kept y c b a))
  have hSseq : S.seq = { fsm := .scanning, y := y, c := c, i := 0 } := by rw [hS]; rfl
  have hSwr : S.wr = s.wr := by rw [hS]; change a.wr = s.wr; rw [a2.eq]; rfl
  have hSbs : S.bs = s.bs := by rw [hS]; change a.bs = s.bs; rw [a2.eq]; rfl
  have hSctx : S.ctx = s.ctx := by rw [hS]; change a.ctx = s.ctx; rw [a2.eq]; rfl
  have hSrctx : S.rctx = s.rctx := by rw [hS]; change a.rctx = s.rctx; rw [a2.eq]; rfl
  have hSri : S.runindex = runidxAt s c := by rw [hS]; exact harx
  have hSch : channels S = channels s := hSk.channels
  have hga : ∀ p < 2, ∀ c' ≠ c, ∀ ch < 3, ∀ j, InLine j → cell S p c' ch j = cell s p c' ch j := by
    intro p hp' c' hne ch hch j hj
    rw [b3 p hp' c' ch hch j hj, if_neg (by omega), if_neg (by omega), a4 p hp' c' ch hch j hj, if_neg (by
      simp only [setSeq_seq]; omega)]
    rfl
  have haprev : ∀ ch < channels s, ∀ j, InLine j → cell a ((y + 1) % 2) c ch j = cell s ((y + 1) % 2) c ch j := by
    intro ch hch j hj
    rw [a4 _ (Nat.mod_lt _ (by decide)) c ch (by omega) j hj, if_neg (by simp only [setSeq_seq]; omega)]
    rfl
  have hSprev : ∀ ch < channels s, ∀ j, InLine j → cell S ((y + 1) % 2) c ch j =
      if j = s.pr.width then cell s ((y + 1) % 2) c ch ((s.pr.width : Int) - 1) else cell s ((y + 1) % 2) c ch j := by
    intro ch hch j hj
    rw [b3 _ (Nat.mod_lt _ (by decide)) c ch (by omega) j hj, hapr, hach, haprev ch hch _ (by omega),
      haprev ch hch _ hj]
    by_cases hjw : j = s.pr.width
    · rw [if_pos ⟨rfl, rfl, hch, hjw⟩, if_pos hjw]
    · rw [if_neg (by omega), if_neg (by omega), if_neg hjw]
  have hScurm : ∀ ch < channels s, cell S (y % 2) c ch (-1) = cell s ((y + 1) % 2) c ch 0 := by
    intro ch hch
    rw [b3 _ (Nat.mod_lt _ (by decide)) c ch (by omega) _ (by omega), hapr, hach, if_neg (by omega),
      if_pos ⟨rfl, rfl, hch, rfl⟩, haprev ch hch _ (by omega)]
  have hScur : ∀ ch < channels s, ∀ j : Nat, j < s.pr.width → cell S (y % 2) c ch j = (px.getD j []).getD ch 0 := by
    intro ch hch j hj
    rw [b3 _ (Nat.mod_lt _ (by decide)) c ch (by omega) _ (by omega), hapr, hach, if_neg (by omega),
      if_neg (by omega), a4 _ (Nat.mod_lt _ (by decide)) c ch (by omega) _ (by omega),
      if_pos ⟨rfl, rfl, by omega, by simp only [setSeq_pr]; omega, hch⟩]
    rfl
  obtain ⟨t, bits, ht⟩ := line_coded hSinv (hSk.dir.trans hdir) (by rw [hSk.pr]; exact w1)
    (by rw [hSseq]) (by rw [hSk.pr, hSwr]; exact hroom)
  have htseq : t.seq = { fsm := .scanning, y := y, c := c, i := s.pr.width } := by
    rw [ht.seq, hSseq, hSk.pr]; simp
  have htk := hSk.trans ht.kept
  have hout : Outside S t (channels s) 0 s.pr.width := by
    have := ht.outside
    rwa [hSch, hSk.pr, hSseq] at this
  have htother : ∀ p < 2, ∀ c' ≠ c, ∀ ch < 3, ∀ j, InLine j → cell t p c' ch j = cell s p c' ch j := by
    intro p hp' c' hne ch hch j hj
    rw [hout p hp' c' ch hch j hj (by rw [hSseq]; rintro ⟨-, h2, -⟩; exact hne h2), hga p hp' c' hne ch hch j hj]
  have hsetk : ∀ u : State, Kept u (setRunidx u c u.runindex) := fun u =>
    ⟨rfl, rfl, rfl, rfl, rfl, rfl, rfl, rfl, rfl, rfl, rfl, rfl, rfl, rfl, rfl, rfl⟩
  have key : ∀ d rest, Tracks s d y c → remaining d = bits ++ rest → ∃ e, codeSlotLine y c d = deliverLine c y e ∧
      e.lineRoom = d.lineRoom ∧ e.pr = d.pr ∧ ∀ r, let f := { e with
        lineDst := e.lineDst ++ deliveredLines c y e, lineRoom := r }
      Took d bits.length f ∧ Kept d f ∧ Tracks (setRunidx t c t.runindex) f y (c + 1) := by
    intro d rest hd hrem
    have hdpr : d.pr.width = s.pr.width := by rw [hd.pr]
    have hdch : channels d = channels s := by unfold channels; rw [hd.pr]
    obtain ⟨b', d1, d2, d3⟩ := guardLine_guarded (s := d) hd.bufWf (by rw [hdpr]; exact w1) y c
    have hdbegin : beginLine y c d = .ok (begun y c b' d) := by
      rw [beginLine]
      simp only [takeLine]
      rw [if_pos (show (setSeq d { fsm := .scanning, y := y, c := c, i := 0 }).dir = true from hd.decoder), ok_bind]
      exact congrArg _ d1
    obtain ⟨D, hD⟩ : ∃ D, D = begun y c b' d := ⟨_, rfl⟩
    rw [← hD] at hdbegin d3
    have hDk : KeptScan d D := by rw [hD]; exact begun_kept y c b' d
    have hag := hd.ahead c le_rfl hc
    have hDprev : ∀ ch < channels s, ∀ j : Int, -1 ≤ j → j ≤ s.pr.width →
        cell D ((y + 1) % 2) c ch j = cell S ((y + 1) % 2) c ch j := by
      intro ch hch j h1 h2
      rw [hSprev ch hch j (by omega), d3 _ (Nat.mod_lt _ (by decide)) c ch (by omega) j (by omega), hdpr,
        hdch]
      by_cases hjw : j = s.pr.width
      · rw [if_pos ⟨rfl, rfl, hch, hjw⟩, if_pos hjw, hag ch hch _ (by omega) (by omega)]
      · rw [if_neg (by omega), if_neg (by omega), if_neg hjw, hag ch hch _ h1 (by omega)]
    have hDcur : ∀ ch < channels s, cell D (y % 2) c ch (-1) = cell S (y % 2) c ch (-1) := by
      intro ch hch
      rw [hScurm ch hch, d3 _ (Nat.mod_lt _ (by decide)) c ch (by omega) _ (by omega), hdpr, hdch,
        if_neg (by omega), if_pos ⟨rfl, rfl, hch, rfl⟩, hag ch hch _ (by omega) (by omega)]
    have htwin : Twin S D := by
      refine Twin.of ⟨?_, ?_, ?_, ?_, ?_, ?_, ?_, ?_⟩ (hSk.dir.trans hdir) (hDk.dir.trans hd.decoder) (by rw [hD]; exact d2)
        ⟨?_, ?_⟩
      · rw [hDk.pr, hSk.pr, hd.pr]
      · rw [hDk.tr, hSk.tr, hd.tr]
      · rw [hSctx, ← hd.ctx, hD]; rfl
      · rw [hSrctx, ← hd.rctx, hD]; rfl
      · rw [hSri, hD]; change runidxAt d c = _; unfold runidxAt; rw [hd.runidx]
      · rw [hSseq, hD]; rfl
      · rw [hSseq, hD]; rfl
      · rw [hSseq, hD]; rfl
      · intro ch hch j h1 h2
        rw [hSk.pr] at h2
        rw [prevRead_eq_cell, prevRead_eq_cell, hSseq, hD]
        rw [hD] at hDprev
        exact hDprev ch (hSch ▸ hch) j h1 h2
      · intro ch hch j h1 h2
        rw [hSseq] at h2
        obtain rfl : j = -1 := by simp at h2; omega
        rw [curRead_eq_cell, curRead_eq_cell, hSseq, hD]
        rw [hD] at hDcur
        exact hDcur ch (hSch ▸ hch)
    obtain ⟨e, e1, e2, e3, e4, e5⟩ := ht.back D rest htwin (by
      rw [← hrem]; exact remaining_congr (by rw [hD]; rfl) (by rw [hD]; rfl))
    rw [hSch, hSk.pr, hSseq] at e5
    have hek := hDk.trans e3
    have hey : e.seq.y = y := by rw [e4.y, htseq]
    have hec : e.seq.c = c := by rw [e4.c, htseq]
    have hcodelem : codeSlotLine y c d = deliverLine c y (setRunidx e c e.runindex) := by
      rw [codeSlotLine, hdbegin, ok_bind, e1, ok_bind, finishLine, handLine,
        if_pos (show (setRunidx e c e.runindex).dir = true from hek.dir.trans hd.decoder)]
    have heother : ∀ p < 2, ∀ c' ≠ c, ∀ ch < 3, ∀ j, InLine j → cell e p c' ch j = cell d p c' ch j := by
      intro p hp' c' hne ch hch j hj
      rw [e5 p hp' c' ch hch j hj (by rw [show D.seq.c = c by rw [hD]; rfl]; rintro ⟨-, h2, -⟩; exact hne h2),
        d3 p hp' c' ch hch j hj, if_neg (by omega), if_neg (by omega)]
    have hcur : ∀ ch < channels s, ∀ j : Int, -1 ≤ j → j < s.pr.width →
        cell e (y % 2) c ch j = cell t (y % 2) c ch j := by
      intro ch hch j h1 h2
      have := e4.cur ch (by rw [htk.channels]; exact hch) j h1 (by rw [htseq]; exact h2)
      rwa [curRead_eq_cell, curRead_eq_cell, hey, hec, htseq] at this
    have hnew : ∀ r, s.pr.rectY ≤ y ∧ y < s.pr.rectY + s.pr.rectH → Delivers (setRunidx t c t.runindex)
        { setRunidx e c e.runindex with
          lineDst := e.lineDst ++ deliveredLines c y (setRunidx e c e.runindex), lineRoom := r } c y := by
      intro r hrect
      have hepr : e.pr = s.pr := hek.pr.trans hd.pr
      have hech : channels e = channels s := by unfold channels; rw [hepr]
      have hdl : deliveredLines c y (setRunidx e c e.runindex) = [{ c := c, y := y, px := deliveredPart e }] := by
        unfold deliveredLines
        rw [show (setRunidx e c e.runindex).pr = s.pr from hepr, if_pos hrect]
        rfl
      refine ⟨{ c := c, y := y, px := deliveredPart e }, l, ?_, ?_, ?_, ?_⟩
      · change heldLine (e.lineDst ++ deliveredLines c y (setRunidx e c e.runindex)) c y = _
        rw [hdl]
        exact heldLine_append_new (by rw [hek.lineDst]; exact hd.order) ⟨rfl, rfl⟩
      · change heldLine t.lineSrc c y = _; rw [htk.lineSrc]; exact hl
      · change (deliveredPart e).length = t.pr.rectW
        rw [deliveredPart, List.length_map, List.length_range, htk.pr, hepr]
      · intro j hj ch hch
        replace hj : j < s.pr.rectW := by rw [← htk.pr]; exact hj
        replace hch : ch < channels s := by rw [← htk.channels]; exact hch
        change (((deliveredPart e).getD j []).getD ch 0 - (l.px.getD (t.pr.rectX + j) []).getD ch 0).natAbs ≤ t.tr.near
        have hpart : (deliveredPart e).getD j [] = elementAt (channels e) e ((s.pr.rectX + j : Nat) : Int) := by
          rw [deliveredPart, hepr, List.getD_eq_getElem _ _ (by simpa using hj)]
          simp
        rw [hpart, elementAt_getD (by omega), curRead_eq_cell, hey, hec, hcur ch hch _ (by omega) (by omega), htk.pr, htk.tr]
        have hnear := ht.near ch (by omega) ((s.pr.rectX + j : Nat) : Int) (by rw [hSseq]; simp; omega)
          (by rw [hSseq, hSk.pr]; simp; omega)
        rw [curRead_eq_cell, curRead_eq_cell, htseq, hSseq, hSk.tr] at hnear
        simp only at hnear
        rw [hScur ch hch _ (by omega)] at hnear
        have htake : px.getD (s.pr.rectX + j) [] = l.px.getD (s.pr.rectX + j) [] := by
          rw [(lineElements_some he).2.2]
          simp only [List.getD, List.getElem?_take]
          rw [if_pos (by omega)]
        rwa [htake] at hnear
    refine ⟨_, hcodelem, hek.lineRoom, hek.pr, fun r => ⟨?_, hek.1.trans ⟨rfl, rfl, rfl, rfl, rfl, rfl, rfl, rfl, rfl, rfl, rfl, rfl, rfl, rfl, rfl, rfl⟩, ?_⟩⟩
    · exact (e2.of_same (by rw [hD]; rfl) (by rw [hD]; rfl)).same rfl rfl
    · refine { encoder := htk.dir.trans hdir, decoder := hek.dir.trans hd.decoder, pr := hek.pr.trans (hd.pr.trans htk.pr.symm),
               tr := hek.tr.trans (hd.tr.trans htk.tr.symm), ctx := e4.ctx, rctx := e4.rctx, runidx := ?_, bufWf := e4.bufWf,
               coded := ?_, ahead := ?_, order := ?_, lines := ?_ }
      · change sparseWrite 0 e.runidx c e.runindex = sparseWrite 0 t.runidx c t.runindex
        rw [hek.runidx, htk.runidx, hd.runidx, e4.runindex]
      · intro c' hc' ch hch j h1 h2
        replace hch : ch < channels s := by rw [← htk.channels]; exact hch
        replace h2 : j < s.pr.width := by rw [← htk.pr]; exact h2
        change cell e (y % 2) c' ch j = cell t (y % 2) c' ch j
        by_cases hcc : c' = c
        · rw [hcc]; exact hcur ch hch j h1 h2
        · rw [heother _ (Nat.mod_lt _ (by decide)) c' hcc ch (by omega) j (by omega),
            htother _ (Nat.mod_lt _ (by decide)) c' hcc ch (by omega) j (by omega)]
          exact hd.coded c' (by omega) ch hch j h1 h2
      · intro c' hc' hcs ch hch j h1 h2
        replace hch : ch < channels s := by rw [← htk.channels]; exact hch
        replace h2 : j < s.pr.width := by rw [← htk.pr]; exact h2
        replace hcs : c' < slots s.pr := by rw [← htk.pr]; exact hcs
        change cell e ((y + 1) % 2) c' ch j = cell t ((y + 1) % 2) c' ch j
        rw [heother _ (Nat.mod_lt _ (by decide)) c' (by omega) ch (by omega) j (by omega),
          htother _ (Nat.mod_lt _ (by decide)) c' (by omega) ch (by omega) j (by omega)]
        exact hd.ahead c' (by omega) hcs ch hch j h1 h2
      · intro k hk
        change k ∈ e.lineDst ++ _ at hk
        rw [List.mem_append, hek.lineDst] at hk
        rcases hk with hk | hk
        · have := hd.order k hk; omega
        · unfold deliveredLines at hk
          split at hk
          · rw [List.mem_singleton] at hk; rw [hk]; right; exact ⟨rfl, Nat.lt_succ_self c⟩
          · cases hk
      · intro y' c' hc' hyc hr1 hr2
        replace hr1 : s.pr.rectY ≤ y' := by rw [← htk.pr]; exact hr1
        replace hr2 : y' < s.pr.rectY + s.pr.rectH := by rw [← htk.pr]; exact hr2
        replace hc' : c' < slots s.pr := by rw [← htk.pr]; exact hc'
        by_cases hcc : y' = y ∧ c' = c
        · obtain ⟨rfl, rfl⟩ := hcc
          exact hnew r ⟨hr1, hr2⟩
        · exact (hd.lines y' c' hc' (by omega) hr1 hr2).of htk.lineSrc htk.pr htk.tr ⟨_, by
            change e.lineDst ++ _ = _; rw [hek.lineDst]⟩
  refine ⟨setRunidx t c t.runindex, bits, ?_⟩
  refine { run := ?_, wrote := (ht.wrote.of_same hSwr.symm hSbs.symm).same rfl rfl, short := ?_,
           kept := htk.1.trans (hsetk t), inv := ht.inv.setRunidx ht.inv.runindex, back := ?_, full := ?_ }
  · rw [codeSlotLine, hbegin, ok_bind, ht.run, ok_bind, finishLine, handLine,
      if_neg (by rw [show (setRunidx t c t.runindex).dir = t.dir from rfl, htk.dir, hdir]; decide)]
  · have := ht.short; rwa [hSk.pr] at this
  · intro d rest hd hacc hrem
    obtain ⟨e, e1, e2, e3, e4⟩ := key d rest hd hrem
    have hepr : e.pr = s.pr := e3.trans hd.pr
    obtain ⟨f1, f2, f3⟩ := e4 (roomAfter e.lineRoom (rectLines s.pr 1 y))
    refine ⟨_, by rw [e1, deliverLine_ok (by unfold Accepts; rw [e2, hepr]; exact hacc), hepr], f1, f2, f3, ?_⟩
    change roomAfter e.lineRoom _ = _
    rw [e2]
  · intro d rest hd hacc hrem
    obtain ⟨e, e1, e2, e3, -⟩ := key d rest hd hrem
    have hepr : e.pr = s.pr := e3.trans hd.pr
    unfold Accepts at hacc
    push Not at hacc
    obtain ⟨n, hn, hlt⟩ := hacc
    have hrect : s.pr.rectY ≤ y ∧ y < s.pr.rectY + s.pr.rectH ∧ n = 0 := by unfold rectLines at hlt; omega
    exact ⟨e, e3, by rw [e1, deliverLine_full (e2.trans (hrect.2.2 ▸ hn)) (by rw [hepr]; exact ⟨hrect.1, hrect.2.1⟩)]⟩

/-- The lines one after another. -/
theorem SpanCoded.trans {f g : State → Res State} {k l y c y' c' y'' c'' : Nat} {as bs : List Bool}
    (h : SpanCoded s f m k y c y' c' a as) (g' : SpanCoded a g n l y' c' y'' c'' t bs) :
    SpanCoded s (fun s => f s >>= g) (m + n) (k + l) y c y'' c'' t (as ++ bs) where
  run := by simp only [h.run, ok_bind, g'.run]
  wrote := h.wrote.trans g'.wrote
  short := by have := h.short; have := g'.short; rw [List.length_append]; unfold elementBits at *; omega
  kept := h.kept.trans g'.kept
  inv := g'.inv
  back d rest hd hacc hrem := by
    obtain ⟨e, e1, e2, e3, e4, e5⟩ := h.back d (bs ++ rest) hd (fun m hm => by have := hacc m hm; omega)
      (by rw [hrem, List.append_assoc])
    obtain ⟨u, u1, u2, u3, u4, u5⟩ := g'.back e rest e4 (hacc.after e5) (e2.remaining (by rw [hrem, List.append_assoc]))
    exact ⟨u, by simp only [e1, ok_bind, u1], by rw [List.length_append]; exact e2.trans u2, e3.trans u3, u4,
      by rw [u5, e5, roomAfter_add]⟩
  full d rest hd hacc hrem := by
    by_cases hk : Accepts d k
    · obtain ⟨e, e1, e2, e3, e4, e5⟩ := h.back d (bs ++ rest) hd hk (by rw [hrem, List.append_assoc])
      obtain ⟨u, u1, u2⟩ := g'.full e rest e4 (fun he => hacc fun m hm => by
        have h1 := he (m - k) (by rw [e5, hm]; rfl)
        have h2 := hk m hm
        omega) (e2.remaining (by rw [hrem, List.append_assoc]))
      exact ⟨u, u1.trans e3.pr, by simp only [e1, ok_bind, u2]⟩
    · obtain ⟨u, u1, u2⟩ := h.full d (bs ++ rest) hd hk (by rw [hrem, List.append_assoc])
      exact ⟨u, u1, by simp only [u2]; rfl⟩

/-- After the last slot of a line comes the first of the next. -/
theorem Tracks.next {y : Nat} (h : Tracks s d y (slots s.pr)) : Tracks s d (y + 1) 0 :=
  { h with
    coded := fun c' hc' => absurd hc' (Nat.not_lt_zero _)
    ahead := fun c' _ hc' => by
      rw [show (y + 1 + 1) % 2 = y % 2 by omega]; exact h.coded c' hc'
    order := fun l hl => by have := h.order l hl; omega
    lines := fun y' c' hc' hyc => h.lines y' c' hc' (by omega) }

theorem lineReady_kept {t : State} {T : Traits} {c y : Nat} (h : lineReady T s c y) (hk : Kept s t) : lineReady T t c y := by
  unfold lineReady channels at *
  rw [hk.pr, hk.lineSrc]
  exact h

/-- The slots of a line from `c` on (R336). -/
theorem slots_coded {y : Nat} : ∀ (n c : Nat) (s : State), c + n ≤ slots s.pr → ScanInv s → s.dir = false →
    legalParams s.build s.pr = true → (∀ c', c ≤ c' → c' < c + n → lineReady s.tr s c' y) →
    roomFor s.wr (elementBits * (s.pr.width * n)) →
    ∃ t bits, SpanCoded s (codeSlots y n c) (s.pr.width * n) (n * rectLines s.pr 1 y) y c y (c + n) t bits := by
  intro n
  induction n with
  | zero =>
    intro c s _ h _ _ _ _
    refine ⟨s, [], rfl, .refl s, Nat.zero_le _, Kept.refl s, h, fun d rest hd _ _ => ⟨d, rfl, .refl d, Kept.refl d, hd, ?_⟩,
      fun d _ _ hn _ => absurd (fun _ _ => by rw [Nat.zero_mul]; exact Nat.zero_le _) hn⟩
    rw [Nat.zero_mul]; unfold roomAfter; cases d.lineRoom <;> rfl
  | succ n ih =>
    intro c s hcn h hdir hp hl hroom
    obtain ⟨l, px, l1, l2, l3⟩ := hl c le_rfl (by omega)
    have hmul : s.pr.width * (n + 1) = s.pr.width * n + s.pr.width := Nat.mul_succ _ _
    obtain ⟨a, as, ha⟩ := slotLine_coded h hdir hp (y := y) (c := c) (by omega) l1 l2 l3 (hroom.mono (by
      rw [hmul]; unfold elementBits; omega))
    obtain ⟨t, bs, ht⟩ := ih (c + 1) a (by rw [ha.kept.pr]; omega) ha.inv (ha.kept.dir.trans hdir)
      (by rw [ha.kept.build, ha.kept.pr]; exact hp)
      (fun c' h1 h2 => by rw [ha.kept.tr]; exact lineReady_kept (hl c' (by omega) (by omega)) ha.kept)
      (hroom.after ha.wrote.writer (by have := ha.short; rw [ha.kept.pr]; rw [hmul]; unfold elementBits at *; omega))
    rw [ha.kept.pr] at ht
    have h2 := ha.trans ht
    rw [show s.pr.width + s.pr.width * n = s.pr.width * (n + 1) by omega, show c + 1 + n = c + (n + 1) by omega,
      show rectLines s.pr 1 y + n * rectLines s.pr 1 y = (n + 1) * rectLines s.pr 1 y by rw [Nat.succ_mul]; omega] at h2
    exact ⟨t, as ++ bs, h2⟩

theorem rectLines_succ (p : Params) (n y : Nat) : rectLines p (n + 1) y = rectLines p 1 y + rectLines p n (y + 1) := by
  unfold rectLines; omega

/-- The lines from `y` on (R336). -/
theorem lines_coded : ∀ (n y : Nat) (s : State), y + n ≤ s.pr.height → ScanInv s → s.dir = false →
    legalParams s.build s.pr = true → (∀ y', y ≤ y' → y' < y + n → ∀ c < slots s.pr, lineReady s.tr s c y') →
    roomFor s.wr (elementBits * (s.pr.width * slots s.pr * n)) →
    ∃ t bits, SpanCoded s (codeLines n y) (s.pr.width * slots s.pr * n) (slots s.pr * rectLines s.pr n y) y 0 (y + n) 0 t
      bits := by
  intro n
  induction n with
  | zero =>
    intro y s _ h _ _ _ _
    have h0 : rectLines s.pr 0 y = 0 := by unfold rectLines; omega
    refine ⟨s, [], rfl, .refl s, Nat.zero_le _, Kept.refl s, h, fun d rest hd _ _ => ⟨d, rfl, .refl d, Kept.refl d, hd, ?_⟩,
      fun d _ _ hn _ => absurd (fun _ _ => by rw [h0, Nat.mul_zero]; exact Nat.zero_le _) hn⟩
    rw [h0, Nat.mul_zero]; unfold roomAfter; cases d.lineRoom <;> rfl
  | succ n ih =>
    intro y s hyn h hdir hp hl hroom
    have hmul : s.pr.width * slots s.pr * (n + 1) = s.pr.width * slots s.pr * n + s.pr.width * slots s.pr := Nat.mul_succ _ _
    obtain ⟨a, as, ha⟩ := slots_coded (y := y) (slots s.pr) 0 s (by omega) h hdir hp
      (fun c' _ h2 => hl y le_rfl (by omega) c' (by omega)) (hroom.mono (by rw [hmul]; unfold elementBits; omega))
    obtain ⟨t, bs, ht⟩ := ih (y + 1) a (by rw [ha.kept.pr]; omega) ha.inv (ha.kept.dir.trans hdir)
      (by rw [ha.kept.build, ha.kept.pr]; exact hp)
      (fun y' h1 h2 c hc => by
        rw [ha.kept.tr]
        exact lineReady_kept (hl y' (by omega) (by omega) c (by rw [← ha.kept.pr]; exact hc)) ha.kept)
      (hroom.after ha.wrote.writer (by have := ha.short; rw [ha.kept.pr]; rw [hmul]; unfold elementBits at *; omega))
    rw [ha.kept.pr] at ht
    have ha' : SpanCoded s (codeSlots y (slots s.pr) 0) (s.pr.width * slots s.pr) (slots s.pr * rectLines s.pr 1 y) y 0
        (y + 1) 0 a as := by
      refine { ha with back := ?_ }
      intro d rest hd hacc hrem
      obtain ⟨e, e1, e2, e3, e4, e5⟩ := ha.back d rest hd hacc hrem
      rw [Nat.zero_add, ← show slots a.pr = slots s.pr by rw [ha.kept.pr]] at e4
      exact ⟨e, e1, e2, e3, e4.next, e5⟩
    have h2 := ha'.trans ht
    rw [show s.pr.width * slots s.pr + s.pr.width * slots s.pr * n = s.pr.width * slots s.pr * (n + 1) by omega,
      show y + 1 + n = y + (n + 1) by omega, ← Nat.mul_add, ← rectLines_succ] at h2
    refine ⟨t, as ++ bs, { h2 with run := ?_, back := ?_, full := ?_ }⟩
    · exact h2.run
    · intro d rest hd hacc hrem
      obtain ⟨e, e1, e2⟩ := h2.back d rest hd hacc hrem
      refine ⟨e, ?_, e2⟩
      rw [codeLines, hd.pr]; exact e1
    · intro d rest hd hacc hrem
      obtain ⟨u, u1, u2⟩ := h2.full d rest hd hacc hrem
      refine ⟨u, u1, ?_⟩
      rw [codeLines, hd.pr]; exact u2

end Sys2Proof.Machine
end

