-- ==== Sys2Proof/Laws/RoundTrip.lean ====
section
/-! SUPPORT. A scan command from set-up to end, encoded and read back (`48_scan_driver.md` R332, R340, R341, R344). -/

namespace Sys2Proof.Machine

variable {s t a d e : State} {n : Nat} {bits : List Bool}

/-! ## Set-up and end -/

theorem sparseRead_nil {α : Type} (x : α) (k : Nat) : sparseRead x [] k = x := rfl

/-- The decoder stands where the encoder stands when both have been set up (R332). -/
theorem scanSetup_tracks (hpr : d.pr = s.pr) (p0 cap len : Nat) :
    Tracks (scanSetup false p0 cap s) (scanSetup true p0 len d) 0 0 where
  encoder := rfl
  decoder := rfl
  pr := hpr
  tr := by change scanTraits d.pr = scanTraits s.pr; rw [hpr]
  ctx := by change initCtx (scanTraits d.pr).range = initCtx (scanTraits s.pr).range; rw [hpr]
  rctx := by change initRctx (scanTraits d.pr).range = initRctx (scanTraits s.pr).range; rw [hpr]
  runidx := rfl
  bufWf := rfl
  coded c' hc' := absurd hc' (Nat.not_lt_zero _)
  ahead _ _ _ _ _ _ _ _ := rfl
  order l hl := by cases hl
  lines _ _ _ h := by omega

theorem padLength_le (w : Writer) : padLength w ≤ 8 := by
  unfold padLength byteRoom; split
  · omega
  · split <;> omega

theorem endBits_length (h : writerOk w = true) : (endBits w).length ≤ 14 := by
  have hp : w.wacc.length < byteRoom w := of_decide_eq_true h
  have hr : byteRoom w ≤ 8 := by unfold byteRoom; split <;> omega
  have : padLength w ≤ 7 := by
    unfold padLength
    split
    · omega
    · rename_i h0
      have : w.wacc.length ≠ 0 := fun h1 => h0 (List.length_eq_zero_iff.1 h1)
      omega
  unfold endBits
  rw [List.length_append, List.length_replicate]
  split
  · rw [List.length_replicate]; omega
  · simp; omega

theorem endBits_false (w : Writer) : true ∉ endBits w := by
  unfold endBits
  rw [List.mem_append, List.mem_replicate]
  split
  · rw [List.mem_replicate]; simp
  · simp

theorem tooManyResidual_iff {b : Build} {n : Nat} : tooManyResidual b n = true ↔ ∃ m, b.eosMax = some m ∧ m < n := by
  unfold tooManyResidual
  cases b.eosMax <;> simp

/-- A decode, with the parameter block of `s`, of data whose bits are `all`: it ends without error at the marker and delivers
the lines of `s` where the host accepts them all (R341), and else raises (R342). -/
def DecodesBack (s : State) (p0 : Nat) (all : List Bool) : Prop :=
  ∀ d len, d.pr = s.pr → legalParams d.build d.pr = true → d.configured = true → d.seq.fsm = .idle → d.busy = false →
    p0 ≤ len → dbits d.bs p0 len = all →
    (∀ p, (∀ n, d.build.eosMax = some n → 14 ≤ n) → Accepts d (slots d.pr * d.pr.rectH) → markerPos d.bs p0 len = some p →
      ∃ u, runScan true p0 len d = .ok u ∧ u.err = .none ∧ u.done = true ∧ u.bytePos = p ∧ Delivered s u) ∧
    (¬Accepts d (slots d.pr * d.pr.rectH) → ∃ u, u.pr = d.pr ∧
      runScan true p0 len d = raise .uncompressedBufferTooSmall u)

/-- The encoder's last state, and what the sink holds (R344). -/
structure Encoded (s : State) (p0 : Nat) (t : State) (all : List Bool) : Prop where
  writer : Appended (initWriter p0 t.wr.wcap) all t.wr
  bytes : t.bs = writeBytes s.bs p0 (newBytes (initWriter p0 0) all)
  wacc : t.wr.wacc = []
  wff : t.wr.wff = false
  err : t.err = .none
  done : t.done = true
  busy : t.busy = false
  idle : t.seq.fsm = .idle
  sr1 : t.sr1 = BitVec.ofNat 32 t.wr.written

theorem accepts (hidle : s.seq.fsm = .idle) (hbusy : s.busy = false) (hc : s.configured = true)
    (hp : legalParams s.build s.pr = true) {p0 n : Nat} (h : p0 ≤ n) : acceptScan p0 n s = .ok () := by
  unfold acceptScan isIdle
  simp [hidle, hbusy, hc, hp, h]

/-- An encode with every line ready and room in the sink ends (R340), and a decode of its bits delivers the lines (R341). -/
theorem encode_coded (hp : legalParams s.build s.pr = true) (hl : linesReady s) (hidle : s.seq.fsm = .idle)
    (hbusy : s.busy = false) (hc : s.configured = true) {p0 cap : Nat}
    (hroom : 7 * p0 + elementBits * (s.pr.width * slots s.pr * s.pr.height) + 14 ≤ 7 * cap) :
    ∃ t all, runScan false p0 cap s = .ok t ∧ t.wr.wcap = cap ∧ t.wr.wpos ≤ cap ∧ Encoded s p0 t all ∧
      DecodesBack s p0 all := by
  obtain ⟨⟨w1, w3, -⟩, -, -, r2, -⟩ := legalParams_iff.1 hp
  obtain ⟨S, hS⟩ : ∃ S, S = scanSetup false p0 cap s := ⟨_, rfl⟩
  have hSpr : S.pr = s.pr := by rw [hS]; rfl
  have hSwr : S.wr = initWriter p0 cap := by rw [hS]; rfl
  have hSroom : roomFor S.wr (elementBits * (S.pr.width * slots S.pr * S.pr.height) + 14) := by
    rw [hSpr, hSwr]
    change 7 * p0 + 0 + _ ≤ 7 * cap
    omega
  obtain ⟨t, bits, ht⟩ := lines_coded S.pr.height 0 S (by omega) (hS ▸ scanSetup_inv hp _ _ _) (by rw [hS]; rfl)
    (by rw [hSpr, show S.build = s.build by rw [hS]; rfl]; exact hp)
    (fun y' _ h2 c hc => hS ▸ hl y' (by rw [hSpr] at h2; omega) c (by rw [← hSpr]; exact hc)) (hSroom.mono (by omega))
  rw [Nat.zero_add] at ht
  have hSok : writerOk S.wr = true := by rw [hSwr]; rfl
  have htok := ht.wrote.writer.writerOk hSok
  have hroom' : roomFor t.wr 14 := hSroom.after ht.wrote.writer (by have := ht.short; omega)
  obtain ⟨v, v1, v2, v3, v4⟩ := endWrite_ok (s := setFsm t .endOfScan) htok (hroom'.fits (endBits_length htok))
  have hall : Wrote S (bits ++ endBits t.wr) (afterAppend (setFsm t .endOfScan) (endBits t.wr) v) :=
    (ht.wrote.same rfl rfl : Wrote S bits (setFsm t .endOfScan)).trans (Wrote.afterAppend v1)
  have hcap : v.wcap = cap := by rw [v1.wcap]; change t.wr.wcap = cap; rw [ht.wrote.writer.wcap, hSwr]; rfl
  have hw : (afterAppend (setFsm t .endOfScan) (endBits t.wr) v).wr = v := rfl
  have hvpos : v.wpos ≤ cap := by
    have := hroom'.after v1 (m := 0) (by have := endBits_length htok; simpa using this)
    unfold roomFor at this
    omega
  have hrun : runScan false p0 cap s = .ok (scanDone
      { afterAppend (setFsm t .endOfScan) (endBits t.wr) v with sr1 := BitVec.ofNat 32 v.written }) := by
    rw [runScan, accepts hidle hbusy hc hp (by omega), ok_bind, ← hS, codeScan, ht.run, ok_bind, endScan, if_neg (by
      rw [show t.dir = false by rw [ht.kept.dir, hS]; rfl]; decide), v4, ok_bind]
    rfl
  refine ⟨_, bits ++ endBits t.wr, hrun, hcap, hvpos, ?_, ?_⟩
  · refine { writer := ?_, bytes := ?_, wacc := v2, wff := v3, err := ?_, done := rfl, busy := rfl, idle := rfl, sr1 := rfl }
    · have := hall.writer
      rw [hSwr, hw] at this
      change Appended (initWriter p0 v.wcap) _ v
      rw [hcap]; exact this
    · have := hall.bytes
      rw [hSwr, hS] at this
      exact this
    · change t.err = .none
      rw [ht.kept.err, hS]; rfl
  · intro d len hdpr hdp hdc hdi hdb hlen hdb'
    have hrem : remaining (scanSetup true p0 len d) = bits ++ endBits t.wr := by
      rw [← hdb']; rfl
    have hcount : slots S.pr * rectLines S.pr S.pr.height 0 = slots d.pr * d.pr.rectH := by
      rw [hSpr, hdpr]
      exact congrArg _ (by unfold rectLines; omega)
    have htracks := hS ▸ scanSetup_tracks hdpr p0 cap len
    have hheight : (scanSetup true p0 len d).pr.height = S.pr.height := by rw [hSpr, ← hdpr]; rfl
    refine ⟨fun p hdeos hdr hmp => ?_, fun hdr => ?_⟩
    rotate_left
    · obtain ⟨u, u1, u2⟩ := ht.full (scanSetup true p0 len d) (endBits t.wr) htracks (by rw [hcount]; exact hdr) hrem
      refine ⟨u, u1, ?_⟩
      rw [runScan, accepts hdi hdb hdc hdp hlen, ok_bind, codeScan, hheight, u2]
      rfl
    obtain ⟨e, e1, e2, e3, e4, -⟩ := ht.back (scanSetup true p0 len d) (endBits t.wr) htracks (by rw [hcount]; exact hdr) hrem
    have hrd : remaining (setFsm e .endOfScan) = endBits t.wr := e2.remaining hrem
    have hend : endRead (setFsm e .endOfScan) = .ok { setFsm e .endOfScan with bytePos := p } := by
      unfold endRead
      rw [show markerPos (setFsm e .endOfScan).bs (setFsm e .endOfScan).rd.rstart (setFsm e .endOfScan).rd.rend = some p by
        change markerPos e.bs e.rd.rstart e.rd.rend = some p
        rw [e2.bytes, e2.reader.rstart, e2.reader.rend]; exact hmp]
      simp only
      rw [if_neg]
      rw [hrd, Bool.or_eq_true, not_or]
      have hbuild : (setFsm e .endOfScan).build = d.build := e3.build
      refine ⟨?_, ?_⟩
      rotate_left
      · rw [hbuild, tooManyResidual_iff, avail, hrd]
        rintro ⟨n, hn, hlt⟩
        have := hdeos n hn
        have := endBits_length htok
        omega
      rw [List.any_eq_true]
      rintro ⟨x, hx, hx'⟩
      have : x = true := hx'
      rw [this] at hx
      exact endBits_false _ hx
    refine ⟨_, by
      rw [runScan, accepts hdi hdb hdc hdp hlen, ok_bind, codeScan, hheight, e1, ok_bind, endScan, if_pos (show e.dir = true from e3.dir), hend, ok_bind], ?_, rfl, rfl, ?_⟩
    · change e.err = .none; rw [e3.err]; rfl
    · intro y c h1 h2 h3
      have htpr : t.pr = s.pr := ht.kept.pr.trans hSpr
      have htsrc : t.lineSrc = s.lineSrc := ht.kept.lineSrc.trans (by rw [hS]; rfl)
      have httr : t.tr.near = s.pr.near := by rw [ht.kept.tr, hS]; rfl
      obtain ⟨out, src, o1, o2, o3, o4⟩ := e4.lines y c (by rw [htpr]; exact h3) (.inl (by rw [hSpr]; omega))
        (by rw [htpr]; exact h1) (by rw [htpr]; exact h2)
      rw [htpr, httr, show channels t = channels s by unfold channels; rw [htpr]] at o4
      exact ⟨out, src, o1, htsrc ▸ o2, by rw [o3, htpr], o4⟩

end Sys2Proof.Machine
end

