-- ==== Sys2Proof/Laws/Ports.lean ====
section
/-! SUPPORT. An encode whose host does not hold a line, or holds one with a sample above `max_val` (`48_scan_driver.md` R343). -/

namespace Sys2Proof.Machine

variable {s a b S : State} {c y : Nat}

theorem codeSlots_add (m n : Nat) (h : codeSlots y m c s = .ok a) : codeSlots y (m + n) c s = codeSlots y n (c + m) a := by
  induction m generalizing c s with
  | zero => cases h; rw [Nat.zero_add, Nat.add_zero]
  | succ m ih =>
    obtain ⟨u, hu, h⟩ := bind_eq_ok.1 h
    rw [Nat.succ_add, codeSlots, hu, ok_bind, ih h, Nat.succ_add_eq_add_succ]

theorem codeLines_add (m n : Nat) (h : codeLines m y s = .ok a) : codeLines (m + n) y s = codeLines n (y + m) a := by
  induction m generalizing y s with
  | zero => cases h; rw [Nat.zero_add, Nat.add_zero]
  | succ m ih =>
    obtain ⟨u, hu, h⟩ := bind_eq_ok.1 h
    rw [Nat.succ_add, codeLines, hu, ok_bind, ih h, Nat.succ_add_eq_add_succ]

/-- A scan ends where the first line that does not complete ends (R336). -/
theorem codeScan_stops {e : Stop} (h1 : codeLines y 0 S = .ok a) (h2 : codeSlots y c 0 a = .ok b)
    (h3 : codeSlotLine y c b = .error e) (hy : y < S.pr.height) (hc : c < slots a.pr) : codeScan S = .error e := by
  obtain ⟨m, hm⟩ : ∃ m, S.pr.height = y + (m + 1) := ⟨S.pr.height - y - 1, by omega⟩
  obtain ⟨n, hn⟩ : ∃ n, slots a.pr = c + (n + 1) := ⟨slots a.pr - c - 1, by omega⟩
  rw [codeScan, hm, codeLines_add y (m + 1) h1, Nat.zero_add, codeLines, hn, codeSlots_add c (n + 1) h2, Nat.zero_add,
    codeSlots, h3]
  rfl

/-- What taking a line answers where the host does not hold it as it should be: the error, or the refusal (R343). -/
inductive LineMissing (t : Traits) (s : State) (c y : Nat) : Stop → Prop
  | absent {u : State} (hu : u.pr = s.pr)
      (h : ∀ l, heldLine s.lineSrc c y = some l → lineElements s.pr.width (channels s) l = none) :
      LineMissing t s c y (.raised .uncompressedBufferTooSmall u)
  | range {l : Line} {px : List (List Int)} (hl : heldLine s.lineSrc c y = some l)
      (hx : lineElements s.pr.width (channels s) l = some px) (h : ¬px.all (fun e => e.all (isSample t)) = true) :
      LineMissing t s c y (.refused .sampleRange)

/-- An encode with room comes to the first line the host does not hold as it should be, and ends there. -/
theorem encode_stops (hp : legalParams s.build s.pr = true) (hidle : s.seq.fsm = .idle) (hbusy : s.busy = false)
    (hcf : s.configured = true) {p0 cap : Nat}
    (hroom : 7 * p0 + elementBits * (s.pr.width * slots s.pr * s.pr.height) ≤ 7 * cap) (hy : y < s.pr.height)
    (hc : c < slots s.pr) (hb : readyBefore s c y) (hl : ¬lineReady (scanTraits s.pr) s c y) :
    ∃ e, LineMissing (scanTraits s.pr) s c y e ∧ runScan false p0 cap s = .error e := by
  obtain ⟨⟨w1, w3, -⟩, -⟩ := legalParams_iff.1 hp
  obtain ⟨S, hS⟩ : ∃ S, S = scanSetup false p0 cap s := ⟨_, rfl⟩
  have hSpr : S.pr = s.pr := by rw [hS]; rfl
  have hSwr : S.wr = initWriter p0 cap := by rw [hS]; rfl
  have hSsrc : S.lineSrc = s.lineSrc := by rw [hS]; rfl
  have hStr : S.tr = scanTraits s.pr := by rw [hS]; rfl
  have hSdir : S.dir = false := by rw [hS]; rfl
  have hSp : legalParams S.build S.pr = true := by rw [hS]; exact hp
  have hready : ∀ {t : State}, Kept S t → ∀ c' y', c' < slots s.pr → (y' < y ∨ y' = y ∧ c' < c) → lineReady t.tr t c' y' :=
    fun hk c' y' h1 h2 => by
      rw [hk.tr, hStr]
      have h3 := hb y' c' h1 h2
      unfold lineReady channels at h3 ⊢
      rwa [hk.lineSrc, hSsrc, hk.pr, hSpr]
  have hroom' : roomFor S.wr (elementBits * (S.pr.width * slots S.pr * S.pr.height)) := by
    rw [hSpr, hSwr]; unfold roomFor initWriter; exact (Nat.add_zero _ ▸ hroom)
  have hlines : S.pr.width * slots S.pr * y + S.pr.width * slots S.pr ≤ S.pr.width * slots S.pr * S.pr.height := by
    rw [← Nat.mul_succ]; exact Nat.mul_le_mul_left _ (by rw [hSpr]; exact hy)
  have hslots : S.pr.width * c ≤ S.pr.width * slots S.pr := Nat.mul_le_mul_left _ (by rw [hSpr]; exact hc.le)
  obtain ⟨a, as, ha⟩ := lines_coded y 0 S (by rw [hSpr]; omega) (hS ▸ scanSetup_inv hp _ _ _) hSdir hSp
    (fun y' _ h2 c' hc' => hready (Kept.refl S) c' y' (by rw [← hSpr]; exact hc') (.inl (by omega)))
    (hroom'.mono (by unfold elementBits; omega))
  have hapr : a.pr = s.pr := ha.kept.pr.trans hSpr
  obtain ⟨b, bs, hb'⟩ := slots_coded (y := y) c 0 a (by rw [hapr]; omega) ha.inv (ha.kept.dir.trans hSdir)
    (by rw [ha.kept.build, ha.kept.pr]; exact hSp) (fun c' _ h2 => hready ha.kept c' y (by omega) (.inr ⟨rfl, by omega⟩))
    (hroom'.after ha.wrote.writer (by
      have := ha.short
      rw [ha.kept.pr]
      unfold elementBits at *
      omega))
  have hbk := ha.kept.trans hb'.kept
  have hbpr : b.pr = s.pr := hbk.pr.trans hSpr
  have hbsrc : b.lineSrc = s.lineSrc := hbk.lineSrc.trans hSsrc
  have hbtr : b.tr = scanTraits s.pr := hbk.tr.trans hStr
  let u : State := setSeq b { fsm := .scanning, y := y, c := c, i := 0 }
  have hload : ∃ e, LineMissing (scanTraits s.pr) s c y e ∧ loadLine c y u = .error e := by
    have hch : channels u = channels s := by unfold channels; rw [show u.pr = s.pr from hbpr]
    have hue : lineElements u.pr.width (channels u) = lineElements s.pr.width (channels s) := by
      rw [hch, show u.pr = s.pr from hbpr]
    unfold loadLine
    rw [show u.lineSrc = s.lineSrc from hbsrc]
    cases hx : heldLine s.lineSrc c y with
    | none => exact ⟨_, LineMissing.absent (u := u) hbpr (fun l hl => by rw [hx] at hl; cases hl), rfl⟩
    | some l =>
      simp only
      rw [hue]
      cases he : lineElements s.pr.width (channels s) l with
      | none => exact ⟨_, LineMissing.absent (u := u) hbpr (fun l' hl' => by rw [hx] at hl'; cases hl'; exact he), rfl⟩
      | some px =>
        simp only
        by_cases hall : px.all (fun e => e.all (isSample (scanTraits s.pr))) = true
        · exact absurd ⟨l, px, hx, he, hall⟩ hl
        · rw [show u.tr = scanTraits s.pr from hbtr, if_neg hall]
          exact ⟨_, LineMissing.range hx he hall, rfl⟩
  obtain ⟨e, he, hload⟩ := hload
  refine ⟨e, he, ?_⟩
  have hstop : codeSlotLine y c b = .error e := by
    unfold codeSlotLine beginLine takeLine
    simp only
    rw [if_neg (show ¬u.dir = true by
      rw [show u.dir = b.dir from rfl, hbk.dir, hSdir]; decide)]
    rw [hload]
    rfl
  rw [runScan, accepts hidle hbusy hcf hp (by omega), ok_bind, ← hS,
    codeScan_stops ha.run hb'.run hstop (by rw [hSpr]; exact hy) (by rw [hapr]; exact hc)]
  rfl

end Sys2Proof.Machine
end

