-- ==== Sys2Proof/Laws/Realisations.lean ====
section
/-! SUPPORT. The reader's cache holds the next bits of the destuffed sequence (`44_bit_reader.md` R202), and the writer's
buffer lets its first bits go as stuffed bytes (`45_bit_writer.md` R243). -/

namespace Sys2Proof.Machine

variable {m : Memory} {r : Reader} {p0 len : Nat}

/-! ## The bits of a byte and of several -/

theorem bitsOf_getD (v n k : Nat) : (bitsOf v n).getD k false = (decide (k < n) && v.testBit (n - 1 - k)) := by
  induction n generalizing k with
  | zero => simp [bitsOf]
  | succ n ih =>
    cases k with
    | zero => simp [bitsOf]
    | succ k =>
      rw [bitsOf, List.getD_cons_succ, ih, show n + 1 - 1 - (k + 1) = n - 1 - k by omega]
      congr 1
      exact decide_eq_decide.2 (by omega)

theorem bitsFrom_add (m : Memory) (p0 a b j : Nat) :
    bitsFrom m p0 (a + b) j = bitsFrom m p0 a j ++ bitsFrom m p0 b (j + a) := by
  induction a generalizing j with
  | zero => simp [bitsFrom]
  | succ a ih =>
    rw [show a + 1 + b = a + b + 1 by omega, bitsFrom, bitsFrom, ih, List.append_assoc, show j + 1 + a = j + (a + 1) by omega]

theorem bitsFrom_snoc (m : Memory) (p0 a j : Nat) : bitsFrom m p0 (a + 1) j = bitsFrom m p0 a j ++ byteBits m p0 (j + a) := by
  rw [bitsFrom_add]; simp [bitsFrom]

/-! ## Where the scan data ends (R201) -/

theorem markerFrom_cases (m : Memory) (len n j : Nat) :
    (markerFrom m len n j = none ∧ ∀ i, j ≤ i → i < j + n → isMarker m len i = false) ∨
      ∃ p, markerFrom m len n j = some p ∧ j ≤ p ∧ p < j + n ∧ isMarker m len p = true ∧
        ∀ i, j ≤ i → i < p → isMarker m len i = false := by
  induction n generalizing j with
  | zero => exact .inl ⟨rfl, fun i h1 h2 => by omega⟩
  | succ n ih =>
    unfold markerFrom
    by_cases h : isMarker m len j = true
    · rw [if_pos h]
      exact .inr ⟨j, rfl, le_rfl, by omega, h, fun i h1 h2 => by omega⟩
    · rw [if_neg h]
      have hj : ∀ i, j ≤ i → ¬j + 1 ≤ i → isMarker m len i = false := fun i h1 h2 => by
        rw [show i = j by omega]; exact Bool.eq_false_iff.2 h
      obtain ⟨h1, h2⟩ | ⟨p, h1, h2, h3, h4, h5⟩ := ih (j + 1)
      · exact .inl ⟨h1, fun i a b => if c : j + 1 ≤ i then h2 i c (by omega) else hj i a c⟩
      · exact .inr ⟨p, h1, by omega, by omega, h4, fun i a b => if c : j + 1 ≤ i then h5 i c b else hj i a c⟩

/-- The scan data ends at the first marker boundary, or with the array. -/
theorem dataEnd_spec (h : p0 ≤ len) : p0 ≤ dataEnd m p0 len ∧ dataEnd m p0 len ≤ len ∧
    (dataEnd m p0 len = len ∨ isMarker m len (dataEnd m p0 len) = true) ∧
    ∀ i, p0 ≤ i → i < dataEnd m p0 len → isMarker m len i = false := by
  unfold dataEnd markerPos
  obtain ⟨h1, h2⟩ | ⟨p, h1, h2, h3, h4, h5⟩ := markerFrom_cases m len (len - p0) p0 <;> rw [h1]
  · exact ⟨h, le_rfl, .inl rfl, fun i a b => h2 i a (by simp at b; omega)⟩
  · exact ⟨h2, by simp; omega, .inr h4, h5⟩

theorem dataEnd_of_lt (h : len < p0) : dataEnd m p0 len = len := by
  unfold dataEnd markerPos
  rw [show len - p0 = 0 by omega]
  rfl

/-! ## The cache (R202) -/

theorem tookFF_iff : tookFF m r = true ↔ r.rstart < r.rpos ∧ memRead m (r.rpos - 1) = 0xFF := by
  unfold tookFF; simp

theorem initReader_holds (h : p0 ≤ len) : CacheHolds m (initReader m p0 len) where
  valid := Nat.zero_le _
  low := le_rfl
  high := (dataEnd_spec h).1
  count := by
    have : tookFF m (initReader m p0 len) = false := by unfold tookFF initReader; simp
    rw [this]
    simp [initReader, bitsFrom]
  bits k hk := by
    have : tookFF m (initReader m p0 len) = false := by unfold tookFF initReader; simp
    rw [this]
    simp [initReader]

/-- The bit that one byte ORs into the cache. -/
theorem getMsbD_loaded (v : Byte) {n k : Nat} (hn : n ≤ 56) (hk : k < 64) :
    (BitVec.ofNat 64 v.toNat <<< (64 - 8 - n)).getMsbD k = (decide (n ≤ k) && decide (k < n + 8) && v.toNat.testBit (n + 7 - k)) := by
  rw [BitVec.getMsbD_eq_getLsbD, BitVec.getLsbD_shiftLeft, BitVec.getLsbD_ofNat]
  by_cases h1 : k < n + 8
  · by_cases h2 : n ≤ k
    · rw [show 64 - 1 - k - (64 - 8 - n) = n + 7 - k by omega]
      simp only [hk, h1, h2, decide_true, Bool.true_and, show 64 - 1 - k < 64 by omega, show ¬64 - 1 - k < 64 - 8 - n by omega,
        decide_false, Bool.not_false, show n + 7 - k < 64 by omega]
    · have : v.toNat.testBit (64 - 1 - k - (64 - 8 - n)) = false :=
        Nat.testBit_lt_two_pow (lt_of_lt_of_le v.isLt (Nat.pow_le_pow_right (by decide) (by omega)))
      simp [this, h2]
  · simp only [h1, decide_false, Bool.and_false, Bool.false_and, show 64 - 1 - k < 64 - 8 - n by omega, decide_true,
      Bool.not_true]

theorem byteBits_last {j : Nat} (h : memRead m j = 0xFF) : ∃ l, byteBits m p0 j = l ++ [true] := by
  unfold byteBits
  rw [h]
  split
  · exact ⟨List.replicate 6 true, rfl⟩
  · exact ⟨List.replicate 7 true, rfl⟩

/-- Loading one byte where there is one keeps the cache right. -/
theorem loadByte_holds (h : CacheHolds m r) (hv : r.rvalid ≤ 56) (hl : loadEnds m r = false) : CacheHolds m (loadByte m r) := by
  unfold loadEnds at hl
  rw [Bool.or_eq_false_iff, decide_eq_false_iff_not] at hl
  obtain ⟨hl1, hl2⟩ := hl
  have hse : r.rstart ≤ r.rend := by have := h.low; omega
  obtain ⟨-, d2, d3, d4⟩ := dataEnd_spec (m := m) hse
  have hlt : r.rpos < dataEnd m r.rstart r.rend := by
    rcases Nat.lt_or_ge r.rpos (dataEnd m r.rstart r.rend) with hh | hh
    · exact hh
    · have he : r.rpos = dataEnd m r.rstart r.rend := Nat.le_antisymm h.high hh
      rcases d3 with d3 | d3
      · omega
      · rw [← he, hl2] at d3; cases d3
  obtain ⟨v, hvv⟩ : ∃ v, v = memRead m r.rpos := ⟨_, rfl⟩
  have hlow := h.low
  have hpos : r.rstart + (r.rpos - r.rstart) = r.rpos := by omega
  have hpos' : r.rpos + 1 - r.rstart = (r.rpos - r.rstart) + 1 := by omega
  -- the byte's bits follow those loaded before
  obtain ⟨A, hA⟩ : ∃ A, A = bitsFrom m r.rstart (r.rpos - r.rstart) r.rstart := ⟨_, rfl⟩
  obtain ⟨tail, htail⟩ : ∃ tail, dbits m r.rstart r.rend = A ++ (byteBits m r.rstart r.rpos ++ tail) := by
    refine ⟨bitsFrom m r.rstart (dataEnd m r.rstart r.rend - r.rpos - 1) (r.rpos + 1), ?_⟩
    unfold dbits
    rw [show dataEnd m r.rstart r.rend - r.rstart = (r.rpos - r.rstart) + (1 + (dataEnd m r.rstart r.rend - r.rpos - 1)) by omega,
      bitsFrom_add, ← hA, hpos, bitsFrom_add]
    simp [bitsFrom]
  have hcount : r.rp + r.rvalid + (tookFF m r).toNat = A.length := hA ▸ h.count
  have hff : tookFF m (loadByte m r) = decide (v = 0xFF) := by
    unfold tookFF loadByte
    simp only [Nat.add_sub_cancel, ← hvv]
    rw [decide_eq_true (show r.rstart < r.rpos + 1 by omega), Bool.true_and]
  have hnew : (loadByte m r).rvalid = r.rvalid + (if v = 0xFF then 7 else 8) := by rw [hvv]; rfl
  have hread : ∀ k < 64, (loadByte m r).rcache.getMsbD k =
      (r.rcache.getMsbD k || (decide (r.rvalid ≤ k) && decide (k < r.rvalid + 8) && v.toNat.testBit (r.rvalid + 7 - k))) := by
    intro k hk
    rw [hvv, ← getMsbD_loaded _ hv hk]
    unfold loadByte
    exact BitVec.getMsbD_or ..
  have hget : ∀ k, (dbits m r.rstart r.rend).getD (A.length + k) false = (byteBits m r.rstart r.rpos ++ tail).getD k false := by
    intro k
    rw [htail, List.getD_append_right _ _ _ _ (by omega), Nat.add_sub_cancel_left]
  cases hk : tookFF m r with
  | false =>
    have hbb : byteBits m r.rstart r.rpos = bitsOf v.toNat 8 := by
      unfold byteBits
      rw [if_neg (by rw [← tookFF_iff, hk]; decide), hvv]
    rw [hk] at hcount
    simp only [Bool.toNat_false, Nat.add_zero] at hcount
    refine { valid := ?_, low := by change r.rstart ≤ r.rpos + 1; omega, high := hlt, count := ?_, bits := fun k hk64 => ?_ }
    · rw [hnew]; show _ ≤ 64; split <;> omega
    · rw [hff, hnew]
      change r.rp + _ + _ = (bitsFrom m r.rstart (r.rpos + 1 - r.rstart) r.rstart).length
      rw [hpos', bitsFrom_snoc, ← hA, hpos, hbb, List.length_append, bitsOf_length, ← hcount]
      by_cases hv' : v = 0xFF
      · rw [if_pos hv', decide_eq_true hv', Bool.toNat_true]; omega
      · rw [if_neg hv', decide_eq_false hv', Bool.toNat_false]; omega
    · rw [hread k hk64, hff, hnew, h.bits k hk64, hk]
      change _ = if _ then (dbits m r.rstart r.rend).getD (r.rp + k) false else _
      by_cases k1 : k < r.rvalid
      · rw [if_pos k1, if_pos (by split <;> omega), decide_eq_false (show ¬r.rvalid ≤ k by omega)]
        simp
      · rw [if_neg k1, Bool.and_false, Bool.false_or, decide_eq_true (show r.rvalid ≤ k by omega), Bool.true_and]
        by_cases k2 : k < r.rvalid + 8
        · rw [decide_eq_true k2, Bool.true_and]
          have hd : (dbits m r.rstart r.rend).getD (r.rp + k) false = v.toNat.testBit (r.rvalid + 7 - k) := by
            rw [show r.rp + k = A.length + (k - r.rvalid) by omega, hget, hbb,
              List.getD_append _ _ _ _ (by rw [bitsOf_length]; omega), bitsOf_getD,
              decide_eq_true (show k - r.rvalid < 8 by omega), Bool.true_and]
            congr 1
            omega
          by_cases hv' : v = 0xFF
          · rw [if_pos hv']
            by_cases k3 : k < r.rvalid + 7
            · rw [if_pos k3, hd]
            · rw [if_neg k3, decide_eq_true hv', decide_eq_true (show k = r.rvalid + 7 by omega), hv',
                show r.rvalid + 7 - k = 0 by omega]
              rfl
          · rw [if_neg hv', if_pos k2, hd]
        · rw [decide_eq_false k2, Bool.false_and]
          by_cases hv' : v = 0xFF
          · rw [if_pos hv', if_neg (by omega), decide_eq_false (show ¬k = r.rvalid + 7 by omega)]; rfl
          · rw [if_neg hv', if_neg (by omega), decide_eq_false hv', Bool.and_false]
  | true =>
    obtain ⟨f1, f2⟩ := tookFF_iff.1 hk
    have hsmall : v.toNat < 128 := by
      have hnm := d4 (r.rpos - 1) (by omega) (by omega)
      unfold isMarker at hnm
      rw [f2, Nat.sub_add_cancel (by omega), ← hvv] at hnm
      by_contra hn
      rw [decide_eq_true (show (0xFF : Byte) = 0xFF from rfl), Bool.true_and, decide_eq_true (show 0x80 ≤ v.toNat by omega),
        Bool.or_true] at hnm
      cases hnm
    have hv' : ¬v = 0xFF := by rintro rfl; exact absurd hsmall (by decide)
    have hbb : byteBits m r.rstart r.rpos = bitsOf v.toNat 7 := by
      unfold byteBits
      rw [if_pos ⟨f1, f2⟩, hvv]
    rw [hk] at hcount
    simp only [Bool.toNat_true] at hcount
    rw [decide_eq_false hv'] at hff
    rw [if_neg hv'] at hnew
    obtain ⟨B, hB⟩ : ∃ B, A = B ++ [true] := by
      obtain ⟨l, hl⟩ := byteBits_last (p0 := r.rstart) f2
      refine ⟨bitsFrom m r.rstart (r.rpos - 1 - r.rstart) r.rstart ++ l, ?_⟩
      rw [hA, show r.rpos - r.rstart = r.rpos - 1 - r.rstart + 1 by omega, bitsFrom_snoc,
        show r.rstart + (r.rpos - 1 - r.rstart) = r.rpos - 1 by omega, hl, List.append_assoc]
    refine { valid := ?_, low := by change r.rstart ≤ r.rpos + 1; omega, high := hlt, count := ?_, bits := fun k hk64 => ?_ }
    · rw [hnew]; show _ ≤ 64; omega
    · rw [hff, hnew]
      change r.rp + _ + _ = (bitsFrom m r.rstart (r.rpos + 1 - r.rstart) r.rstart).length
      rw [hpos', bitsFrom_snoc, ← hA, hpos, hbb, List.length_append, bitsOf_length, ← hcount, Bool.toNat_false]
      omega
    · rw [hread k hk64, hff, hnew, h.bits k hk64, hk, Bool.and_true, Bool.and_false]
      change _ = if _ then (dbits m r.rstart r.rend).getD (r.rp + k) false else _
      by_cases k1 : k < r.rvalid
      · rw [if_pos k1, if_pos (by omega), decide_eq_false (show ¬r.rvalid ≤ k by omega)]
        simp
      · rw [if_neg k1, decide_eq_true (show r.rvalid ≤ k by omega), Bool.true_and]
        by_cases k2 : k < r.rvalid + 8
        · rw [decide_eq_true k2, Bool.true_and, if_pos k2]
          by_cases k3 : k = r.rvalid
          · subst k3
            rw [decide_eq_true rfl, Bool.true_or, htail, List.getD_append _ _ _ _ (by omega), hB,
              List.getD_append_right _ _ _ _ (by rw [hB, List.length_append] at hcount; simp at hcount; omega)]
            have : B.length = r.rp + r.rvalid := by rw [hB, List.length_append] at hcount; simp at hcount; omega
            rw [this, Nat.sub_self]
            rfl
          · rw [decide_eq_false k3, Bool.false_or, show r.rp + k = A.length + (k - r.rvalid - 1) by omega, hget, hbb,
              List.getD_append _ _ _ _ (by rw [bitsOf_length]; omega), bitsOf_getD,
              decide_eq_true (show k - r.rvalid - 1 < 7 by omega), Bool.true_and]
            congr 1
            omega
        · rw [decide_eq_false k2, Bool.false_and, if_neg k2, decide_eq_false (show ¬k = r.rvalid by omega)]
          rfl

theorem CacheHolds.next (h : CacheHolds m r) (x : Nat) : CacheHolds m { r with rnextff := x } :=
  ⟨h.valid, h.low, h.high, h.count, h.bits⟩

/-- Filling keeps the cache right. -/
theorem fillLoop_holds (n : Nat) (h : CacheHolds m r) (hv : r.rvalid ≤ 56) : CacheHolds m (fillLoop m n r) := by
  induction n generalizing r with
  | zero => exact h
  | succ n ih =>
    unfold fillLoop
    split
    · exact h
    · rename_i hl
      have h1 := loadByte_holds h hv (Bool.eq_false_iff.2 hl)
      simp only
      split
      · exact h1.next _
      · rename_i h2
        exact ih h1 (by have : Config.cacheBits - 8 = 56 := rfl; omega)

/-- A fill loads a byte where there is one, and goes on until 56 bits are valid or none can be loaded. -/
theorem fillLoop_full (n : Nat) (r : Reader) (hn : 56 < r.rvalid + 7 * n) :
    56 ≤ (fillLoop m n r).rvalid ∨ loadEnds m (fillLoop m n r) = true := by
  induction n generalizing r with
  | zero => exact .inl (by simpa [fillLoop] using hn.le)
  | succ n ih =>
    unfold fillLoop
    split
    · rename_i h; exact .inr h
    · simp only
      split
      · rename_i h; exact .inl h
      · refine ih _ ?_
        have : r.rvalid + 7 ≤ (loadByte m r).rvalid := by
          unfold loadByte
          simp only
          split <;> omega
        omega

theorem fillLoop_loads (n : Nat) (h : loadEnds m r = false) : r.rpos < (fillLoop m (n + 1) r).rpos := by
  unfold fillLoop
  rw [if_neg (by rw [h]; decide)]
  simp only
  split
  · exact Nat.lt_succ_self _
  · exact lt_of_lt_of_le (Nat.lt_succ_self _) (fillLoop_grows m n (loadByte m r)).2

/-! ## The buffer (R243) -/

theorem bufferBits_length (w : Writer) (n : Nat) : (bufferBits w n).length = n := by unfold bufferBits; simp

theorem bufferBits_add (w v : Writer) (a b : Nat) (h : v.wbuf = w.wbuf <<< a) :
    bufferBits w (a + b) = bufferBits w a ++ bufferBits v b := by
  unfold bufferBits
  rw [List.range_add, List.map_append, List.map_map]
  refine congrArg _ (List.map_congr_left fun k _ => ?_)
  rw [h, Function.comp_apply, BitVec.getMsbD_shiftLeft, Nat.add_comm]

/-- The first bits of a word are its value without the others. -/
theorem bitsVal_bufferBits (w : Writer) {n : Nat} (hn : n ≤ 32) : bitsVal (bufferBits w n) = w.wbuf.toNat / 2 ^ (32 - n) := by
  have h : bufferBits w n = bitsOf (w.wbuf.toNat / 2 ^ (32 - n)) n := by
    refine List.ext_getElem (by rw [bufferBits_length, bitsOf_length]) fun k h1 h2 => ?_
    rw [bufferBits_length] at h1
    have h3 := bitsOf_getD (w.wbuf.toNat / 2 ^ (32 - n)) n k
    rw [List.getD_eq_getElem _ _ h2, decide_eq_true h1, Bool.true_and, Nat.testBit_div_two_pow] at h3
    rw [h3]
    simp only [bufferBits, List.getElem_map, List.getElem_range, BitVec.getMsbD_eq_getLsbD]
    rw [decide_eq_true (show k < 32 by omega), Bool.true_and, ← BitVec.testBit_toNat,
      show 32 - 1 - k = n - 1 - k + (32 - n) by omega]
  rw [h, bitsVal_bitsOf]
  rw [Nat.div_lt_iff_lt_mul (Nat.two_pow_pos _), ← pow_add, show n + (32 - n) = 32 by omega]
  exact w.wbuf.isLt

/-- One byte that leaves the buffer. -/
theorem drainByte_spec (w : Writer) : ∃ (c : Nat) (b : Byte), c ≤ 8 ∧ (drainByte w).wfree = w.wfree + c ∧ (drainByte w).wbuf = w.wbuf <<< c ∧
    (drainByte w).drainpos = w.drainpos + 1 ∧ stuffBits w.drainff [] (bufferBits w c) = ([b], [], (drainByte w).drainff) := by
  have hs : ∀ n, n ≤ 32 → 0 < n → n = stuffRoom w.drainff → stuffBits w.drainff [] (bufferBits w n) =
      ([BitVec.ofNat 8 (w.wbuf.toNat / 2 ^ (32 - n))], [], byteIsFF (BitVec.ofNat 8 (w.wbuf.toNat / 2 ^ (32 - n)))) := by
    intro n h1 h2 h3
    have hl := bufferBits_length w n
    rw [stuffBits_complete (by intro h; rw [h] at hl; simp at hl; omega) (by rw [hl, ← h3]; simp), List.nil_append,
      bitsVal_bufferBits w h1]
  unfold drainByte
  by_cases hd : w.drainff = true
  · rw [if_pos hd]
    exact ⟨7, _, by decide, rfl, rfl, rfl, hs 7 (by decide) (by decide) (by rw [hd]; rfl)⟩
  · rw [if_neg hd]
    exact ⟨8, _, by decide, rfl, rfl, rfl, hs 8 (by decide) (by decide) (by rw [Bool.eq_false_iff.2 hd]; rfl)⟩

/-- The bytes that leave the buffer in up to `n` turns: its first bits, stuffed (R243). -/
theorem drainLoop_spec (n : Nat) (w : Writer) : ∃ (out : List Byte) (c : Nat), out.length ≤ n ∧
    (drainLoop n w).wfree = w.wfree + c ∧ (drainLoop n w).wbuf = w.wbuf <<< c ∧
    stuffBits w.drainff [] (bufferBits w c) = (out, [], (drainLoop n w).drainff) ∧
    (drainLoop n w).drainpos = w.drainpos + out.length ∧ (out.length = n ∨ 32 ≤ (drainLoop n w).wfree) ∧
    ∀ m < out.length, ∃ c : Nat, w.wfree + c < 32 ∧ (stuffBits w.drainff [] (bufferBits w c)).1 = out.take m ∧
      (stuffBits w.drainff [] (bufferBits w c)).2.1 = [] := by
  induction n generalizing w with
  | zero =>
    exact ⟨[], 0, le_rfl, by simp [drainLoop], by simp [drainLoop], rfl, rfl, .inl rfl, fun m hm => by simp at hm⟩
  | succ n ih =>
    unfold drainLoop
    split
    · rename_i hf
      exact ⟨[], 0, Nat.zero_le _, by simp, by simp, rfl, rfl, .inr hf, fun m hm => by simp at hm⟩
    · rename_i hf
      obtain ⟨c, b, -, d1, d2, d3, d4⟩ := drainByte_spec w
      obtain ⟨out, c', e1, e2, e3, e4, e5, e6, e7⟩ := ih (drainByte w)
      have happ : ∀ x, stuffBits w.drainff [] (bufferBits w (c + x)) =
          (b :: (stuffBits (drainByte w).drainff [] (bufferBits (drainByte w) x)).1,
            (stuffBits (drainByte w).drainff [] (bufferBits (drainByte w) x)).2) := by
        intro x
        rw [bufferBits_add w (drainByte w) c x d2, stuffBits_append, d4]
        rfl
      refine ⟨b :: out, c + c', by simpa using e1, by rw [e2, d1]; push_cast; ring, by rw [e3, d2, BitVec.shiftLeft_add],
        by rw [happ, e4], by rw [e5, d3, List.length_cons]; omega, ?_, fun m hm => ?_⟩
      · rw [List.length_cons]
        exact e6.imp (fun h => by rw [h]) id
      · cases m with
        | zero => exact ⟨0, by push_cast; omega, rfl, rfl⟩
        | succ m =>
          obtain ⟨x, x1, x2, x3⟩ := e7 m (by simpa using hm)
          exact ⟨c + x, by push_cast; omega, by rw [happ, x2, List.take_succ_cons], by rw [happ, x3]⟩

theorem drain_flushed (w : Writer) : ∃ out, Flushed w out (drain w) := by
  obtain ⟨out, c, h1, h2, h3, h4, h5, h6, h7⟩ := drainLoop_spec 4 w
  exact ⟨out, h1, ⟨c, h2, h4, h3⟩, h5, h6, h7, (Appended.refl w).same (drainLoop_same 4 w)⟩

theorem drainLoop_drainpos (n : Nat) (w : Writer) : w.drainpos ≤ (drainLoop n w).drainpos := by
  obtain ⟨out, c, -, -, -, -, h, -⟩ := drainLoop_spec n w
  omega

/-- `BW.FLUSH` lets those bytes go, and raises where one is past the capacity (R243, R246; log entry 13). -/
theorem flushLoop_eq (n : Nat) (s : State) : ∃ u, u.pr = s.pr ∧ u.bs = s.bs ∧ flushLoop n s =
    if (drainLoop n s.wr).drainpos = s.wr.drainpos ∨ (drainLoop n s.wr).drainpos ≤ s.wr.wcap then
      .ok (setWriter s (drainLoop n s.wr))
    else raise .compressedBufferTooSmall u := by
  induction n generalizing s with
  | zero => exact ⟨s, rfl, rfl, by rw [if_pos (.inl rfl)]; rfl⟩
  | succ n ih =>
    unfold flushLoop drainLoop
    split
    · exact ⟨s, rfl, rfl, by rw [if_pos (.inl rfl)]; rfl⟩
    · obtain ⟨c, b, -, -, -, d3, -⟩ := drainByte_spec s.wr
      have hcap : (drainByte s.wr).wcap = s.wr.wcap := (drainByte_same s.wr).wcap
      have hmono := drainLoop_drainpos n (drainByte s.wr)
      split
      · exact ⟨s, rfl, rfl, by rw [if_neg (by omega)]⟩
      · obtain ⟨u, u1, u2, u3⟩ := ih (setWriter s (drainByte s.wr))
        refine ⟨u, u1, u2, u3.trans ?_⟩
        simp only [setWriter_wr, hcap]
        rcases Nat.eq_or_lt_of_le hmono with he | hlt
        · rw [if_pos (.inl he.symm), if_pos (.inr (by omega))]; rfl
        · by_cases hle : (drainLoop n (drainByte s.wr)).drainpos ≤ s.wr.wcap
          · rw [if_pos (.inr hle), if_pos (.inr hle)]; rfl
          · rw [if_neg (by omega), if_neg (by omega)]

end Sys2Proof.Machine
end

