-- ==== Sys2Proof/Laws/Reset.lean ====
section
/-! SUPPORT. A step by the reset input, what a reset leaves, and what fetching leaves (`70_reset_and_hazards.md` R400). -/

namespace Sys2Proof.Machine

variable {s t : State}

/-! ## One step -/

theorem step_off (h : s.resetIn = .off) : step s = runNext s := by unfold step; rw [h]

theorem step_now (h : s.resetIn = .now) : step s = .next (resetBlock s) := by unfold step; rw [h]

theorem step_midScan (h : s.resetIn = .midScan) : step s = .next (resetBlock (abandonScan s)) := by unfold step; rw [h]

/-! ## What a reset leaves -/

@[simp] theorem resetBlock_build (s : State) : (resetBlock s).build = s.build := rfl
@[simp] theorem resetBlock_bs (s : State) : (resetBlock s).bs = s.bs := rfl
@[simp] theorem resetBlock_lineSrc (s : State) : (resetBlock s).lineSrc = s.lineSrc := rfl
@[simp] theorem resetBlock_lineDst (s : State) : (resetBlock s).lineDst = s.lineDst := rfl
@[simp] theorem resetBlock_lineRoom (s : State) : (resetBlock s).lineRoom = s.lineRoom := rfl
@[simp] theorem resetBlock_host (s : State) : (resetBlock s).host = s.host := rfl
@[simp] theorem resetBlock_issue (s : State) : (resetBlock s).issue = [] := rfl
@[simp] theorem resetBlock_resetIn (s : State) : (resetBlock s).resetIn = .off := rfl
@[simp] theorem resetBlock_configured (s : State) : (resetBlock s).configured = false := rfl
@[simp] theorem resetBlock_seq (s : State) : (resetBlock s).seq = State.reset.seq := rfl
@[simp] theorem sr0_resetBlock (s : State) : sr0 (resetBlock s) = 0 := rfl

theorem ctxAt_reset (q : Nat) : ctxAt State.reset q = { a := 2, b := 0, c := 0, n := 1 } := by simp [ctxAt, State.reset]

theorem rctxAt_reset (t : Nat) : rctxAt State.reset t = { a := 2, n := 1, nn := 0 } := by simp [rctxAt, State.reset]

/-- A reset leaves a good state, whatever it was applied to but for the form of the array. -/
theorem resetBlock_inv (h : Memory.wf s.bs = true) : Inv (resetBlock s) where
  bytes := h
  buf := rfl
  runidxWf := rfl
  params h := by cases h
  ctx _ q := by
    rw [show ctxAt (resetBlock s) q = ctxAt State.reset q from rfl, ctxAt_reset]
    decide
  rctx _ t := by rw [show rctxAt (resetBlock s) t = rctxAt State.reset t from rfl, rctxAt_reset]
  runindex _ := Nat.zero_le _
  runidx _ _ := Nat.zero_le _
  writer _ _ := rfl
  notBusy := rfl

/-! ## Free bytes -/

theorem freeBytes_wf {draw p n : Nat} {m : Memory} (h : Memory.wf m = true) : Memory.wf (freeBytes draw p n m) = true :=
  foldl_memWrite_wf _ h

/-- A write leaves every other key, whatever the form of the space. -/
theorem sparseRead_write_ne {α : Type} [DecidableEq α] {d x : α} {a b : Nat} (h : b ≠ a) :
    ∀ m : List (Nat × α), sparseRead d (sparseWrite d m a x) b = sparseRead d m b
  | [] => by unfold sparseWrite; split <;> simp [sparseRead, h]
  | (k, v) :: t => by
    unfold sparseWrite
    split
    · split <;> simp [sparseRead, h]
    · split
      · rename_i _ hk
        subst hk
        split <;> simp [sparseRead, h]
      · simp [sparseRead, sparseRead_write_ne h t]

theorem memRead_foldl_other {f : Nat → Nat} {g : Nat → Byte} {a : Nat} (l : List Nat) (m : Memory)
    (hl : ∀ j ∈ l, f j ≠ a) : memRead (l.foldl (fun m j => memWrite m (f j) (g j)) m) a = memRead m a := by
  induction l generalizing m with
  | nil => rfl
  | cons j l ih =>
    rw [List.foldl_cons, ih _ fun k hk => hl k (List.mem_cons_of_mem _ hk)]
    exact sparseRead_write_ne (hl j List.mem_cons_self).symm m

/-- Only bytes of the region become free. -/
theorem memRead_freeBytes {draw p n a : Nat} {m : Memory} (ha : a < p ∨ p + n ≤ a) :
    memRead (freeBytes draw p n m) a = memRead m a :=
  memRead_foldl_other _ _ fun j hj => by have := List.mem_range.1 hj; omega

/-! ## Fetching and abandoning -/

/-- Fetching takes bytes out of one of the two fetch places, and leaves everything else. -/
theorem fetchNext_same {i : Instr} (h : fetchNext s = .next (i, t)) : ∃ x y, t = { s with issue := x, host := y } := by
  unfold fetchNext at h
  repeat' split at h
  all_goals first | (cases h; done) | (cases h; exact ⟨_, _, rfl⟩)

/-- An abandoned scan is an encode, a decode, or none. -/
theorem abandonScan_cases (s : State) : abandonScan s = s ∨
    (∃ p0 cap t, fetchNext s = .next (.encodeScan p0 cap, t) ∧ abandonScan s = abandonEncode p0 cap t) ∨
    ∃ p0 len t, fetchNext s = .next (.decodeScan p0 len, t) ∧ abandonScan s = abandonDecode t := by
  unfold abandonScan
  split
  · rename_i p0 cap t hf
    split
    · exact .inr (.inl ⟨p0, cap, t, hf, rfl⟩)
    · exact .inl rfl
  · rename_i p0 len t hf
    split
    · exact .inr (.inr ⟨p0, len, t, hf, rfl⟩)
    · exact .inl rfl
  all_goals exact .inl rfl

/-- Abandoning a scan changes what the block is built with and what the host holds ready no more than a scan does, and bytes
only in the sink of an encode. -/
theorem abandonScan_spec : (abandonScan s).build = s.build ∧ (abandonScan s).lineSrc = s.lineSrc ∧
    (Memory.wf s.bs = true → Memory.wf (abandonScan s).bs = true) ∧
    ∀ a, memRead (abandonScan s).bs a = memRead s.bs a ∨
      ∃ p0 cap t, fetchNext s = .next (.encodeScan p0 cap, t) ∧ p0 ≤ a ∧ a < cap := by
  obtain e | ⟨p0, cap, t, hf, e⟩ | ⟨p0, len, t, hf, e⟩ := abandonScan_cases s <;> rw [e]
  · exact ⟨rfl, rfl, id, fun _ => .inl rfl⟩
  · obtain ⟨x, y, rfl⟩ := fetchNext_same hf
    refine ⟨rfl, rfl, freeBytes_wf, fun a => ?_⟩
    by_cases ha : a < p0 ∨ p0 + (cap - p0) ≤ a
    · exact .inl (memRead_freeBytes ha)
    · exact .inr ⟨p0, cap, _, hf, by omega, by omega⟩
  · obtain ⟨x, y, rfl⟩ := fetchNext_same hf
    exact ⟨rfl, rfl, id, fun _ => .inl rfl⟩

end Sys2Proof.Machine
end

