-- ==== Sys2Proof/Laws/Widen.lean ====
section
/-! SUPPORT. An encode that ends without error in one sink ends the same in a larger one (`45_bit_writer.md` R246): the
capacity decides only whether it overflows. -/

namespace Sys2Proof.Machine

variable {α β : Type} {c : Nat}

/-- The writer with the capacity `c`. -/
def widenWriter (c : Nat) (w : Writer) : Writer := { w with wcap := c }

/-- The state whose sink has the capacity `c`. -/
def widen (c : Nat) (s : State) : State := { s with wr := widenWriter c s.wr }

/-- What `x` answers within a sink of at most `c` bytes, `y` answers with the capacity `c`. -/
def WidensTo (c : Nat) (f : α → State) (w : α → α) (x y : Res α) : Prop :=
  ∀ a, x = .ok a → (f a).wr.wcap ≤ c ∧ y = .ok (w a)

/-- The same for operations that answer a state. -/
abbrev Widens (c : Nat) (x y : Res State) : Prop := WidensTo c id (widen c) x y

/-- The same for operations with a result beside the state. -/
abbrev WidensPair (c : Nat) (x y : Res (β × State)) : Prop := WidensTo c Prod.snd (fun r => (r.1, widen c r.2)) x y

theorem WidensTo.bind {f : α → State} {w : α → α} {g : β → State} {w' : β → β} {x y : Res α} {k l : α → Res β}
    (h : WidensTo c f w x y) (hk : ∀ a, (f a).wr.wcap ≤ c → WidensTo c g w' (k a) (l (w a))) :
    WidensTo c g w' (x >>= k) (y >>= l) := by
  intro b hb
  obtain ⟨a, ha, hb⟩ := bind_eq_ok.1 hb
  obtain ⟨h1, h2⟩ := h a ha
  obtain ⟨h3, h4⟩ := hk a h1 b hb
  exact ⟨h3, by rw [h2, ok_bind]; exact h4⟩

theorem WidensTo.require {f : α → State} {w : α → α} {b : Bool} {r : Refusal} {k l : Unit → Res α}
    (h : b = true → WidensTo c f w (k ()) (l ())) : WidensTo c f w (require b r >>= k) (require b r >>= l) := by
  cases b with
  | true => exact h rfl
  | false => intro a ha; cases ha

theorem WidensTo.error {f : α → State} {w : α → α} {e : Stop} {y : Res α} : WidensTo c f w (.error e) y :=
  fun _ h => by cases h

theorem Widens.ok {s : State} (h : s.wr.wcap ≤ c) : Widens c (.ok s) (.ok (widen c s)) := fun a ha => by
  cases ha; exact ⟨h, rfl⟩

theorem WidensPair.ok {s : State} {b : β} (h : s.wr.wcap ≤ c) : WidensPair c (.ok (b, s)) (.ok (b, widen c s)) :=
  fun a ha => by cases ha; exact ⟨h, rfl⟩

theorem WidensTo.ite {f : α → State} {w : α → α} {p : Prop} [Decidable p] {x x' y y' : Res α}
    (h : p → WidensTo c f w x y) (h' : ¬p → WidensTo c f w x' y') :
    WidensTo c f w (if p then x else x') (if p then y else y') := by
  split
  · exact h (by assumption)
  · exact h' (by assumption)

variable {s : State}

/-! ## The writer -/

theorem emitByte_widens (b : Byte) (h : s.wr.wcap ≤ c) : Widens c (emitByte b s) (emitByte b (widen c s)) := by
  unfold emitByte
  by_cases hc : s.wr.wcap ≤ s.wr.wpos
  · rw [if_pos hc]; exact WidensTo.error
  · rw [if_neg hc, if_neg (show ¬(widen c s).wr.wcap ≤ (widen c s).wr.wpos from fun h' => hc (h.trans h'))]
    exact Widens.ok (by exact h)

theorem appendBit_widens (x : Bool) (h : s.wr.wcap ≤ c) : Widens c (appendBit x s) (appendBit x (widen c s)) :=
  WidensTo.ite (fun _ => emitByte_widens _ h) (fun _ => Widens.ok (by exact h))

theorem appendBits_widens (bits : List Bool) (h : s.wr.wcap ≤ c) :
    Widens c (appendBits bits s) (appendBits bits (widen c s)) := by
  induction bits generalizing s with
  | nil => exact Widens.ok h
  | cons x xs ih => exact (appendBit_widens x h).bind fun a ha => ih ha

theorem drainByte_widen (w : Writer) : drainByte (widenWriter c w) = widenWriter c (drainByte w) := by
  unfold drainByte
  change (if w.drainff = true then _ else _) = _
  split <;> rfl

theorem drainLoop_widen (n : Nat) (w : Writer) : drainLoop n (widenWriter c w) = widenWriter c (drainLoop n w) := by
  induction n generalizing w with
  | zero => rfl
  | succ n ih =>
    unfold drainLoop
    change (if 32 ≤ w.wfree then _ else _) = _
    split
    · rfl
    · rw [drainByte_widen, ih]

/-- The buffer with other contents. -/
def rebuffer (w : Writer) (b : Word) (f : Int) : Writer := { w with wbuf := b, wfree := f }

theorem bufferGroup_widen (v n : Nat) (w : Writer) : bufferGroup v n (widenWriter c w) = widenWriter c (bufferGroup v n w) := by
  have key : ∀ (u : Writer) (b : Word) (f : Int), drainLoop 4 (rebuffer (widenWriter c u) b f) =
      widenWriter c (drainLoop 4 (rebuffer u b f)) := fun u b f => drainLoop_widen 4 (rebuffer u b f)
  have hb : ∀ w : Writer, bufferGroup v n w =
      if 0 ≤ w.wfree - n then rebuffer w (shiftIn w v (w.wfree - n)) (w.wfree - n)
      else
        let u := drainLoop 4 (rebuffer w (shiftIn w v (w.wfree - n)) (w.wfree - n))
        let x := if u.wfree < 0 then drainLoop 4 (rebuffer u (shiftIn u v u.wfree) u.wfree) else u
        rebuffer x (shiftIn x v x.wfree) x.wfree := fun w => rfl
  rw [hb, hb]
  change (if 0 ≤ w.wfree - n then _ else _) = _
  split
  · rfl
  · simp only
    change rebuffer (if _ then _ else _) _ _ = _
    rw [show shiftIn (widenWriter c w) v ((widenWriter c w).wfree - n) = shiftIn w v (w.wfree - n) from rfl,
      show (widenWriter c w).wfree = w.wfree from rfl, key]
    generalize drainLoop 4 (rebuffer w (shiftIn w v (w.wfree - n)) (w.wfree - n)) = u
    rw [show shiftIn (widenWriter c u) v (widenWriter c u).wfree = shiftIn u v u.wfree from rfl,
      show (widenWriter c u).wfree = u.wfree from rfl, key]
    split <;> rfl

theorem appendGroup_widens (v n : Nat) (h : s.wr.wcap ≤ c) : Widens c (appendGroup v n s) (appendGroup v n (widen c s)) := by
  refine WidensTo.ite (fun _ => WidensTo.error) fun _ => WidensTo.ite (fun _ => WidensTo.error) fun _ =>
    (appendBits_widens _ h).bind fun a ha => ?_
  have : setWriter (widen c a) (bufferGroup v n (widen c a).wr) = widen c (setWriter a (bufferGroup v n a.wr)) := by
    change setWriter (widen c a) (bufferGroup v n (widenWriter c a.wr)) = _
    rw [bufferGroup_widen]; rfl
  rw [this]
  exact Widens.ok (by rw [setWriter_wr, (bufferGroup_same v n a.wr).wcap]; exact ha)

theorem appendGroups_widens (gs : List (Nat × Nat)) (h : s.wr.wcap ≤ c) :
    Widens c (appendGroups gs s) (appendGroups gs (widen c s)) := by
  induction gs generalizing s with
  | nil => exact Widens.ok h
  | cons g gs ih => exact (appendGroup_widens g.1 g.2 h).bind fun a ha => ih ha

theorem encodeValue_widens (k m : Nat) (g : Int) (h : s.wr.wcap ≤ c) :
    Widens c (encodeValue k m g s) (encodeValue k m g (widen c s)) :=
  WidensTo.ite (fun _ => WidensTo.error) fun _ => WidensTo.ite (fun _ => appendGroups_widens _ h) fun _ =>
    WidensTo.ite (fun _ => appendGroups_widens _ h) fun _ => WidensTo.error

/-! ## The samples and the runs -/

theorem getK_widens (q : Nat) (h : s.wr.wcap ≤ c) : Widens c (getK q s) (getK q (widen c s)) := by
  unfold getK
  change WidensTo c id (widen c) _ (match golombK (ctxAt s q).n (ctxAt s q).a with | some k => _ | none => _)
  cases golombK (ctxAt s q).n (ctxAt s q).a with
  | none => exact WidensTo.error
  | some k => exact Widens.ok (by exact h)

theorem getRunK_widens (q : Nat) (h : s.wr.wcap ≤ c) : Widens c (getRunK q s) (getRunK q (widen c s)) := by
  unfold getRunK
  change WidensTo c id (widen c) _ (match golombK (rctxAt s q).n (runTemp q (rctxAt s q)) with | some k => _ | none => _)
  cases golombK (rctxAt s q).n (runTemp q (rctxAt s q)) with
  | none => exact WidensTo.error
  | some k => exact Widens.ok (by exact h)

theorem predictSample_widens (h : s.wr.wcap ≤ c) : Widens c (predictSample s) (predictSample (widen c s)) :=
  WidensTo.require fun _ => (getK_widens (s := setWork s { s.w with sign := neg1 s.w.qs }) _ h).bind fun a ha =>
    WidensTo.require fun _ => Widens.ok (s := setWork a { a.w with
      pred := medianPrediction a.w.ra a.w.rb a.w.rc
      px := corrp a.tr.maxVal (medianPrediction a.w.ra a.w.rb a.w.rc + asgn (ctxAt a (contextIndex a)).c a.w.sign) }) ha

theorem reduceError_widens (e : Int) (h : s.wr.wcap ≤ c) :
    WidensTo c (fun _ => s) id (reduceError e s) (reduceError e (widen c s)) := fun _ ha => ⟨h, ha⟩

theorem reconstruct_widens (px err : Int) (h : s.wr.wcap ≤ c) :
    WidensTo c (fun _ => s) id (reconstruct px err s) (reconstruct px err (widen c s)) := fun _ ha => ⟨h, ha⟩

theorem encodeRegular_widens (i ch : Nat) (h : s.wr.wcap ≤ c) :
    Widens c (encodeRegular i ch s) (encodeRegular i ch (widen c s)) :=
  (predictSample_widens h).bind fun a ha => (reduceError_widens _ ha).bind fun e ha => (encodeValue_widens (s := setWork a
      { a.w with
        err := e
        merr := mapError (xorMask (errorCorrection (ctxAt a (contextIndex a)) (a.w.k ||| a.tr.near)) e) })
      _ _ _ ha).bind fun b hb => Widens.ok (s := rebuildSample i ch b) hb

theorem encodeRiError_widens (t : Nat) (err : Int) (h : s.wr.wcap ≤ c) :
    Widens c (encodeRiError t err s) (encodeRiError t err (widen c s)) :=
  (getRunK_widens t h).bind fun a ha => WidensTo.require fun _ => (encodeValue_widens _ _ _ ha).bind fun b hb =>
    Widens.ok (s := updRctx t err (emErrval t err (mapBit (rctxAt a t) err a.w.k)).toNat b) hb

theorem encodeRi_widens (x ra rb : Int) (h : s.wr.wcap ≤ c) : Widens c (encodeRi x ra rb s) (encodeRi x ra rb (widen c s)) := by
  rw [encodeRi_eq, encodeRi_eq]
  exact (reduceError_widens _ h).bind fun e h => (encodeRiError_widens (s := setWork s { s.w with err := e }) _ _ h).bind
    fun a ha => (reconstruct_widens _ _ ha).bind fun rx ha => Widens.ok (s := setWork a { a.w with rx := rx }) ha

theorem encodeRiChannel_widens (j ch : Nat) (ra : Int) (h : s.wr.wcap ≤ c) :
    Widens c (encodeRiChannel j s ch ra) (encodeRiChannel j (widen c s) ch ra) :=
  (reduceError_widens _ h).bind fun e h => (encodeRiError_widens (s := setWork s { s.w with
      ra := ra
      rb := prevRead s ch j
      x := curRead s ch j
      err := e }) 0 _ h).bind fun a ha => (reconstruct_widens _ _ ha).bind fun rx ha =>
    Widens.ok (s := curWrite (setWork a { a.w with rx := rx }) ch j rx) ha

theorem encodeInterruption_widens (nch j : Nat) (ras : List Int) (h : s.wr.wcap ≤ c) :
    Widens c (encodeInterruption nch j ras s) (encodeInterruption nch j ras (widen c s)) :=
  WidensTo.ite
    (fun _ => (encodeRiChannel_widens j 0 _ h).bind fun _ ha => (encodeRiChannel_widens j 1 _ ha).bind fun _ hb =>
      encodeRiChannel_widens j 2 _ hb)
    (fun _ => (encodeRi_widens (s := setWork s { s.w with
        ra := ras.getD 0 0
        rb := prevRead s 0 j
        x := curRead s 0 j }) _ _ _ h).bind fun a ha => Widens.ok (s := curWrite a 0 j a.w.rx) ha)

theorem encodeSegments_widens (fuel n : Nat) (h : s.wr.wcap ≤ c) :
    WidensPair c (encodeSegments fuel n s) (encodeSegments fuel n (widen c s)) := by
  induction fuel generalizing n s with
  | zero => exact WidensPair.ok h
  | succ fuel ih =>
    exact WidensTo.ite (fun _ => (appendGroup_widens 1 1 h).bind fun a ha => ih (s := incIdx a) _ ha)
      (fun _ => WidensPair.ok h)

theorem encodeLength_widens (n : Nat) (eol : Bool) (h : s.wr.wcap ≤ c) :
    Widens c (encodeLength n eol s) (encodeLength n eol (widen c s)) := by
  refine (encodeSegments_widens n n h).bind fun a ha => ?_
  refine WidensTo.ite (fun _ => WidensTo.ite (fun _ => appendGroup_widens _ _ ha) fun _ => Widens.ok ha) fun _ =>
    appendGroup_widens _ _ ha

theorem writeElement_widen (vs : List Int) (j : Nat) (s : State) :
    writeElement vs j (widen c s) = widen c (writeElement vs j s) := by
  unfold writeElement
  generalize vs.zipIdx = l
  induction l generalizing s with
  | nil => rfl
  | cons p l ih => exact ih (curWrite s p.2 j p.1)

theorem scanRun_widen (nch : Nat) (ras : List Int) (i left r : Nat) (s : State) :
    scanRun nch ras i left r (widen c s) = ((scanRun nch ras i left r s).1, widen c (scanRun nch ras i left r s).2) := by
  induction left generalizing r s with
  | zero => rfl
  | succ left ih =>
    unfold scanRun
    change (if elementsNear s.tr.near (elementAt nch s ((i + r : Nat) : Int)) ras = true then _ else _) = _
    split
    · rw [writeElement_widen, ih]
    · rfl

theorem writeElement_wr (vs : List Int) (j : Nat) (s : State) : (writeElement vs j s).wr = s.wr := by
  unfold writeElement
  generalize vs.zipIdx = l
  induction l generalizing s with
  | nil => rfl
  | cons p l ih => exact ih (curWrite s p.2 j p.1)

theorem scanRun_wr (nch : Nat) (ras : List Int) (i left r : Nat) (s : State) :
    (scanRun nch ras i left r s).2.wr = s.wr := by
  induction left generalizing r s with
  | zero => rfl
  | succ left ih =>
    unfold scanRun
    split
    · rw [ih, writeElement_wr]
    · rfl

theorem encodeRun_widens (nch i : Nat) (h : s.wr.wcap ≤ c) :
    WidensPair c (encodeRun nch i s) (encodeRun nch i (widen c s)) := by
  unfold encodeRun
  simp only
  rw [show elementAt nch (widen c s) ((i : Int) - 1) = elementAt nch s ((i : Int) - 1) from rfl,
    show (widen c s).pr = s.pr from rfl, scanRun_widen]
  have hw := scanRun_wr nch (elementAt nch s ((i : Int) - 1)) i (s.pr.width - i) 0 s
  generalize scanRun nch (elementAt nch s ((i : Int) - 1)) i (s.pr.width - i) 0 s = r at *
  generalize elementAt nch s ((i : Int) - 1) = ras at *
  obtain ⟨m, a⟩ := r
  refine WidensTo.bind (encodeLength_widens (s := setWork a { a.w with runlen := m, ra := ras.getD 0 0 }) m _ (by
    change a.wr.wcap ≤ c; rw [show a.wr = s.wr from hw]; exact h)) fun b hb => ?_
  exact WidensTo.ite (fun _ => WidensPair.ok hb) fun _ => (encodeInterruption_widens _ _ _ hb).bind fun d hd =>
    WidensPair.ok (s := decIdx d) hd

/-! ## The lines and the scan -/

theorem codeRun_widens (nch i : Nat) (hd : s.dir = false) (h : s.wr.wcap ≤ c) :
    WidensPair c (codeRun nch i s) (codeRun nch i (widen c s)) := by
  unfold codeRun
  rw [if_neg (by rw [hd]; decide), if_neg (show ¬(widen c s).dir = true by rw [show (widen c s).dir = s.dir from rfl, hd]; decide)]
  exact encodeRun_widens nch i h

theorem codeRegular_widens (i ch : Nat) (hd : s.dir = false) (h : s.wr.wcap ≤ c) :
    Widens c (codeRegular i ch s) (codeRegular i ch (widen c s)) := by
  unfold codeRegular
  rw [if_neg (by rw [hd]; decide), if_neg (show ¬(widen c s).dir = true by rw [show (widen c s).dir = s.dir from rfl, hd]; decide)]
  exact encodeRegular_widens i ch h

/-- An encode stays one. -/
theorem encoding_closed : DirClosed false fun s => s.dir = false where
  dir _ h := h
  read h := by cases h
  write _ := { work := fun _ _ h => h, result := fun _ _ h => h, ctx := fun _ _ _ h => h, rctx := fun _ _ _ _ h => h,
               inc := fun _ h => h, dec := fun _ h => h, cur := fun _ _ _ _ h => h, bit := fun _ _ h _ => h,
               emit := fun _ _ h _ => h, buffer := fun _ _ _ h => h, drained := fun _ h => h }
  scan := { prev := fun _ _ _ _ h => h, seq := fun _ _ h => h, load := fun _ _ h => h, store := fun _ _ h => h }
  deliver h := by cases h

/-- The two answers, and that the encode goes on. -/
theorem WidensTo.bindDir {f : α → State} {w : α → α} {g : β → State} {w' : β → β} {x y : Res α} {k l : α → Res β}
    (h : WidensTo c f w x y) (he : Ends f (fun s => s.dir = false) x)
    (hk : ∀ a, (f a).wr.wcap ≤ c → (f a).dir = false → WidensTo c g w' (k a) (l (w a))) :
    WidensTo c g w' (x >>= k) (y >>= l) := by
  intro b hb
  obtain ⟨a, ha, hb⟩ := bind_eq_ok.1 hb
  obtain ⟨h1, h2⟩ := h a ha
  rw [ha] at he
  obtain ⟨h3, h4⟩ := hk a h1 he b hb
  exact ⟨h3, by rw [h2, ok_bind]; exact h4⟩

theorem sampleTurn_widens (hd : s.dir = false) (h : s.wr.wcap ≤ c) : Widens c (sampleTurn s) (sampleTurn (widen c s)) :=
  WidensTo.ite
    (fun _ => (codeRun_widens (s := setFsm (channelContext s.seq.i s 0) .runMode) _ _ hd h).bind fun a ha =>
      Widens.ok (s := advance a.1 a.2) ha)
    (fun _ => (codeRegular_widens (s := setFsm (channelContext s.seq.i s 0) .regularSample) _ _ hd h).bind fun a ha =>
      Widens.ok (s := advance 1 a) ha)

theorem lineStep_widens (hd : s.dir = false) (h : s.wr.wcap ≤ c) : Widens c (lineStep s) (lineStep (widen c s)) :=
  WidensTo.require fun _ => sampleTurn_widens hd h

theorem channelContext_widen (i ch : Nat) (s : State) : channelContext i (widen c s) ch = widen c (channelContext i s ch) :=
  rfl

theorem tripletFlat_widen (i : Nat) (s : State) : tripletFlat i (widen c s) = tripletFlat i s := by
  unfold tripletFlat
  rw [channelContext_widen, channelContext_widen, channelContext_widen]
  rfl

theorem tripletTurn_widens (hd : s.dir = false) (h : s.wr.wcap ≤ c) :
    Widens c (tripletTurn s) (tripletTurn (widen c s)) := by
  unfold tripletTurn
  simp only
  rw [show (widen c s).seq = s.seq from rfl, tripletFlat_widen, channelContext_widen, channelContext_widen,
    channelContext_widen]
  refine WidensTo.ite (fun _ => ?_) fun _ => ?_
  · have hp := tripletContext_prepared s.seq.i s
    refine (codeRun_widens (s := tripletContext s.seq.i s) 3 s.seq.i (hp.dir.trans hd) (by rw [hp.wr]; exact h)).bind
      fun a ha => Widens.ok (s := advance a.1 a.2) ha
  · rw [show setFsm (widen c s) .regularSample = widen c (setFsm s .regularSample) from rfl, channelContext_widen]
    refine (codeRegular_widens (s := channelContext s.seq.i (setFsm s .regularSample) 0) s.seq.i 0 hd h).bindDir
      (codeRegular_ends encoding_closed hd) fun a ha had => ?_
    rw [channelContext_widen]
    refine (codeRegular_widens (s := channelContext s.seq.i a 1) s.seq.i 1 had ha).bindDir
      (codeRegular_ends encoding_closed had) fun b hb hbd => ?_
    rw [channelContext_widen]
    exact (codeRegular_widens (s := channelContext s.seq.i b 2) s.seq.i 2 hbd hb).bind fun e he =>
      Widens.ok (s := advance 1 e) he

theorem lineStep3_widens (hd : s.dir = false) (h : s.wr.wcap ≤ c) : Widens c (lineStep3 s) (lineStep3 (widen c s)) :=
  WidensTo.require fun _ => tripletTurn_widens hd h

theorem lineLoop_widens {turn : State → Res State}
    (ht : ∀ s, s.dir = false → s.wr.wcap ≤ c → Widens c (turn s) (turn (widen c s)))
    (he : ∀ s, s.dir = false → Ends id (fun s => s.dir = false) (turn s)) (fuel : Nat) (hd : s.dir = false)
    (h : s.wr.wcap ≤ c) : Widens c (lineLoop turn fuel s) (lineLoop turn fuel (widen c s)) := by
  induction fuel generalizing s with
  | zero => exact Widens.ok h
  | succ fuel ih =>
    exact WidensTo.ite (fun _ => (ht s hd h).bindDir (he s hd) fun a ha had => ih had ha) fun _ => Widens.ok h

theorem codeElements_widens (hd : s.dir = false) (h : s.wr.wcap ≤ c) :
    Widens c (codeElements s) (codeElements (widen c s)) := by
  unfold codeElements codeLine3 codeLine
  rw [show (widen c s).pr = s.pr from rfl,
    show setSeq (widen c s) { (widen c s).seq with i := 0 } = widen c (setSeq s { s.seq with i := 0 }) from rfl]
  refine WidensTo.ite (fun _ => ?_) fun _ => ?_
  · exact lineLoop_widens (turn := lineStep3) (fun _ h1 h2 => lineStep3_widens h1 h2)
      (fun _ h1 => lineStep3_ends encoding_closed h1) _ hd h
  · exact lineLoop_widens (turn := lineStep) (fun _ h1 h2 => lineStep_widens h1 h2)
      (fun _ h1 => lineStep_ends encoding_closed h1) _ hd h

theorem writeLine_widen (px : List (List Int)) (j : Nat) (s : State) :
    writeLine px j (widen c s) = widen c (writeLine px j s) ∧ (writeLine px j s).wr = s.wr := by
  induction px generalizing j s with
  | nil => exact ⟨rfl, rfl⟩
  | cons e px ih =>
    obtain ⟨h1, h2⟩ := ih (j + 1) (writeElement e j s)
    exact ⟨by rw [writeLine, writeElement_widen, h1]; rfl, by rw [writeLine, h2, writeElement_wr]⟩

theorem loadLine_widens (k y : Nat) (h : s.wr.wcap ≤ c) : Widens c (loadLine k y s) (loadLine k y (widen c s)) := by
  unfold loadLine
  rw [show (widen c s).lineSrc = s.lineSrc from rfl]
  cases heldLine s.lineSrc k y with
  | none => exact WidensTo.error
  | some l =>
    simp only
    rw [show lineElements (widen c s).pr.width (channels (widen c s)) l = lineElements s.pr.width (channels s) l from rfl]
    cases lineElements s.pr.width (channels s) l with
    | none => exact WidensTo.error
    | some px =>
      refine WidensTo.ite (fun _ => ?_) fun _ => WidensTo.error
      rw [(writeLine_widen px 0 s).1]
      exact Widens.ok (by rw [(writeLine_widen (c := c) px 0 s).2]; exact h)

theorem guardLine_widen (s : State) : guardLine (widen c s) = widen c (guardLine s) ∧ (guardLine s).wr = s.wr := by
  have key : ∀ (l : List Nat) (s : State), l.foldl guardChannel (widen c s) = widen c (l.foldl guardChannel s) ∧
      (l.foldl guardChannel s).wr = s.wr := by
    intro l
    induction l with
    | nil => intro s; exact ⟨rfl, rfl⟩
    | cons a l ih => intro s; exact ih (guardChannel s a)
  exact key (List.range (channels s)) s

theorem beginLine_widens (y k : Nat) (hd : s.dir = false) (h : s.wr.wcap ≤ c) :
    Widens c (beginLine y k s) (beginLine y k (widen c s)) := by
  unfold beginLine takeLine
  simp only
  rw [if_neg (show ¬(setSeq s { fsm := .scanning, y := y, c := k, i := 0 }).dir = true by
      rw [setSeq_dir, hd]; decide),
    if_neg (show ¬(setSeq (widen c s) { fsm := .scanning, y := y, c := k, i := 0 }).dir = true by
      rw [setSeq_dir, show (widen c s).dir = s.dir from rfl, hd]; decide)]
  refine (loadLine_widens (s := setSeq s { fsm := .scanning, y := y, c := k, i := 0 }) k y h).bind fun a ha => ?_
  rw [show setRunindex (widen c a) (runidxAt (widen c a) k) = widen c (setRunindex a (runidxAt a k)) from rfl,
    (guardLine_widen _).1]
  exact Widens.ok (by rw [(guardLine_widen (c := c) _).2]; exact ha)

theorem codeSlotLine_widens (y k : Nat) (hd : s.dir = false) (h : s.wr.wcap ≤ c) :
    Widens c (codeSlotLine y k s) (codeSlotLine y k (widen c s)) := by
  refine (beginLine_widens y k hd h).bindDir (beginLine_ends encoding_closed hd) fun a ha had =>
    (codeElements_widens had ha).bindDir (codeElements_ends encoding_closed had) fun b hb hbd => ?_
  unfold finishLine handLine
  rw [if_neg (show ¬(setRunidx b k b.runindex).dir = true by rw [show (setRunidx b k b.runindex).dir = b.dir from rfl]; rw [show b.dir = false from hbd]; decide),
    if_neg (show ¬(setRunidx (widen c b) k (widen c b).runindex).dir = true by
      rw [show (setRunidx (widen c b) k (widen c b).runindex).dir = b.dir from rfl]; rw [show b.dir = false from hbd]; decide)]
  exact Widens.ok (s := setRunidx b k b.runindex) hb

theorem codeSlots_widens (y n k : Nat) (hd : s.dir = false) (h : s.wr.wcap ≤ c) :
    Widens c (codeSlots y n k s) (codeSlots y n k (widen c s)) := by
  induction n generalizing k s with
  | zero => exact Widens.ok h
  | succ n ih =>
    exact (codeSlotLine_widens y k hd h).bindDir (codeSlotLine_ends encoding_closed hd) fun a ha had => ih (k + 1) had ha

theorem codeLines_widens (n y : Nat) (hd : s.dir = false) (h : s.wr.wcap ≤ c) :
    Widens c (codeLines n y s) (codeLines n y (widen c s)) := by
  induction n generalizing y s with
  | zero => exact Widens.ok h
  | succ n ih =>
    exact (codeSlots_widens y _ 0 hd h).bindDir (codeSlots_ends encoding_closed _ _ hd) fun a ha had => ih (y + 1) had ha

theorem bufferEnd_widen (w : Writer) : bufferEnd (widenWriter c w) = widenWriter c (bufferEnd w) := by
  unfold bufferEnd drain
  simp only
  rw [drainLoop_widen, show ∀ u : Writer, (widenWriter c u).drainff = u.drainff from fun _ => rfl,
    show ∀ u : Writer, (widenWriter c u).wfree = u.wfree from fun _ => rfl, bufferGroup_widen, drainLoop_widen]

theorem endWrite_widens (h : s.wr.wcap ≤ c) : Widens c (endWrite s) (endWrite (widen c s)) := by
  refine (appendBits_widens _ h).bind fun a ha => ?_
  refine WidensTo.bind (f := id) (w := widen c) (WidensTo.ite (fun _ => emitByte_widens 0 ha) fun _ => Widens.ok ha)
    fun b hb => ?_
  rw [show closeWriter (widen c b) = widen c (closeWriter b) by
    unfold closeWriter
    rw [show (widen c b).wr = widenWriter c b.wr from rfl, bufferEnd_widen]; rfl]
  exact Widens.ok (by
    rw [show (closeWriter b).wr = bufferEnd b.wr from rfl, (bufferEnd_same b.wr).wcap]; exact hb)

/-- An encode that ends without error does so, the same, with a larger capacity. -/
theorem encode_widens {p0 cap : Nat} {t : State} (hc : cap ≤ c) (h : runScan false p0 cap s = .ok t) :
    runScan false p0 c s = .ok (widen c t) := by
  unfold runScan at h ⊢
  obtain ⟨_, ha, h⟩ := bind_eq_ok.1 h
  have ha' : acceptScan p0 c s = .ok () := by
    unfold acceptScan at ha ⊢
    simp only [require_bind] at ha ⊢
    split at ha
    · split at ha
      · split at ha
        · rw [if_pos (by assumption), if_pos (by assumption), if_pos (by assumption)]
          by_cases hp : p0 ≤ cap
          · simp [show p0 ≤ c by omega]
          · simp [hp, refuse] at ha
        · cases ha
      · cases ha
    · cases ha
  rw [ha', ok_bind]
  have hw : Widens c (codeScan (scanSetup false p0 cap s)) (codeScan (widen c (scanSetup false p0 cap s))) :=
    codeLines_widens _ 0 rfl hc
  have := hw.bindDir (codeScan_ends encoding_closed rfl) (k := endScan) (l := endScan) (g := id) (w' := widen c)
    fun a ha had => by
      unfold endScan
      rw [if_neg (show ¬a.dir = true by rw [show a.dir = false from had]; decide), if_neg (show ¬(widen c a).dir = true by
        rw [show (widen c a).dir = a.dir from rfl]; rw [show a.dir = false from had]; decide)]
      exact (endWrite_widens (s := setFsm a .endOfScan) ha).bind fun b hb => Widens.ok (s := scanDone b) hb
  exact (this t h).2

/-! ## What an encode that ends without error has taken -/

theorem kept_encoding (s : State) : DirClosed false fun t => Kept s t ∧ t.dir = false :=
  DirClosed.of_closed (kept_reading s) (kept_writing s) (kept_scanning s) fun _ _ l r h => h.deliver l r

theorem slotLine_held {y k : Nat} {t : State} (hd : s.dir = false) (h : codeSlotLine y k s = .ok t) :
    lineReady s.tr s k y := by
  unfold codeSlotLine at h
  obtain ⟨a, ha, -⟩ := bind_eq_ok.1 h
  unfold beginLine takeLine at ha
  simp only at ha
  rw [if_neg (show ¬(setSeq s { fsm := .scanning, y := y, c := k, i := 0 }).dir = true by rw [setSeq_dir, hd]; decide)] at ha
  obtain ⟨b, hb, -⟩ := bind_eq_ok.1 ha
  unfold loadLine at hb
  rw [setSeq_lineSrc] at hb
  cases hl : heldLine s.lineSrc k y with
  | none => rw [hl] at hb; cases hb
  | some l =>
    rw [hl] at hb
    simp only at hb
    rw [show lineElements (setSeq s { fsm := .scanning, y := y, c := k, i := 0 }).pr.width
      (channels (setSeq s { fsm := .scanning, y := y, c := k, i := 0 })) l = lineElements s.pr.width (channels s) l from rfl]
      at hb
    cases hx : lineElements s.pr.width (channels s) l with
    | none => rw [hx] at hb; cases hb
    | some px =>
      rw [hx] at hb
      simp only at hb
      split at hb
      · rename_i hc
        exact ⟨l, px, hl, hx, hc⟩
      · cases hb

theorem slots_held {y : Nat} : ∀ (n k : Nat) {s t : State}, s.dir = false → codeSlots y n k s = .ok t →
    ∀ k' < n, lineReady s.tr s (k + k') y
  | 0, _, _, _, _, _ => fun _ h => absurd h (Nat.not_lt_zero _)
  | n + 1, k, s, t, hd, h => by
    unfold codeSlots at h
    obtain ⟨a, ha, h⟩ := bind_eq_ok.1 h
    intro k' hk'
    cases k' with
    | zero => exact slotLine_held hd ha
    | succ k' =>
      have hk := codeSlotLine_ends (kept_encoding s) (y := y) (c := k) (s := s) ⟨Kept.refl s, hd⟩
      rw [ha] at hk
      obtain ⟨hk, had⟩ := hk
      change Kept s a at hk
      change a.dir = false at had
      have := slots_held n (k + 1) had h k' (by omega)
      rw [show k + 1 + k' = k + (k' + 1) by omega] at this
      unfold lineReady channels at this ⊢
      rwa [hk.lineSrc, hk.pr, hk.tr] at this

theorem lines_held : ∀ (n y : Nat) {s t : State}, s.dir = false → codeLines n y s = .ok t →
    ∀ y' < n, ∀ k < slots s.pr, lineReady s.tr s k (y + y')
  | 0, _, _, _, _, _ => fun _ h => absurd h (Nat.not_lt_zero _)
  | n + 1, y, s, t, hd, h => by
    unfold codeLines at h
    obtain ⟨a, ha, h⟩ := bind_eq_ok.1 h
    intro y' hy' k hk'
    cases y' with
    | zero =>
      have := slots_held _ 0 hd ha k hk'
      rwa [Nat.zero_add] at this
    | succ y' =>
      have hk := codeSlots_ends (kept_encoding s) (y := y) (slots s.pr) 0 (s := s) ⟨Kept.refl s, hd⟩
      rw [ha] at hk
      obtain ⟨hk, had⟩ := hk
      change Kept s a at hk
      change a.dir = false at had
      have := lines_held n (y + 1) had h y' (by omega) k (by rw [hk.pr]; exact hk')
      rw [show y + 1 + y' = y + (y' + 1) by omega] at this
      unfold lineReady channels at this ⊢
      rwa [hk.lineSrc, hk.pr, hk.tr] at this

/-- An encode that completes had a legal block and every line ready (R340, R343). -/
theorem encode_accepted {p0 cap : Nat} {t : State} (h : runScan false p0 cap s = .ok t) :
    s.seq.fsm = .idle ∧ s.busy = false ∧ s.configured = true ∧ legalParams s.build s.pr = true ∧ p0 ≤ cap ∧ linesReady s := by
  unfold runScan at h
  obtain ⟨_, ha, h⟩ := bind_eq_ok.1 h
  obtain ⟨a, hs, -⟩ := bind_eq_ok.1 h
  have hl := lines_held s.pr.height 0 (s := scanSetup false p0 cap s) rfl hs
  simp only [Nat.zero_add] at hl
  unfold acceptScan isIdle at ha
  simp only [require_bind] at ha
  split at ha
  · rename_i h1
    split at ha
    · rename_i h2
      split at ha
      · rename_i h3
        simp only [Bool.and_eq_true, decide_eq_true_eq, Bool.not_eq_true'] at h1
        refine ⟨h1.1, h1.2, h2, h3, ?_, hl⟩
        by_contra hp
        simp [hp, refuse] at ha
      · cases ha
    · cases ha
  · cases ha

/-- An encode that completes, in whatever sink, and a decode of its bits (R340, R341). -/
theorem encode_decoded {p0 cap : Nat} {t : State} (h : runScan false p0 cap s = .ok t) : ∃ all,
    t.wr.wpos = p0 + (stuffBits false [] all).1.length ∧ (stuffBits false [] all).2 = ([], false) ∧
      t.bs = writeBytes s.bs p0 (stuffBits false [] all).1 ∧
      DecodesBack s p0 all := by
  obtain ⟨h1, h2, h3, h4, h5, h6⟩ := encode_accepted h
  let c := cap + 7 * p0 + elementBits * (s.pr.width * slots s.pr * s.pr.height) + 14
  obtain ⟨u, all, u1, -, -, u4, u5⟩ := encode_coded (p0 := p0) (cap := c) h4 h6 h1 h2 h3 (by omega)
  have hw := encode_widens (c := c) (show cap ≤ c by omega) h
  rw [u1] at hw
  cases hw
  have hnb : newBytes (initWriter p0 0) all = (stuffBits false [] all).1 := rfl
  have ha := u4.writer
  refine ⟨all, ?_, ?_, u4.bytes, u5⟩
  · exact ha.wpos
  · have e1 : (stuffBits false [] all).2.1 = [] := ha.wacc.symm.trans u4.wacc
    have e2 : (stuffBits false [] all).2.2 = false := ha.wff.symm.trans u4.wff
    exact Prod.ext e1 e2

end Sys2Proof.Machine
end

