-- ==== Sys2Proof/Tests/Slice0.lean ====
section
/-! SUPPORT. Tests. Every expected result is a word, a byte or a value of the spec: selectors from `30_encoding.md` R91, values
from the tables of `95_test_vectors.md` (named in each comment), or counted by hand from the rule named. The last part holds,
for each statement with hypotheses, a state and operands that meet them. -/

set_option Elab.async false

namespace Sys2Proof.Tests

open Sys2Proof Sys2Proof.Machine

/-! ## Helpers -/

/-- Whether an outcome is a next state of which `f` holds. -/
def after (o : Host.Outcome State Fault Refusal) (f : State → Bool) : Bool :=
  match o with
  | .next t => f t
  | .fault _ => false
  | .refused _ => false

/-- Whether an outcome is the refusal `r`. -/
def refusedAs (o : Host.Outcome State Fault Refusal) (r : Refusal) : Bool :=
  match o with
  | .next _ => false
  | .fault _ => false
  | .refused q => q = r

/-- A parameter block with its defaults and the whole image as its rectangle. -/
def block (w h bps ncomp near : Nat) (v : Ilv) : Params :=
  { width := w, height := h, bps := bps, ncomp := ncomp, near := near, ilv := v, maxVal := 0, t1 := 0, t2 := 0, t3 := 0,
    reset := 0, rectX := 0, rectY := 0, rectW := w, rectH := h }

/-- The state in which a block has been accepted. -/
def ready (p : Params) : State := { State.reset with pr := p, configured := true }

/-- An array that holds these bytes from position 0. -/
def bytes (l : List Nat) : Memory := writeBytes [] 0 (l.map fun b => BitVec.ofNat 8 b)

/-- The first `n` bytes of an array. -/
def firstBytes (m : Memory) (n : Nat) : List Nat := (List.range n).map fun j => (memRead m j).toNat

/-- An encode that has just been set up, with a sink of 64 bytes. -/
def encoder (p : Params) : State := scanSetup false 0 64 (ready p)

/-- A decode that has just been set up on these bytes. -/
def decoder (p : Params) (l : List Nat) : State := scanSetup true 0 l.length { ready p with bs := bytes l }

/-- The reset state with the traits of `TR.INIT`. -/
def traitsState (maxVal near : Nat) : State := { State.reset with tr := initTraits resetTraits maxVal near 64 }

/-- A host with these lines of single samples in slot 0. -/
def holding (s : State) (rows : List (List Int)) : State :=
  { s with lineSrc := rows.zipIdx.map fun r => { c := 0, y := r.2, px := r.1.map fun v => [v] } }

/-- A reset state with a reader at the start of these bytes. -/
def reading (l : List Nat) : State :=
  let s : State := { State.reset with bs := bytes l }
  setReader s (initReader s.bs 0 l.length)

/-- A reset state with a writer on an empty sink of `cap` bytes. -/
def writing (cap : Nat) : State := setWriter State.reset (initWriter 0 cap)

/-! ## Well-formedness: one ill-formed term for each check, refused -/

/-- `CONFIGURE` with operand `j` one past its word. -/
def wideConfigure (j : Nat) : Instr :=
  let f := fun k => if k = j then 2 ^ 32 else 1
  .configure (f 0) (f 1) (f 2) (f 3) (f 4) (f 5) (f 6) (f 7) (f 8) (f 9) (f 10) (f 11) (f 12) (f 13) (f 14)

theorem test_illformed_configure : (List.range 15).all (fun j => !wellFormed (wideConfigure j)) = true := by decide

theorem test_illformed_scan : [Instr.encodeScan (2 ^ 32) 0, .encodeScan 0 (2 ^ 32), .decodeScan (2 ^ 32) 0,
    .decodeScan 0 (2 ^ 32)].all (fun i => !wellFormed i) = true := by decide

theorem test_illformed_tr : [Instr.trInit (2 ^ 32) 0 3, .trInit 3 (2 ^ 32) 3, .trInit 3 0 (2 ^ 32), .trQerr (2 ^ 31),
    .trQerr (-(2 ^ 31) - 1), .trModr (2 ^ 31), .trErrval (2 ^ 31), .trCorrp (2 ^ 31), .trRecon (2 ^ 31) 0,
    .trRecon 0 (-(2 ^ 31) - 1), .trIsnear (2 ^ 31) 0, .trIsnear 0 (2 ^ 31)].all (fun i => !wellFormed i) = true := by decide

theorem test_illformed_qt : [Instr.qtDeft (2 ^ 32) 0, .qtDeft 0 (2 ^ 32), .qtBuild (2 ^ 32) 0 0 0 0, .qtBuild 0 (2 ^ 32) 0 0 0,
    .qtBuild 0 0 (2 ^ 32) 0 0, .qtBuild 0 0 0 (2 ^ 32) 0, .qtBuild 0 0 0 0 (2 ^ 32), .qtQuant (2 ^ 31), .qtCtxid 5 0 0,
    .qtCtxid 0 (-5) 0, .qtCtxid 0 0 5].all (fun i => !wellFormed i) = true := by decide

theorem test_illformed_rc : [Instr.rcInit (2 ^ 32), .rcGetk 365, .rcCorr 365 0, .rcCorr 0 (2 ^ 32), .rcUpd 365 0,
    .rcUpd 0 (2 ^ 31)].all (fun i => !wellFormed i) = true := by decide

theorem test_illformed_rm : [Instr.rmInit (2 ^ 32), .rmGetk 2, .rmMap 2 0 0, .rmMap 0 (2 ^ 31) 0, .rmMap 0 0 (2 ^ 32),
    .rmErrval 2 0 0, .rmErrval 0 (2 ^ 32) 0, .rmErrval 0 0 (2 ^ 32), .rmUpd 2 0 0, .rmUpd 0 (2 ^ 31) 0,
    .rmUpd 0 0 (2 ^ 32)].all (fun i => !wellFormed i) = true := by decide

theorem test_illformed_br_gt : [Instr.brInit (2 ^ 32) 0, .brInit 0 (2 ^ 32), .brRdv 32, .brSkip 32, .brDecv 32 32 8,
    .brDecv 0 (2 ^ 32) 8, .brDecv 0 32 (2 ^ 32), .gtLook (2 ^ 32)].all (fun i => !wellFormed i) = true := by decide

theorem test_illformed_bw : [Instr.bwInit (2 ^ 32) 0, .bwInit 0 (2 ^ 32), .bwApp (2 ^ 32) 31, .bwApp 0 32, .bwEncv 32 0 32,
    .bwEncv 0 (2 ^ 32) 32, .bwEncv 0 0 (2 ^ 32)].all (fun i => !wellFormed i) = true := by decide

theorem test_illformed_sp : [Instr.spNeigh (2 ^ 32), .spPred (2 ^ 31) 0 0, .spPred 0 (2 ^ 31) 0, .spPred 0 0 (2 ^ 31),
    .spMape (2 ^ 31), .spUnmape (2 ^ 32), .spEncreg (2 ^ 32), .spDecreg (2 ^ 32)].all (fun i => !wellFormed i) = true := by
  decide

theorem test_illformed_rn : [Instr.rnEnclen (2 ^ 32) true, .rnDeclen (2 ^ 32), .rnEncrierr 2 0, .rnEncrierr 0 (2 ^ 31),
    .rnDecrierr 2, .rnEncri (2 ^ 31) 0 0, .rnEncri 0 (2 ^ 31) 0, .rnEncri 0 0 (2 ^ 31), .rnDecri (2 ^ 31) 0,
    .rnDecri 0 (2 ^ 31), .rnEncrun (2 ^ 32), .rnDecrun (2 ^ 32)].all (fun i => !wellFormed i) = true := by decide

theorem test_illformed_cw : [Instr.cwGolomb (2 ^ 32) 0, .cwGolomb 0 (2 ^ 32), .cwEscape (2 ^ 32), .cwRunrem (2 ^ 32),
    .cwPad 8].all (fun i => !wellFormed i) = true := by decide

/-- The limits themselves are well formed. -/
theorem test_wellformed_limits : [Instr.encodeScan (2 ^ 32 - 1) 0, .trQerr (2 ^ 31 - 1), .trQerr (-(2 ^ 31)), .rcGetk 364,
    .rmGetk 1, .brRdv 31, .qtCtxid 4 (-4) 4, .cwPad 7].all wellFormed = true := by decide

/-! ## Decoding: every operation from its selector (R91) and its operand words (log entry 1) -/

/-- The four bytes of a small operand word. -/
def small (b : Byte) : List Byte := [b, 0, 0, 0]

/-- Whether each byte sequence decodes to its operation and leaves the rest named. -/
def readsBack (l : List (List Byte × Instr × List Byte)) : Bool := l.all fun r => decode r.1 = .ok r.2

theorem test_decode_host : readsBack [
    (([0x01] ++ small 4 ++ small 2 ++ small 8 ++ small 1 ++ small 3 ++ small 2 ++ [0xFF, 0x0F, 0, 0] ++ small 5 ++ small 6 ++ small 7 ++ small 64 ++ small 9 ++ small 10 ++ small 11 ++ small 12), Instr.configure 4 2 8 1 3 2 4095 5 6 7 64 9 10 11 12, []),
    (([0x02] ++ small 0 ++ small 64), Instr.encodeScan 0 64, []),
    (([0x03] ++ small 1 ++ small 32 ++ [0x99]), Instr.decodeScan 1 32, [0x99])] = true := by decide

theorem test_decode_tr : readsBack [(([0x10] ++ small 255 ++ small 3 ++ small 64), Instr.trInit 255 3 64, []),
    ([0x11, 0x80, 0xFF, 0xFF, 0xFF], Instr.trQerr (-128), []), ([0x12, 0xFF, 0xFF, 0xFF, 0xFF], Instr.trModr (-1), []),
    (([0x13] ++ small 200), Instr.trErrval 200, []), ([0x14, 0x00, 0x00, 0x00, 0x80], Instr.trCorrp (-(2 ^ 31)), []),
    (([0x15] ++ small 250 ++ small 10), Instr.trRecon 250 10, []),
    (([0x16] ++ small 7 ++ small 8), Instr.trIsnear 7 8, [])] = true := by decide

theorem test_decode_qt : readsBack [(([0x20] ++ small 255 ++ small 3), Instr.qtDeft 255 3, []),
    (([0x21] ++ small 8 ++ small 0 ++ small 3 ++ small 7 ++ small 21), Instr.qtBuild 8 0 3 7 21, []),
    ([0x22, 0xEB, 0xFF, 0xFF, 0xFF], Instr.qtQuant (-21), []),
    (([0x23, 0xFD, 0xFF, 0xFF, 0xFF] ++ small 4 ++ [0xFC, 0xFF, 0xFF, 0xFF]), Instr.qtCtxid (-3) 4 (-4), [])] = true := by decide

theorem test_decode_rc : readsBack [([0x30, 0x00, 0x01, 0, 0], Instr.rcInit 256, []),
    ([0x31, 0x6C, 0x01, 0, 0], Instr.rcGetk 364, []), (([0x32] ++ small 4 ++ small 2), Instr.rcCorr 4 2, []),
    (([0x33] ++ small 4 ++ [0xEE, 0xFF, 0xFF, 0xFF]), Instr.rcUpd 4 (-18), [])] = true := by decide

theorem test_decode_rm : readsBack [([0x40, 0x00, 0x01, 0, 0], Instr.rmInit 256, []),
    (([0x41] ++ small 1), Instr.rmGetk 1, []),
    (([0x42] ++ small 0 ++ [0xFB, 0xFF, 0xFF, 0xFF] ++ small 2), Instr.rmMap 0 (-5) 2, []),
    (([0x43] ++ small 1 ++ small 180 ++ small 2), Instr.rmErrval 1 180 2, []),
    (([0x44] ++ small 1 ++ small 90 ++ small 179), Instr.rmUpd 1 90 179, [])] = true := by decide

theorem test_decode_br_gt : readsBack [(([0x50] ++ small 0 ++ small 15), Instr.brInit 0 15, []),
    ([0x51], Instr.brFill, []), (([0x52] ++ small 24), Instr.brRdv 24, []), ([0x53], Instr.brPeek, []),
    ([0x54], Instr.brRdb, []), (([0x55] ++ small 7), Instr.brSkip 7, []), ([0x56], Instr.brHigh, []),
    (([0x57] ++ small 2 ++ small 32 ++ small 8), Instr.brDecv 2 32 8, []), ([0x58], Instr.brEnd, []),
    ([0x59], Instr.gtBuild, []), (([0x5A] ++ small 5), Instr.gtLook 5, [])] = true := by decide

theorem test_decode_bw : readsBack [(([0x60] ++ small 0 ++ small 16), Instr.bwInit 0 16, []),
    (([0x61, 0x78, 0x56, 0x34, 0x12] ++ small 31), Instr.bwApp 0x12345678 31, []), ([0x62], Instr.bwFlush, []),
    (([0x63] ++ small 2 ++ small 91 ++ small 32), Instr.bwEncv 2 91 32, []), ([0x64], Instr.bwEnd, [])] = true := by decide

theorem test_decode_sp : readsBack [(([0x70] ++ small 3), Instr.spNeigh 3, []),
    (([0x71] ++ small 50 ++ small 90 ++ small 0), Instr.spPred 50 90 0, []),
    ([0x72, 0xEE, 0xFF, 0xFF, 0xFF], Instr.spMape (-18), []), (([0x73] ++ small 35), Instr.spUnmape 35, []),
    (([0x74] ++ small 1), Instr.spEncreg 1, []), (([0x75] ++ small 1), Instr.spDecreg 1, [])] = true := by decide

theorem test_decode_rn : readsBack [([0x80], Instr.rnIncidx, []), ([0x81], Instr.rnDecidx, []),
    (([0x82] ++ small 5 ++ small 1), Instr.rnEnclen 5 true, []),
    (([0x82] ++ small 5 ++ small 0), Instr.rnEnclen 5 false, []), (([0x83] ++ small 4), Instr.rnDeclen 4, []),
    (([0x84] ++ small 1 ++ [0xF6, 0xFF, 0xFF, 0xFF]), Instr.rnEncrierr 1 (-10), []),
    (([0x85] ++ small 0), Instr.rnDecrierr 0, []),
    (([0x86] ++ small 10 ++ small 20 ++ small 5), Instr.rnEncri 10 20 5, []),
    (([0x87] ++ small 20 ++ small 5), Instr.rnDecri 20 5, []), (([0x88] ++ small 2), Instr.rnEncrun 2, []),
    (([0x89] ++ small 2), Instr.rnDecrun 2, [])] = true := by decide

theorem test_decode_sc : readsBack [([0x90], Instr.scGuard, []), ([0x91], Instr.scLine, []), ([0x92], Instr.scLine3, []),
    ([0x93, 0x90], Instr.scScan, [0x90])] = true := by decide

/-- What is no operation (R92), and operands that name nothing. -/
theorem test_decode_rejects :
    decode [] = .error .empty ∧ decode [0x00] = .error (.reservedSelector 0x00) ∧
    decode [0x04] = .error (.reservedSelector 0x04) ∧ decode [0xFF, 0x51] = .error (.reservedSelector 0xFF) ∧
    decode [0x52, 1, 0, 0] = .error .truncated ∧ decode ([0x52] ++ small 32) = .error .illegalOperand ∧
    decode ([0x82] ++ small 5 ++ small 2) = .error .illegalOperand ∧
    decode [0x31, 0x6D, 0x01, 0, 0] = .error .illegalOperand := by decide

/-- The words of the table: the selector alone, then `BR.RDV 24`, `BW.APP 255:8` with their operand words. -/
theorem test_decode_table_word :
    decodeTableWord 8 0x54 = some .brRdb ∧ decodeTableWord 8 0x52 = some (.brRdv 0) ∧
    decodeTableWord 40 0x1852 = some (.brRdv 24) ∧ decodeTableWord 72 0x08000000FF61 = some (.bwApp 255 8) ∧
    decodeTableWord 8 0x00 = none ∧ decodeTableWord 8 0x10 = some (.trInit 0 0 0) := by decide

/-- The codewords of R94, R95, R98, R99, bit by bit (`k = 2`, limit 32, `qbpp = 8`, `J = 2`). -/
theorem test_codeword_bits :
    let c : CwContext := { k := 2, glimit := 32, qbpp := 8, j := 2 }
    cwBits c (.cwGolomb 3 2) = some [false, false, false, true, true, false] ∧
    cwBits c (.cwGolomb 23 0) = none ∧ cwBits c (.cwGolomb 0 4) = none ∧
    cwBits c (.cwEscape 0x5B) = some (List.replicate 23 false ++ [true, false, true, false, true, true, false, true, true]) ∧
    cwBits c .cwRunseg = some [true] ∧ cwBits c (.cwRunrem 3) = some [false, true, true] ∧ cwBits c (.cwRunrem 4) = none ∧
    cwBits c .cwRuneol = some [true] ∧ cwBits c (.cwPad 2) = some [false, false] ∧ cwBits c .cwStuff = some [false] := by
  decide

/-- A mapped value is told from an escape by its prefix (R96): 22 zeros, then 23. -/
theorem test_codeword_prefix :
    let c : CwContext := { k := 2, glimit := 32, qbpp := 8, j := 2 }
    decodeValueCw c (List.replicate 22 false ++ [true, true, false, true]) = some (.cwGolomb 22 2, [true]) ∧
    decodeValueCw c (List.replicate 23 false ++ true :: bitsOf 0x5B 8) = some (.cwEscape 0x5B, []) ∧
    decodeRunCw c 4 [true, false] = some (.cwRunseg, [false]) ∧ decodeRunCw c 3 [true, false] = some (.cwRuneol, [false]) ∧
    decodeRunCw c 3 [false, true, false, true] = some (.cwRunrem 2, [true]) := by decide

/-! ## Reset and stepping -/

theorem test_reset : sr0 State.reset = 0 ∧ State.reset.seq.fsm = .idle ∧ State.reset.bs = [] := by decide

theorem test_step_waits : step State.reset = .fault .noOperation := rfl

theorem test_step_issue : after (step (State.reset.withFetchWord 8 0x80)) (fun t => t.runindex = 1 && t.issue = []) = true := by
  decide +kernel

theorem test_step_host_port :
    refusedAs (step { State.reset with host := [0x80] }) .uopOnHostPort = true ∧
    refusedAs (step { State.reset with host := [0x02, 0, 0, 0, 0, 9, 0, 0, 0] }) .notConfigured = true := by decide +kernel

/-- A reset lands on an encode in progress, and on one whose command waits at the HOST port (R400). -/
theorem test_step_reset :
    after (step { encoder (block 4 4 8 1 0 .none) with resetIn := .now }) (fun t => sr0 t = 0 && t.seq.fsm = .idle &&
      !t.configured && t.tr = resetTraits) = true ∧
    after (step { ready (block 1 1 8 1 0 .none) with resetIn := .midScan, host := [0x02, 0, 0, 0, 0, 2, 0, 0, 0, 0x01] }) (fun t =>
      sr0 t = 0 && t.host = [0x01] && t.free = 1 && t.resetIn = .off) = true := by decide +kernel

/-! ## Unit TR (`95_test_vectors.md` 2.1) -/

theorem test_tr_init : [(255, 3, 38, 6, 8, 32), (65535, 32767, 2, 1, 16, 64), (256, 0, 257, 9, 8, 32), (3, 0, 4, 2, 2, 20),
    (100, 0, 101, 7, 7, 30), (4, 1, 3, 2, 2, 20)].all (fun r => after (exec (.trInit r.1 r.2.1 64) State.reset) fun t =>
      (t.tr.range, t.tr.qbpp, t.tr.bpp, t.tr.limit) = r.2.2) = true := by decide +kernel

theorem test_tr_init_refused : [(2, 0, 64), (255, 128, 64), (255, 0, 2), (255, 0, 256), (65536, 0, 64)].all (fun r =>
    refusedAs (exec (.trInit r.1 r.2.1 r.2.2) State.reset) .illegalParameters) = true := by decide +kernel

theorem test_tr_qerr : [(3, 0), (4, 1), (-4, -1), (10, 1), (11, 2), (130, 19), (-130, -19), (255, 36)].all (fun r =>
    after (exec (.trQerr r.1) (traitsState 255 3)) fun t => t.result = [r.2]) = true := by decide +kernel

theorem test_tr_modr : [(19, -19), (-19, -19), (18, 18), (36, -2), (-36, 2)].all (fun r =>
    after (exec (.trModr r.1) (traitsState 255 3)) fun t => t.result = [r.2]) = true := by decide +kernel

theorem test_tr_errval : [(255, 0, 128, -128), (255, 0, -129, 127), (255, 0, 200, -56), (255, 5, 138, -12), (255, 5, -138, 12),
    (3, 1, 2, -1), (65535, 0, 65535, -1)].all (fun r => after (exec (.trErrval r.2.2.1) (traitsState r.1 r.2.1))
      fun t => t.w.err = r.2.2.2) = true := by decide +kernel

theorem test_tr_corrp : [(-128, 0), (-1, 0), (0, 0), (255, 255), (256, 255), (382, 255)].all (fun r =>
    after (exec (.trCorrp r.1) (traitsState 255 0)) fun t => t.w.px = r.2) = true ∧
    [-129, 383].all (fun p => refusedAs (exec (.trCorrp p) (traitsState 255 0)) .operandRange) = true := by decide +kernel

theorem test_tr_recon : [(250, 2, 0), (100, -5, 65), (0, -18, 140), (3, -1, 255), (252, 1, 0), (255, -19, 122)].all (fun r =>
    after (exec (.trRecon r.1 r.2.1) (traitsState 255 3)) fun t => t.w.rx = r.2.2) = true := by decide +kernel

theorem test_tr_recon_malformed : [(10, 65535, 255), (10, -65535, 0), (200, 300, 244), (250, 10, 4)].all (fun r =>
    after (exec (.trRecon r.1 r.2.1) (traitsState 255 0)) fun t => t.w.rx = r.2.2) = true := by decide +kernel

theorem test_tr_isnear : [(100, 103, 1), (103, 100, 1), (100, 104, 0)].all (fun r =>
    after (exec (.trIsnear r.1 r.2.1) (traitsState 255 3)) fun t => t.result = [r.2.2]) = true := by decide +kernel

/-! ## Unit QT (2.1, 2.2) -/

theorem test_qt_deft : [(255, 3, [12, 22, 42]), (255, 127, [128, 128, 128]), (3, 0, [2, 3, 3]), (65535, 5, [33, 92, 311])].all
    (fun r => after (exec (.qtDeft r.1 r.2.1) State.reset) fun t => t.result = r.2.2) = true := by decide +kernel

/-- A state with thresholds (12, 22, 42) and `near` 3. -/
def near3 : State := setTraits State.reset { (initTraits resetTraits 255 3 64) with t1 := 12, t2 := 22, t3 := 42 }

theorem test_qt_quant : [(-42, -4), (-41, -3), (-22, -3), (-21, -2), (-12, -2), (-11, -1), (-4, -1), (-3, 0), (3, 0), (4, 1),
    (11, 1), (12, 2), (21, 2), (22, 3), (41, 3), (42, 4)].all (fun r =>
      after (exec (.qtQuant r.1) near3) fun t => t.result = [r.2]) = true ∧
    [255, -255].all (fun d => after (exec (.qtQuant d) near3) fun t => t.result = [if 0 < d then 4 else -4]) = true ∧
    [256, -256].all (fun d => refusedAs (exec (.qtQuant d) near3) .operandRange) = true := by decide +kernel

theorem test_qt_build : after (exec (.qtBuild 8 0 3 7 21) State.reset) (fun t => [(-256, some (-4)), (-257, none), (2, some 1),
    (3, some 2), (255, some 4), (256, none)].all fun r => qtRead t.qt r.1 = r.2) = true := by decide +kernel

theorem test_qt_ctxid : [(0, 4, -4, 32), (4, -1, 0, 315), (-3, 4, -4, -211), (-4, -4, -4, -364), (-1, 4, 4, -41)].all (fun r =>
    after (exec (.qtCtxid r.1 r.2.1 r.2.2.1) State.reset) fun t => t.w.qs = r.2.2.2) = true := by decide +kernel

/-! ## Unit RC (2.3) -/

/-- A state whose context 4 holds `(a, b, c, n)`. -/
def withCtx (s : State) (a : Nat) (b c : Int) (n : Nat) : State := setCtx s 4 { a := a, b := b, c := c, n := n }

theorem test_rc_init : after (exec (.rcInit 65536) State.reset) (fun t => ctxAt t 364 = { a := 1024, b := 0, c := 0, n := 1 }) =
    true := by decide +kernel

theorem test_rc_getk : [(64, 2, 5), (65, 2, 6), (128, 64, 1), (129, 64, 2), (4, 4, 0), (5, 4, 1), (8354848, 1, 23)].all (fun r =>
    after (exec (.rcGetk 4) (withCtx State.reset r.1 0 0 r.2.1)) fun t => t.w.k = r.2.2) = true := by decide +kernel

theorem test_rc_corr : [(-2, 4, 0, -1), (-1, 4, 0, 0), (-2, 4, 3, 0)].all (fun r =>
    after (exec (.rcCorr 4 r.2.2.1) (withCtx State.reset 3 r.1 0 r.2.1)) fun t => t.result = [r.2.2.2]) = true := by
  decide +kernel

theorem test_rc_upd : [((20, 0, 1, 2), -18, (38, -2, 0, 3)), ((38, -2, 0, 4), 3, (41, -4, 1, 5)),
    ((43, -6, 1, 7), -7, (50, -5, 0, 8)), ((1700, 0, 127, 35), 50, (1750, 0, 127, 36)),
    ((1900, -38, -128, 39), -50, (1950, -39, -128, 40))].all (fun r =>
      after (exec (.rcUpd 4 r.2.1) (withCtx (traitsState 255 0) r.1.1 r.1.2.1 r.1.2.2.1 r.1.2.2.2)) fun t =>
        let c := ctxAt t 4
        (c.a, c.b, c.c, c.n) = r.2.2) = true := by decide +kernel

theorem test_rc_upd_halves : [((5, -3, 1, 4), -2, (3, 0, 0, 3)), ((4, -1, 0, 4), 0, (2, -1, 0, 3)),
    ((3, -2, 0, 4), -1, (2, -2, 0, 3))].all (fun r =>
      after (exec (.rcUpd 4 r.2.1) (withCtx (setTraits State.reset (initTraits resetTraits 255 0 4)) r.1.1 r.1.2.1 r.1.2.2.1
        r.1.2.2.2)) fun t =>
        let c := ctxAt t 4
        (c.a, c.b, c.c, c.n) = r.2.2) = true := by decide +kernel

/-! ## Unit RM (2.4) -/

/-- A state whose run context `t` holds `(a, n, nn)`. -/
def withRctx (s : State) (t a n nn : Nat) : State := setRctx s t { a := a, n := n, nn := nn }

theorem test_rm_init : after (exec (.rmInit 256) State.reset) (fun t => rctxAt t 1 = { a := 4, n := 1, nn := 0 }) = true := by
  decide +kernel

theorem test_rm_getk : [(1, 93, 2, 6), (1, 162, 6, 5), (0, 13, 6, 2), (0, 13, 7, 1)].all (fun r =>
    after (exec (.rmGetk r.1) (withRctx State.reset r.1 r.2.1 r.2.2.1 0)) fun t => t.w.k = r.2.2.2) = true := by decide +kernel

theorem test_rm_map : [(3, 0, 1, 1), (3, 0, -1, 0), (3, 2, 1, 0), (3, 2, -1, 1)].all (fun r =>
    after (exec (.rmMap 0 r.2.2.1 0) (withRctx State.reset 0 1 r.1 r.2.1)) fun t => t.result = [r.2.2.2]) = true := by
  decide +kernel

theorem test_rm_errval : [(1, 4, 1, 0, 180, 2, 90), (1, 160, 3, 0, 5, 6, -3), (0, 4, 1, 0, 1, 2, -1), (0, 6, 4, 1, 5, 1, -3)].all
    (fun r => after (exec (.rmErrval r.1 r.2.2.2.2.1 r.2.2.2.2.2.1)
      (withRctx State.reset r.1 r.2.1 r.2.2.1 r.2.2.2.1)) fun t => t.result = [r.2.2.2.2.2.2]) = true := by decide +kernel

theorem test_rm_upd : [(1, 4, 1, 0, 90, 179, (93, 2, 0)), (1, 160, 3, 0, -3, 4, (162, 4, 1)), (0, 100, 64, 10, -5, 9, (52, 33, 5)),
    (1, 100, 64, 63, -5, 8, (52, 33, 32))].all (fun r => after (exec (.rmUpd r.1 r.2.2.2.2.1 r.2.2.2.2.2.1)
      (withRctx (traitsState 255 0) r.1 r.2.1 r.2.2.1 r.2.2.2.1)) fun t =>
        let c := rctxAt t r.1
        (c.a, c.n, c.nn) = r.2.2.2.2.2.2) = true := by decide +kernel

/-! ## Units BR and GT (2.6) -/

/-- `12 FF 7F FF 80`: 23 bits before the marker. -/
def br0 : State := reading [0x12, 0xFF, 0x7F, 0xFF, 0x80]

theorem test_br_init : after (exec (.brInit 0 5) { State.reset with bs := bytes [0x12, 0xFF, 0x7F, 0xFF, 0x80] }) (fun t =>
    remaining t = bitsOf 0x12 8 ++ bitsOf 0xFF 8 ++ bitsOf 0x7F 7 && t.rd.rnextff = 1) = true := by decide +kernel

theorem test_br_fill : after (exec .brFill br0) (fun t => t.rd.rvalid = 23 && t.rd.rpos = 3 && t.rd.rp = 0) = true := by
  decide +kernel

theorem test_br_rdv : after (exec (.brRdv 16) br0) (fun t => t.result = [0x12FF] && avail t = 7) = true := by decide +kernel

theorem test_br_rdv_end : after (exec (.brRdv 24) br0) (fun t => t.err = .invalidCompressedData && sr0 t = 0x21) = true := by
  decide +kernel

theorem test_br_peek : after (exec .brPeek (setReader br0 { br0.rd with rp := 16, rpos := 2 })) (fun t => t.result = [0xFE] &&
    t.rd.rp = 16) = true := by decide +kernel

theorem test_br_rdb : after (exec .brRdb (reading [0x80, 0xFF])) (fun t => t.result = [1] && t.rd.rp = 1) = true := by
  decide +kernel

theorem test_br_skip : after (exec (.brSkip 4) br0) (fun t => avail t = 19) = true := by decide +kernel

theorem test_br_high : after (exec .brHigh (reading [0x10, 0xFF])) (fun t => t.result = [3] && t.rd.rp = 4) = true ∧
    after (exec .brHigh (reading [0x00, 0x00, 0xFF])) (fun t => t.err = .invalidCompressedData) = true := by decide +kernel

/-- `0{8} 1 00` is 32 with `k = 2`; `0{23} 1 01011011` is the escape of 92 (2.5). -/
theorem test_br_decv : after (exec (.brDecv 2 32 8) (reading [0x00, 0x80, 0xFF])) (fun t => t.w.merr = 32 && t.rd.rp = 11) = true ∧
    after (exec (.brDecv 2 32 8) (reading [0, 0, 0x01, 0x5B, 0xFF])) (fun t => t.w.merr = 92) = true := by decide +kernel

theorem test_br_end : after (exec .brEnd (reading [0x00, 0xFF])) (fun t => t.bytePos = 1 && t.err = .none) = true ∧
    after (exec .brEnd (reading [0x01, 0xFF])) (fun t => t.err = .tooMuchCompressedData) = true ∧
    after (exec .brEnd (reading [0xFF, 0x7F])) (fun t => t.err = .invalidCompressedData) = true ∧
    after (exec .brEnd { reading [0x00, 0xFF] with build := { State.reset.build with eosMax := some 7 } }) (fun t =>
      t.err = .tooMuchCompressedData) = true := by decide +kernel

theorem test_gt_build : exec .gtBuild State.reset = .next State.reset := rfl

theorem test_gt_look : [(0, 0x80, 0, 1), (0, 0x5A, -1, 2), (0, 0x01, -4, 8), (2, 0x98, 0, 3), (2, 0x30, 5, 5), (7, 0xC1, -33, 8)].all
    (fun r => after (exec (.gtLook r.1) (reading [r.2.1, 0xFF])) fun t => t.result = [1, r.2.2.1] && t.rd.rp = r.2.2.2) = true ∧
    [(0, 0x00), (2, 0x02), (8, 0x80)].all (fun r => after (exec (.gtLook r.1) (reading [r.2, 0xFF])) fun t =>
      t.result = [0, 0] && t.rd.rp = 0) = true := by decide +kernel

/-! ## Unit BW (2.5) -/

theorem test_bw_init : after (exec (.bwInit 3 16) State.reset) (fun t => t.wr.wpos = 3 && t.wr.wcap = 16 && t.wr.written = 0) =
    true := by decide +kernel

/-- 32 ones in two groups: `FF 7F FF 7F` and two bits pending. -/
theorem test_bw_app : after (exec (.bwApp 0x3FFFFFFF 30) (setWriter State.reset { (initWriter 0 16) with wacc := [true, true] }))
    (fun t => firstBytes t.bs 4 = [0xFF, 0x7F, 0xFF, 0x7F] && t.wr.wacc = [true, true] && t.wr.written = 4) = true := by
  decide +kernel

theorem test_bw_app_full : after (exec (.bwApp 0xFF 8) (writing 0)) (fun t => t.err = .compressedBufferTooSmall) = true ∧
    refusedAs (exec (.bwApp 4 2) (writing 9)) .valueTooWide = true := by decide +kernel

theorem test_bw_flush : after (exec .bwFlush (setWriter State.reset { (initWriter 0 9) with wbuf := 0x12340000, wfree := 16 }))
    (fun t => t.wr.wfree = 32 && t.wr.drainpos = 2 && t.bs = []) = true := by decide +kernel

/-- `0{22} 1 11` and `0{23} 1 01011011`. -/
theorem test_bw_encv : let s := setTraits (writing 64) (initTraits resetTraits 255 0 64)
    after (exec (.bwEncv 2 91 32) s) (fun t => firstBytes t.bs 3 = [0, 0, 3] && t.wr.wacc = [true]) = true ∧
    after (exec (.bwEncv 2 92 32) s) (fun t => firstBytes t.bs 4 = [0, 0, 1, 0x5B] && t.wr.wacc = []) = true := by decide +kernel

theorem test_bw_end : after (exec .bwEnd (setWriter State.reset { (initWriter 0 9) with wacc := [true] })) (fun t =>
      firstBytes t.bs 1 = [0x80] && t.sr1 = 1) = true ∧
    after (exec .bwEnd (setWriter State.reset { (initWriter 0 9) with wff := true })) (fun t => t.wr.wpos = 1 && t.sr1 = 1) =
      true := by decide +kernel

/-! ## Unit SP (2.7) -/

/-- An encode of lines of four 8-bit samples, line 1, with row 1 of program P2 above and row 2 loaded. -/
def line1 : State :=
  writeLine [[64], [145], [145], [145]] 0 { (writeLine [[68], [50], [43], [205]] 0 (encoder (block 4 4 8 1 0 .none))) with
    seq := { fsm := .scanning, y := 1, c := 0, i := 0 } }

theorem test_sp_neigh : after (exec (.spNeigh 1) line1) (fun t => (t.w.ra, t.w.rb, t.w.rc, t.w.rd, t.w.x) =
    (64, 50, 68, 43, 145)) = true := by decide +kernel

theorem test_sp_pred : [(90, 0, 0, 90), (50, 90, 0, 90), (43, 74, 90, 43), (100, 120, 110, 110), (120, 100, 130, 100),
    (0, 65535, 0, 65535)].all (fun r => after (exec (.spPred r.1 r.2.1 r.2.2.1) State.reset) fun t => t.w.pred = r.2.2.2) =
      true := by decide +kernel

theorem test_sp_mape : [(0, 0), (-1, 1), (1, 2), (-2, 3), (16, 32), (-18, 35), (-128, 255), (-32768, 65535)].all (fun r =>
    after (exec (.spMape r.1) State.reset) fun t => t.w.merr = r.2) = true := by decide +kernel

theorem test_sp_unmape : [(0, 0), (1, -1), (2, 1), (35, -18), (131070, 65535), (131071, -65536)].all (fun r =>
    after (exec (.spUnmape r.1) State.reset) fun t => t.result = [r.2]) = true := by decide +kernel

/-- The registers of a sample: neighbours, the input and the context id. -/
def sample (s : State) (ra rb rc x qs : Int) : State :=
  setWork s { s.w with ra := ra, rb := rb, rc := rc, x := x, qs := qs }

/-- Row 1: `000000001 00`; and the mask of row 4: the codeword `1`. -/
theorem test_sp_encreg :
    after (exec (.spEncreg 3) (sample (encoder (block 4 4 8 1 0 .none)) 90 0 0 74 (-4))) (fun t =>
      firstBytes t.bs 1 = [0] && t.wr.wacc = [true, false, false] && (t.w.k, t.w.px, t.w.err, t.w.merr) = (2, 90, 16, 32) &&
        ctxAt t 4 = { a := 20, b := 0, c := 1, n := 2 } && curRead t 0 3 = 74) = true ∧
    after (exec (.spEncreg 3) (sample (setCtx (encoder (block 4 4 8 1 0 .none)) 9 { a := 3, b := -2, c := 0, n := 4 })
      100 101 100 100 9)) (fun t => t.wr.wacc = [true] && t.w.merr = 0 && ctxAt t 9 = { a := 4, b := -3, c := 0, n := 5 }) =
        true := by decide +kernel

/-- Row 1 read back; and the decoder-only corner: a magnitude above 65535. -/
theorem test_sp_decreg :
    after (exec (.spDecreg 3) (sample (decoder (block 4 4 8 1 0 .none) [0x00, 0x80, 0xFF]) 90 0 0 0 (-4))) (fun t =>
      (t.w.px, t.w.err, t.rd.rp) = (90, 16, 11) && ctxAt t 4 = { a := 20, b := 0, c := 1, n := 2 } && curRead t 0 3 = 74) =
        true ∧
    after (exec (.spDecreg 0) (sample (setCtx (decoder (block 2 2 16 1 0 .none) [0, 0, 0, 0, 0, 3, 0xFF, 0x70, 0xFF]) 9
      { a := 4096, b := 0, c := 0, n := 1 }) 0 0 0 0 9)) (fun t => t.err = .invalidCompressedData) = true := by decide +kernel

/-! ## Unit RN (2.8) -/

theorem test_rn_incidx : [(0, 1), (30, 31), (31, 31)].all (fun r =>
    after (exec .rnIncidx { State.reset with runindex := r.1 }) fun t => t.runindex = r.2) = true := by decide +kernel

theorem test_rn_decidx : [(5, 4), (1, 0), (0, 0)].all (fun r =>
    after (exec .rnDecidx { State.reset with runindex := r.1 }) fun t => t.runindex = r.2) = true := by decide +kernel

/-- A line of `n` elements is about to be coded from its start. -/
def lineOf (n : Nat) (s : State) : State := { s with pr := block n 1 8 1 0 .none }

theorem test_rn_enclen : [(6, 0, 5, false, [true, true, true, true, false, true], 4),
    (5, 0, 5, true, [true, true, true, true, true], 4), (1, 4, 1, true, [true], 4),
    (8, 8, 7, false, [true, false, true, true], 9)].all
    (fun r => after (exec (.rnEnclen r.2.2.1 r.2.2.2.1) { lineOf r.1 (writing 64) with runindex := r.2.1 }) fun t =>
      t.wr.wacc = r.2.2.2.2.1 && t.runindex = r.2.2.2.2.2) = true ∧
    [(5, true), (5, false), (3, true)].all (fun r => refusedAs (exec (.rnEnclen r.1 r.2) (lineOf 4 (writing 64))) .operandRange) =
      true := by decide +kernel

/-- `1111 01`, then the malformed `0 011` from run index 12. -/
theorem test_rn_declen : after (exec (.rnDeclen 10) (lineOf 10 (reading [0xF4, 0xFF]))) (fun t => t.w.runlen = 5 && t.runindex = 4 &&
      t.rd.rp = 6) = true ∧
    after (exec (.rnDeclen 2) { lineOf 2 (reading [0x30, 0xFF]) with runindex := 12 }) (fun t => t.err = .invalidCompressedData) = true := by
  decide +kernel

/-- An encode and a decode of 8-bit samples, lossless, with run context `t` at `(a, n, nn)` and the run index `r`. -/
def runEncoder (t a n nn r : Nat) : State := { withRctx (encoder (block 4 4 8 1 0 .none)) t a n nn with runindex := r }

/-- The decode. -/
def runDecoder (t a n nn r : Nat) (l : List Nat) : State :=
  { withRctx (decoder (block 4 4 8 1 0 .none) l) t a n nn with runindex := r }

/-- Row 2: `001 000111`. -/
theorem test_rn_encrierr : after (exec (.rnEncrierr 1 68) (runEncoder 1 93 2 0 1)) (fun t => firstBytes t.bs 1 = [0x23] &&
    t.wr.wacc = [true] && t.w.k = 6 && rctxAt t 1 = { a := 160, n := 3, nn := 0 }) = true := by decide +kernel

theorem test_rn_decrierr : after (exec (.rnDecrierr 1) (runDecoder 1 93 2 0 1 [0x23, 0x80, 0xFF])) (fun t => t.w.err = 68 &&
    t.rd.rp = 9 && rctxAt t 1 = { a := 160, n := 3, nn := 0 }) = true := by decide +kernel

/-- Row 3: `001 01`, entry 0 with the sign `-1`; and the limit at run index 31: `0{7} 1 10110010`. -/
theorem test_rn_encri :
    after (exec (.rnEncri 10 20 5) (runEncoder 0 4 1 0 0)) (fun t => t.wr.wacc = [false, false, true, false, true] &&
      t.w.rx = 10 && rctxAt t 0 = { a := 9, n := 2, nn := 1 }) = true ∧
    after (exec (.rnEncri 90 0 0) (runEncoder 1 4 1 0 31)) (fun t => firstBytes t.bs 2 = [0x01, 0xB2] && t.w.rx = 90) = true ∧
    refusedAs (exec (.rnEncri 300 0 0) (runEncoder 1 4 1 0 0)) .operandRange = true := by
  decide +kernel

theorem test_rn_decri : after (exec (.rnDecri 20 5) (runDecoder 0 4 1 0 0 [0x28, 0xFF])) (fun t => t.w.rx = 10 && t.rd.rp = 5 &&
    rctxAt t 0 = { a := 9, n := 2, nn := 1 }) = true := by decide +kernel

/-- Program P2, codewords 1 and 2: the run `0 0`, then 90. -/
theorem test_rn_encrun : after (exec (.rnEncrun 0) (writeLine [[0], [0], [90], [74]] 0 (encoder (block 4 4 8 1 0 .none)))) (fun t =>
    t.result = [3] && firstBytes t.bs 4 = [0xC0, 0x00, 0x00, 0x6C] && t.wr.wacc = [true, false] && t.runindex = 1 &&
      rctxAt t 1 = { a := 93, n := 2, nn := 0 }) = true := by decide +kernel

theorem test_rn_decrun : after (exec (.rnDecrun 0) (decoder (block 4 4 8 1 0 .none) [0xC0, 0x00, 0x00, 0x6C, 0x80, 0xFF])) (fun t =>
    t.result = [3] && t.rd.rp = 34 && curRead t 0 2 = 90 && t.runindex = 1) = true := by decide +kernel

/-! ## Unit SC and the host commands (2.9, part 3) -/

theorem test_sc_guard : after (exec .scGuard line1) (fun t => prevRead t 0 4 = 205 && curRead t 0 (-1) = 68) = true := by
  decide +kernel

/-- Program P2, line 0: 45 bits `C0 00 00 6C 80`, five pending. -/
theorem test_sc_line : after (exec .scLine (writeLine [[0], [0], [90], [74]] 0 (encoder (block 4 4 8 1 0 .none)))) (fun t =>
    firstBytes t.bs 5 = [0xC0, 0x00, 0x00, 0x6C, 0x80] && t.wr.wacc = [false, false, true, false, false] && t.seq.i = 4) = true := by
  decide +kernel

/-- Program P7, line 0. -/
theorem test_sc_line3 : after (exec .scLine3 (writeLine [[10, 20, 30], [10, 20, 30], [12, 20, 30]] 0
    (encoder (block 3 2 8 3 0 .sample)))) (fun t => firstBytes t.bs 5 = [0x02, 0x02, 0x07, 0x25, 0x1D]) = true := by
  decide +kernel

/-- S3, before its two bytes are complete. -/
theorem test_sc_scan : after (exec .scScan (holding (encoder (block 1 3 8 1 0 .none)) [[7], [7], [9]])) (fun t =>
    firstBytes t.bs 1 = [0x0B] && t.wr.wacc.length = 7 && t.seq.y = 2) = true := by decide +kernel

theorem test_configure : after (exec (.configure 4 4 8 1 0 0 0 0 0 0 0 0 0 4 4) State.reset) (fun t => t.configured &&
      t.pr = block 4 4 8 1 0 .none) = true ∧
    [Instr.configure 0 4 8 1 0 0 0 0 0 0 0 0 0 4 4, .configure 4 4 1 1 0 0 0 0 0 0 0 0 0 4 4, .configure 4 4 8 2 0 2 0 0 0 0 0 0 0 4 4,
      .configure 4 4 8 1 128 0 0 0 0 0 0 0 0 4 4, .configure 4 4 8 1 0 0 0 9 5 0 0 0 0 4 4, .configure 4 4 8 1 0 0 0 0 0 0 0 1 0 4 4,
      .configure 4 4 3 1 0 0 4 0 0 0 0 0 0 4 4, .configure 4 4 8 1 0 3 0 0 0 0 0 0 0 4 4].all (fun i =>
        refusedAs (exec i State.reset) .illegalParameters) = true ∧
    [(4, 4, 1), (3, 4, 1), (4, 3, 1), (4, 4, 0)].map (fun r => after (exec (.configure 4 4 8 1 0 0 0 0 0 0 0 0 0 4 4)
      { State.reset with build := { maxDim := min r.1 r.2.1, maxComp := r.2.2, eosMax := none } }) fun t => t.configured) =
        [true, false, false, false] ∧
    after (exec (.configure 70000 1 8 300 0 0 0 0 0 0 0 0 0 70000 1)
      { State.reset with build := { maxDim := 100000, maxComp := 300, eosMax := none } }) (fun t => t.pr.width = 70000) = true := by
  decide +kernel

/-- S11: a stream that ends in `FF`; and program P5, with a stuffed byte inside. -/
theorem test_encode_scan :
    after (exec (.encodeScan 0 64) (holding (ready (block 4 2 8 1 0 .none)) [[0, 1, 255, 0], [1, 255, 1, 2]])) (fun t =>
      firstBytes t.bs 4 = [0xAA, 0x5D, 0xFF, 0x00] && t.sr1 = 4 && sr0 t = 0x20) = true ∧
    after (exec (.encodeScan 0 32) (holding (ready (block 2 2 16 1 0 .none)) [[0, 65535], [32768, 1]])) (fun t =>
      firstBytes t.bs 12 = [0xA0, 0, 0, 0, 0, 0, 0, 0x0F, 0xFF, 0x7A, 0x02, 0x00] && t.sr1 = 12) = true := by decide +kernel

/-- The 30 bytes of program P2. -/
def p2Stream : List Nat := [0xC0, 0x00, 0x00, 0x6C, 0x80, 0x20, 0x8E, 0x01, 0xC0, 0x00, 0x00, 0x57, 0x40, 0x00, 0x00] ++
  [0x6E, 0xE6, 0x00, 0x00, 0x01, 0xBC, 0x18, 0x00, 0x00, 0x05, 0xD8, 0x00, 0x00, 0x91, 0x60]

theorem test_p2_encode : after (exec (.encodeScan 0 64) (holding (ready (block 4 4 8 1 0 .none)) [[0, 0, 90, 74], [68, 50, 43, 205],
    [64, 145, 145, 145], [100, 145, 145, 145]])) (fun t => firstBytes t.bs 30 = p2Stream && t.sr1 = 30 && sr0 t = 0x20) = true := by
  decide +kernel

/-- S8, and S2 with its last pad bit set, which is too much data. -/
theorem test_decode_scan :
    after (exec (.decodeScan 0 4) { ready (block 3 2 2 1 0 .none) with bs := bytes [0xA6, 0xD2, 0xFF, 0xD9] }) (fun t =>
      t.lineDst.map (fun l => l.px.flatten) = [[0, 3, 1], [2, 2, 0]] && t.bytePos = 2 && sr0 t = 0x60) = true ∧
    after (exec (.decodeScan 0 3) { ready (block 1 1 8 1 0 .none) with bs := bytes [0x15, 0xFF, 0xD9] }) (fun t =>
      sr0 t = 0x62) = true := by decide +kernel

/-- Program P6: two components, line interleaved, sharing the contexts. -/
theorem test_p6_encode : after (exec (.encodeScan 0 32) { ready (block 3 2 8 2 0 .line) with lineSrc :=
    [⟨0, 0, [[10], [10], [12]]⟩, ⟨1, 0, [[200], [200], [200]]⟩, ⟨0, 1, [[10], [11], [12]]⟩, ⟨1, 1, [[200], [190], [200]]⟩] })
    (fun t => firstBytes t.bs 9 = [0x07, 0x8C, 0x00, 0x0E, 0x94, 0xD2, 0x32, 0x00, 0x20] && t.sr1 = 9) = true := by decide +kernel

/-- S9: near-lossless, decoded within 1 of the image. -/
theorem test_s9_decode : after (exec (.decodeScan 0 4) { ready (block 3 2 2 1 1 .none) with bs := bytes [0xAF, 0xA0, 0xFF, 0xD9] })
    (fun t => t.lineDst.map (fun l => l.px.flatten) = [[0, 3, 0], [3, 3, 0]]) = true := by decide +kernel

/-! ## The codewords, executed (R94 to R99; log entry 15) -/

theorem test_cw_golomb : after (exec (.cwGolomb 3 2) (setK (encoder (block 4 4 8 1 0 .none)) 2)) (fun t =>
      t.wr.wacc = [false, false, false, true, true, false]) = true ∧
    after (exec (.cwGolomb 3 2) (setK (decoder (block 4 4 8 1 0 .none) [0x18, 0xFF]) 2)) (fun t => t.w.merr = 14 && t.rd.rp = 6) =
      true := by decide +kernel

theorem test_cw_escape : after (exec (.cwEscape 0x5B) (encoder (block 4 4 8 1 0 .none))) (fun t =>
      firstBytes t.bs 4 = [0, 0, 1, 0x5B]) = true ∧
    after (exec (.cwEscape 0x5B) (decoder (block 4 4 8 1 0 .none) [0, 0, 1, 0x5B, 0xFF])) (fun t => t.w.merr = 92) = true := by
  decide +kernel

theorem test_cw_run : after (exec .cwRunseg (encoder (block 4 4 8 1 0 .none))) (fun t => t.runindex = 1 && t.wr.wacc = [true]) =
      true ∧
    after (exec (.cwRunrem 3) { encoder (block 4 4 8 1 0 .none) with runindex := 8 }) (fun t => t.wr.wacc = [false, true, true]) =
      true ∧
    after (exec .cwRuneol { encoder (block 4 4 8 1 0 .none) with runindex := 12 }) (fun t => t.wr.wacc = [true] &&
      t.runindex = 12) = true := by decide +kernel

theorem test_cw_run_decode : after (exec .cwRunseg (decoder (block 4 4 8 1 0 .none) [0x80, 0xFF])) (fun t => t.runindex = 1 &&
      t.w.runlen = 1) = true ∧
    after (exec (.cwRunrem 3) { decoder (block 4 4 8 1 0 .none) [0x60, 0xFF] with runindex := 8 }) (fun t => t.w.runlen = 3) =
      true ∧
    after (exec .cwRuneol { decoder (block 4 4 8 1 0 .none) [0x80, 0xFF] with runindex := 12 }) (fun t => t.w.runlen = 4) = true := by
  decide +kernel

theorem test_cw_pad_stuff : after (exec (.cwPad 7) (setWriter State.reset { (initWriter 0 9) with wacc := [true] })) (fun t =>
      firstBytes t.bs 1 = [0x80] && t.wr.wacc = []) = true ∧
    after (exec .cwStuff (setWriter State.reset { (initWriter 0 9) with wff := true })) (fun t => t.wr.wacc = []) = true ∧
    refusedAs (exec .cwStuff (writing 9)) .codewordMismatch = true := by decide +kernel

/-! ## Witnesses: states and operands that meet the hypotheses of each statement, at the ends of their ranges -/

/-- The next state behind `after`. -/
theorem after_next {o : Host.Outcome State Fault Refusal} {f : State → Bool} (h : after o f = true) :
    ∃ t, o = .next t ∧ f t = true := by
  cases o with
  | next t => exact ⟨t, rfl, h⟩
  | fault _ => exact absurd h (by simp [after])
  | refused _ => exact absurd h (by simp [after])

/-- Four lines of four 8-bit samples. -/
def p8 : Params := block 4 4 8 1 0 .none

theorem legal_p8 : legalParams State.reset.build p8 = true := by decide

theorem inv_encoder {p : Params} (h : legalParams State.reset.build p = true) : ScanInv (encoder p) := scanSetup_inv (s := ready p) h false 0 64

theorem good_p8 : GoodTraits (encoder p8).tr := (inv_encoder legal_p8).traits

theorem witness_StepRunsDecodedOperation :
    (State.reset.withFetchWord 8 0x80).issue = [0x80] ∧ (State.reset.withFetchWord 8 0x80).resetIn = .off ∧ decode [0x80] = .ok (.rnIncidx, []) ∧
    State.reset.issue = [] ∧ decode [0x02, 0, 0, 0, 0, 9, 0, 0, 0] = .ok (.encodeScan 0 9, []) ∧
    decode [0x00] = .error (.reservedSelector 0) ∧ State.reset.host = [] ∧
    decode (fetchBytes 40 0x1F52) = .ok (.brRdv 31, []) := by decide +kernel

theorem witness_DecodeInvertsEncode : [Instr.trQerr (-(2 ^ 31)), .trQerr (2 ^ 31 - 1), .encodeScan 0 (2 ^ 32 - 1), .rcGetk 364,
    .rnEnclen 0 true, .scScan].all (fun i => isOperation i && wellFormed i) = true := by decide

theorem witness_ReservedSelectorsAreRefused : [0x00, 0x04, 0x0F, 0x17, 0x5B, 0x94, 0xFF].all (fun op : Byte =>
    op.toNat ∉ [0x01, 0x02, 0x03, 0x10, 0x11, 0x12, 0x13, 0x14, 0x15, 0x16, 0x20, 0x21, 0x22, 0x23, 0x30, 0x31,
      0x32, 0x33, 0x40, 0x41, 0x42, 0x43, 0x44, 0x50, 0x51, 0x52, 0x53, 0x54, 0x55, 0x56, 0x57, 0x58, 0x59, 0x5A, 0x60,
      0x61, 0x62, 0x63, 0x64, 0x70, 0x71, 0x72, 0x73, 0x74, 0x75, 0x80, 0x81, 0x82, 0x83, 0x84, 0x85, 0x86, 0x87, 0x88,
      0x89, 0x90, 0x91, 0x92, 0x93]) = true ∧ (State.reset.withFetchWord 8 0x04).issue = 0x04 :: [] ∧
    ({ State.reset with host := [0x04] }.resetIn = .off ∧ { State.reset with host := [0x04] }.issue = []) := by decide

theorem witness_CodewordsAreReadBack :
    let c : CwContext := { k := 2, glimit := 32, qbpp := 8, j := 2 }
    cwBits c (.cwGolomb 22 3) = some (List.replicate 22 false ++ [true, true, true]) ∧
    cwBits c (.cwEscape 255) = some (List.replicate 23 false ++ List.replicate 9 true) ∧
    (cwBits c .cwRunseg = some [true] ∧ 2 ^ c.j ≤ 4) ∧ (cwBits c .cwRuneol = some [true] ∧ 3 < 2 ^ c.j) ∧
    cwBits c (.cwRunrem 3) = some [false, true, true] := by decide

/-- A reset between scans, and one that lands in an encode, which may have written position 1. -/
theorem witness_ResetLeavesIdle :
    let d : State := { ready p8 with resetIn := .midScan, host := [0x02, 0, 0, 0, 0, 2, 0, 0, 0] }
    { encoder p8 with resetIn := .now }.resetIn ≠ .off ∧ d.resetIn ≠ .off ∧
    fetchNext d = .next (.encodeScan 0 2, { d with host := [] }) ∧ 0 ≤ 1 ∧ 1 < 2 :=
  ⟨by decide, by decide, by rfl, by decide, by decide⟩

theorem inv_fetched : Machine.Inv (State.reset.withFetchWord 8 0x80) where
  bytes := by decide
  buf := by decide
  runidxWf := by decide
  params := by decide
  ctx _ q := by simp [State.withFetchWord, State.reset, ctxAt]
  rctx _ q := by simp [State.withFetchWord, State.reset, rctxAt]
  runindex := by decide
  runidx _ _ := Nat.zero_le 31
  writer := by decide
  notBusy := by decide

theorem witness_EveryStepKeepsInvariant : Machine.Inv (State.reset.withFetchWord 8 0x80) ∧
    (∃ t, step (State.reset.withFetchWord 8 0x80) = .next t) ∧
    Machine.Inv (resetBlock State.reset) ∧ ∃ t, step { State.reset with resetIn := .now } = .next t := by
  obtain ⟨t, h, _⟩ := after_next test_step_issue
  exact ⟨inv_fetched, ⟨t, h⟩, resetBlock_inv rfl, _, step_now rfl⟩

theorem witness_ErrorsEndTheScan : exec .brRdb State.reset = .next (raiseErr .invalidCompressedData State.reset) ∧
    (raiseErr .invalidCompressedData State.reset).err ≠ State.reset.err ∧
    (raiseErr .invalidCompressedData State.reset).err ≠ .none := by
  refine ⟨rfl, ?_, ?_⟩ <;> simp [raiseErr, State.reset]

theorem witness_HostCommandsRefused :
    (encoder p8).seq.fsm ≠ .idle ∧ { State.reset with busy := true }.busy = true ∧
    (State.reset.seq.fsm = .idle ∧ State.reset.busy = false ∧ State.reset.configured = false) ∧
    (ready p8).seq.fsm = .idle ∧ (ready p8).busy = false ∧ (ready p8).configured = true ∧
    legalParams (ready p8).build (ready p8).pr = true ∧ 0 < 1 ∧
    (ready (block 0 4 8 1 0 .none)).configured = true ∧
    legalParams (ready (block 0 4 8 1 0 .none)).build (ready (block 0 4 8 1 0 .none)).pr = false := by decide

/-- The legality test of R331 on resolved values. -/
def legalBlock (k : Build) (w h b n e v m' u1 u2 u3 r x y rw rh : Nat) : Bool :=
  1 ≤ w ∧ w ≤ k.maxDim ∧ 1 ≤ h ∧ h ≤ k.maxDim ∧ 2 ≤ b ∧ b ≤ 16 ∧ 1 ≤ n ∧ n ≤ k.maxComp ∧ v ≤ 2 ∧ (v = 2 → n = 3) ∧
    3 ≤ m' ∧ m' ≤ 2 ^ b - 1 ∧ e ≤ (m' - 1) / 2 ∧ ¬(m' = 4 ∧ e = 0) ∧ (r = 0 ∨ 3 ≤ r ∧ r ≤ 255) ∧
    e + 1 ≤ u1 ∧ u1 ≤ u2 ∧ u2 ≤ u3 ∧ u3 ≤ m' ∧ x + rw ≤ w ∧ y + rh ≤ h ∧ 1 ≤ rw ∧ 1 ≤ rh

/-- The greatest block and the least, with their defaults; and blocks one past a limit. -/
theorem witness_ConfigureWritesParameters : State.reset.seq.fsm = .idle ∧ State.reset.busy = false ∧
    (defaultT1 65535 32767, defaultT2 65535 32767, defaultT3 65535 32767) = (32768, 32768, 32768) ∧
    legalBlock State.reset.build 65535 65535 16 3 32767 2 65535 32768 32768 32768 255 65534 65534 1 1 = true ∧
    (defaultT1 3 1, defaultT2 3 1, defaultT3 3 1) = (2, 2, 2) ∧ legalBlock { maxDim := 1, maxComp := 1, eosMax := none } 1 1 2 1 1 0 3 2 2 2 3 0 0 1 1 = true ∧
    legalBlock { maxDim := 100000, maxComp := 300, eosMax := none } 100000 100000 2 300 1 0 3 2 2 2 3 0 0 1 1 = true ∧
    legalBlock State.reset.build 65536 1 2 1 1 0 3 2 2 2 3 0 0 1 1 = false ∧
    legalBlock { maxDim := 1, maxComp := 1, eosMax := none } 2 1 2 1 1 0 3 2 2 2 3 0 0 1 1 = false ∧
    legalBlock State.reset.build 1 1 2 1 2 0 3 3 3 3 3 0 0 1 1 = false := by
  decide +kernel

theorem witness_ScanCommandsEndIdle :
    (∃ t, exec (if false then .decodeScan 0 64 else .encodeScan 0 64) (holding (ready (block 1 1 8 1 0 .none)) [[5]]) = .next t ∧
      (decide (t.err = .none) = true)) ∧
    ∃ t, exec (if true then .decodeScan 0 3 else .encodeScan 0 3) { ready (block 1 1 8 1 0 .none) with
      bs := bytes [0x15, 0xFF, 0xD9] } = .next t ∧ decide (t.err = .tooMuchCompressedData) = true :=
  ⟨after_next (by decide +kernel), after_next (by decide +kernel)⟩

theorem witness_OnlyConfigureWritesParameters :
    (∀ w h b n e v m t1 t2 t3 r x y rw rh, Instr.rnIncidx ≠ .configure w h b n e v m t1 t2 t3 r x y rw rh) ∧
    ∃ t, exec .rnIncidx State.reset = .next t ∧ decide (t.err = .none) = true :=
  ⟨fun _ _ _ _ _ _ _ _ _ _ _ _ _ _ _ => by simp, after_next (by decide +kernel)⟩

theorem witness_CodingKeepsTraits : opClass .rnIncidx ≠ .host ∧ opClass .rnIncidx ≠ .setup ∧
    ∃ t, exec .rnIncidx State.reset = .next t ∧ decide (t.err = .none) = true :=
  ⟨by decide, by decide, after_next (by decide +kernel)⟩

theorem witness_ArithmeticFrame : opClass (.trCorrp 127) = .arithmetic ∧
    ∃ t, exec (.trCorrp 127) State.reset = .next t ∧ decide (t.err = .none) = true := ⟨rfl, after_next (by decide +kernel)⟩

theorem witness_ReadingFrame : opClass (.brRdv 16) = .reading ∧
    ∃ t, exec (.brRdv 16) br0 = .next t ∧ decide (t.err = .none) = true := ⟨rfl, after_next (by decide +kernel)⟩

theorem witness_WritingFrame : Memory.wf (writing 4).bs = true ∧ opClass (.bwApp 0xFF 8) = .writing ∧
    ∃ t, exec (.bwApp 0xFF 8) (writing 4) = .next t ∧ decide (t.err = .none) = true :=
  ⟨by decide, rfl, after_next (by decide +kernel)⟩

theorem witness_ScanningFrame :
    (Memory.wf (encoder p8).bs = true ∧ opClass .scGuard = .scanning ∧ (encoder p8).dir = false ∧
      ∃ t, exec .scGuard (encoder p8) = .next t ∧ decide (t.err = .none) = true) ∧
    Memory.wf (decoder p8 [0x80, 0xFF]).bs = true ∧ opClass .cwRunseg = .codeword ∧ (decoder p8 [0x80, 0xFF]).dir = true ∧
      ∃ t, exec .cwRunseg (decoder p8 [0x80, 0xFF]) = .next t ∧ decide (t.err = .none) = true :=
  ⟨⟨by decide, rfl, rfl, after_next (by decide +kernel)⟩, by decide, rfl, rfl, after_next (by decide +kernel)⟩

theorem witness_TraitsInitialised :
    (3 ≤ 3 ∧ 3 ≤ 65535 ∧ 1 ≤ (3 - 1) / 2 ∧ 3 ≤ 3 ∧ 3 ≤ 255) ∧
    (3 ≤ 65535 ∧ 65535 ≤ 65535 ∧ 32767 ≤ (65535 - 1) / 2 ∧ 3 ≤ 255 ∧ 255 ≤ 255) ∧
    ¬(3 ≤ 3 ∧ 3 ≤ 65535 ∧ 2 ≤ (3 - 1) / 2 ∧ 3 ≤ 3 ∧ 3 ≤ 255) := by decide

theorem witness_TraitsWithinBounds : legalParams (ready p8).build (ready p8).pr = true ∧
    legalParams State.reset.build (block 1 1 2 1 1 .none) = true ∧ legalParams State.reset.build (block 65535 65535 16 3 32767 .sample) = true := by decide +kernel

theorem witness_ReductionIsCongruent : (-((2 : Nat) : Int) < -1 ∧ (-1 : Int) < (2 : Nat) ∧ -(((2 : Nat) : Int) / 2) ≤ -1 ∧
    (-1 : Int) ≤ (((2 : Nat) : Int) + 1) / 2 - 1) ∧ -((256 : Nat) : Int) < 255 ∧ (255 : Int) < (256 : Nat) := by decide

theorem witness_NearLosslessBound : GoodTraits (encoder p8).tr ∧ (0 : Int) ≤ 255 ∧ (255 : Int) ≤ (encoder p8).tr.maxVal ∧
    (0 : Int) ≤ 0 ∧ (0 : Int) ≤ (encoder p8).tr.maxVal := ⟨good_p8, by decide, by decide, by decide, by decide⟩

theorem witness_LosslessPathAgrees : GoodTraits (encoder p8).tr ∧ (encoder p8).tr.near = 0 ∧
    (encoder p8).tr.maxVal + 1 = 2 ^ (encoder p8).tr.bpp ∧ -((encoder p8).tr.maxVal : Int) ≤ -255 ∧
    (-255 : Int) ≤ (encoder p8).tr.maxVal ∧ (0 : Int) ≤ 255 ∧ (255 : Int) ≤ (encoder p8).tr.maxVal ∧
    (-128 : Int).natAbs ≤ (encoder p8).tr.range / 2 :=
  ⟨good_p8, by decide, by decide, by decide, by decide, by decide, by decide, by decide⟩

theorem witness_DefaultThresholds : (3 ≤ 3 ∧ 1 ≤ (3 - 1) / 2) ∧ 3 ≤ 65535 ∧ 32767 ≤ (65535 - 1) / 2 := by decide

theorem witness_TableHoldsTheBins : qtRead (scanSetup false 0 64 (ready p8)).qt (-256) = some (-4) ∧
    qtRead (scanSetup true 0 0 (ready p8)).qt 255 = some 4 ∧ (-(2 ^ 8 : Int) ≤ -256 ∧ (-256 : Int) < 2 ^ 8) ∧
    ¬(-(2 ^ 8 : Int) ≤ 256 ∧ (256 : Int) < 2 ^ 8) ∧
    -((scanSetup false 0 64 (ready p8)).tr.maxVal : Int) ≤ -255 ∧ (255 : Int) ≤ (scanSetup false 0 64 (ready p8)).tr.maxVal := by decide +kernel

theorem witness_BinsSymmetricMonotone : 0 + 1 ≤ 1 ∧ 1 ≤ 1 ∧ 1 ≤ 1 ∧ (-4 : Int) ≤ 4 := by decide

theorem witness_ContextIdIsBijective : (-364 : Int) ≤ -364 ∧ (364 : Int) ≤ 364 ∧ isBin (-4) = true ∧ isBin 4 = true ∧
    ctxid 4 4 4 = 364 ∧ ctxid (-4) (-4) (-4) = -364 := by decide

theorem witness_GolombParameterSearch :
    (364 < 365 ∧ 23 < 32 ∧ (ctxAt (withCtx State.reset 8354848 0 0 1) 4).a ≤ (ctxAt (withCtx State.reset 8354848 0 0 1) 4).n *
        2 ^ 23 ∧ ∀ i < 23, (ctxAt (withCtx State.reset 8354848 0 0 1) 4).n * 2 ^ i <
        (ctxAt (withCtx State.reset 8354848 0 0 1) 4).a) ∧
    (let s := withRctx State.reset 1 93 2 0;
      1 < 2 ∧ 6 < 32 ∧ (rctxAt s 1).a + (rctxAt s 1).n / 2 * 1 ≤ (rctxAt s 1).n * 2 ^ 6 ∧
        ∀ j < 6, (rctxAt s 1).n * 2 ^ j < (rctxAt s 1).a + (rctxAt s 1).n / 2 * 1) ∧
    (let s := withCtx State.reset (2 ^ 31 + 1) 0 0 1;
      4 < 365 ∧ ∀ k < 32, (ctxAt s 4).n * 2 ^ k < (ctxAt s 4).a) ∧
    (let s := withRctx State.reset 0 (2 ^ 31 + 1) 1 0;
      0 < 2 ∧ ∀ k < 32, (rctxAt s 0).n * 2 ^ k < (rctxAt s 0).a + (rctxAt s 0).n / 2 * 0) ∧ 365 ≤ 365 ∧ 2 ≤ 2 := by
  decide +kernel

theorem witness_GolombParameterMonotone : 1 ≤ 1 ∧ golombK 1 1 = some 0 ∧ golombK 2 5 = some 2 ∧ golombK 2 8 = some 2 ∧
    golombK 2 9 = some 3 ∧ golombK 4 5 = some 1 ∧ 2 < 5 := by decide

theorem witness_CorrectionAndMapResults : 1 < 2 ∧ (1 = 1 → (-1 : Int) ≠ 0) ∧ 0 < 2 ∧ (0 = 1 → (0 : Int) ≠ 0) := by decide

theorem witness_RegularUpdate : 364 < 365 ∧ 0 < 365 ∧ 0 ≠ 364 ∧ 365 ≤ 365 := by decide

theorem witness_RunUpdate : 1 < 2 ∧ 2 ≤ 2 := by decide

theorem witness_ContextBoundsKept : GoodTraits (encoder p8).tr ∧ GoodCtx (encoder p8).tr (ctxAt (encoder p8) 364) ∧
    (-65535 : Int).natAbs ≤ 65535 ∧ 1 < 2 ∧ GoodRun (encoder p8).tr (rctxAt (encoder p8) 1) ∧
    131069 + 1 ≤ 2 * (-65535 : Int).natAbs :=
  ⟨good_p8, (inv_encoder legal_p8).ctx 364, by decide, by decide, (inv_encoder legal_p8).rctx 1, by decide⟩

theorem witness_ReaderPlacedAndFilled : 5 ≤ 5 ∧ 5 < 6 ∧
    ((setReader br0 { br0.rd with rvalid := 56 }).rd.rvalid ≤ 56 ∧ 0 < (setReader br0 { br0.rd with rvalid := 56 }).rd.rvalid) ∧
    (br0.rd.rvalid ≤ 56 ∧ br0.rd.rpos < br0.rd.rend ∧ ¬isMarker br0.bs br0.rd.rend br0.rd.rpos = true) ∧
    ((reading []).rd.rvalid = 0 ∧ (reading []).rd.rend ≤ (reading []).rd.rpos) ∧
    ((reading [0xFF, 0x80]).rd.rvalid = 0 ∧
      isMarker (reading [0xFF, 0x80]).bs (reading [0xFF, 0x80]).rd.rend (reading [0xFF, 0x80]).rd.rpos = true) ∧
    56 < (setReader br0 { br0.rd with rvalid := 57 }).rd.rvalid := by decide +kernel

/-- Caches that hold the next bits: none, and the 56 of seven bytes with a byte left to load. -/
theorem witness_ReaderPlacedAndFilled_cache : CacheHolds br0.bs br0.rd ∧
    (let s := reading [1, 2, 3, 4, 5, 6, 7, 8, 0xFF]
     let r := fillLoop s.bs 7 s.rd
     CacheHolds s.bs r ∧ r.rvalid = 56 ∧ r.rpos < r.rend ∧ ¬isMarker s.bs r.rend r.rpos = true) :=
  ⟨initReader_holds (by decide), fillLoop_holds 7 (initReader_holds (by decide)) (by decide), by decide +kernel⟩

theorem witness_ReadsDeliverBits :
    remaining br0 = bitsOf 0x97FFF 23 ∧ (bitsOf 0x97FFF 23).length ≤ 31 ∧
    remaining (reading [0x12, 0x34, 0x56, 0x78, 0xFF]) = bitsOf 0x091A2B3C 31 ++ [false] ∧ (bitsOf 0x091A2B3C 31).length ≤ 31 ∧
    remaining (reading [0x10, 0xFF]) = List.replicate 3 false ++ true :: ([false, false] ++ [false, false]) ∧
    [false, false].length ≤ 31 ∧ 3 + 8 + 1 < 32 ∧
    remaining (reading [0, 0, 0x01, 0x5B, 0xFF]) = List.replicate 23 false ++ true :: (bitsOf 0x5B 8 ++ []) ∧
    32 ≤ 23 + (bitsOf 0x5B 8).length + 1 := by decide +kernel

theorem witness_ReadsPastTheEndRaise :
    (23 ≤ 31 ∧ (remaining (setReader br0 { br0.rd with rp := 1 })).length < 23) ∧ remaining (reading []) = [] ∧
    remaining (reading [0x00, 0xFF]) = List.replicate 8 false ∧ 31 < 32 ∧ 15 ≤ 15 ∧
    (remaining (reading [0x10, 0xFF]) = List.replicate 3 false ++ true :: List.replicate 4 false ∧
      (List.replicate 4 false).length < (if 3 + 8 + 1 < 32 then 5 else 8)) ∧
    (remaining (reading [0, 0, 0x01, 0xFF]) = List.replicate 23 false ++ true :: [] ∧
      ([] : List Bool).length < (if 23 + 8 + 1 < 32 then 0 else 8)) := by decide +kernel

theorem witness_EndOfScanCheck :
    (∀ j, 0 ≤ j → j < 2 → ¬isMarker (bytes [0xFF, 0x7F]) 2 j = true) ∧
    (isMarker (bytes [0x01, 0xFF]) 2 1 = true ∧ (∀ j, 0 ≤ j → j < 1 → ¬isMarker (bytes [0x01, 0xFF]) 2 j = true) ∧
      true ∈ remaining (reading [0x01, 0xFF])) ∧
    (isMarker (bytes [0x00, 0xFF]) 2 1 = true ∧ (∀ j, 0 ≤ j → j < 1 → ¬isMarker (bytes [0x00, 0xFF]) 2 j = true) ∧
      true ∉ remaining (reading [0x00, 0xFF]) ∧ 7 < (remaining (reading [0x00, 0xFF])).length ∧
      (remaining (reading [0x00, 0xFF])).length ≤ 8) := by decide +kernel

/-- Eight bits, a hit; nine, a miss. -/
theorem witness_ShortCodesAgree : 15 < 16 ∧ 8 + 18 ≤ 32 ∧
    (encodable 0 7 32 8 ∧ (valueBits 0 7 32 8).length ≤ 8 ∧ remaining (reading [0x01, 0xFF]) = valueBits 0 7 32 8 ++ []) ∧
    (encodable 2 24 32 8 ∧ 8 < (valueBits 2 24 32 8).length ∧
      remaining (reading [0x02, 0x00, 0xFF]) = valueBits 2 24 32 8 ++ List.replicate 7 false) := by
  unfold encodable
  decide +kernel

theorem witness_WriterPlaced : 64 ≤ 64 ∧ 64 < 65 := by decide

theorem witness_AppendStuffsBytes :
    (8 ≤ 31 ∧ 0xFF < 2 ^ 8 ∧ fits (writing 1).wr (bitsOf 0xFF 8)) ∧ (31 ≤ 31 ∧ fits (writing 3).wr (bitsOf 0 31)) ∧
    ¬fits (writing 0).wr (bitsOf 0xFF 8) ∧ 31 < 32 ∧ 2 ^ 2 ≤ 4 := by
  unfold fits
  decide +kernel

theorem witness_EncodedValueIsItsCodeword :
    2 ≤ 31 ∧ (encoder p8).tr.qbpp ≤ 31 ∧
    (91 / 2 ^ 2 + (encoder p8).tr.qbpp + 1 < 32 ∧ 91 / 2 ^ 2 ≤ 60 ∧
      fits (encoder p8).wr (List.replicate (91 / 2 ^ 2) false ++ [true] ++ bitsOf (91 % 2 ^ 2) 2)) ∧
    ((encoder p8).tr.qbpp + 2 ≤ 32 ∧ 32 ≤ 92 / 2 ^ 2 + (encoder p8).tr.qbpp + 1 ∧ 32 ≤ (encoder p8).tr.qbpp + 62 ∧ 1 ≤ 92 ∧
      92 ≤ 2 ^ (encoder p8).tr.qbpp ∧ fits (encoder p8).wr
        (List.replicate (32 - (encoder p8).tr.qbpp - 1) false ++ [true] ++ bitsOf (92 - 1) (encoder p8).tr.qbpp)) ∧
    (32 ≤ 257 / 2 ^ 0 + (encoder p8).tr.qbpp + 1 ∧ 2 ^ (encoder p8).tr.qbpp < 257) ∧ 9 ≤ (encoder p8).tr.qbpp + 1 := by
  unfold fits
  decide +kernel

theorem witness_WriterEnds :
    let s := setWriter State.reset { (initWriter 0 1) with wacc := [true] }
    let full := setWriter State.reset { (initWriter 0 0) with wacc := [true] }
    (writerOk s.wr = true ∧ fits s.wr (endBits s.wr)) ∧ (writerOk full.wr = true ∧ ¬fits full.wr (endBits full.wr)) ∧
    (drain { (initWriter 0 4) with wfree := 0 }).drainpos ≤ 4 ∧ ¬(drain { (initWriter 0 3) with wfree := 0 }).drainpos ≤ 3 := by
  unfold fits
  decide +kernel

/-- 32 ones with their padding, `FF 7F FF 7F C0`, before a marker. -/
theorem witness_StuffingIsInverted :
    let bits := List.replicate 32 true ++ List.replicate 6 false
    (stuffBits false [] bits).1 = [0xFF, 0x7F, 0xFF, 0x7F, 0xC0] ∧ (stuffBits false [] bits).2 = ([], false) ∧
    (∀ j < 5, memRead (bytes [0xFF, 0x7F, 0xFF, 0x7F, 0xC0, 0xFF]) (0 + j) = (stuffBits false [] bits).1.getD j 0) ∧
    0 + 5 < 6 ∧ isMarker (bytes [0xFF, 0x7F, 0xFF, 0x7F, 0xC0, 0xFF]) 6 (0 + 5) = true := by decide +kernel

theorem witness_PredictionAndMapping : 3 < (encoder p8).pr.width ∧ ¬4 < (encoder p8).pr.width := by decide

/-- An encode at the last sample of a line, context id -4, sample 74. -/
def reg8 : State := sample (encoder p8) 90 0 0 74 (-4)

theorem witness_RegularSampleEncodes : GoodTraits reg8.tr ∧ GoodCtx reg8.tr (ctxAt reg8 reg8.w.qs.natAbs) ∧
    reg8.w.qs.natAbs < 365 ∧ 3 < reg8.pr.width ∧ isSample reg8.tr reg8.w.x = true ∧
    isSample reg8.tr reg8.w.ra = true ∧ isSample reg8.tr reg8.w.rb = true ∧
    -128 ≤ biasedPrediction reg8 ∧ biasedPrediction reg8 ≤ reg8.tr.maxVal + 128 ∧
    (reg8.w.x - correctedPrediction reg8).natAbs ≤ reg8.tr.maxVal ∧
    fits reg8.wr (valueBits 2 (regularValue 2 reg8) reg8.tr.limit reg8.tr.qbpp) ∧ reg8.pr.width ≤ 4 ∧
    (let s := sample (encoder p8) 0 0 0 (-256) (-4)
     s.tr.maxVal < (s.w.x - correctedPrediction s).natAbs ∧ s.w.qs.natAbs = reg8.w.qs.natAbs ∧ ctxAt s 4 = ctxAt reg8 4) ∧
    [(-129, 0), (384, 0)].all (fun r => let s := sample (encoder p8) r.1 r.1 r.1 r.2 (-4)
      (biasedPrediction s < -128 ∨ (s.tr.maxVal : Int) + 128 < biasedPrediction s) ∧ s.w.qs.natAbs = 4 ∧
        ctxAt s 4 = ctxAt reg8 4 ∧ s.tr = reg8.tr) = true := by
  refine ⟨good_p8, (inv_encoder legal_p8).ctx 4, ?_⟩
  unfold fits
  decide +kernel

/-- `C = -128` with a negative sign on the prediction 255: the correction is `max_val + 128`, and clamps (R273). And neighbours
that are no samples. -/
theorem test_sp_encreg_correction :
    after (exec (.spEncreg 3) (sample (setCtx (encoder p8) 4 { a := 4, b := 0, c := -128, n := 1 }) 255 255 0 255 (-4)))
      (fun t => t.w.px = 255 && t.w.err = 0) = true ∧
    refusedAs (exec (.spEncreg 3) (sample (encoder p8) 5000 5000 5000 5000 (-4))) .operandRange = true ∧
    refusedAs (exec (.spDecreg 3) (sample (decoder p8 [0x00, 0x80, 0xFF]) 5000 5000 5000 0 (-4))) .operandRange = true := by
  decide +kernel

/-- The decode of the same sample. -/
def regD : State := sample (decoder p8 [0x00, 0x80, 0xFF]) 90 0 0 0 (-4)

theorem witness_RegularSampleDecodes : GoodTraits regD.tr ∧ GoodCtx regD.tr (ctxAt regD regD.w.qs.natAbs) ∧
    regD.w.qs.natAbs < 365 ∧ 3 < regD.pr.width ∧ isSample regD.tr 74 = true ∧
    -128 ≤ biasedPrediction regD ∧ biasedPrediction regD ≤ regD.tr.maxVal + 128 ∧
    (let s := sample (decoder p8 [0x00, 0x80, 0xFF]) 5000 5000 5000 0 (-4)
     (s.tr.maxVal : Int) + 128 < biasedPrediction s ∧ s.w.qs.natAbs = 4 ∧ ctxAt s 4 = ctxAt regD 4 ∧ s.tr = regD.tr) ∧
    remaining regD = valueBits 2 (regularValue 2 { regD with w := { regD.w with x := 74 } }) regD.tr.limit regD.tr.qbpp ++
      List.replicate 5 false := by
  have h : ScanInv (decoder p8 [0x00, 0x80, 0xFF]) := scanSetup_inv (s := { ready p8 with bs := bytes [0x00, 0x80, 0xFF] })
    legal_p8 true 0 3
  refine ⟨h.traits, h.ctx 4, ?_⟩
  decide +kernel

/-- A 16-bit decode whose context 9 gives `K = 12`, and the codeword of 192511: an error of -96256. -/
def regLarge : State := sample (setCtx (decoder (block 2 2 16 1 0 .none) [0, 0, 0, 0, 0, 3, 0xFF, 0x70, 0xFF]) 9
  { a := 4096, b := 0, c := 0, n := 1 }) 0 0 0 0 9

/-- The traits of a 16-bit block. -/
theorem good_16 (l : List Nat) : GoodTraits (decoder (block 2 2 16 1 0 .none) l).tr :=
  (scanSetup_inv (s := { ready (block 2 2 16 1 0 .none) with bs := bytes l })
    (show legalParams State.reset.build (block 2 2 16 1 0 .none) = true by decide) true 0 l.length).traits

theorem witness_RegularSampleDecodes_large : GoodTraits regLarge.tr ∧ GoodCtx regLarge.tr (ctxAt regLarge 9) ∧
    regLarge.w.qs.natAbs = 9 ∧ 0 < regLarge.pr.width ∧
    (-128 ≤ biasedPrediction regLarge ∧ biasedPrediction regLarge ≤ regLarge.tr.maxVal + 128) ∧ golombK (ctxAt regLarge 9).n (ctxAt regLarge 9).a = some 12 ∧
    192511 / 2 ^ 12 + regLarge.tr.qbpp + 1 < regLarge.tr.limit ∧ 65535 < (unmapError 192511).natAbs ∧
    remaining regLarge = List.replicate (192511 / 2 ^ 12) false ++ true :: (bitsOf (192511 % 2 ^ 12) 12 ++
      List.replicate 4 false) := by
  refine ⟨good_16 _, ?_, by decide +kernel, by decide +kernel, by decide +kernel, by decide +kernel, by decide +kernel, by decide,
    by decide +kernel⟩
  exact { nPos := by decide +kernel, nMax := by decide +kernel, bLow := by decide +kernel, bHigh := by decide +kernel,
          cLow := by decide +kernel, cHigh := by decide +kernel, aMax := by decide +kernel }

theorem witness_RunLengthsRoundTrip :
    (31 ≤ 31 ∧ 40000 ≤ (lineOf 40001 (writing 64)).pr.width - (lineOf 40001 (writing 64)).seq.i ∧
      fits (writing 64).wr (lengthBits 31 40000 (decide (40000 = 40001)))) ∧
    (0 ≤ 31 ∧ fits (writing 64).wr (lengthBits 0 5 (decide (5 = 5)))) ∧
    ((lineOf 4 (writing 64)).pr.width - (lineOf 4 (writing 64)).seq.i < 5 ∧ true ≠ decide (3 = 4)) ∧
    (1 ≤ 5 ∧ 5 = (lineOf 5 (reading [0xF8, 0xFF])).pr.width - (lineOf 5 (reading [0xF8, 0xFF])).seq.i ∧ 5 ≤ 5 ∧
      remaining (lineOf 5 (reading [0xF8, 0xFF])) = lengthBits 0 5 (decide (5 = 5)) ++ List.replicate 3 false) ∧
    (12 ≤ 31 ∧ 1 ≤ 2 ∧ 2 = (lineOf 2 (reading [0x30, 0xFF])).pr.width - (lineOf 2 (reading [0x30, 0xFF])).seq.i ∧ 2 < 3 ∧
      3 < 2 ^ jOf 12 ∧
      remaining (lineOf 2 (reading [0x30, 0xFF])) = false :: bitsOf 3 (jOf 12) ++ List.replicate 4 false) := by
  unfold fits
  decide +kernel

theorem witness_RunErrorsRoundTrip : GoodTraits (encoder p8).tr ∧ 1 < 2 ∧ GoodRun (encoder p8).tr (rctxAt (encoder p8) 1) ∧
    (encoder p8).runindex ≤ 31 ∧ 2 * (-128 : Int).natAbs ≤ (encoder p8).tr.range ∧ (1 = 1 → (-128 : Int) ≠ 0) ∧
    fits (encoder p8).wr (valueBits 2 254 ((encoder p8).tr.limit - jOf (encoder p8).runindex - 1) (encoder p8).tr.qbpp) ∧
    remaining (reading [0, 0, 0x03, 0xFA, 0xFF]) = valueBits 2 254 (32 - jOf 0 - 1) 8 ++ [false] := by
  refine ⟨good_p8, by decide, (inv_encoder legal_p8).rctx 1, ?_⟩
  unfold fits
  decide +kernel

/-- A 16-bit decode whose run context 0 gives `K = 12`, and the codeword of 184320: an error of 92160. -/
def riLarge : State := setRctx (decoder (block 2 2 16 1 0 .none) [0, 0, 0, 0, 0, 4, 0, 0, 0xFF]) 0 { a := 4096, n := 1, nn := 0 }

theorem witness_RunErrorsRoundTrip_large : GoodTraits riLarge.tr ∧ 0 < 2 ∧ GoodRun riLarge.tr (rctxAt riLarge 0) ∧
    riLarge.runindex ≤ 31 ∧ golombK (rctxAt riLarge 0).n ((rctxAt riLarge 0).a + (rctxAt riLarge 0).n / 2 * 0) = some 12 ∧
    184320 / 2 ^ 12 + riLarge.tr.qbpp + 1 < riLarge.tr.limit - jOf riLarge.runindex - 1 ∧
    65535 < (runErrval (rctxAt riLarge 0) (184320 + 0) 12).natAbs ∧
    remaining riLarge = List.replicate (184320 / 2 ^ 12) false ++ true :: (bitsOf (184320 % 2 ^ 12) 12 ++
      List.replicate 6 false) := by
  refine ⟨good_16 _, by decide, ?_, by decide +kernel, by decide +kernel, by decide +kernel, by decide +kernel, by decide +kernel⟩
  exact { nPos := by decide +kernel, nMax := by decide +kernel, nnMax := by decide +kernel, aMax := by decide +kernel }

/-- A difference out of range, and a value that is no sample to rebuild on. -/
theorem witness_RunInterruptionRoundTrips_refused :
    (encoder p8).tr.maxVal < ((256 : Int) - if ((0 : Int) - 0).natAbs ≤ (encoder p8).tr.near then 0 else 0).natAbs ∧
    isSample (decoder p8 [0xFF]).tr (if ((-1 : Int) - -1).natAbs ≤ (decoder p8 [0xFF]).tr.near then -1 else -1) = false ∧
    ∃ t, exec (.rnDecri (-1) (-1)) (decoder p8 [0xFF]) = .next t ∧ decide (t.err = .invalidCompressedData) = true :=
  ⟨by decide +kernel, by decide +kernel, after_next (by decide +kernel)⟩

theorem witness_RunInterruptionRoundTrips : GoodTraits (encoder p8).tr ∧ GoodRun (encoder p8).tr (rctxAt (encoder p8) 0) ∧
    GoodRun (encoder p8).tr (rctxAt (encoder p8) 1) ∧ (encoder p8).runindex ≤ 31 ∧ isSample (encoder p8).tr 255 = true ∧
    isSample (encoder p8).tr 0 = true ∧
    ((0 - 0 : Int).natAbs ≤ (encoder p8).tr.near ∧ (0 - 0 : Int).natAbs ≤ (encoder p8).tr.near) ∧
    ¬((0 - 255 : Int).natAbs ≤ (encoder p8).tr.near ∧ (255 - 0 : Int).natAbs ≤ (encoder p8).tr.near) ∧
    roomFor (encoder p8).wr elementBits ∧
    remaining (reading [0x28, 0xFF]) = valueBits 2 9 31 8 ++ List.replicate 3 false := by
  refine ⟨good_p8, (inv_encoder legal_p8).rctx 0, (inv_encoder legal_p8).rctx 1, ?_⟩
  unfold roomFor
  decide +kernel

/-- Line 0 of program P2 on an encode with a sink of 1000 bytes, and a decode of the same line. -/
def line0 : State := writeLine [[0], [0], [90], [74]] 0 (scanSetup false 0 1000 (ready p8))

/-- The decode. -/
def line0D : State := decoder p8 [0xC0, 0x00, 0x00, 0x6C, 0x80, 0x20, 0xFF]

theorem inv_line0 : ScanInv line0 :=
  (writeLine_spec (nch := 1) (by decide) [[0], [0], [90], [74]] 0 _ (scanSetup_inv (s := ready p8) legal_p8 false 0 1000)
    (by unfold Samples; decide +kernel)).2.1

theorem twin_line0 : Twin line0 line0D where
  encoder := by decide +kernel
  decoder := by decide +kernel
  pr := by decide +kernel
  tr := by decide +kernel
  ctx := by decide +kernel
  rctx := by decide +kernel
  runindex := by decide +kernel
  y := by decide +kernel
  c := by decide +kernel
  i := by decide +kernel
  bufWf := by decide +kernel
  prev := by decide +kernel
  cur := by decide +kernel

theorem witness_RunsRoundTrip : ScanInv line0 ∧ legalParams line0.build line0.pr = true ∧ line0.dir = false ∧ writerOk line0.wr = true ∧
    line0.seq.i < line0.pr.width ∧ roomFor line0.wr (elementBits * line0.pr.width) ∧ Twin line0 line0D ∧
    remaining line0D = bitsOf 0xC000006C8 36 ++ bitsOf 0x020 12 := by
  refine ⟨inv_line0, by decide +kernel, by decide +kernel, by decide +kernel, by decide +kernel, ?_, twin_line0, by decide +kernel⟩
  unfold roomFor
  decide +kernel

theorem witness_GuardSetsTwoElements : sparseWf 0 line0.buf = true ∧ 1 ≤ line0.pr.width ∧
    sparseWf 0 (ready (block 100000 1 8 3 0 .sample)).buf = true ∧ 1 ≤ (ready (block 100000 1 8 3 0 .sample)).pr.width ∧
    (∀ ch < channels line0, bufKey 0 1 0 (-1) ≠ bufKey (line0.seq.y % 2) line0.seq.c ch (-1) ∧
      bufKey 0 1 0 (-1) ≠ bufKey ((line0.seq.y + 1) % 2) line0.seq.c ch line0.pr.width) := by
  decide +kernel

theorem witness_LinesEncode : ScanInv line0 ∧ legalParams line0.build line0.pr = true ∧ line0.dir = false ∧ writerOk line0.wr = true ∧
    roomFor line0.wr (elementBits * line0.pr.width) ∧
    (1 ≤ line0.pr.width ∧ gradientsInRange 0 0 (curWrite line0 0 (-1) 256) = false) := by
  refine ⟨inv_line0, by decide +kernel, by decide +kernel, by decide +kernel, ?_, by decide +kernel⟩
  unfold roomFor
  decide +kernel

theorem witness_LinesDecode : ScanInv line0 ∧ legalParams line0.build line0.pr = true ∧ writerOk line0.wr = true ∧ line0.seq.i = 0 ∧
    Twin line0 line0D ∧ roomFor line0.wr (elementBits * line0.pr.width) ∧
    (∃ t, exec (if line0.pr.ilv = .sample then .scLine3 else .scLine) line0 = .next t ∧ decide (t.err = .none) = true) ∧
    remaining line0D = bitsOf 0xC000006C8020 48 := by
  refine ⟨inv_line0, by decide +kernel, by decide +kernel, by decide +kernel, twin_line0, ?_, after_next (by decide +kernel),
    by decide +kernel⟩
  unfold roomFor
  decide +kernel

/-- The host holds the one line `[5]` of a 1 x 1 image. -/
def tiny : State := holding (ready (block 1 1 8 1 0 .none)) [[5]]

theorem lines_tiny : linesReady tiny := by
  intro y hy c hc
  obtain rfl : y = 0 := Nat.lt_one_iff.mp hy
  obtain rfl : c = 0 := Nat.lt_one_iff.mp hc
  exact ⟨{ c := 0, y := 0, px := [[5]] }, [[5]], by decide, by decide, by decide⟩

theorem witness_ScansEncode : Memory.wf tiny.bs = true ∧ legalParams tiny.build tiny.pr = true ∧ linesReady tiny ∧
    tiny.seq.fsm = .idle ∧ tiny.busy = false ∧ tiny.configured = true ∧
    7 * 0 + elementBits * (tiny.pr.width * tiny.pr.height * slots tiny.pr) + 14 ≤ 7 * 60 ∧
    (linesReady (scanSetup false 0 60 tiny) ∧ ScanInv (scanSetup false 0 60 tiny) ∧
      (scanSetup false 0 60 tiny).tr = scanTraits (scanSetup false 0 60 tiny).pr ∧ (scanSetup false 0 60 tiny).dir = false ∧
      writerOk (scanSetup false 0 60 tiny).wr = true ∧ roomFor (scanSetup false 0 60 tiny).wr (elementBits * 1)) := by
  refine ⟨by decide, by decide, lines_tiny, by decide, by decide, by decide, by decide, lines_tiny,
    scanSetup_inv (s := tiny) (by decide) false 0 60, rfl, rfl, by decide, ?_⟩
  unfold roomFor
  decide

/-- An encode whose host holds no line, or one with a sample above `max_val`. -/
theorem witness_ScansEncode_line :
    (let s := ready (block 1 1 8 1 0 .none)
     readyBefore s 0 0 ∧ ∀ l, heldLine s.lineSrc 0 0 = some l → lineElements s.pr.width (channels s) l = none) ∧
    (let s := holding (ready (block 1 1 8 1 0 .none)) [[256]]
     heldLine s.lineSrc 0 0 = some ⟨0, 0, [[256]]⟩ ∧ lineElements s.pr.width (channels s) ⟨0, 0, [[256]]⟩ = some [[256]] ∧
       [[(256 : Int)]].all (fun e => e.all (isSample (scanTraits s.pr))) = false) :=
  ⟨⟨fun _ _ _ h => by omega, fun _ h => by cases h⟩, by decide +kernel⟩

/-- A decode of the one byte that the encode of `[5]` writes. -/
def tinyD : State := { ready (block 1 1 8 1 0 .none) with bs := bytes [0x14, 0xFF] }

theorem witness_ScanRoundTrips : Memory.wf tiny.bs = true ∧ ∃ t, exec (.encodeScan 0 64) tiny = .next t ∧ t.err = .none ∧
    (tinyD.pr = tiny.pr ∧ legalParams tinyD.build tinyD.pr = true ∧ tinyD.configured = true ∧ tinyD.seq.fsm = .idle ∧
      tinyD.busy = false ∧ (∀ n, tinyD.build.eosMax = some n → 14 ≤ n) ∧ Accepts tinyD (slots tinyD.pr * tinyD.pr.rectH) ∧
      (∀ a, 0 ≤ a → a < t.wr.wpos → memRead tinyD.bs a = memRead t.bs a) ∧ t.wr.wpos < 2 ∧
      isMarker tinyD.bs 2 t.wr.wpos = true) ∧
    ¬Accepts { tinyD with lineRoom := some 0 } (slots tinyD.pr * tinyD.pr.rectH) := by
  obtain ⟨t, h, ht⟩ := after_next (o := exec (.encodeScan 0 64) tiny) (f := fun t => decide (t.err = .none) && t.wr.wpos = 1 &&
    memRead t.bs 0 = 0x14) (by decide +kernel)
  simp only [Bool.and_eq_true, decide_eq_true_eq] at ht
  refine ⟨by decide, t, h, ht.1.1, ⟨rfl, by decide, rfl, rfl, rfl, fun n h => (by cases h), fun n h => (by cases h),
    fun a _ ha => ?_, by omega, by rw [ht.1.2]; decide⟩, fun h => absurd (h 0 rfl) (by decide)⟩
  obtain rfl : a = 0 := by omega
  rw [ht.2]
  decide

/-- The same decode, by conditions on its own state and operands. -/
theorem witness_ScanRoundTrips_alone :
    let e : State := { tinyD with lineSrc := tiny.lineSrc }
    0 ≤ 2 ∧ Memory.wf tinyD.bs = true ∧ linesReady e ∧
    7 * 0 + elementBits * (tinyD.pr.width * tinyD.pr.height * slots tinyD.pr) + 14 ≤ 7 * 64 ∧
    scanBytes 0 64 e = [0x14] ∧ memRead tinyD.bs (0 + 0) = [0x14].getD 0 0 ∧ 0 + 1 < 2 ∧ isMarker tinyD.bs 2 (0 + 1) = true :=
  ⟨by decide, by decide, lines_tiny, by decide, by decide +kernel, by decide, by decide, by decide⟩

theorem witness_CodewordsAreWritten :
    let s := encoder p8
    s.dir = false ∧
    (s.w.k ≤ 31 ∧ 22 ≤ 60 ∧ cwBits (cwContext s) (.cwGolomb 22 0) = some (List.replicate 22 false ++ [true]) ∧
      fits s.wr (List.replicate 22 false ++ [true])) ∧
    (s.tr.qbpp ≤ 31 ∧ (cwContext s).glimit ≤ s.tr.qbpp + 62 ∧
      cwBits (cwContext s) (.cwEscape 255) = some (List.replicate 23 false ++ List.replicate 9 true) ∧
      fits s.wr (List.replicate 23 false ++ List.replicate 9 true)) ∧
    (cwBits (cwContext s) .cwRunseg = some [true] ∧ fits s.wr [true]) ∧
    (s.runindex ≤ 31 ∧ cwBits (cwContext s) (.cwRunrem 0) = some [false] ∧ fits s.wr [false]) ∧
    (cwBits (cwContext s) .cwRuneol = some [true]) ∧
    (let p := setWriter s { s.wr with wacc := [true] };
      writerOk p.wr = true ∧ padLength p.wr = 7 ∧ fits p.wr (List.replicate (padLength p.wr) false)) ∧
    { s.wr with wff := true }.wff = true ∧ s.wr.wacc = [] := by
  unfold fits
  decide +kernel

theorem witness_CodewordsAreRead :
    (decoder p8 [0x00]).dir = true ∧ (decoder p8 [0x00]).w.k ≤ 31 ∧
    (cwBits (cwContext (decoder p8 [0x10, 0xFF])) (.cwGolomb 3 0) = some [false, false, false, true] ∧
      remaining (decoder p8 [0x10, 0xFF]) = [false, false, false, true] ++ List.replicate 4 false) ∧
    (cwBits (cwContext (decoder p8 [0, 0, 0x01, 0xFE, 0xFF])) (.cwEscape 254) =
        some (List.replicate 23 false ++ true :: bitsOf 254 8) ∧
      remaining (decoder p8 [0, 0, 0x01, 0xFE, 0xFF]) = List.replicate 23 false ++ true :: bitsOf 254 8 ++ []) ∧
    (let s := decoder p8 [0x80, 0xFF];
      remaining s = true :: List.replicate 7 false ∧ 2 ^ jOf s.runindex ≤ s.pr.width - s.seq.i - s.w.runlen) ∧
    (let s := setRunindex (decoder p8 [0x60, 0xFF]) 8;
      s.runindex ≤ 31 ∧ 3 < 2 ^ jOf s.runindex ∧ 3 ≤ s.pr.width - s.seq.i - s.w.runlen ∧
        0 < s.pr.width - s.seq.i - s.w.runlen ∧
        remaining s = false :: (bitsOf 3 (jOf s.runindex) ++ List.replicate 5 false)) ∧
    (let s := setRunindex (decoder p8 [0x80, 0xFF]) 12;
      remaining s = true :: List.replicate 7 false ∧ 0 < s.pr.width - s.seq.i - s.w.runlen ∧
        s.pr.width - s.seq.i - s.w.runlen < 2 ^ jOf s.runindex) ∧
    (let s := setReader (decoder p8 [0x80, 0xFF]) { (decoder p8 [0x80, 0xFF]).rd with rp := 1 };
      toBoundary s = 7 ∧ remaining s = List.replicate (toBoundary s) false ++ []) ∧
    (let s := setReader (decoder p8 [0xFF, 0x00, 0xFF]) { (decoder p8 [0xFF, 0x00, 0xFF]).rd with rp := 8 };
      atStuffedBit s = true) := by
  decide +kernel

end Sys2Proof.Tests
end

/-! PROOFS. The scope of `CONFIGURE`, of the error and reconstruction paths of unit TR and of the table of unit QT: what each
answers in its operand range, and that it refuses outside it (`00_scope.md` R5, R10). -/

namespace Sys2Proof.Machine

/-! ### An operation with one condition (R10) -/

/-- An operation that only tests a condition completes where it holds and is refused elsewhere. -/
theorem finish_require (b : Bool) (r : Refusal) (t : State) :
    finish (require b r >>= fun _ => .ok t) = if b = true then .next t else .refused r := by
  cases b <;> rfl

/-! ### `CONFIGURE` (R331) -/

section Configure

/-- The interleave mode of an operand that is not reserved (R21). -/
def modeOf (v : Nat) : Ilv := if v = 0 then .none else if v = 1 then .line else .sample

/-- The reserved interleave operands are those above 2. -/
theorem ilvOf_eq (v : Nat) : ilvOf v = if v ≤ 2 then some (modeOf v) else none := by
  match v with
  | 0 | 1 | 2 => rfl
  | n + 3 => rw [if_neg (by omega)]; rfl

theorem modeOf_eq_sample {v : Nat} (hv : v ≤ 2) : modeOf v = .sample ↔ v = 2 := by
  match v with
  | 0 | 1 | 2 => decide
  | n + 3 => omega

/-- In `Idle` a block is accepted where it is legal and refused elsewhere (R331). -/
theorem finish_configureWith {s : State} (hidle : isIdle s = true) (p : Params) : finish (configureWith p s) =
    if legalParams s.build p = true then .next { s with pr := p, configured := true }
    else .refused .illegalParameters := by
  rw [configureWith, hidle, require_true, ok_bind, finish_require]

variable (w h b n e v m t1 t2 t3 r x y rw rh : Nat)

/-- In `Idle` the operands are accepted where they name an interleave mode and a legal block (R21, R331). -/
theorem exec_configure {s : State} (hidle : isIdle s = true) :
    exec (.configure w h b n e v m t1 t2 t3 r x y rw rh) s =
      if v ≤ 2 ∧ legalParams s.build (paramsOf w h b n e (modeOf v) m t1 t2 t3 r x y rw rh) = true then
        .next { s with pr := paramsOf w h b n e (modeOf v) m t1 t2 t3 r x y rw rh, configured := true }
      else .refused .illegalParameters := by
  change execConfigure w h b n e v m t1 t2 t3 r x y rw rh s = _
  rw [execConfigure, ilvOf_eq]
  by_cases hv : v ≤ 2
  · simp only [hv, if_true, true_and]
    exact finish_configureWith hidle _
  · rw [if_neg hv, if_neg fun hc => hv hc.1]

end Configure

/-- `CONFIGURE` writes a legal block to PR0..PR14 and refuses an illegal one: the tests are those of `legalParams_iff`, with
the mode read from its operand. Settles O11. -/
theorem configureWritesParameters : Obligations.ConfigureWritesParameters := by
  intro s w h b n e v m t1 t2 t3 r x y rw rh hfsm hbusy m' d1 d2 d3 u1 u2 u3 legal
  have hidle : isIdle s = true := by simp [isIdle, hfsm, hbusy]
  have hlegal : v ≤ 2 ∧ legalParams s.build (paramsOf w h b n e (modeOf v) m t1 t2 t3 r x y rw rh) = true ↔ legal := by
    rw [legalParams_iff]
    constructor
    · rintro ⟨hv, ⟨hw, hh, hb, hb', hn, hmode, hw', hh', hn'⟩, ⟨hm, hm', he, h4, hr, hu1, hu2, hu3, hu⟩, hrect⟩
      exact ⟨hw, hw', hh, hh', hb, hb', hn, hn', hv, fun h2 => hmode ((modeOf_eq_sample hv).2 h2), hm, hm', he, h4, hr,
        hu1, hu2, hu3, hu, hrect⟩
    · rintro ⟨hw, hw', hh, hh', hb, hb', hn, hn', hv, hmode, hm, hm', he, h4, hr, hu1, hu2, hu3, hu, hrect⟩
      exact ⟨hv, ⟨hw, hh, hb, hb', hn, fun hs => hmode ((modeOf_eq_sample hv).1 hs), hw', hh', hn'⟩,
        ⟨hm, hm', he, h4, hr, hu1, hu2, hu3, hu⟩, hrect⟩
  rw [exec_configure (hidle := hidle)]
  exact ⟨fun hl => if_pos (hlegal.2 hl), fun hl => if_neg (mt hlegal.1 hl)⟩

/-! ### Unit TR: the error path (R122, R123, R124) -/

theorem exec_trQerr (e : Int) (s : State) : exec (.trQerr e) s =
    if -(s.tr.maxVal : Int) ≤ e ∧ e ≤ s.tr.maxVal then .next (setResult s [qerr s.tr.near e])
    else .refused .operandRange := by
  change execTrQerr e s = _
  simp only [execTrQerr, finish_require, isDifference_iff]

theorem exec_trModr (q : Int) (s : State) : exec (.trModr q) s =
    if -(s.tr.range : Int) < q ∧ q < s.tr.range then .next (setResult s [modr s.tr.range q])
    else .refused .operandRange := by
  change execTrModr q s = _
  simp only [execTrModr, finish_require, isReducible_iff]

/-- `TR.ERRVAL` asks the operand ranges of both its parts (R103). -/
theorem exec_trErrval (e : Int) (s : State) : exec (.trErrval e) s =
    if (-(s.tr.maxVal : Int) ≤ e ∧ e ≤ s.tr.maxVal) ∧ -(s.tr.range : Int) < qerr s.tr.near e ∧
        qerr s.tr.near e < s.tr.range then .next (setWork s { s.w with err := errval s.tr e })
    else .refused .operandRange := by
  change execTrErrval e s = _
  simp only [execTrErrval, reduceError_eq, isDifference_iff, isReducible_iff]
  split <;> rfl

/-- Each part of the error path answers in its operand range and refuses outside it. Settles O21. -/
theorem errorPathResults : Obligations.ErrorPathResults :=
  fun s e => ⟨exec_trQerr e s, exec_trModr e s, exec_trErrval e s⟩

/-! ### Unit TR: prediction and reconstruction (R126, R127, R128) -/

/-- The correction is the clamp into `0 .. max_val` (R126). -/
theorem corrp_eq_clamp (maxVal : Nat) (p : Int) : corrp maxVal p = max 0 (min p maxVal) := by
  unfold corrp
  split <;> [skip; split] <;> omega

theorem isNear_iff {near : Nat} {a b : Int} : isNear near a b = true ↔ (a - b).natAbs ≤ near := decide_eq_true_iff

theorem exec_trCorrp (p : Int) (s : State) : exec (.trCorrp p) s =
    if -128 ≤ p ∧ p ≤ s.tr.maxVal + 127 then .next (setWork s { s.w with px := max 0 (min p s.tr.maxVal) })
    else .refused .operandRange := by
  change execTrCorrp p s = _
  simp only [execTrCorrp, finish_require, isPrediction_iff, corrp_eq_clamp]

/-- `TR.RECON` dequantizes, wraps once and clamps (R125, R127). -/
theorem exec_trRecon (px err : Int) (s : State) : exec (.trRecon px err) s =
    if 0 ≤ px ∧ px ≤ s.tr.maxVal then
      .next (setWork s { s.w with rx := max 0 (min (wrapSample s.tr (px + deq s.tr.near err)) s.tr.maxVal) })
    else .refused .operandRange := by
  change execTrRecon px err s = _
  simp only [execTrRecon, reconstruct_eq, recon, isSample_iff, corrp_eq_clamp]
  split <;> rfl

theorem exec_trIsnear (a b : Int) (s : State) : exec (.trIsnear a b) s =
    .next (setResult s [if (a - b).natAbs ≤ s.tr.near then 1 else 0]) := by
  change execTrIsnear a b s = _
  simp only [execTrIsnear, finish_ok, isNear_iff]

/-- The prediction is clamped, the sample is rebuilt, and nearness compares. Settles O23. -/
theorem reconstructionResults : Obligations.ReconstructionResults :=
  fun s p e => ⟨exec_trCorrp p s, exec_trRecon p e s, exec_trIsnear p e s⟩

/-! ### Unit QT: the table (R143, R144, R145) -/

theorem exec_qtBuild (bpp near t1 t2 t3 : Nat) (s : State) : exec (.qtBuild bpp near t1 t2 t3) s =
    .next { s with qt := { bpp := bpp, near := near, t1 := t1, t2 := t2, t3 := t3 } } := rfl

theorem exec_qtQuant (d : Int) (s : State) : exec (.qtQuant d) s =
    if -(s.tr.maxVal : Int) ≤ d ∧ d ≤ s.tr.maxVal then .next (setResult s [quantize s.tr d])
    else .refused .operandRange := by
  change execQtQuant d s = _
  simp only [execQtQuant, finish_require, isDifference_iff]

/-- A scan sets up the table of its own traits (R332). -/
theorem scanSetup_qt (dir : Bool) (p0 n : Nat) (s : State) :
    (scanSetup dir p0 n s).qt = scanTable (scanSetup dir p0 n s).tr := rfl

/-- Where the table of the traits is defined, it holds the bin of the gradient (R144, R145). -/
theorem qtRead_scanTable {t : Traits} {d q : Int} (h : qtRead (scanTable t) d = some q) : quantize t d = q := by
  unfold qtRead at h
  split at h
  · exact Option.some.inj h
  · cases h

/-- The table is defined on `-2^bpp .. 2^bpp - 1` with the bins of R143, and `QT.QUANT` answers with the same bins.
Settles O27. -/
theorem tableHoldsTheBins : Obligations.TableHoldsTheBins := by
  refine ⟨fun s bpp near t1 t2 t3 => ?_, fun s d => exec_qtQuant d s, fun s dir p0 n d q t ht hlow hhigh hread => ?_⟩
  · exact ⟨_, exec_qtBuild bpp near t1 t2 t3 s, rfl, fun d => ⟨fun hd => if_pos hd, fun hd => if_neg hd⟩⟩
  · subst ht
    rw [scanSetup_qt] at hread
    rw [exec_qtQuant, if_pos ⟨hlow, hhigh⟩, qtRead_scanTable hread, setResult]

end Sys2Proof.Machine

/-! PROOFS. What every step keeps, and what the classes of operations leave alone (`10_state.md` R20 to R40): the invariant,
PR0..PR14, the traits and the table, and how a scan command ends. Each follows from the closures of `Laws/Preserve`: a
property that the writes of the units keep holds where an operation ends. -/

namespace Sys2Proof.Machine

section Classes

variable {P Q : State → Prop} {i : Instr} {s t : State} {d : Bool} {p n : Nat}

/-! ### All coding operations at once -/

theorem Answers.mono (h : Answers P t) (hPQ : ∀ u, P u → Q u) : Answers Q t :=
  h.imp (hPQ t) fun ⟨e, u, he, hu, ht⟩ => ⟨e, u, he, hPQ u hu, ht⟩

/-- What the writes of every unit keep that codes, in either direction. -/
structure CodingClosed (P : State → Prop) : Prop where
  read : ReadClosed P
  write : WriteClosed P
  scan : ScanClosed P
  deliver : ∀ s l r, P s → P { s with lineDst := l, lineRoom := r }

theorem CodingClosed.and (hp : CodingClosed P) (hq : CodingClosed Q) : CodingClosed fun s => P s ∧ Q s :=
  ⟨hp.read.and hq.read, hp.write.and hq.write, hp.scan.and hq.scan,
    fun s l r h => ⟨hp.deliver s l r h.1, hq.deliver s l r h.2⟩⟩

/-- With the direction of the scan beside it, such a property is one of that direction. -/
theorem CodingClosed.inDirection (h : CodingClosed P) (d : Bool) : DirClosed d fun s => P s ∧ s.dir = d :=
  .of_closed h.read h.write h.scan fun _ => h.deliver

/-- The operations that are neither host commands nor set-ups keep what the units that code keep. -/
theorem coding_ends (h : CodingClosed P) (hhost : opClass i ≠ .host) (hsetup : opClass i ≠ .setup) (hs : P s)
    (hx : exec i s = .next t) : Answers P t := by
  cases hi : opClass i with
  | host => exact absurd hi hhost
  | setup => exact absurd hi hsetup
  | arithmetic => exact arithmetic_ends h.read.toArithClosed hi hs hx
  | reading => exact reading_ends h.read hi hs hx
  | writing => exact writing_ends h.write hi hs hx
  | scanning => exact (scanning_ends (h.inDirection s.dir) hi ⟨hs, rfl⟩ hx).mono fun _ hu => hu.1
  | codeword => exact (codeword_ends (h.inDirection s.dir) hi ⟨hs, rfl⟩ hx).mono fun _ hu => hu.1

/-- Every operation but the host commands keeps what the set-ups keep too. -/
theorem uop_ends (h : CodingClosed P) (hset : SetupClosed P) (hhost : opClass i ≠ .host) (hs : P s)
    (hx : exec i s = .next t) : Answers P t := by
  by_cases hi : opClass i = .setup
  · exact setup_ends hset hi hs hx
  · exact coding_ends h hhost hi hs hx

/-! ### The host commands -/

/-- The scan command of a direction: `true` a decode, as in `SR0.dir` (R340, R341). -/
def scanCommand (d : Bool) (p n : Nat) : Instr := if d then .decodeScan p n else .encodeScan p n

theorem exec_scanCommand (d : Bool) (p n : Nat) (s : State) : exec (scanCommand d p n) s = finish (runScan d p n s) := by
  cases d <;> rfl

/-- The host commands are `CONFIGURE` and the two scan commands. -/
theorem host_cases (hi : opClass i = .host) :
    (∃ w h b n e v m t1 t2 t3 r x y rw rh, i = .configure w h b n e v m t1 t2 t3 r x y rw rh) ∨
      ∃ d p n, i = scanCommand d p n := by
  cases i <;> simp only [opClass, reduceCtorEq] at hi
  case configure => exact .inl ⟨_, _, _, _, _, _, _, _, _, _, _, _, _, _, _, rfl⟩
  case encodeScan p n => exact .inr ⟨false, p, n, rfl⟩
  case decodeScan p n => exact .inr ⟨true, p, n, rfl⟩

/-- A block is written only in `Idle` and only where it is legal, and nothing else is but that one was accepted (R331). -/
theorem configureWith_next {q : Params} (hx : finish (configureWith q s) = .next t) :
    legalParams s.build q = true ∧ t = { s with pr := q, configured := true } := by
  cases hidle : isIdle s with
  | false =>
    rw [configureWith, hidle, require_false] at hx
    cases hx
  | true =>
    rw [finish_configureWith hidle] at hx
    split at hx
    · next hlegal => exact ⟨hlegal, (Host.Outcome.next.inj hx).symm⟩
    · cases hx

/-- An accepted `CONFIGURE` writes a legal block (R331). -/
theorem configure_next {w h b n e v m t1 t2 t3 r x y rw rh : Nat}
    (hx : exec (.configure w h b n e v m t1 t2 t3 r x y rw rh) s = .next t) :
    ∃ q, legalParams s.build q = true ∧ t = { s with pr := q, configured := true } := by
  change execConfigure w h b n e v m t1 t2 t3 r x y rw rh s = _ at hx
  unfold execConfigure at hx
  split at hx
  · cases hx
  · exact ⟨_, configureWith_next hx⟩

/-- Where a scan command ends: the scan was done, or took an error, in a state that has its direction and what the units
that code and the end of a scan keep of its set-up (R344, R378). -/
theorem scanCommand_ends (h : CodingClosed P) (hset : legalParams s.build s.pr = true → P (scanSetup d p n s))
    (hclose : ∀ u, P u → P (closeWriter u)) (hpos : ∀ u q, P u → P { u with bytePos := q })
    (hx : exec (scanCommand d p n) s = .next t) :
    ∃ u, P u ∧ u.dir = d ∧ ((t = scanDone u ∨ t = scanDone (freeSr1 u)) ∨ ∃ e, e ≠ .none ∧ t = raiseErr e u) := by
  rw [exec_scanCommand] at hx
  have hends := runScan_ends (p0 := p) (n := n) (h.inDirection d) (fun hl => ⟨hset hl, rfl⟩)
    (fun u hu => ⟨hclose u hu.1, hu.2⟩) (fun u q hu => ⟨hpos u q hu.1, hu.2⟩)
  rcases finish_eq_next.mp hx with hok | ⟨e, u, hraise, rfl⟩
  · rw [hok] at hends
    obtain ⟨u, ⟨hu, hdir⟩, ht⟩ := hends
    exact ⟨u, hu, hdir, .inl ht⟩
  · rw [hraise] at hends
    obtain ⟨he, hu, hdir⟩ := hends
    exact ⟨u, hu, hdir, .inr ⟨e, he, rfl⟩⟩

/-! ### What the units that code keep -/

theorem Sound.coding : CodingClosed Sound := ⟨Sound.reading, Sound.writing, Sound.scanning, fun _ l r h => h.deliver l r⟩

theorem busy_coding (b : Bool) : CodingClosed fun s => s.busy = b :=
  ⟨busy_reading b, busy_writing b, busy_scanning b, fun _ _ _ h => h⟩

theorem params_coding (s : State) : CodingClosed (SameParams s) :=
  ⟨params_reading s, params_writing s, params_scanning s, fun _ _ _ h => h⟩

theorem kept_coding (s : State) : CodingClosed (Kept s) :=
  ⟨kept_reading s, kept_writing s, kept_scanning s, fun _ l r h => h.deliver l r⟩

/-- The traits of `t` and the lines its host holds ready are those of `s`. -/
def SameSource (s t : State) : Prop := t.tr = s.tr ∧ t.lineSrc = s.lineSrc

theorem source_reading (s : State) : ReadClosed (SameSource s) where
  work _ _ h := h
  result _ _ h := h
  ctx _ _ _ h := h
  rctx _ _ _ _ h := h
  inc _ h := h
  dec _ h := h
  cur _ _ _ _ h := h
  reader _ _ _ h _ := h

theorem source_coding (s : State) : CodingClosed (SameSource s) where
  read := source_reading s
  write := { toUnitClosed := (source_reading s).toUnitClosed, bit := fun _ _ h _ => h, emit := fun _ _ h _ => h,
             buffer := fun _ _ _ h => h, drained := fun _ h => h }
  scan := { prev := fun _ _ _ _ h => h, seq := fun _ _ h => h, load := fun _ _ h => h, store := fun _ _ h => h }
  deliver _ _ _ h := h

/-! ### The invariant (R40, R164, R185) -/

/-- A sound state between steps, or an error taken in one, meets the invariant. -/
theorem Answers.inv (h : Answers (fun u => Sound u ∧ u.busy = false) t) : Inv t := by
  rcases h with ⟨hsound, hbusy⟩ | ⟨e, u, he, ⟨hsound, -⟩, rfl⟩
  · exact ⟨hsound, hbusy⟩
  · exact hsound.raised he

theorem Inv.configured (h : Inv s) {q : Params} (hq : legalParams s.build q = true) :
    Inv { s with pr := q, configured := true } :=
  ⟨⟨h.bytes, h.buf, h.runidxWf, fun _ => hq, h.ctx, h.rctx, h.runindex, h.runidx, h.writer⟩, h.notBusy⟩

theorem Inv.fetched (h : Inv s) (x y : List Byte) : Inv { s with issue := x, host := y } :=
  ⟨⟨h.bytes, h.buf, h.runidxWf, h.params, h.ctx, h.rctx, h.runindex, h.runidx, h.writer⟩, h.notBusy⟩

/-- A scan command leaves a sound state that is not busy, whether it is done or took an error. -/
theorem scanCommand_inv (h : Inv s) (hx : exec (scanCommand d p n) s = .next t) : Inv t := by
  obtain ⟨u, hu, -, (rfl | rfl) | ⟨e, he, rfl⟩⟩ := scanCommand_ends Sound.coding (fun _ => h.toSound.setup d p n)
    (fun _ hu => hu.close) (fun _ q hu => hu.position q) hx
  · exact ⟨hu.done, rfl⟩
  · exact ⟨hu.sr1.done, rfl⟩
  · exact hu.raised he

/-- Every operation keeps the invariant. -/
theorem exec_inv (h : Inv s) (hx : exec i s = .next t) : Inv t := by
  by_cases hi : opClass i = .host
  · obtain ⟨_, _, _, _, _, _, _, _, _, _, _, _, _, _, _, rfl⟩ | ⟨d, p, n, rfl⟩ := host_cases hi
    · obtain ⟨q, hq, rfl⟩ := configure_next hx
      exact h.configured hq
    · exact scanCommand_inv h hx
  · exact (uop_ends (Sound.coding.and (busy_coding false)) (Sound.setups.and (busy_setups false)) hi
      ⟨h.toSound, h.notBusy⟩ hx).inv

/-- Running an operation is fetching it and then executing it. -/
theorem runNext_eq_next : runNext s = .next t ↔ ∃ i u, fetchNext s = .next (i, u) ∧ exec i u = .next t := by
  unfold runNext
  cases hf : fetchNext s with
  | next a =>
    obtain ⟨i, u⟩ := a
    simp
  | fault f => simp
  | refused r => simp

theorem runNext_inv (h : Inv s) (hx : runNext s = .next t) : Inv t := by
  obtain ⟨i, u, hf, hx⟩ := runNext_eq_next.mp hx
  obtain ⟨x, y, rfl⟩ := fetchNext_same hf
  exact exec_inv (h.fetched x y) hx

/-! ### How a scan command ends (R344, R378) -/

/-- A scan command keeps the parameters and the host's lines; it ends idle and done in its direction, with the traits of the
block unless it took an error. -/
theorem scanCommand_next (hx : exec (scanCommand d p n) s = .next t) :
    (t.seq.fsm = .idle ∧ t.busy = false ∧ t.done = true ∧ t.dir = d) ∧ SameParams s t ∧ t.lineSrc = s.lineSrc ∧
      (t.err = .none → t.tr = scanTraits s.pr) := by
  obtain ⟨u, ⟨⟨hpr, hconf⟩, htr, hsrc⟩, hdir, (rfl | rfl) | ⟨e, he, rfl⟩⟩ :=
    scanCommand_ends ((params_coding s).and (source_coding (scanSetup d p n s))) (fun _ => ⟨⟨rfl, rfl⟩, rfl, rfl⟩)
      (fun _ hu => hu) (fun _ _ hu => hu) hx
  · exact ⟨⟨rfl, rfl, rfl, hdir⟩, ⟨hpr, hconf⟩, hsrc, fun _ => htr⟩
  · exact ⟨⟨rfl, rfl, rfl, hdir⟩, ⟨hpr, hconf⟩, hsrc, fun _ => htr⟩
  · exact ⟨⟨rfl, rfl, rfl, hdir⟩, ⟨hpr, hconf⟩, hsrc, fun hnone => absurd hnone he⟩

/-- Taking an error keeps the parameters (R378), so an operation that ends with one keeps them where the units do. -/
theorem Answers.sameParams (h : Answers (SameParams s) t) : SameParams s t := by
  rcases h with h | ⟨e, u, -, hu, rfl⟩
  · exact h
  · exact hu

end Classes

/-! ### The statements -/

/-- The state after reset meets the invariant, as a reset applied in any state does. Settles O7. -/
theorem resetMeetsInvariant : Obligations.ResetMeetsInvariant := resetBlock_inv (s := State.reset) rfl

/-- A step is a reset, of the state or of the state with its pending scan abandoned, or an operation; each keeps the
invariant. Settles O8. -/
theorem everyStepKeepsInvariant : Obligations.EveryStepKeepsInvariant := by
  intro s t hs hx
  cases hr : s.resetIn with
  | off =>
    rw [step_off hr] at hx
    exact runNext_inv hs hx
  | now =>
    rw [step_now hr] at hx
    cases hx
    exact resetBlock_inv hs.bytes
  | midScan =>
    rw [step_midScan hr] at hx
    cases hx
    obtain ⟨-, -, hwf, -⟩ := abandonScan_spec (s := s)
    exact resetBlock_inv (hwf hs.bytes)

/-- A scan command ends idle, not busy and done, in its direction, with the block and the host's lines kept. Settles O12. -/
theorem scanCommandsEndIdle : Obligations.ScanCommandsEndIdle := by
  intro s t p n d hx
  obtain ⟨⟨hfsm, hbusy, hdone, hdir⟩, ⟨hpr, hconf⟩, hsrc, htr⟩ := scanCommand_next (d := d) (p := p) (n := n) hx
  exact ⟨hfsm, hbusy, hdone, hdir, hpr, hconf, hsrc, htr⟩

/-- The scan commands, the set-ups and the operations that code all keep PR0..PR14, and so does taking an error.
Settles O13. -/
theorem onlyConfigureWritesParameters : Obligations.OnlyConfigureWritesParameters := by
  intro i s t hne hx
  by_cases hi : opClass i = .host
  · obtain ⟨w, h, b, n, e, v, m, t1, t2, t3, r, x, y, rw, rh, hc⟩ | ⟨d, p, n, rfl⟩ := host_cases hi
    · exact absurd hc (hne w h b n e v m t1 t2 t3 r x y rw rh)
    · obtain ⟨-, hparams, -⟩ := scanCommand_next hx
      exact hparams
  · exact (uop_ends (params_coding s) (params_setups s) hi ⟨rfl, rfl⟩ hx).sameParams

/-- The units that code write none of the traits, the table, the parameters or the status; an operation that ends without
an error took none. Settles O14. -/
theorem codingKeepsTraits : Obligations.CodingKeepsTraits :=
  fun _ s _ hhost hsetup hx herr => (coding_ends (kept_coding s) hhost hsetup (Kept.refl s) hx).of_none herr

/-- The arithmetic units write only the working registers, the results, the context files and `RUNINDEX`. Settles O15. -/
theorem arithmeticFrame : Obligations.ArithmeticFrame := by
  intro i s t hi hx herr
  have hclosed := ((keptLine_reading s).toArithClosed.and (keptSink_reading s).toArithClosed).and
    (keptBuffers_arithmetic s)
  obtain ⟨⟨hline, hsink⟩, hrd, hbuf⟩ :=
    (arithmetic_ends hclosed hi ⟨⟨KeptLine.refl s, rfl, rfl⟩, rfl, rfl⟩ hx).of_none herr
  exact ⟨hline, hsink, hrd, hbuf, fun a => by rw [hsink.bs]⟩

end Sys2Proof.Machine

/-! PROOFS. What the operations that code leave alone, by the side of the stream they work on (`20_memory.md` R60, R70): the
reading side keeps the writer and every byte, the writing side keeps the reader and stores only where the writer moves, and
the scan loops and the codewords are on the side of `SR0.dir`. -/

namespace Sys2Proof.Machine

section Directions

variable {P : State → Prop} {i : Instr} {s t : State} {d : Bool}

/-! ### The scan loops and the codewords -/

/-- What the reader's side of a scan keeps is kept by a decode: the writer's side does not run. -/
theorem DirClosed.decoding (hr : ReadClosed P) (hp : ScanClosed P)
    (hl : ∀ s l r, P s → P { s with lineDst := l, lineRoom := r }) (hd : ∀ s, P s → s.dir = true) : DirClosed true P where
  dir := hd
  read _ := hr
  write h := nomatch h
  scan := hp
  deliver _ := hl

/-- What the writer's side of a scan keeps is kept by an encode: the reader's side does not run, and no line is delivered. -/
theorem DirClosed.encoding (hw : WriteClosed P) (hp : ScanClosed P) (hd : ∀ s, P s → s.dir = false) :
    DirClosed false P where
  dir := hd
  read h := nomatch h
  write _ := hw
  scan := hp
  deliver h := nomatch h

/-- The scan loops and the codewords keep what the scan in their direction keeps. -/
theorem directed_ends (h : DirClosed d P) (hi : opClass i = .scanning ∨ opClass i = .codeword) (hs : P s)
    (hx : exec i s = .next t) : Answers P t :=
  hi.elim (fun hi => scanning_ends h hi hs hx) fun hi => codeword_ends h hi hs hx

/-! ### The two directions -/

/-- Where the sink is untouched, every byte of the array reads as before. -/
theorem KeptSink.memRead (h : KeptSink s t) (a : Nat) : memRead t.bs a = memRead s.bs a := by rw [h.bs]

/-- Between `s` and `t` a decode may have run: nothing of `Kept`, of the writer or of the sink was written. -/
def DecodeFrame (s t : State) : Prop := Kept s t ∧ KeptSink s t

/-- Between `s` and `t` an encode may have run: nothing of `Kept`, of the reader or of the delivered lines was written, and
bytes were stored only where the writer moved. -/
def EncodeFrame (s t : State) : Prop := Kept s t ∧ SameReader s t ∧ Stored s t

theorem DecodeFrame.refl (s : State) : DecodeFrame s s := ⟨Kept.refl s, rfl, rfl⟩

theorem EncodeFrame.refl (hwf : Memory.wf s.bs = true) : EncodeFrame s s :=
  ⟨Kept.refl s, ⟨rfl, rfl⟩, hwf, StoresForward.refl s⟩

theorem decodeFrame_closed (hd : s.dir = true) : DirClosed true (DecodeFrame s) :=
  .decoding ((kept_reading s).and (keptSink_reading s)) ((kept_scanning s).and (keptSink_scanning s))
    (fun _ l r h => ⟨h.1.deliver l r, h.2.wr, h.2.bs⟩) fun _ h => h.1.dir.trans hd

theorem encodeFrame_closed (hd : s.dir = false) : DirClosed false (EncodeFrame s) :=
  .encoding ((kept_writing s).and ((sameReader_writing s).and (stored_writing s)))
    ((kept_scanning s).and ((sameReader_scanning s).and (stored_scanning s))) fun _ h => h.1.dir.trans hd

end Directions

/-! ### The statements -/

/-- The reader's units write neither the writer nor the sink, and consuming bits moves the reader forward in the same data.
Settles O16. -/
theorem readingFrame : Obligations.ReadingFrame := by
  intro i s t hi hx herr
  have hclosed := (keptLine_reading s).and ((keptSink_reading s).and (readsForward_reading s))
  obtain ⟨hline, hsink, hforward, hstart, hend⟩ :=
    (reading_ends hclosed hi ⟨KeptLine.refl s, ⟨rfl, rfl⟩, le_rfl, rfl, rfl⟩ hx).of_none herr
  exact ⟨hline, hsink, hsink.memRead, hforward, hstart, hend⟩

/-- The writer's units do not write the reader, and every byte they store is at the writer's position, which it moves past.
Settles O17. -/
theorem writingFrame : Obligations.WritingFrame := by
  intro i s t hwf hi hx herr
  have hclosed := (keptLine_writing s).and ((sameReader_writing s).and (stored_writing s))
  obtain ⟨hline, ⟨hrd, -⟩, -, hstores⟩ :=
    (writing_ends hclosed hi ⟨KeptLine.refl s, ⟨rfl, rfl⟩, hwf, StoresForward.refl s⟩ hx).of_none herr
  exact ⟨hline, hrd, hstores⟩

/-- In either direction only the units of its own side run, so a decode has the frame of the reader's side and an encode
that of the writer's. Settles O18. -/
theorem scanningFrame : Obligations.ScanningFrame := by
  intro i s t hwf hi hx herr
  cases hd : s.dir with
  | true =>
    obtain ⟨hkept, hsink⟩ := (directed_ends (decodeFrame_closed hd) hi (DecodeFrame.refl s) hx).of_none herr
    exact ⟨hkept, fun _ => ⟨hsink, hsink.memRead⟩, nofun⟩
  | false =>
    obtain ⟨hkept, ⟨hrd, hlines⟩, -, hstores⟩ :=
      (directed_ends (encodeFrame_closed hd) hi (EncodeFrame.refl hwf) hx).of_none herr
    exact ⟨hkept, nofun, fun _ => ⟨hrd, hlines, hstores⟩⟩

end Sys2Proof.Machine

/-! PROOFS. The encoding of operations and codewords (`30_encoding.md` R90 to R98): what is written is read back, what is
reserved is refused, what a step fetches, and when the host commands are refused. -/

namespace Sys2Proof

/-! ### Operations (R90, R91) -/

/-- Each constructor's operation is read back from its bytes; a codeword is no operation. -/
theorem decode_encode : ∀ i, Laws.RoundTrip.Statement i
  | .configure width height bps ncomp near ilv maxVal t1 t2 t3 reset rectX rectY rectW rectH =>
    Laws.RoundTrip.configure width height bps ncomp near ilv maxVal t1 t2 t3 reset rectX rectY rectW rectH
  | .encodeScan p0 cap => Laws.RoundTrip.encodeScan p0 cap
  | .decodeScan p0 len => Laws.RoundTrip.decodeScan p0 len
  | .trInit maxVal near reset => Laws.RoundTrip.trInit maxVal near reset
  | .trQerr e => Laws.RoundTrip.trQerr e
  | .trModr q => Laws.RoundTrip.trModr q
  | .trErrval e => Laws.RoundTrip.trErrval e
  | .trCorrp p => Laws.RoundTrip.trCorrp p
  | .trRecon px err => Laws.RoundTrip.trRecon px err
  | .trIsnear a b => Laws.RoundTrip.trIsnear a b
  | .qtDeft maxVal near => Laws.RoundTrip.qtDeft maxVal near
  | .qtBuild bpp near t1 t2 t3 => Laws.RoundTrip.qtBuild bpp near t1 t2 t3
  | .qtQuant d => Laws.RoundTrip.qtQuant d
  | .qtCtxid q1 q2 q3 => Laws.RoundTrip.qtCtxid q1 q2 q3
  | .rcInit range => Laws.RoundTrip.rcInit range
  | .rcGetk q => Laws.RoundTrip.rcGetk q
  | .rcCorr q k => Laws.RoundTrip.rcCorr q k
  | .rcUpd q err => Laws.RoundTrip.rcUpd q err
  | .rmInit range => Laws.RoundTrip.rmInit range
  | .rmGetk t => Laws.RoundTrip.rmGetk t
  | .rmMap t err k => Laws.RoundTrip.rmMap t err k
  | .rmErrval t temp k => Laws.RoundTrip.rmErrval t temp k
  | .rmUpd t err em => Laws.RoundTrip.rmUpd t err em
  | .brInit p0 len => Laws.RoundTrip.brInit p0 len
  | .brFill => Laws.RoundTrip.brFill
  | .brRdv n => Laws.RoundTrip.brRdv n
  | .brPeek => Laws.RoundTrip.brPeek
  | .brRdb => Laws.RoundTrip.brRdb
  | .brSkip n => Laws.RoundTrip.brSkip n
  | .brHigh => Laws.RoundTrip.brHigh
  | .brDecv k glimit qbpp => Laws.RoundTrip.brDecv k glimit qbpp
  | .brEnd => Laws.RoundTrip.brEnd
  | .gtBuild => Laws.RoundTrip.gtBuild
  | .gtLook k => Laws.RoundTrip.gtLook k
  | .bwInit p0 cap => Laws.RoundTrip.bwInit p0 cap
  | .bwApp value count => Laws.RoundTrip.bwApp value count
  | .bwFlush => Laws.RoundTrip.bwFlush
  | .bwEncv k m glimit => Laws.RoundTrip.bwEncv k m glimit
  | .bwEnd => Laws.RoundTrip.bwEnd
  | .spNeigh i => Laws.RoundTrip.spNeigh i
  | .spPred ra rb rc => Laws.RoundTrip.spPred ra rb rc
  | .spMape e => Laws.RoundTrip.spMape e
  | .spUnmape m => Laws.RoundTrip.spUnmape m
  | .spEncreg i => Laws.RoundTrip.spEncreg i
  | .spDecreg i => Laws.RoundTrip.spDecreg i
  | .rnIncidx => Laws.RoundTrip.rnIncidx
  | .rnDecidx => Laws.RoundTrip.rnDecidx
  | .rnEnclen runlen eol => Laws.RoundTrip.rnEnclen runlen eol
  | .rnDeclen rem => Laws.RoundTrip.rnDeclen rem
  | .rnEncrierr t err => Laws.RoundTrip.rnEncrierr t err
  | .rnDecrierr t => Laws.RoundTrip.rnDecrierr t
  | .rnEncri x ra rb => Laws.RoundTrip.rnEncri x ra rb
  | .rnDecri ra rb => Laws.RoundTrip.rnDecri ra rb
  | .rnEncrun i => Laws.RoundTrip.rnEncrun i
  | .rnDecrun i => Laws.RoundTrip.rnDecrun i
  | .scGuard => Laws.RoundTrip.scGuard
  | .scLine => Laws.RoundTrip.scLine
  | .scLine3 => Laws.RoundTrip.scLine3
  | .scScan => Laws.RoundTrip.scScan
  | .cwGolomb h r => Laws.RoundTrip.cwGolomb h r
  | .cwEscape v => Laws.RoundTrip.cwEscape v
  | .cwRunseg => Laws.RoundTrip.cwRunseg
  | .cwRunrem n => Laws.RoundTrip.cwRunrem n
  | .cwRuneol => Laws.RoundTrip.cwRuneol
  | .cwPad n => Laws.RoundTrip.cwPad n
  | .cwStuff => Laws.RoundTrip.cwStuff

/-- A selector the table gives no operand count is reserved, whatever follows it (R92). -/
theorem decode_reserved {op : Byte} (h : arityOf op.toNat = none) (bs : List Byte) :
    decode (op :: bs) = .error (.reservedSelector op) := by
  rw [decode, h]

/-! ### The codewords of a context (R94 to R98) -/

variable {c : CwContext} {h n left : Nat} {v rest : List Bool}

/-- A prefix short of the limit is followed by a remainder (R94, R96). -/
theorem decodeValueCw_golomb (hh : h + c.qbpp + 1 < c.glimit) (hv : v.length = c.k) :
    decodeValueCw c ((List.replicate h false ++ true :: v) ++ rest) = some (.cwGolomb h (bitsVal v), rest) := by
  have hle : c.k ≤ (v ++ rest).length := by simp [hv]
  rw [List.append_assoc, List.cons_append, decodeValueCw, unaryPrefix_replicate]
  simp only [hle, List.take_left' hv, List.drop_left' hv, if_true, if_neg (Nat.not_le.2 hh)]

/-- A prefix at the limit is followed by the escaped value (R95, R96). -/
theorem decodeValueCw_escape (hh : c.glimit ≤ h + c.qbpp + 1) (hv : v.length = c.qbpp) :
    decodeValueCw c ((List.replicate h false ++ true :: v) ++ rest) = some (.cwEscape (bitsVal v), rest) := by
  have hle : c.qbpp ≤ (v ++ rest).length := by simp [hv]
  rw [List.append_assoc, List.cons_append, decodeValueCw, unaryPrefix_replicate]
  simp only [hle, List.take_left' hv, List.drop_left' hv, if_true, hh]

/-- A `0` bit is followed by the samples left of the run (R98). -/
theorem decodeRunCw_remainder (hv : v.length = c.j) :
    decodeRunCw c left ((false :: v) ++ rest) = some (.cwRunrem (bitsVal v), rest) := by
  rw [List.cons_append, decodeRunCw, if_pos (by simp [hv]), List.take_left' hv, List.drop_left' hv]

/-! ### What is a codeword of a context (R94, R95, R98) -/

theorem cwBits_golomb {r : Nat} {bits : List Bool} : cwBits c (.cwGolomb h r) = some bits ↔
    (h + c.qbpp + 1 < c.glimit ∧ r < 2 ^ c.k) ∧ List.replicate h false ++ true :: bitsOf r c.k = bits := by
  rw [cwBits, Option.ite_none_right_eq_some, Option.some.injEq]

theorem cwBits_escape {x : Nat} {bits : List Bool} : cwBits c (.cwEscape x) = some bits ↔
    (c.qbpp + 2 ≤ c.glimit ∧ x < 2 ^ c.qbpp) ∧
      List.replicate (c.glimit - c.qbpp - 1) false ++ true :: bitsOf x c.qbpp = bits := by
  rw [cwBits, Option.ite_none_right_eq_some, Option.some.injEq]

theorem cwBits_runrem {bits : List Bool} : cwBits c (.cwRunrem n) = some bits ↔
    n < 2 ^ c.j ∧ false :: bitsOf n c.j = bits := by
  rw [cwBits, Option.ite_none_right_eq_some, Option.some.injEq]

theorem cwBits_runseg {bits : List Bool} : cwBits c .cwRunseg = some bits ↔ [true] = bits := Option.some_inj

theorem cwBits_runeol {bits : List Bool} : cwBits c .cwRuneol = some bits ↔ [true] = bits := Option.some_inj

end Sys2Proof

namespace Sys2Proof.Machine

section Fetching

variable {s : State} {i : Instr} {e : DecodeError} {rest : List Byte}

/-! ### The two fetch places (R90, R92) -/

theorem fetchNext_issue_ok (hi : s.issue ≠ []) (hd : decode s.issue = .ok (i, rest)) :
    fetchNext s = .next (i, { s with issue := rest }) := by
  obtain ⟨b, bs, hs⟩ := List.exists_cons_of_ne_nil hi
  rw [hs] at hd
  simp only [fetchNext, hs, hd]

theorem fetchNext_issue_error (hi : s.issue ≠ []) (hd : decode s.issue = .error e) :
    fetchNext s = .refused (.undecodable e) := by
  obtain ⟨b, bs, hs⟩ := List.exists_cons_of_ne_nil hi
  rw [hs] at hd
  simp only [fetchNext, hs, hd]

theorem fetchNext_host_ok (hi : s.issue = []) (hh : s.host ≠ []) (hd : decode s.host = .ok (i, rest)) :
    fetchNext s = if isHostOperation i then .next (i, { s with host := rest }) else .refused .uopOnHostPort := by
  obtain ⟨b, bs, hs⟩ := List.exists_cons_of_ne_nil hh
  rw [hs] at hd
  simp only [fetchNext, hi, hs, hd]

theorem fetchNext_host_error (hi : s.issue = []) (hh : s.host ≠ []) (hd : decode s.host = .error e) :
    fetchNext s = .refused (.undecodable e) := by
  obtain ⟨b, bs, hs⟩ := List.exists_cons_of_ne_nil hh
  rw [hs] at hd
  simp only [fetchNext, hi, hs, hd]

theorem fetchNext_none (hi : s.issue = []) (hh : s.host = []) : fetchNext s = .fault .noOperation := by
  simp only [fetchNext, hi, hh]

theorem step_issue_ok (hr : s.resetIn = .off) (hi : s.issue ≠ []) (hd : decode s.issue = .ok (i, rest)) :
    step s = exec i { s with issue := rest } := by
  rw [step_off hr, runNext, fetchNext_issue_ok hi hd]

theorem step_issue_error (hr : s.resetIn = .off) (hi : s.issue ≠ []) (hd : decode s.issue = .error e) :
    step s = .refused (.undecodable e) := by
  rw [step_off hr, runNext, fetchNext_issue_error hi hd]

theorem step_host_ok (hr : s.resetIn = .off) (hi : s.issue = []) (hh : s.host ≠ [])
    (hd : decode s.host = .ok (i, rest)) :
    step s = if isHostOperation i then exec i { s with host := rest } else .refused .uopOnHostPort := by
  rw [step_off hr, runNext, fetchNext_host_ok hi hh hd]
  cases isHostOperation i <;> rfl

theorem step_host_error (hr : s.resetIn = .off) (hi : s.issue = []) (hh : s.host ≠ [])
    (hd : decode s.host = .error e) : step s = .refused (.undecodable e) := by
  rw [step_off hr, runNext, fetchNext_host_error hi hh hd]

theorem step_none (hr : s.resetIn = .off) (hi : s.issue = []) (hh : s.host = []) : step s = .fault .noOperation := by
  rw [step_off hr, runNext, fetchNext_none hi hh]

/-- A fetch word has its selector byte at least. -/
theorem fetchBytes_ne_nil (nbits w : Nat) : fetchBytes nbits w ≠ [] := by
  rw [fetchBytes, Nat.add_comm]
  exact List.cons_ne_nil _ _

end Fetching

/-! ### The host commands refused (R92, R331, R340, R341, R404) -/

section HostCommands

variable {s : State} {p n : Nat} {r : Refusal}

theorem isIdle_iff : isIdle s = true ↔ s.seq.fsm = .idle ∧ s.busy = false := by
  simp [isIdle]

theorem isIdle_eq_false (h : s.seq.fsm ≠ .idle ∨ s.busy = true) : isIdle s = false := by
  rw [← Bool.not_eq_true, isIdle_iff]
  rintro ⟨hfsm, hbusy⟩
  rcases h with h | h
  · exact h hfsm
  · exact Bool.false_ne_true (hbusy.symm.trans h)

/-- The tests of a scan command, in their order: each is made where those before it are met. -/
theorem acceptScan_eq (p n : Nat) (s : State) : acceptScan p n s =
    if isIdle s = false then refuse .notIdle
    else if s.configured = false then refuse .notConfigured
    else if legalParams s.build s.pr = false then refuse .illegalParameters
    else if n < p then refuse .operandRange else .ok () := by
  unfold acceptScan
  cases isIdle s with
  | false => rfl
  | true =>
    cases s.configured with
    | false => rfl
    | true =>
      cases legalParams s.build s.pr with
      | false => rfl
      | true =>
        by_cases hpn : p ≤ n
        · simp [hpn]
        · simp [hpn, Nat.lt_of_not_le hpn]

/-- A scan command that is not accepted is refused for the reason of the test it fails. -/
theorem scanCommand_refused (d : Bool) (h : acceptScan p n s = refuse r) :
    exec (scanCommand d p n) s = .refused r := by
  rw [exec_scanCommand, runScan, h]
  rfl

/-- Both scan commands make the same tests. -/
theorem scanCommands_refused (h : acceptScan p n s = refuse r) :
    exec (.encodeScan p n) s = .refused r ∧ exec (.decodeScan p n) s = .refused r :=
  ⟨scanCommand_refused false h, scanCommand_refused true h⟩

/-- `CONFIGURE` is refused on a reserved mode, and outside `Idle` (R331). -/
theorem configure_refused (h : isIdle s = false) (w hgt b nc e v m t1 t2 t3 rs x y rw rh : Nat) :
    ∃ why, exec (.configure w hgt b nc e v m t1 t2 t3 rs x y rw rh) s = .refused why := by
  change ∃ why, execConfigure w hgt b nc e v m t1 t2 t3 rs x y rw rh s = .refused why
  unfold execConfigure
  split
  · exact ⟨_, rfl⟩
  · rw [configureWith, h]
    exact ⟨_, rfl⟩

end HostCommands

/-! ### The statements -/

/-- Reading back is proved for each constructor. Settles O3. -/
theorem decodeInvertsEncode : Obligations.DecodeInvertsEncode :=
  fun i rest hop hwf => decode_encode i hwf hop rest

/-- Each codeword has the prefix of its form and a field of the context's width. Settles O5. -/
theorem codewordsAreReadBack : Obligations.CodewordsAreReadBack := by
  refine ⟨fun c h r rest bits hb => ?_, fun c v rest bits hb => ?_, fun c left rest bits hb hle => ?_,
    fun c left rest bits hb hlt => ?_, fun c n left rest bits hb => ?_⟩
  · obtain ⟨⟨hh, hr⟩, rfl⟩ := cwBits_golomb.1 hb
    rw [decodeValueCw_golomb hh (bitsOf_length r c.k), bitsVal_bitsOf hr]
  · obtain ⟨⟨hh, hv⟩, rfl⟩ := cwBits_escape.1 hb
    rw [decodeValueCw_escape (by omega) (bitsOf_length v c.qbpp), bitsVal_bitsOf hv]
  · rw [← cwBits_runseg.1 hb]
    exact if_pos hle
  · rw [← cwBits_runeol.1 hb]
    exact if_neg (Nat.not_le.2 hlt)
  · obtain ⟨hn, rfl⟩ := cwBits_runrem.1 hb
    rw [decodeRunCw_remainder (bitsOf_length n c.j), bitsVal_bitsOf hn]

/-- A step is a fetch and then the operation fetched. Settles O1. -/
theorem stepRunsDecodedOperation : Obligations.StepRunsDecodedOperation :=
  ⟨fun _ _ _ hr hi hd => step_issue_ok hr hi hd, fun _ _ _ hr hi hh hd => step_host_ok hr hi hh hd,
    fun _ _ hr hi hd => step_issue_error hr hi hd, fun _ _ hr hi hh hd => step_host_error hr hi hh hd,
    fun _ hr hi hh => step_none hr hi hh,
    fun s nbits w _ _ hd => step_issue_ok (s := State.withFetchWord s nbits w) rfl (fetchBytes_ne_nil nbits w) hd⟩

/-- The decoder is run on each. Settles O2. -/
theorem writtenOutOperationsDecode : Obligations.WrittenOutOperationsDecode := by
  unfold Obligations.WrittenOutOperationsDecode
  decide

/-- A selector outside the table has no operand count, so the decoder refuses it before it reads on, and either fetch place
answers as the decoder does. Settles O4. -/
theorem reservedSelectorsAreRefused : Obligations.ReservedSelectorsAreRefused := by
  intro op hop
  have harity : arityOf op.toNat = none := by
    unfold arityOf
    split
    case h_60 => rfl
    all_goals
      next heq => exact absurd hop (by rw [heq]; decide)
  have hdecode := decode_reserved harity
  refine ⟨hdecode, fun s bs hr hi hh => ?_, fun s bs hr hi => ?_⟩
  · exact step_host_error hr hi (by simp [hh]) (hh ▸ hdecode bs)
  · exact step_issue_error hr (by simp [hi]) (hi ▸ hdecode bs)

/-- The tests are made in the order of the statement. Settles O10. -/
theorem hostCommandsRefused : Obligations.HostCommandsRefused := by
  intro s
  refine ⟨fun hbusy => ?_, fun p n hfsm hbusy => ?_⟩
  · have hidle := isIdle_eq_false hbusy
    have haccept : ∀ p n, acceptScan p n s = refuse .notIdle := fun p n => by rw [acceptScan_eq, if_pos hidle]
    exact ⟨configure_refused hidle, fun p n => (scanCommands_refused (haccept p n)).1,
      fun p n => (scanCommands_refused (haccept p n)).2⟩
  · have hidle : isIdle s = true := isIdle_iff.2 ⟨hfsm, hbusy⟩
    refine ⟨fun hconf => scanCommands_refused ?_, fun hconf hlegal => scanCommands_refused ?_,
      fun hconf hlegal hlt => scanCommands_refused ?_⟩
    · simp [acceptScan_eq, hidle, hconf]
    · simp [acceptScan_eq, hidle, hconf, hlegal]
    · simp [acceptScan_eq, hidle, hconf, hlegal, hlt]

end Sys2Proof.Machine

/-! PROOFS. The codewords on the stream (`30_encoding.md` R94 to R99, `45_bit_writer.md` R244): what `BW.ENCV` and each
codeword form append on an encode, and what each form consumes and hands over on a decode. -/

namespace Sys2Proof

/-- A remainder field with one bit more than its value needs begins with a `0` (R98). -/
theorem bitsOf_succ_of_lt {v n : Nat} (h : v < 2 ^ n) : bitsOf v (n + 1) = false :: bitsOf v n := by
  rw [bitsOf, Nat.testBit_lt_two_pow h]

end Sys2Proof

namespace Sys2Proof.Machine

section Codewords

variable {s : State} {h r k m n x glimit : Nat} {bits rest : List Bool}

/-! ### The codewords of `BW.ENCV` (R94, R95, R244) -/

theorem exec_bwEncv (hk : k ≤ 31) : exec (.bwEncv k m glimit) s = finish (encodeValue k m glimit s) := by
  have hcount : isCount k = true := decide_eq_true (Nat.lt_succ_of_le hk)
  change execBwEncv k m glimit s = _
  rw [execBwEncv, hcount, require_true, ok_bind]

theorem valueBits_golomb {q : Nat} (hh : m / 2 ^ k + q + 1 < glimit) :
    valueBits k m glimit q = List.replicate (m / 2 ^ k) false ++ [true] ++ bitsOf (m % 2 ^ k) k := by
  rw [valueBits, if_pos hh, List.append_assoc, List.singleton_append]

theorem valueBits_escape {q : Nat} (hh : glimit ≤ m / 2 ^ k + q + 1) (hm : 1 ≤ m) (hq : m ≤ 2 ^ q) :
    valueBits k m glimit q = List.replicate (glimit - q - 1) false ++ [true] ++ bitsOf (m - 1) q := by
  rw [valueBits, if_neg (Nat.not_lt.2 hh), Nat.mod_eq_of_lt (by omega), List.append_assoc, List.singleton_append]

/-- A value that can be carried is written as its codeword (R244). -/
theorem bwEncv_writes (henc : encodable k m glimit s.tr.qbpp) (hbits : valueBits k m glimit s.tr.qbpp = bits)
    (hf : fits s.wr bits) :
    ∃ v, Appended s.wr bits v ∧ exec (.bwEncv k m glimit) s = .next (afterAppend s bits v) := by
  subst hbits
  obtain ⟨v, hv, hval⟩ := encodeValue_ok henc hf
  obtain ⟨hk, -⟩ := henc
  exact ⟨v, hv, by rw [exec_bwEncv hk, hval, finish_ok]⟩

/-- A limit with no room for the escape prefix is refused (R244). -/
theorem encodeValue_noRoom (hg : glimit ≤ s.tr.qbpp + 1) : encodeValue k m glimit s = refuse .escapeRange := by
  rw [encodeValue, if_pos (by omega)]

/-- A value that neither codeword carries is refused (R244). -/
theorem encodeValue_tooLarge (hh : glimit ≤ m / 2 ^ k + s.tr.qbpp + 1) (hm : m = 0 ∨ 2 ^ s.tr.qbpp < m) :
    encodeValue k m glimit s = refuse .escapeRange := by
  by_cases hg : glimit ≤ s.tr.qbpp + 1
  · exact encodeValue_noRoom hg
  · simp only [encodeValue]
    generalize m / 2 ^ k = q at hh ⊢
    rw [if_neg (by omega), if_neg (by omega), if_neg (by omega)]

/-! ### Codewords written -/

/-- An operation that is one bit group appends its bits, where their bytes fit. -/
theorem exec_appendGroup {i : Instr} {v : Nat} (hx : exec i s = finish (appendGroup v n s)) (hn : n ≤ 31)
    (hv : v < 2 ^ n) (hbits : bitsOf v n = bits) (hf : fits s.wr bits) :
    ∃ w, Appended s.wr bits w ∧ exec i s = .next (afterAppend s bits w) := by
  subst hbits
  obtain ⟨w, hw, happ⟩ := appendGroup_ok hn hv hf
  exact ⟨w, hw, by rw [hx, happ, finish_ok]⟩

/-- The groups of `CW.GOLOMB` fit `BW.APP`: they are those of a mapped value. -/
theorem golombGroups_ok (hh : h ≤ 60) (hk : k ≤ 31) (hr : r < 2 ^ k) :
    ∀ g ∈ golombGroups h r k, g.2 ≤ 31 ∧ g.1 < 2 ^ g.2 := by
  have hdiv : (h * 2 ^ k + r) / 2 ^ k = h := by
    rw [Nat.mul_comm, Nat.mul_add_div (Nat.two_pow_pos k), Nat.div_eq_of_lt hr, Nat.add_zero]
  have hmod : (h * 2 ^ k + r) % 2 ^ k = r := by
    rw [Nat.mul_comm, Nat.mul_add_mod, Nat.mod_eq_of_lt hr]
  have henc : encodable k (h * 2 ^ k + r) (h + 2) 0 := by
    refine ⟨hk, by omega, by omega, ?_⟩
    rw [hdiv, if_pos (by omega)]
    exact hh
  have hok := valueGroups_ok henc
  rwa [valueGroups, hdiv, hmod, if_pos (by omega)] at hok

/-- The groups of `CW.ESCAPE` fit `BW.APP`, its prefix in one part or in two. -/
theorem escapeGroups_ok {q : Nat} (h1 : 1 ≤ n) (hn : n ≤ 62) (hq : q ≤ 31) (hx : x < 2 ^ q) :
    ∀ g ∈ escapeGroups n x q, g.2 ≤ 31 ∧ g.1 < 2 ^ g.2 := by
  intro g hg
  unfold escapeGroups at hg
  rw [List.mem_append, List.mem_singleton] at hg
  rcases hg with hg | rfl
  · split at hg
    · simp only [List.mem_cons, List.not_mem_nil, or_false] at hg
      rcases hg with rfl | rfl
      · exact ⟨le_rfl, by decide⟩
      · exact ⟨by simp only; omega, Nat.one_lt_two_pow (by omega)⟩
    · obtain rfl := List.mem_singleton.1 hg
      exact ⟨by simp only; omega, Nat.one_lt_two_pow (by omega)⟩
  · exact ⟨hq, hx⟩

/-- A mapped-value codeword of the context is appended group by group (R244). -/
theorem valueCodeword_write {i : Instr} {gs : List (Nat × Nat)} (hdir : s.dir = false)
    (hcw : cwBits (cwContext s) i = some bits) (hok : ∀ g ∈ gs, g.2 ≤ 31 ∧ g.1 < 2 ^ g.2)
    (hbits : groupBits gs = bits) (hf : fits s.wr bits) :
    ∃ v, Appended s.wr bits v ∧ valueCodeword i gs s = .ok (afterAppend s bits v) := by
  subst hbits
  obtain ⟨v, hv, happ⟩ := appendGroups_ok hok hf
  refine ⟨v, hv, ?_⟩
  have hword : isCodeword i s = true := by rw [isCodeword, hcw, Option.isSome_some]
  rw [valueCodeword, if_neg (by rw [hdir]; exact Bool.false_ne_true), hword, require_true, ok_bind, happ]

/-- In its context the prefix of the escape leaves what the limit leaves (R95). -/
theorem escape_prefix (hg : (cwContext s).qbpp + 2 ≤ (cwContext s).glimit) :
    (limitNow s - s.tr.qbpp).toNat = (cwContext s).glimit - s.tr.qbpp := by
  simp only [cwContext] at hg ⊢
  omega

theorem jNow_le (s : State) : jNow s ≤ 15 := jOf_le s.runindex

/-! ### Codewords read -/

/-- A mapped-value codeword at its place of the stream is read into `MERR` (R96, R209). -/
theorem valueCodeword_read {i : Instr} {gs : List (Nat × Nat)} {v : Reader} (hdir : s.dir = true)
    (hread : decodeValue s.w.k (limitNow s) s.tr.qbpp s = .ok (m, setReader s v))
    (hnext : decodeValueCw (cwContext s) (remaining s) = some (i, rest)) :
    valueCodeword i gs s = .ok { s with rd := v, w := { s.w with merr := m } } := by
  have hword : isNext i s = true := by simp [isNext, hnext]
  rw [valueCodeword, if_pos hdir, hread, ok_bind]
  simp only [hword, require_true, ok_bind]
  rfl

/-- `CW.RUNSEG` on a decode (R98, R304). -/
theorem runSegment_read (hdir : s.dir = true) (hr : remaining s = true :: rest) (hle : 2 ^ jNow s ≤ runLeft s) :
    ∃ v, Consumed s.rd 1 v ∧ runSegment s = .ok (incIdx (lengthenRun (2 ^ jNow s) (setReader s v))) := by
  obtain ⟨v, hv, hread⟩ := readBit_ok hr
  refine ⟨v, hv, ?_⟩
  rw [runSegment, if_pos hdir, hread, ok_bind]
  simp only [hle, decide_true, Bool.and_true, require_true, ok_bind]

/-- `CW.RUNEOL` on a decode (R98, R304). -/
theorem runEndOfLine_read (hdir : s.dir = true) (hr : remaining s = true :: rest) (hpos : 0 < runLeft s)
    (hlt : runLeft s < 2 ^ jNow s) :
    ∃ v, Consumed s.rd 1 v ∧ runEndOfLine s = .ok (lengthenRun (runLeft s) (setReader s v)) := by
  obtain ⟨v, hv, hread⟩ := readBit_ok hr
  refine ⟨v, hv, ?_⟩
  rw [runEndOfLine, if_pos hdir, hread, ok_bind]
  simp only [hpos, hlt, decide_true, Bool.and_true, require_true, ok_bind]

/-- `CW.RUNREM` on a decode, inside the line (R98, R304). -/
theorem runRemainder_read (hdir : s.dir = true) (hn : n < 2 ^ jNow s) (hle : n ≤ runLeft s) (hpos : 0 < runLeft s)
    (hr : remaining s = false :: (bitsOf n (jNow s) ++ rest)) :
    ∃ v, Consumed s.rd (1 + jNow s) v ∧ runRemainder n s = .ok (lengthenRun n (setReader s v)) := by
  obtain ⟨v, hv, hbit⟩ := readBit_ok hr
  have hrem : remaining (setReader s v) = bitsOf n (jNow s) ++ rest := by rw [remaining_consumed hv, hr]; rfl
  obtain ⟨u, hu, hval⟩ := readValue_ok (by rw [bitsOf_length]; exact (jNow_le s).trans (by decide)) hrem
  rw [bitsOf_length] at hu hval
  rw [bitsVal_bitsOf hn] at hval
  have hword : isCodeword (.cwRunrem n) s = true := by
    rw [isCodeword, cwBits, if_pos (show n < 2 ^ (cwContext s).j from hn), Option.isSome_some]
  refine ⟨u, hv.trans hu, ?_⟩
  rw [runRemainder, hword, require_true, ok_bind, if_pos hdir, decide_eq_true hpos, require_true, ok_bind, hbit, ok_bind]
  simp only [Bool.not_false, require_true, ok_bind]
  rw [hval, ok_bind]
  simp only [decide_true, require_true, ok_bind, if_neg (Nat.not_lt.2 hle), setReader_setReader]

/-- `CW.PAD` on a decode (R99). -/
theorem padCodeword_read (hdir : s.dir = true) (h7 : toBoundary s ≤ 7)
    (hr : remaining s = List.replicate (toBoundary s) false ++ rest) :
    ∃ v, Consumed s.rd (toBoundary s) v ∧ padCodeword (toBoundary s) s = .ok (setReader s v) := by
  obtain ⟨v, hv, hread⟩ := readValue_ok (by rw [List.length_replicate]; omega) hr
  rw [List.length_replicate] at hv hread
  rw [← bitsOf_zero, bitsVal_bitsOf (Nat.two_pow_pos _)] at hread
  refine ⟨v, hv, ?_⟩
  rw [padCodeword, if_pos hdir, decide_eq_true rfl, require_true, ok_bind, hread, ok_bind]
  rfl

/-- `CW.STUFF` is part of no codeword: at its place it changes nothing (R99). -/
theorem exec_cwStuff (hs : atStuffedBit s = true) : exec .cwStuff s = .next s := by
  change finish (stuffCodeword s) = _
  rw [stuffCodeword, hs]
  rfl

end Codewords

/-! ### The statements -/

/-- `BW.ENCV` appends the bit groups of the value's codeword, or refuses by one of its two tests. Settles O44. -/
theorem encodedValueIsItsCodeword : Obligations.EncodedValueIsItsCodeword := by
  intro s k m glimit hk hq
  refine ⟨fun hh h60 => ?_, fun hg hh hg62 hm hm' => ?_, fun hh hm => ?_, fun hg => ?_⟩
  · have hroom : s.tr.qbpp + 2 ≤ glimit := by generalize m / 2 ^ k = q at hh; omega
    have henc : encodable k m glimit s.tr.qbpp := ⟨hk, hq, hroom, by rw [if_pos hh]; exact h60⟩
    exact bwEncv_writes henc (valueBits_golomb hh)
  · have henc : encodable k m glimit s.tr.qbpp :=
      ⟨hk, hq, hg, by rw [if_neg (Nat.not_lt.2 hh)]; exact ⟨hm, hm', hg62⟩⟩
    exact bwEncv_writes henc (valueBits_escape hh hm hm')
  · rw [exec_bwEncv hk, encodeValue_tooLarge hh hm, finish_refuse]
  · rw [exec_bwEncv hk, encodeValue_noRoom hg, finish_refuse]

/-- Each form is one bit group, or the groups of a mapped value. Settles O59. -/
theorem codewordsAreWritten : Obligations.CodewordsAreWritten := by
  intro s hdir
  have hdir' : ¬s.dir = true := by rw [hdir]; exact Bool.false_ne_true
  refine ⟨fun h r bits hk hh hb hf => ?_, fun x bits hq hg hb hf => ?_, fun bits hb hf => ?_,
    fun n bits _ hb hf => ?_, fun bits hb hf => ?_, fun hok hf => ?_, fun hff hacc => ?_⟩
  · obtain ⟨⟨-, hr⟩, hbits⟩ := cwBits_golomb.1 hb
    obtain ⟨v, hv, hcw⟩ := valueCodeword_write hdir hb (golombGroups_ok hh hk hr) (groupBits_golomb.trans hbits) hf
    exact ⟨v, hv, congrArg finish hcw⟩
  · obtain ⟨⟨hroom, hx⟩, hbits⟩ := cwBits_escape.1 hb
    have hprefix := escape_prefix hroom
    have hroom' : s.tr.qbpp + 2 ≤ (cwContext s).glimit := hroom
    have hgroups : groupBits (escapeGroups (limitNow s - s.tr.qbpp).toNat x s.tr.qbpp) = bits := by
      rw [hprefix, groupBits_escape (by omega)]
      exact hbits
    obtain ⟨v, hv, hcw⟩ := valueCodeword_write hdir hb
      (escapeGroups_ok (n := (limitNow s - s.tr.qbpp).toNat) (by omega) (by omega) hq hx) hgroups hf
    exact ⟨v, hv, congrArg finish hcw⟩
  · rw [← cwBits_runseg.1 hb] at hf ⊢
    obtain ⟨v, hv, happ⟩ := appendGroup_ok (value := 1) (count := 1) (by decide) (by decide) hf
    refine ⟨v, hv, ?_⟩
    change finish (runSegment s) = _
    rw [runSegment, if_neg hdir', happ]
    rfl
  · obtain ⟨hn, hbits⟩ := cwBits_runrem.1 hb
    have hn' : n < 2 ^ jNow s := hn
    have hj := jNow_le s
    have hword : isCodeword (.cwRunrem n) s = true := by rw [isCodeword, hb, Option.isSome_some]
    refine exec_appendGroup (v := n) (n := jNow s + 1) ?_ (by omega)
      (hn'.trans (Nat.pow_lt_pow_right (by decide) (Nat.lt_succ_self _))) ((bitsOf_succ_of_lt hn').trans hbits) hf
    change finish (runRemainder n s) = _
    rw [runRemainder, hword, require_true, ok_bind, if_neg hdir']
  · rw [← cwBits_runeol.1 hb] at hf ⊢
    exact exec_appendGroup (v := 1) (n := 1) (congrArg finish (if_neg hdir')) (by decide) (by decide) rfl hf
  · have hlen : padLength s.wr ≤ 31 := by
      unfold padLength byteRoom
      split <;> [skip; split] <;> omega
    have hexec : exec (.cwPad (padLength s.wr)) s = finish (appendGroup 0 (padLength s.wr) s) := by
      change finish (padCodeword (padLength s.wr) s) = _
      rw [padCodeword, if_neg hdir', decide_eq_true rfl, require_true, ok_bind]
    obtain ⟨v, hv, happ⟩ := exec_appendGroup hexec hlen (Nat.two_pow_pos _) (bitsOf_zero _) hf
    exact ⟨v, hv, by rw [hv.wacc, stuffBits_pad hok], happ⟩
  · exact exec_cwStuff (by simp [atStuffedBit, hdir, hff, hacc])

/-- Each form reads what the decoder of its context finds at this place. Settles O60. -/
theorem codewordsAreRead : Obligations.CodewordsAreRead := by
  intro s hdir
  refine ⟨fun h r bits rest hk hb hr => ?_, fun x bits rest hq hb hr => ?_, fun rest hr hle => ?_,
    fun n rest _ hn hle hpos hr => ?_, fun rest hr hpos hlt => ?_, fun rest h7 hr => ?_, exec_cwStuff⟩
  · obtain ⟨⟨hh, hrem⟩, rfl⟩ := cwBits_golomb.1 hb
    have hnext := decodeValueCw_golomb (rest := rest) hh (bitsOf_length r (cwContext s).k)
    rw [bitsVal_bitsOf hrem, ← hr] at hnext
    have hlimit : (h : Int) < limitNow s - (s.tr.qbpp + 1) := by
      simp only [cwContext] at hh
      omega
    obtain ⟨v, hv, hread⟩ := decodeValue_golomb (r := bitsOf r s.w.k) (by rw [bitsOf_length]; exact hk) hlimit
      (by rw [hr, List.append_assoc]; rfl)
    rw [bitsOf_length] at hv hread
    rw [bitsVal_bitsOf (show r < 2 ^ s.w.k from hrem)] at hread
    refine ⟨v, ?_, congrArg finish (valueCodeword_read hdir hread hnext)⟩
    simpa [cwContext, Nat.add_assoc, Nat.add_comm 1] using hv
  · obtain ⟨⟨hroom, hx⟩, rfl⟩ := cwBits_escape.1 hb
    have hnext := decodeValueCw_escape (c := cwContext s) (h := (cwContext s).glimit - (cwContext s).qbpp - 1)
      (rest := rest) (by omega) (bitsOf_length x (cwContext s).qbpp)
    rw [bitsVal_bitsOf hx, ← hr] at hnext
    have hlimit : limitNow s - ((bitsOf x s.tr.qbpp).length + 1) ≤
        (((cwContext s).glimit - (cwContext s).qbpp - 1 : Nat) : Int) := by
      rw [bitsOf_length]
      simp only [cwContext] at hroom ⊢
      omega
    obtain ⟨v, hv, hread⟩ := decodeValue_escape (k := s.w.k) (v := bitsOf x s.tr.qbpp)
      (by rw [bitsOf_length]; exact hq) hlimit (by rw [hr, List.append_assoc]; rfl)
    rw [bitsOf_length] at hv hread
    rw [bitsVal_bitsOf (show x < 2 ^ s.tr.qbpp from hx)] at hread
    refine ⟨v, ?_, congrArg finish (valueCodeword_read hdir hread hnext)⟩
    simpa [cwContext, Nat.add_assoc, Nat.add_comm 1] using hv
  · obtain ⟨v, hv, hseg⟩ := runSegment_read hdir hr hle
    exact ⟨v, hv, congrArg finish hseg⟩
  · obtain ⟨v, hv, hrem⟩ := runRemainder_read hdir hn hle hpos hr
    exact ⟨v, hv, congrArg finish hrem⟩
  · obtain ⟨v, hv, heol⟩ := runEndOfLine_read hdir hr hpos hlt
    exact ⟨v, hv, congrArg finish heol⟩
  · obtain ⟨v, hv, hpad⟩ := padCodeword_read hdir h7 hr
    exact ⟨v, hv, congrArg finish hpad⟩

end Sys2Proof.Machine

/-! PROOFS. One sample in regular mode (`46_sample_pipeline.md` R273 to R277): what its range is, and that the decoder reads
the encoder's codeword back. -/

namespace Sys2Proof.Machine

section Regular

variable {s : State} {i ch k : Nat}

/-! ### The regular sample out of range (R10, R103) -/

/-- `SP.ENCREG` asks for an index of the line (R270). -/
theorem exec_spEncreg (i : Nat) (s : State) : exec (.spEncreg i) s =
    if i < s.pr.width then finish (encodeRegular i 0 s) else .refused .operandRange := by
  change execSpEncreg i s = _
  simp only [execSpEncreg, isIndex, require_bind, decide_eq_true_eq]
  split <;> rfl

/-- So does `SP.DECREG`. -/
theorem exec_spDecreg (i : Nat) (s : State) : exec (.spDecreg i) s =
    if i < s.pr.width then finish (decodeRegular i 0 s) else .refused .operandRange := by
  change execSpDecreg i s = _
  simp only [execSpDecreg, isIndex, require_bind, decide_eq_true_eq]
  split <;> rfl

theorem isContext_of_lt (hq : s.w.qs.natAbs < 365) : isContext (contextIndex s) = true := decide_eq_true hq

theorem isCorrected_eq_false (h : biasedPrediction s < -128 ∨ (s.tr.maxVal : Int) + 128 < biasedPrediction s) :
    isCorrected s.tr (biasedPrediction s) = false := by
  rw [← Bool.not_eq_true, isCorrected_iff]
  omega

/-- `SP.ENCREG` refuses where the corrected prediction or the difference is out of range (R103). -/
theorem encodeRegular_refused (hq : isContext (contextIndex s) = true)
    (hk : golombK (ctxAt s (contextIndex s)).n (ctxAt s (contextIndex s)).a = some k)
    (h : isCorrected s.tr (biasedPrediction s) = false ∨ ¬regularInRange s) :
    encodeRegular i ch s = refuse .operandRange := by
  unfold encodeRegular
  cases hp : isCorrected s.tr (biasedPrediction s) with
  | false => rw [predictSample_refused hq hp hk]; rfl
  | true =>
    have hd : ¬regularInRange s := h.resolve_left (by rw [hp]; exact Bool.noConfusion)
    rw [predictSample_ok hq hp hk, ok_bind]
    simp only [setWork_w, reduceError_setWork]
    rw [reduceError_eq, if_neg fun hc => hd hc.1]
    rfl

/-- `SP.DECREG` refuses where the corrected prediction is out of range (R103). -/
theorem decodeRegular_refused (hq : isContext (contextIndex s) = true)
    (hk : golombK (ctxAt s (contextIndex s)).n (ctxAt s (contextIndex s)).a = some k)
    (hp : isCorrected s.tr (biasedPrediction s) = false) : decodeRegular i ch s = refuse .operandRange := by
  rw [decodeRegular_eq, predictSample_refused hq hp hk]
  rfl

/-! ### What the decoder reads (R277) -/

/-- A mask moves an error by one at most (R162). -/
theorem xorMask_natAbs_le (mask v : Int) : (xorMask mask v).natAbs ≤ v.natAbs + 1 := by
  unfold xorMask
  split <;> omega

/-- The mapped value of a sample is of a legal error (R277). -/
theorem unmap_regularValue_le (hb : TraitsBounds s.tr) (hx : isSample s.tr s.w.x = true) (k : Nat) :
    (unmapError (regularValue k s)).natAbs ≤ 65535 := by
  have herr := regularError_abs hb hx
  have hmask := xorMask_natAbs_le (errorCorrection (ctxAt s (contextIndex s)) (k ||| s.tr.near)) (regularError s)
  rw [regularValue, unmap_map]
  omega

/-- A codeword whose error is too large for `ERR_MAG` is too long for the short-code table (R213, R277). -/
theorem valueBits_long {m glimit q : Nat} (hh : m / 2 ^ k + q + 1 < glimit) (hm : 65535 < (unmapError m).natAbs) :
    8 < (valueBits k m glimit q).length := by
  have hlarge : 131070 ≤ m := by
    unfold unmapError at hm
    split at hm <;> omega
  rw [valueBits, if_pos hh, List.length_append, List.length_replicate, List.length_cons, bitsOf_length]
  by_contra hshort
  have hdiv : m < (m / 2 ^ k + 1) * 2 ^ k := Nat.lt_mul_of_div_lt (Nat.lt_succ_self _) (Nat.two_pow_pos k)
  generalize m / 2 ^ k = h at hdiv hshort
  have hpow : 2 ^ k ≤ 2 ^ 7 := Nat.pow_le_pow_right (by decide) (by omega)
  have hprod : (h + 1) * 2 ^ k ≤ 8 * 2 ^ 7 := Nat.mul_le_mul (by omega) hpow
  omega

end Regular

/-! ### The statements on the regular sample -/

/-- In range the sample is coded as `encodeRegular_ok` says; out of range one of the two tests refuses. Settles O48. -/
theorem regularSampleEncodes : Obligations.RegularSampleEncodes := by
  refine ⟨fun s i ht hc hq hi => ?_, fun s i hi => ?_⟩
  · have hb := ht.bounds
    have hctx := isContext_of_lt hq
    obtain ⟨k, hk, hle⟩ := hc.golombK hb
    refine ⟨fun ha hr => isCorrected_iff.1 (isCorrected_of ha hr ⟨hc.cLow, hc.cHigh⟩), fun hx => ?_,
      fun hlow hhigh hdiff => ?_, fun hout => ?_⟩
    · obtain ⟨hnear, hnear'⟩ := regular_near hb hx
      exact ⟨regularInRange_iff.1 (regularInRange_of_sample hx), by omega⟩
    · have hx : regularInRange s := regularInRange_iff.2 hdiff
      have henc := encodable_regular hb hle hx
      refine ⟨k, hle, hk, henc, fun hf => ?_⟩
      obtain ⟨v, hv, hcode⟩ := encodeRegular_ok hb hx hctx (isCorrected_iff.2 ⟨hlow, hhigh⟩) hk henc hf
      exact ⟨v, hv, by rw [exec_spEncreg, if_pos hi, hcode, finish_ok]⟩
    · rw [exec_spEncreg, if_pos hi, encodeRegular_refused hctx hk, finish_refuse]
      rw [regularInRange_iff]
      rcases hout with h | h | h
      · exact .inl (isCorrected_eq_false (.inl h))
      · exact .inl (isCorrected_eq_false (.inr h))
      · exact .inr (Nat.not_le.2 h)
  · rw [exec_spEncreg, if_neg (Nat.not_lt.2 hi)]

/-- The decoder finds the mapped value of the codeword and undoes the mask with the same context. Settles O49. -/
theorem regularSampleDecodes : Obligations.RegularSampleDecodes := by
  refine ⟨fun s i x rest ht hc hq hi hlow hhigh hx => ?_,
    fun s i k m rest ht hc hq hi hlow hhigh hk hh hm hr => ?_, fun s i ht hc hq hout => ?_, fun s i hi => ?_⟩
  · have hb := ht.bounds
    obtain ⟨k, hk, hle⟩ := hc.golombK hb
    refine ⟨k, hle, hk, ?_⟩
    intro e bits hr
    have hxe : isSample e.tr e.w.x = true := hx
    have henc : encodable k (regularValue k e) s.tr.limit s.tr.qbpp :=
      encodable_regular (s := e) hb hle (regularInRange_of_sample hxe)
    obtain ⟨v, hv, hcode⟩ := decodeRegular_ok (i := i) (ch := 0) (isContext_of_lt hq) (isCorrected_iff.2 ⟨hlow, hhigh⟩) hk
      henc (by have := hb.room; omega) (unmap_regularValue_le (s := e) hb hxe k) hr
    have herr : decodedError k (regularValue k e) s = regularError e := decodedError_regularValue k e
    rw [herr] at hcode
    exact ⟨v, hv, by rw [exec_spDecreg, if_pos hi, hcode]; rfl⟩
  · have hb := ht.bounds
    obtain ⟨hk32, -⟩ := golombK_spec hk
    have hbits : remaining s = valueBits k m s.tr.limit s.tr.qbpp ++ rest := by
      rw [hr, valueBits, if_pos hh, List.append_assoc, List.cons_append]
    obtain ⟨u, hpr, hbs, hcode⟩ := decodeRegular_large (i := i) (ch := 0) (isContext_of_lt hq)
      (isCorrected_iff.2 ⟨hlow, hhigh⟩) hk (by omega) hh (by have := hb.room; omega) (valueBits_long hh hm) hm hbits
    exact ⟨u, hpr, hbs, by rw [exec_spDecreg, if_pos hi, hcode, finish_raise]⟩
  · obtain ⟨k, hk, -⟩ := hc.golombK ht.bounds
    rw [exec_spDecreg, decodeRegular_refused (isContext_of_lt hq) hk (isCorrected_eq_false hout), finish_refuse,
      ite_self]
  · rw [exec_spDecreg, if_neg (Nat.not_lt.2 hi)]

end Sys2Proof.Machine

/-! PROOFS. The sample that interrupts a run (`47_run_mode.md` R305 to R308), and a line of samples or triplets
(`48_scan_driver.md` R334, R335). -/

namespace Sys2Proof.Machine

section Interruption

variable {s t : State} {x ra rb : Int} {rest : List Bool}

/-! ### Out of range (R10, R103) -/

/-- An operation that never completes answers a next state only by taking an error (R378). -/
theorem finish_err {P : State → Prop} {y : Res State} (h : Ends id P y) (hno : ∀ u, y ≠ .ok u) (hx : finish y = .next t) :
    t.err ≠ .none := by
  rcases finish_eq_next.mp hx with hok | ⟨e, u, hraise, rfl⟩
  · exact absurd hok (hno t)
  · exact (h.elim_raised hraise).1

/-- The base of the sample as the statement writes it (R307). -/
theorem riBase_eq (near : Nat) (ra rb : Int) : riBase near ra rb = if (ra - rb).natAbs ≤ near then ra else rb := by
  simp only [riBase, isNear_iff]

/-- `RN.ENCRI` refuses a difference outside the range of `TR.ERRVAL` (R103). -/
theorem encodeRi_tooLarge (h : s.tr.maxVal < (x - riBase s.tr.near ra rb).natAbs) :
    encodeRi x ra rb s = refuse .operandRange := by
  have hdiff : ¬isDifference s.tr ((x - riBase s.tr.near ra rb) * riSign s.tr.near ra rb) = true := by
    rw [isDifference_iff]
    rcases riSign_cases s.tr.near ra rb with hs | hs <;> rw [hs] <;> omega
  rw [encodeRi_eq, reduceError_eq, if_neg fun hc => hdiff hc.1]
  rfl

theorem reconstruct_refused {px : Int} (h : isSample s.tr px = false) (err : Int) :
    reconstruct px err s = refuse .operandRange := by
  rw [reconstruct_eq, if_neg (by rw [h]; exact Bool.false_ne_true)]

/-- The traits stand while the error is coded, so the sample cannot be rebuilt on a base that is none (R103). -/
theorem encodeRi_ne_ok (h : isSample s.tr (riBase s.tr.near ra rb) = false) (u : State) : encodeRi x ra rb s ≠ .ok u := by
  rw [encodeRi_eq]
  intro hok
  obtain ⟨err, -, hok⟩ := bind_eq_ok.1 hok
  obtain ⟨s', hs', hok⟩ := bind_eq_ok.1 hok
  have htr : s'.tr = s.tr :=
    ((encodeRiError_ends (kept_writing _) (Kept.refl (setWork s { s.w with err := err }))).elim_ok hs').tr
  rw [reconstruct_refused (htr ▸ h)] at hok
  exact nomatch hok

/-- The same on a decode. -/
theorem decodeRi_ne_ok (h : isSample s.tr (riBase s.tr.near ra rb) = false) (u : State) : decodeRi ra rb s ≠ .ok u := by
  rw [decodeRi_eq]
  intro hok
  obtain ⟨s', hs', hok⟩ := bind_eq_ok.1 hok
  have htr : s'.tr = s.tr := ((decodeRiError_ends (kept_reading s) (Kept.refl s)).elim_ok hs').tr
  rw [reconstruct_refused (htr ▸ h)] at hok
  exact nomatch hok

/-! ### On samples -/

theorem riType_le (s : State) (ra rb : Int) : riType s ra rb ≤ 1 := by
  unfold riType
  split <;> decide

/-- The codeword of a run-interruption error has a bounded length (R305, R407). -/
theorem riBits_length (hb : TraitsBounds s.tr) {i k : Nat} {err : Int} (hk : k ≤ 25) :
    (riBits i err k s).length ≤ elementBits := by
  have hj := jOf_le s.runindex
  have hroom := hb.room
  have hlimit := hb.limitHigh
  have hshort : (riBits i err k s).length ≤ 90 :=
    valueBits_length_le hk hb.qbppHigh (by unfold riGlimit; omega) (by unfold riGlimit; omega)
  exact hshort.trans (by decide)

end Interruption

/-! ### The statements -/

/-- The two operations share the base, the sign and the type of the sample, so the decoder finds the encoder's error; what is
refused is refused by the part that tests it. Settles O52. -/
theorem runInterruptionRoundTrips : Obligations.RunInterruptionRoundTrips := by
  refine ⟨fun s x ra rb h => ?_, fun s x ra rb t h hx => ?_, fun s x ra rb ht h0 h1 hri hx ha hr => ⟨fun hab hxa => ?_,
    fun hn hroom => ?_⟩⟩
  · rw [← riBase_eq] at h
    exact congrArg finish (encodeRi_tooLarge h)
  · rw [← riBase_eq] at h
    rcases hx with hx | hx
    · exact finish_err (encodeRi_ends (kept_writing s) (Kept.refl s)) (encodeRi_ne_ok h) hx
    · exact finish_err (decodeRi_ends (kept_reading s) (Kept.refl s)) (decodeRi_ne_ok h) hx
  · obtain ⟨k, hk, -⟩ := h1.golombK ht.bounds (i := 1) le_rfl
    exact congrArg finish (encodeRi_refused ht.bounds hk hx ha (isNear_iff.2 hab) (isNear_iff.2 hxa))
  · have hb := ht.bounds
    have hgood : GoodRun s.tr (rctxAt s (riType s ra rb)) := by
      unfold riType
      split
      · exact h1
      · exact h0
    obtain ⟨k, hk, hle⟩ := hgood.golombK hb (riType_le s ra rb)
    have hnear : isNear s.tr.near ra rb = true → isNear s.tr.near x ra = false := fun hab =>
      decide_eq_false fun hxa => hn ⟨isNear_iff.1 hab, hxa⟩
    obtain ⟨v, hv, henc⟩ := encodeRi_ok hb hk hle hx ha hr hnear (hroom.fits (riBits_length hb hle))
    obtain ⟨hlow, hhigh⟩ := ri_near hb hx ha hr
    refine ⟨_, _, congrArg finish henc, hv, rfl, recon_sample _ _ _, by simp only [setWork_w]; omega, rfl,
      fun d rest htr hrctx hrun hrem => ?_⟩
    have htype : riType d ra rb = riType s ra rb := by rw [riType, riType, htr]
    rw [← riBits_eq htr hrctx hrun, ← htype, ← htr] at hrem
    obtain ⟨r, hread, hdec⟩ := decodeRi_ok (s := d) (by rw [htr]; exact hb) (by rw [htype, rctxAt_eq hrctx]; exact hk) hle
      (by rw [htr]; exact hx) (by rw [htr]; exact ha) (by rw [htr]; exact hr) (by rw [htr]; exact hnear) hrem
    refine ⟨_, congrArg finish hdec, ?_⟩
    refine ⟨by simp only [setWork_w, htr], ?_, by simp only [setWork_w, htr],
      (remaining_consumed hread).trans (by rw [hrem, List.drop_left]), hrun⟩
    simp only [setWork_rctx, setRctx_rctx, setReader_rctx, htype, htr, hrctx, riContext_eq htr hrctx]
    rfl

/-! ### A line -/

/-- A turn that is refused ends the line (R334). -/
theorem lineLoop_refused {turn : State → Res State} {s : State} {r : Refusal} {n : Nat} (hn : 1 ≤ n)
    (hi : s.seq.i < s.pr.width) (hturn : turn s = refuse r) : lineLoop turn n s = refuse r := by
  cases n with
  | zero => exact absurd hn (by decide)
  | succ n =>
    rw [lineLoop, if_pos hi, hturn]
    rfl

/-- A line starts at its first element, wherever the sequencer stood (R334). -/
theorem exec_line (s : State) : exec (if s.pr.ilv = .sample then .scLine3 else .scLine) s =
    finish (codeElements (setSeq s { s.seq with i := 0 })) := by
  unfold codeElements
  by_cases hs : s.pr.ilv = .sample
  · rw [if_pos hs, if_pos (show (setSeq s { s.seq with i := 0 }).pr.ilv = .sample from hs)]
    rfl
  · rw [if_neg hs, if_neg (show ¬(setSeq s { s.seq with i := 0 }).pr.ilv = .sample from hs)]
    rfl

theorem legalParams_width {b : Build} {p : Params} (h : legalParams b p = true) : 1 ≤ p.width := by
  obtain ⟨⟨hw, -⟩, -⟩ := legalParams_iff.1 h
  exact hw

/-- The whole line is coded turn by turn from its first element. Settles O55. -/
theorem linesEncode : Obligations.LinesEncode := by
  refine ⟨fun s hw hg => ?_, fun s hinv hlegal hdir hok hroom => ?_⟩
  · have hg' : gradientsInRange 0 0 (setSeq s { s.seq with i := 0 }) = false := hg
    have hi : (setSeq s { s.seq with i := 0 }).seq.i < (setSeq s { s.seq with i := 0 }).pr.width := hw
    refine ⟨congrArg finish (lineLoop_refused hw hi ?_), congrArg finish (lineLoop_refused hw hi ?_)⟩
    · simp only [lineStep, setSeq_seq, hg', require_false]
      rfl
    · simp only [lineStep3, setSeq_seq, hg', Bool.false_and, require_false]
      rfl
  · have hinv' : ScanInv (setSeq s { s.seq with i := 0 }) := hinv.congr rfl rfl rfl rfl rfl rfl
    obtain ⟨t, bits, ht⟩ := line_coded hinv' hdir (legalParams_width hlegal) rfl hroom
    have hseq := ht.seq
    have hy : t.seq.y = s.seq.y := by rw [hseq]; rfl
    have hc : t.seq.c = s.seq.c := by rw [hseq]; rfl
    refine ⟨t, by rw [exec_line, ht.run, finish_ok], ht.inv, by rw [hseq]; exact Nat.zero_add _, by rw [hseq], hy, hc,
      ht.kept.err, ht.kept.done, ht.kept.tr, ht.kept.pr, fun ch hch j h1 h2 => ?_, fun ch hch j h1 h2 => ?_⟩
    · exact ht.outside.prev hy hc hch h1
    · exact ht.near ch hch j h1 (by simpa using h2)

end Sys2Proof.Machine

/-! PROOFS. The traits of unit TR (`40_traits.md` R120 to R130): what `TR.INIT` writes, the bounds every scan rests on, range
reduction, and the sample rebuilt from its own error. -/

namespace Sys2Proof.Machine

/-! ### `TR.INIT` (R120, R121) -/

theorem exec_trInit (maxVal near reset : Nat) (s : State) : exec (.trInit maxVal near reset) s =
    if 3 ≤ maxVal ∧ maxVal ≤ 65535 ∧ near ≤ (maxVal - 1) / 2 ∧ 3 ≤ reset ∧ reset ≤ 255 then
      .next (setTraits s (initTraits s.tr maxVal near reset))
    else .refused .illegalParameters := by
  change execTrInit maxVal near reset s = _
  simp only [execTrInit, finish_require, legalTraits_iff]

/-- Below `clog2(n)` no power reaches `n` (R121). -/
theorem two_pow_lt_of_lt_clog2 {n x : Nat} (h : x < clog2 n) : 2 ^ x < n :=
  Nat.lt_of_not_le fun hle => Nat.not_le.2 h (clog2_le hle)

/-- `TR.INIT` has one condition, and `clog2` is the least power that serves. Settles O19. -/
theorem traitsInitialised : Obligations.TraitsInitialised := by
  intro s m e r
  rw [exec_trInit]
  constructor
  · intro hlegal
    exact ⟨clog2 (rangeOf m e), clog2 m, le_two_pow_clog2 _, fun _ => two_pow_lt_of_lt_clog2, le_two_pow_clog2 m,
      fun _ => two_pow_lt_of_lt_clog2, if_pos hlegal⟩
  · intro hillegal
    exact if_neg hillegal

/-! ### The bounds (R130, R142) -/

/-- A scan sets up the traits of its block (R332). -/
theorem scanSetup_tr (dir : Bool) (p0 n : Nat) (s : State) : (scanSetup dir p0 n s).tr = scanTraits s.pr := rfl

/-- The traits of a legal block are good, and good traits are within their bounds. Settles O20. -/
theorem traitsWithinBounds : Obligations.TraitsWithinBounds := by
  intro s dir p0 n hlegal t
  have hgood : GoodTraits t := scanTraits_good hlegal
  have hb := hgood.bounds
  have hrange : t.range ≤ 65536 := hb.rangeHigh.trans (Nat.succ_le_succ hb.maxHigh)
  exact ⟨hb.rangeLow, hrange, hb.qbppLow, hb.qbppHigh, hb.bppLow, hb.bppHigh, hb.limitLow, hb.limitHigh, hb.qbppBpp,
    hb.room, hb.rangeHigh, hgood.t1, hgood.t12, hgood.t23, hgood.t3⟩

/-! ### Range reduction (R123) -/

/-- Range reduction is the balanced remainder: what it gives is congruent to its operand and lies where `bmod` lies. -/
theorem modr_eq_bmod {range : Nat} {q : Int} (h1 : -(range : Int) < q) (h2 : q < range) :
    modr range q = q.bmod range := by
  obtain ⟨hlow, hhigh, hcongr⟩ := modr_spec h1 h2
  have hmod : (modr range q).bmod range = q.bmod range := by
    rcases hcongr with h | h | h <;> rw [h]
    · exact Int.add_bmod_right q range
    · exact Int.sub_bmod_right q range
  rw [← hmod, Int.bmod_eq_of_le (by omega) (by omega)]

/-- The three values `modr_spec` leaves differ by `range`, the width of the interval. Settles O22. -/
theorem reductionIsCongruent : Obligations.ReductionIsCongruent := by
  intro range q h1 h2
  obtain ⟨hlow, hhigh, hcongr⟩ := modr_spec h1 h2
  refine ⟨?_, hlow, hhigh, fun hq1 hq2 => by omega⟩
  rcases hcongr with h | h | h <;> simp [h]

/-! ### The near-lossless bound (R130) -/

/-- Both halves are the bounds of the error path and of reconstruction on a difference of two samples. Settles O24. -/
theorem nearLosslessBound : Obligations.NearLosslessBound := by
  intro t x px hgood hx0 hx hpx0 hpx
  have hb := hgood.bounds
  have hdiff : isDifference t (x - px) = true := isDifference_iff.2 ⟨by omega, by omega⟩
  have hnear := recon_errval_near hb (isSample_iff.2 ⟨hx0, hx⟩) (isSample_iff.2 ⟨hpx0, hpx⟩)
  have habs := (errval_abs hb hdiff).1
  omega

/-! ### The lossless path (R129) -/

/-- With `near = 0` an error is its own quotient (R122). -/
theorem qerr_near_zero (e : Int) : qerr 0 e = e := by
  unfold qerr
  split <;> simp

/-- With `near = 0` the range is `max_val + 1` (R120). -/
theorem GoodTraits.range_lossless {t : Traits} (h : GoodTraits t) (hnear : t.near = 0) : t.range = t.maxVal + 1 := by
  rw [h.range, hnear, rangeOf]
  simp

/-- Where the one wrap is by `max_val + 1` and enough, reconstruction is the remainder of the sum (R127). -/
theorem recon_lossless {t : Traits} {px err : Int} (hnear : t.near = 0) (hrange : t.range = t.maxVal + 1)
    (h1 : -(t.range : Int) ≤ px + err) (h2 : px + err < 2 * t.range) : recon t px err = (px + err) % t.range := by
  have hdeq : deq t.near err = err := by simp [deq, hnear]
  have hwrap : wrapSample t (px + err) = (px + err) % t.range := by
    simp only [wrapSample, hnear]
    split
    · rw [← Int.add_emod_right, Int.emod_eq_of_lt] <;> omega
    · split
      · rw [← Int.sub_emod_right, Int.emod_eq_of_lt] <;> omega
      · rw [Int.emod_eq_of_lt] <;> omega
  have hlow := Int.emod_nonneg (px + err) (b := t.range) (by omega)
  have hhigh := Int.emod_lt_of_pos (px + err) (b := t.range) (by omega)
  rw [recon, hdeq, hwrap, corrp, if_neg (by omega), if_neg (by omega)]

/-- The range is `2^bpp`, so the balanced remainder is the signed word and the remainder is the unsigned one. Settles O25. -/
theorem losslessPathAgrees : Obligations.LosslessPathAgrees := by
  intro t e px err hgood hnear hfull he1 he2 hpx0 hpx herr
  have hrange := hgood.range_lossless hnear
  have hpow : t.range = 2 ^ t.bpp := hrange.trans hfull
  constructor
  · rw [errval, hnear, qerr_near_zero, modr_eq_bmod (by omega) (by omega), hpow, BitVec.toInt_ofInt]
  · have hnonneg := Int.emod_nonneg (px + err) (b := t.range) (by omega)
    rw [recon_lossless hnear hrange (by omega) (by omega), BitVec.toNat_ofInt, ← hpow, Int.toNat_of_nonneg hnonneg]

end Sys2Proof.Machine

/-! PROOFS. Quantization in unit QT (`41_quantization.md` R140 to R147): the default thresholds and their order, the bins as
odd and monotone, and the context id as a balanced base-9 number. -/

namespace Sys2Proof.Machine

/-! ### The default thresholds (R140, R141) -/

theorem exec_qtDeft (maxVal near : Nat) (s : State) : exec (.qtDeft maxVal near) s =
    .next (setResult s [defaultT1 maxVal near, defaultT2 maxVal near, defaultT3 maxVal near]) := rfl

/-- Where there is room between the bounds, a clamped value lies between them (R141). -/
theorem clampTo_bounds {lo hi : Nat} (h : lo ≤ hi) (x : Nat) : lo ≤ clampTo x lo hi ∧ clampTo x lo hi ≤ hi := by
  unfold clampTo
  split <;> omega

/-- The lower bound of each clamp is the threshold before it, so room below `max_val` is passed on (R140). -/
theorem defaultThresholds_ordered {maxVal near : Nat} (h : near + 1 ≤ maxVal) :
    near + 1 ≤ defaultT1 maxVal near ∧ defaultT1 maxVal near ≤ defaultT2 maxVal near ∧
      defaultT2 maxVal near ≤ defaultT3 maxVal near ∧ defaultT3 maxVal near ≤ maxVal := by
  obtain ⟨h1, hroom1⟩ := clampTo_bounds h (thresholdFactor maxVal * 1 + 2 + 3 * near)
  obtain ⟨h2, hroom2⟩ := clampTo_bounds hroom1 (thresholdFactor maxVal * 4 + 3 + 5 * near)
  obtain ⟨h3, hroom3⟩ := clampTo_bounds hroom2 (thresholdFactor maxVal * 17 + 4 + 7 * near)
  exact ⟨h1, h2, h3, hroom3⟩

/-- A legal `near` leaves room for the first clamp. Settles O26. -/
theorem defaultThresholds : Obligations.DefaultThresholds := by
  intro s m e clamp f d1 d2 d3
  have hd1 : defaultT1 m e = d1 := congrArg (fun x => clampTo (x + 2 + 3 * e) (e + 1) m) (Nat.mul_one f)
  have hd2 : defaultT2 m e = d2 := congrArg (clampTo (f * 4 + 3 + 5 * e) · m) hd1
  have hd3 : defaultT3 m e = d3 := congrArg (clampTo (f * 17 + 4 + 7 * e) · m) hd2
  rw [← hd1, ← hd2, ← hd3]
  exact ⟨exec_qtDeft m e s, fun hm he => defaultThresholds_ordered (by omega)⟩

/-! ### The bins (R143, R147) -/

/-- What one threshold adds to the bin of a gradient: 1 from it upwards, -1 from its negative downwards. -/
def crossing (t : Nat) (d : Int) : Int := (if (t : Int) ≤ d then 1 else 0) - (if d ≤ -(t : Int) then 1 else 0)

theorem crossing_neg (t : Nat) (d : Int) : crossing t (-d) = -crossing t d := by
  simp only [crossing, neg_le_neg_iff, le_neg (a := (t : Int)), neg_sub]

@[gcongr] theorem crossing_mono (t : Nat) {d1 d2 : Int} (h : d1 ≤ d2) : crossing t d1 ≤ crossing t d2 := by
  unfold crossing
  split_ifs <;> omega

/-- With ordered thresholds the tests of R143 count the thresholds a gradient has crossed, `near + 1` the first of them. -/
theorem binOf_eq_sum_crossing {near t1 t2 t3 : Nat} (h1 : near + 1 ≤ t1) (h2 : t1 ≤ t2) (h3 : t2 ≤ t3) (d : Int) :
    binOf near t1 t2 t3 d = crossing (near + 1) d + crossing t1 d + crossing t2 d + crossing t3 d := by
  have hcases := binOf_cases near t1 t2 t3 d _ rfl
  unfold crossing
  omega

/-- Each crossing is odd and monotone, and so is their sum. Settles O28. -/
theorem binsSymmetricMonotone : Obligations.BinsSymmetricMonotone := by
  intro near t1 t2 t3 h1 h2 h3
  refine ⟨fun d => ?_, fun d1 d2 hd => ?_⟩
  · simp only [binOf_eq_sum_crossing h1 h2 h3, crossing_neg, Int.neg_add]
  · simp only [binOf_eq_sum_crossing h1 h2 h3]
    gcongr

/-! ### The context id (R146) -/

theorem exec_qtCtxid (q1 q2 q3 : Int) (s : State) : exec (.qtCtxid q1 q2 q3) s =
    if (-4 ≤ q1 ∧ q1 ≤ 4) ∧ (-4 ≤ q2 ∧ q2 ≤ 4) ∧ (-4 ≤ q3 ∧ q3 ≤ 4) then
      .next (setWork s { s.w with qs := ctxid q1 q2 q3 }) else .refused .operandRange := by
  change execQtCtxid q1 q2 q3 s = _
  simp only [execQtCtxid, finish_require, Bool.and_eq_true, isBin_iff, and_assoc]

theorem ctxid_neg (q1 q2 q3 : Int) : ctxid (-q1) (-q2) (-q3) = -ctxid q1 q2 q3 := by
  unfold ctxid
  omega

/-- A number has one triple of balanced base-9 digits at most; the leading digit needs no bound for that. -/
theorem ctxid_injective {q1 q2 q3 p1 p2 p3 : Int} (hq2 : isBin q2 = true) (hq3 : isBin q3 = true)
    (hp2 : isBin p2 = true) (hp3 : isBin p3 = true) (h : ctxid p1 p2 p3 = ctxid q1 q2 q3) :
    p1 = q1 ∧ p2 = q2 ∧ p3 = q3 := by
  rw [isBin_iff] at hq2 hq3 hp2 hp3
  unfold ctxid at h
  have h3 : p3 = q3 := by omega
  have h2 : p2 = q2 := by omega
  exact ⟨by omega, h2, h3⟩

/-- The balanced base-9 digits of `z` are the base-9 digits of `z + 364`, each less 4. -/
theorem ctxid_surjective {z : Int} (hlow : -364 ≤ z) (hhigh : z ≤ 364) :
    ∃ q1 q2 q3, isBin q1 = true ∧ isBin q2 = true ∧ isBin q3 = true ∧ ctxid q1 q2 q3 = z := by
  refine ⟨(z + 364) / 9 / 9 - 4, (z + 364) / 9 % 9 - 4, (z + 364) % 9 - 4, ?_⟩
  simp only [isBin_iff, ctxid]
  omega

/-- Only three zero bins give 0, the id they have (R146). -/
theorem ctxid_eq_zero_iff {q1 q2 q3 : Int} (h2 : isBin q2 = true) (h3 : isBin q3 = true) :
    ctxid q1 q2 q3 = 0 ↔ q1 = 0 ∧ q2 = 0 ∧ q3 = 0 := by
  constructor
  · exact fun h => ctxid_injective (q1 := 0) (q2 := 0) (q3 := 0) rfl rfl h2 h3 h
  · rintro ⟨rfl, rfl, rfl⟩
    rfl

/-- The id is the balanced base-9 value of its bins. Settles O29. -/
theorem contextIdIsBijective : Obligations.ContextIdIsBijective := by
  refine ⟨fun s q1 q2 q3 => exec_qtCtxid q1 q2 q3 s, fun z hlow hhigh => ?_, fun q1 q2 q3 h1 h2 h3 => ⟨?_, ?_⟩⟩
  · obtain ⟨q1, q2, q3, h1, h2, h3, rfl⟩ := ctxid_surjective hlow hhigh
    exact ⟨q1, q2, q3, h1, h2, h3, rfl, ctxid_neg q1 q2 q3, fun p1 p2 p3 _ => ctxid_injective h2 h3⟩
  · exact ctxid_natAbs_le (isBin_iff.1 h1) (isBin_iff.1 h2) (isBin_iff.1 h3)
  · exact ctxid_eq_zero_iff h2 h3

end Sys2Proof.Machine

/-! PROOFS. The two context files of units RC and RM (`42_regular_context.md` R160 to R165, `43_run_context.md` R180 to R185):
their initial values, the Golomb parameter as a rounded-up logarithm, the results on the port, the update of a regular entry,
and the bounds the updates keep. -/

namespace Sys2Proof.Machine

/-! ### The initial values (R160, R180) -/

theorem exec_rcInit (range : Nat) (s : State) : exec (.rcInit range) s = .next { s with ctx := initCtx range } := rfl

theorem exec_rmInit (range : Nat) (s : State) : exec (.rmInit range) s = .next { s with rctx := initRctx range } := rfl

/-- Both files take `A0` in every entry. Settles O30. -/
theorem contextsInitialised : Obligations.ContextsInitialised := fun s range =>
  ⟨⟨_, exec_rcInit range s, rfl, ctxAt_init s range⟩, ⟨_, exec_rmInit range s, rfl, rctxAt_init s range⟩⟩

/-! ### The entries named (R10, R25) -/

theorem isContext_iff {q : Nat} : isContext q = true ↔ q < 365 := decide_eq_true_iff

theorem isRunContext_iff {t : Nat} : isRunContext t = true ↔ t < 2 := decide_eq_true_iff

/-- An operation with a condition does its work where the condition holds and is refused elsewhere (R10). -/
theorem finish_require_bind (b : Bool) (r : Refusal) (x : Res State) :
    finish (require b r >>= fun _ => x) = if b = true then finish x else .refused r := by
  cases b <;> rfl

/-! ### The Golomb parameter (R161, R165, R181) -/

theorem exec_rcGetk (q : Nat) (s : State) :
    exec (.rcGetk q) s = if q < 365 then finish (getK q s) else .refused .operandRange := by
  change execRcGetk q s = _
  simp only [execRcGetk, finish_require_bind, isContext_iff]

theorem exec_rmGetk (t : Nat) (s : State) :
    exec (.rmGetk t) s = if t < 2 then finish (getRunK t s) else .refused .operandRange := by
  change execRmGetk t s = _
  simp only [execRmGetk, finish_require_bind, isRunContext_iff]

theorem finish_getK_of_some {s : State} {q k : Nat} (h : golombK (ctxAt s q).n (ctxAt s q).a = some k) :
    finish (getK q s) = .next (setK s k) := by
  rw [getK, h, finish_ok]

theorem finish_getK_of_none {s : State} {q : Nat} (h : golombK (ctxAt s q).n (ctxAt s q).a = none) :
    finish (getK q s) = .next (raiseErr .invalidCompressedData s) := by
  rw [getK, h, finish_raise]

theorem finish_getRunK_of_some {s : State} {t k : Nat} (h : golombK (rctxAt s t).n (runTemp t (rctxAt s t)) = some k) :
    finish (getRunK t s) = .next (setK s k) := by
  rw [getRunK, h, finish_ok]

theorem finish_getRunK_of_none {s : State} {t : Nat} (h : golombK (rctxAt s t).n (runTemp t (rctxAt s t)) = none) :
    finish (getRunK t s) = .next (raiseErr .invalidCompressedData s) := by
  rw [getRunK, h, finish_raise]

/-- The least parameter below 32 is what the search finds, and where none serves it finds none. Settles O31. -/
theorem golombParameterSearch : Obligations.GolombParameterSearch := by
  refine ⟨fun s q k hq hk hserves hleast => ?_, fun s i k hi hk hserves hleast => ?_, fun s q hq hnone => ?_,
    fun s i hi hnone => ?_, fun s q hq => ?_, fun s i hi => ?_⟩
  · rw [exec_rcGetk, if_pos hq, finish_getK_of_some (golombK_eq hk hserves hleast), setK, setWork]
  · rw [exec_rmGetk, if_pos hi, finish_getRunK_of_some (golombK_eq hk hserves hleast), setK, setWork]
  · rw [exec_rcGetk, if_pos hq, finish_getK_of_none (golombK_none hnone)]
  · rw [exec_rmGetk, if_pos hi, finish_getRunK_of_none (golombK_none hnone)]
  · rw [exec_rcGetk, if_neg (Nat.not_lt.2 hq)]
  · rw [exec_rmGetk, if_neg (Nat.not_lt.2 hi)]

/-- The parameter found is at most `j` exactly where `j` serves (R165). -/
theorem golombK_le_iff {n a k j : Nat} (h : golombK n a = some k) : k ≤ j ↔ a ≤ n * 2 ^ j := by
  obtain ⟨-, hserves, hleast⟩ := golombK_spec h
  constructor
  · exact fun hkj => hserves.trans (Nat.mul_le_mul_left n (Nat.pow_le_pow_right Nat.two_pos hkj))
  · exact fun hj => Nat.le_of_not_lt fun hjk => absurd (hleast j hjk) (Nat.not_lt.2 hj)

/-- `clog2(n)` is at most `x` exactly where `2^x` reaches `n` (R121). -/
theorem clog2_le_iff {n x : Nat} : clog2 n ≤ x ↔ n ≤ 2 ^ x :=
  ⟨fun h => (le_two_pow_clog2 n).trans (Nat.pow_le_pow_right Nat.two_pos h), clog2_le⟩

/-- The parameter found is `clog2(ceil(A / N))`, for `A <= N` too: both are at most `j` where `A <= N * 2^j`. -/
theorem golombK_eq_clog2 {n a k : Nat} (hn : 0 < n) (h : golombK n a = some k) : k = clog2 ((a + n - 1) / n) := by
  refine eq_of_forall_ge_iff fun j => ?_
  rw [golombK_le_iff h, clog2_le_iff, ← Nat.ceilDiv_eq_add_pred_div, ceilDiv_le_iff_le_mul hn]

/-- More parameters serve a smaller `A` and a larger `N`, and 0 serves where `A <= N`. Settles O32. -/
theorem golombParameterMonotone : Obligations.GolombParameterMonotone := by
  intro n a k hn hk
  refine ⟨fun a' k' ha hk' => ?_, fun n' k' hn' hk' => ?_, ?_, fun _ => golombK_eq_clog2 hn hk⟩
  · exact (golombK_le_iff hk).2 (ha.trans ((golombK_le_iff hk').1 le_rfl))
  · exact (golombK_le_iff hk').2 (((golombK_le_iff hk).1 le_rfl).trans (Nat.mul_le_mul_right _ hn'))
  · rw [← Nat.le_zero, golombK_le_iff hk, pow_zero, mul_one]

/-! ### The results on the port (R162, R182, R183) -/

/-- The correction is -1 for the parameter 0 and a bias below the middle, and 0 otherwise (R162). -/
theorem errorCorrection_eq (r : RegCtx) (k : Nat) :
    errorCorrection r k = if k = 0 ∧ 2 * r.b + r.n - 1 < 0 then -1 else 0 := by
  unfold errorCorrection neg1
  by_cases hk : k = 0
  · rw [if_neg (not_not.2 hk)]
    simp only [hk, true_and]
  · rw [if_pos hk, if_neg fun h => hk h.1]

theorem exec_rcCorr (q k : Nat) (s : State) : exec (.rcCorr q k) s =
    if q < 365 then .next (setResult s [errorCorrection (ctxAt s q) k]) else .refused .operandRange := by
  change execRcCorr q k s = _
  simp only [execRcCorr, finish_require, isContext_iff]

theorem exec_rmMap (t : Nat) (err : Int) (k : Nat) (s : State) : exec (.rmMap t err k) s =
    if t < 2 then .next (setResult s [if mapBit (rctxAt s t) err k then 1 else 0]) else .refused .operandRange := by
  change execRmMap t err k s = _
  simp only [execRmMap, finish_require, isRunContext_iff]

theorem exec_rmErrval (t temp k : Nat) (s : State) : exec (.rmErrval t temp k) s =
    if t < 2 then .next (setResult s [runErrval (rctxAt s t) temp k]) else .refused .operandRange := by
  change execRmErrval t temp k s = _
  simp only [execRmErrval, finish_require, isRunContext_iff]

theorem mapBit_iff {r : RunCtx} {err : Int} {k : Nat} : mapBit r err k = true ↔
    (k = 0 ∧ 0 < err ∧ 2 * r.nn < r.n) ∨ (err < 0 ∧ r.n ≤ 2 * r.nn) ∨ (err < 0 ∧ k ≠ 0) := decide_eq_true_iff

/-- The error is negative where the parity of the mapped value agrees with the side that the map favours (R183). -/
theorem runErrval_eq (r : RunCtx) (temp k : Nat) : runErrval r temp k =
    if (k ≠ 0 ∨ r.n ≤ 2 * r.nn) ↔ temp % 2 = 1 then -(((temp + temp % 2) / 2 : Nat) : Int)
    else (((temp + temp % 2) / 2 : Nat) : Int) := by
  simp only [runErrval, decide_eq_decide]

theorem emErrval_eq (t : Nat) (err : Int) (map : Bool) :
    emErrval t err map = 2 * (err.natAbs : Int) - t - (if map then 1 else 0) := by
  cases map <;> rfl

/-- The results are the rules' own, and the decoder undoes the mapping of `RN.ENCRIERR`. Settles O33. -/
theorem correctionAndMapResults : Obligations.CorrectionAndMapResults := by
  refine ⟨fun s q k => ?_, fun s i err k => ?_, fun s i temp k => ?_, fun r t k err ht herr => ?_⟩
  · rw [exec_rcCorr, errorCorrection_eq, setResult]
  · simp only [exec_rmMap, mapBit_iff, setResult]
  · rw [exec_rmErrval, runErrval_eq, setResult]
  · intro em
    have hem : em = emErrval t err (mapBit r err k) := (emErrval_eq t err _).symm
    have hcoded : t = 0 ∨ (t = 1 ∧ err ≠ 0) := by
      rcases Nat.lt_succ_iff_lt_or_eq.1 ht with h0 | h1
      · exact .inl (Nat.lt_one_iff.1 h0)
      · exact .inr ⟨h1, herr h1⟩
    rw [hem]
    exact ⟨emErrval_nonneg hcoded, runErrval_emErrval hcoded⟩

/-! ### The update of a regular entry (R163) -/

theorem exec_rcUpd (q : Nat) (err : Int) (s : State) : exec (.rcUpd q err) s =
    if q < 365 then .next (updCtx q err s) else .refused .operandRange := by
  change execRcUpd q err s = _
  simp only [execRcUpd, finish_require, isContext_iff]

/-- What is accumulated and halved, field by field (R163). -/
theorem accumulate_eq (near reset : Nat) (r : RegCtx) (err : Int) : accumulate near reset r err =
    { a := if r.n = reset then (r.a + err.natAbs) / 2 else r.a + err.natAbs
      b := if r.n = reset then (r.b + err * (2 * near + 1)) / 2 else r.b + err * (2 * near + 1)
      c := r.c
      n := (if r.n = reset then r.n / 2 else r.n) + 1 } := by
  unfold accumulate halve deq
  split <;> rfl

/-- The rebias clamps `B` into `-N + 1 .. 0` and moves `C` by one within its range (R163). -/
theorem rebias_eq (r : RegCtx) : rebias r =
    { a := r.a
      b := if r.b + r.n ≤ 0 then max (r.b + r.n) (-(r.n : Int) + 1) else if 0 < r.b then min (r.b - r.n) 0 else r.b
      c := if r.b + r.n ≤ 0 then max (-128) (r.c - 1) else if 0 < r.b then min 127 (r.c + 1) else r.c
      n := r.n } := by
  unfold rebias
  split
  · congr 1
    split <;> omega
  · split
    · congr 1
      split <;> omega
    · rfl

/-- The entry written is the rebias of what was accumulated, and only that entry is written. Settles O34. -/
theorem regularUpdate : Obligations.RegularUpdate := by
  intro s q err r h a b0 n b c
  have hentry : updateRegular s.tr r err = { a := a, b := b, c := c, n := n } := by
    rw [updateRegular, accumulate_eq, rebias_eq]
  constructor
  · intro hq
    refine ⟨updCtx q err s, by rw [exec_rcUpd, if_pos hq], rfl, ?_, fun p hp hne => ?_⟩
    · rw [updCtx, ctxAt_setCtx, if_pos rfl, hentry]
    · rw [updCtx, ctxAt_setCtx, Nat.mod_eq_of_lt hp, Nat.mod_eq_of_lt hq, if_neg hne]
  · intro hq
    rw [exec_rcUpd, if_neg (Nat.not_lt.2 hq)]

/-! ### The bounds of the files (R164, R185) -/

/-- Good entries stay good, and a good entry has a Golomb parameter. Settles O36. -/
theorem contextBoundsKept : Obligations.ContextBoundsKept := by
  intro t hgood
  have hb := hgood.bounds
  refine ⟨fun r err hr herr => ?_, fun r i err em hi hr herr hem => ?_⟩
  · obtain ⟨k, hk, hle⟩ := hr.golombK hb
    exact ⟨hr.update hb herr, hr.a_lt hb, k, hle, hk⟩
  · obtain ⟨k, hk, hle⟩ := hr.golombK hb (Nat.le_of_lt_succ hi)
    exact ⟨hr.update hb (by omega), k, hle, hk⟩

end Sys2Proof.Machine

/-! PROOFS. Unit RM, the run context file (`43_run_context.md` R180 to R185): the update of one of its two entries. -/

namespace Sys2Proof.Machine

theorem exec_rmUpd (t : Nat) (err : Int) (em : Nat) (s : State) : exec (.rmUpd t err em) s =
    if t < 2 then .next (updRctx t err em s) else .refused .operandRange := by
  change execRmUpd t err em s = _
  simp only [execRmUpd, finish_require, isRunContext_iff]

/-- The entry named takes the counted, added and halved values, and `1 - i` names the entry left alone. Settles O35. -/
theorem runUpdate : Obligations.RunUpdate := by
  intro s i err em r nn a
  constructor
  · intro hi
    have hother : (1 - i) % 2 ≠ i % 2 := by omega
    refine ⟨updRctx i err em s, by rw [exec_rmUpd, if_pos hi], rfl, ?_, ?_⟩
    · rw [updRctx, rctxAt_setRctx, if_pos rfl, updateRun]
    · rw [updRctx, rctxAt_setRctx, if_neg hother]
  · intro hi
    rw [exec_rmUpd, if_neg (Nat.not_lt.2 hi)]

end Sys2Proof.Machine

/-! PROOFS. The bit reader and the short-code tables (`44_bit_reader.md` R200 to R214): placing the reader and filling its
cache, what each read delivers or raises, the end of a scan, and the stuffing of R241 undone. -/

namespace Sys2Proof.Machine

section BitReader

variable {s u : State} {r : Reader} {k n g q p : Nat} {e : ErrKind}

/-! ### An operation that raises or is refused in a part (R10, R378) -/

@[simp] theorem raise_bind {α β : Type} (e : ErrKind) (s : State) (f : α → Res β) :
    ((raise e s : Res α) >>= f) = raise e s := rfl

@[simp] theorem refuse_bind {α β : Type} (c : Refusal) (f : α → Res β) : ((refuse c : Res α) >>= f) = refuse c := rfl

/-! ### Placing the reader and filling its cache (R200, R202) -/

theorem exec_brInit (p0 len : Nat) (s : State) : exec (.brInit p0 len) s =
    if p0 ≤ len then .next (setReader s (initReader s.bs p0 len)) else .refused .operandRange := by
  change execBrInit p0 len s = _
  simp only [execBrInit, finish_require, decide_eq_true_eq]

theorem loadEnds_iff (m : Memory) (r : Reader) :
    loadEnds m r = true ↔ r.rend ≤ r.rpos ∨ isMarker m r.rend r.rpos = true := by
  rw [loadEnds, Bool.or_eq_true, decide_eq_true_iff]

theorem loadEnds_eq_false (m : Memory) (r : Reader) :
    loadEnds m r = false ↔ r.rpos < r.rend ∧ ¬isMarker m r.rend r.rpos = true := by
  rw [← Bool.not_eq_true, loadEnds_iff, not_or, Nat.not_le]

theorem cacheFill_some {m : Memory} (h : 0 < r.rvalid ∨ loadEnds m r = false) :
    cacheFill m r = some (fillLoop m Config.cacheBits r) := by
  rw [cacheFill, if_neg]
  rw [Bool.and_eq_true, decide_eq_true_iff]
  rintro ⟨hends, hempty⟩
  rcases h with hpos | hloads
  · omega
  · exact absurd hends (Bool.eq_false_iff.1 hloads)

theorem cacheFill_none {m : Memory} (h0 : r.rvalid = 0) (h : loadEnds m r = true) : cacheFill m r = none := by
  rw [cacheFill, h, h0]
  rfl

/-- With room for a byte the reader takes what `cacheFill` gives, and where it gives none the error is raised (R202). -/
theorem exec_brFill (hv : s.rd.rvalid ≤ 56) : exec .brFill s =
    (cacheFill s.bs s.rd).elim (.next (raiseErr .invalidCompressedData s)) fun r => .next (setReader s r) := by
  have hroom : decide (s.rd.rvalid ≤ Config.cacheBits - 8) = true := decide_eq_true hv
  change execBrFill s = _
  rw [execBrFill, hroom, require_true, ok_bind]
  cases cacheFill s.bs s.rd with
  | none => rfl
  | some r => rfl

theorem exec_brFill_full (h : 56 < s.rd.rvalid) : exec .brFill s = .refused .cacheFull :=
  (finish_require_bind (decide (s.rd.rvalid ≤ Config.cacheBits - 8)) _ _).trans
    (if_neg fun hroom => Nat.not_le.2 h (of_decide_eq_true hroom))

/-! ### The reads, each as its part and where the value goes (R204 to R209, R212) -/

theorem exec_brRdv (n : Nat) (s : State) :
    exec (.brRdv n) s = finish (readValue n s >>= fun v => .ok (setResult v.2 [(v.1 : Int)])) := rfl

theorem exec_brPeek (s : State) :
    exec .brPeek s = finish (peekByte s >>= fun v => .ok (setResult v.2 [(v.1 : Int)])) := rfl

theorem exec_brRdb (s : State) :
    exec .brRdb s = finish (readBit s >>= fun v => .ok (setResult v.2 [(v.1.toNat : Int)])) := rfl

theorem exec_brSkip (n : Nat) (s : State) : exec (.brSkip n) s = finish (skipBits n s) := rfl

theorem exec_brHigh (s : State) :
    exec .brHigh s = finish (readHigh s >>= fun v => .ok (setResult v.2 [(v.1 : Int)])) := rfl

theorem exec_brDecv (hk : k ≤ 31) : exec (.brDecv k g q) s =
    finish (decodeValue k g q s >>= fun v => .ok (setWork v.2 { v.2.w with merr := v.1 })) :=
  (finish_require_bind (isCount k) _ _).trans (if_pos (decide_eq_true (Nat.lt_succ_of_le hk)))

theorem exec_brDecv_refused (hk : 31 < k) : exec (.brDecv k g q) s = .refused .operandRange :=
  (finish_require_bind (isCount k) _ _).trans (if_neg fun h => Nat.not_lt.2 hk (of_decide_eq_true h))

theorem exec_gtLook_hit {x : Int} (h : shortCode k s = .ok (some x, u)) :
    exec (.gtLook k) s = .next (setResult u [1, x]) := by
  change execGtLook k s = _
  rw [execGtLook, h]
  rfl

theorem exec_gtLook_miss (h : shortCode k s = .ok (none, u)) : exec (.gtLook k) s = .next (setResult u [0, 0]) := by
  change execGtLook k s = _
  rw [execGtLook, h]
  rfl

theorem exec_gtLook_raise (h : shortCode k s = raise e u) : exec (.gtLook k) s = .next (raiseErr e u) := by
  change execGtLook k s = _
  rw [execGtLook, h]
  rfl

/-! ### Reads past the end (R204 to R209, R371) -/

theorem readValue_refused (h : 31 < n) : readValue n s = refuse .operandRange := by
  rw [readValue, if_neg (by omega), if_pos h]

theorem skipBits_refused (h : 31 < n) : skipBits n s = refuse .operandRange := by rw [skipBits, if_pos h]

theorem skipBits_short (hn : n ≤ 31) (h : avail s < n) : skipBits n s = raise .invalidCompressedData s := by
  rw [skipBits, if_neg (Nat.not_lt.2 hn), if_pos h]

theorem avail_eq_zero (h : remaining s = []) : avail s = 0 := by rw [avail, h, List.length_nil]

theorem peekByte_ok (h : remaining s ≠ []) : ∃ r, Consumed s.rd 0 r ∧
    peekByte s = .ok (bitsVal ((remaining s ++ List.replicate 8 false).take 8), setReader s r) := by
  have hpos : 0 < avail s := List.length_pos_iff.2 h
  exact ⟨_, fillBelow_same s.bs 8 s.rd, by rw [peekByte, if_neg (by omega)]⟩

theorem peekByte_empty (h : remaining s = []) : peekByte s = raise .invalidCompressedData s := by
  rw [peekByte, if_pos (by rw [avail_eq_zero h]; exact Nat.one_pos)]

theorem shortCode_empty (hk : k ≤ 15) (h : remaining s = []) : shortCode k s = raise .invalidCompressedData s := by
  rw [shortCode, if_neg (Nat.not_lt.2 hk), peekByte_empty h, raise_bind]

theorem decodeValue_noPrefix {g : Int} (h : readHigh s = raise e u) : decodeValue k g q s = raise e u := by
  rw [decodeValue, h, raise_bind]

/-- No index above 15 has a table (R212). -/
theorem shortCode_noTable (hk : 15 < k) : shortCode k s = .ok (none, s) := by rw [shortCode, if_pos hk]

/-! ### The end of a scan (R210, R214) -/

/-- What `BR.END` takes for leftover data: a 1, or more zeros than the bound allows. -/
theorem leftover_iff : ((remaining s).any id || tooManyResidual s.build (avail s)) = true ↔
    true ∈ remaining s ∨ ∃ n, s.build.eosMax = some n ∧ n < (remaining s).length := by
  rw [Bool.or_eq_true, tooManyResidual_iff, List.any_eq_true, avail]
  simp only [id_eq, exists_eq_right]

theorem exec_brEnd_noMarker (h : markerPos s.bs s.rd.rstart s.rd.rend = none) :
    exec .brEnd s = .next (raiseErr .invalidCompressedData s) := by
  change finish (endRead s) = _
  rw [endRead, h, finish_raise]

theorem exec_brEnd_tooMuch (h : markerPos s.bs s.rd.rstart s.rd.rend = some p)
    (hleft : ((remaining s).any id || tooManyResidual s.build (avail s)) = true) :
    exec .brEnd s = .next (raiseErr .tooMuchCompressedData s) := by
  change finish (endRead s) = _
  rw [endRead, h]
  simp only
  rw [if_pos hleft, finish_raise]

theorem exec_brEnd_ok (h : markerPos s.bs s.rd.rstart s.rd.rend = some p)
    (hleft : ¬((remaining s).any id || tooManyResidual s.build (avail s)) = true) :
    exec .brEnd s = .next { s with bytePos := p } := by
  change finish (endRead s) = _
  rw [endRead, h]
  simp only
  rw [if_neg hleft, finish_ok]

end BitReader

/-! ### The statements -/

/-- `BR.INIT` is `initReader`, and `BR.FILL` runs the loading loop, which keeps `CacheHolds` byte by byte. Settles O37. -/
theorem readerPlacedAndFilled : Obligations.ReaderPlacedAndFilled := by
  refine ⟨fun s p0 len hle => ?_, fun s p0 len hlt => ?_, fun s hv hgo => ?_, fun s h0 hends => ?_,
    fun s hv => exec_brFill_full hv⟩
  · obtain ⟨hlow, hhigh, hff, hleast⟩ := nextFF_spec s.bs (len - p0) p0
    rw [Nat.add_sub_cancel' hle] at hhigh hff
    exact ⟨_, hlow, hhigh, hff, hleast, initReader_holds hle, by rw [exec_brInit, if_pos hle]; rfl⟩
  · rw [exec_brInit, if_neg (Nat.not_le.2 hlt)]
  · rw [← loadEnds_eq_false] at hgo
    obtain ⟨hvalid, hpos⟩ := fillLoop_grows s.bs Config.cacheBits s.rd
    refine ⟨_, fillLoop_same s.bs Config.cacheBits s.rd, hvalid, hpos, ?_, fun hlt hm => ?_, ?_,
      fun hcache => fillLoop_holds _ hcache hv⟩
    · rw [exec_brFill hv, cacheFill_some hgo]; rfl
    · exact fillLoop_loads _ ((loadEnds_eq_false s.bs s.rd).2 ⟨hlt, hm⟩)
    · rw [← loadEnds_iff]
      exact fillLoop_full _ _ (by unfold Config.cacheBits; omega)
  · rw [exec_brFill (by omega), cacheFill_none h0 ((loadEnds_iff s.bs s.rd).2 hends)]; rfl

/-- Each operation hands out what its read gives on the bits left. Settles O38. -/
theorem readsDeliverBits : Obligations.ReadsDeliverBits := by
  intro s
  refine ⟨fun bits rest hn hr => ?_, fun b rest hr => ?_, fun b rest hr => ?_, fun n hn hav => ?_, fun h rest hr => ?_,
    fun h glimit qbpp bits rest hk hh hr => ?_, fun k h glimit bits rest hk hq hh hr => ?_⟩
  · obtain ⟨r, hc, hread⟩ := readValue_ok hn hr
    exact ⟨r, hc, by rw [exec_brRdv, hread]; rfl⟩
  · obtain ⟨r, hc, hread⟩ := readBit_ok hr
    exact ⟨r, hc, by rw [exec_brRdb, hread]; cases b <;> rfl⟩
  · obtain ⟨r, hc, hread⟩ := peekByte_ok (s := s) (by rw [hr]; exact List.cons_ne_nil b rest)
    exact ⟨r, hc, by rw [exec_brPeek, hread, hr]; rfl⟩
  · obtain ⟨r, hc, hskip⟩ := skipBits_ok hn hav
    exact ⟨r, hc, by rw [exec_brSkip, hskip]; rfl⟩
  · obtain ⟨r, hc, hread⟩ := readHigh_ok hr
    exact ⟨r, hc, by rw [exec_brHigh, hread]; rfl⟩
  · obtain ⟨r, hc, hread⟩ := decodeValue_golomb (g := glimit) (q := qbpp) hk (by omega) hr
    exact ⟨r, hc, by rw [exec_brDecv hk, hread]; rfl⟩
  · obtain ⟨r, hc, hread⟩ := decodeValue_escape (g := glimit) (k := k) hq (by omega) hr
    exact ⟨r, hc, by rw [exec_brDecv hk, hread]; rfl⟩

/-- Each operation takes the error its read raises. Settles O39. -/
theorem readsPastTheEndRaise : Obligations.ReadsPastTheEndRaise := by
  intro s
  refine ⟨fun n hn hav => ⟨?_, ?_⟩, fun hr => ⟨?_, ?_, fun k hk => ?_⟩, fun j hr => ?_,
    fun h k g q rest hk hq hr hcut => ?_, fun n hn => ⟨?_, ?_, fun g q => exec_brDecv_refused hn⟩⟩
  · rw [exec_brRdv, readValue_short (by omega) hn hav, raise_bind, finish_raise]
  · rw [exec_brSkip, skipBits_short hn hav, finish_raise]
  · rw [exec_brRdb, readBit_empty hr, raise_bind, finish_raise]
  · rw [exec_brPeek, peekByte_empty hr, raise_bind, finish_raise]
  · exact exec_gtLook_raise (shortCode_empty hk hr)
  · obtain ⟨r, hhigh⟩ := readHigh_zeros hr
    refine ⟨setReader s r, rfl, rfl, by rw [exec_brHigh, hhigh, raise_bind, finish_raise], fun k g q hk => ?_⟩
    rw [exec_brDecv hk, decodeValue_noPrefix hhigh, raise_bind, finish_raise]
  · obtain ⟨r, hread⟩ := decodeValue_cut (g := g) hk hq hr (by exact_mod_cast hcut)
    exact ⟨setReader s r, rfl, rfl, by rw [exec_brDecv hk, hread, raise_bind, finish_raise]⟩
  · rw [exec_brRdv, readValue_refused hn, refuse_bind, finish_refuse]
  · rw [exec_brSkip, skipBits_refused hn, finish_refuse]

/-- The marker found is the first one, and the test of `BR.END` is of the bits left before it. Settles O40. -/
theorem endOfScanCheck : Obligations.EndOfScanCheck := by
  intro s
  refine ⟨fun hnone => ?_, fun p hlow hhigh hmarker hfirst => ?_⟩
  · exact exec_brEnd_noMarker (markerFrom_none fun j hj hlt => hnone j hj (by omega))
  · have hpos : markerPos s.bs s.rd.rstart s.rd.rend = some p := markerFrom_some hlow (by omega) hmarker hfirst
    refine ⟨fun hleft => exec_brEnd_tooMuch hpos (leftover_iff.2 hleft), fun hzeros hbound => exec_brEnd_ok hpos ?_⟩
    rw [leftover_iff]
    rintro (hone | ⟨n, hmax, hlt⟩)
    · exact hzeros hone
    · exact absurd (hbound n hmax) (Nat.not_le.2 hlt)

/-- The generic decoder reads the codeword, and the table hits on its first eight bits or misses. Settles O41. -/
theorem shortCodesAgree : Obligations.ShortCodesAgree := by
  refine ⟨fun s => rfl, fun s k hk => exec_gtLook_miss (shortCode_noTable hk),
    fun s k m glimit qbpp rest henc hlimit hr => ?_⟩
  have hlook := shortCode_valueBits (by omega) hr
  refine ⟨?_, fun hshort => ?_, fun hlong => ?_⟩
  · obtain ⟨r, hc, hread⟩ := decodeValue_valueBits henc hr
    obtain ⟨hk, -⟩ := henc
    exact ⟨r, hc, by rw [exec_brDecv hk, hread]; rfl⟩
  · rw [if_pos hshort] at hlook
    obtain ⟨r, hc, hhit⟩ := hlook
    exact ⟨r, hc, exec_gtLook_hit hhit⟩
  · rw [if_neg (Nat.not_le.2 hlong)] at hlook
    obtain ⟨r, hc, hmiss⟩ := hlook
    exact ⟨r, hc, exec_gtLook_miss hmiss⟩

/-- The stuffed bytes hold no marker boundary of their own, so the destuffed bits end with them. Settles O46. -/
theorem stuffingIsInverted : Obligations.StuffingIsInverted := by
  intro m p0 len bits out hpending hbytes hlen hmarker
  exact stuffing_inverted hpending hbytes hlen hmarker

end Sys2Proof.Machine

/-! PROOFS. Unit BW, the bit writer (`45_bit_writer.md` R240 to R246): placing the writer, appending a bit group, ending the
stream and flushing the buffer. -/

namespace Sys2Proof.Machine

variable {s : State} {value count : Nat}

theorem exec_bwApp : exec (.bwApp value count) s = finish (appendGroup value count s) := rfl

theorem exec_bwEnd : exec .bwEnd s = finish (endWrite s) := rfl

theorem exec_bwFlush : exec .bwFlush s = finish (flushLoop 4 s) := rfl

theorem exec_bwInit (p0 cap : Nat) (s : State) : exec (.bwInit p0 cap) s =
    if p0 ≤ cap then .next (setWriter s (initWriter p0 cap)) else .refused .operandRange := by
  change execBwInit p0 cap s = _
  simp only [execBwInit, finish_require, decide_eq_true_eq]

theorem appendGroup_refusesCount (h : 31 < count) : appendGroup value count s = refuse .operandRange := by
  rw [appendGroup, if_pos h]

theorem appendGroup_refusesValue (hc : count ≤ 31) (hv : 2 ^ count ≤ value) :
    appendGroup value count s = refuse .valueTooWide := by
  rw [appendGroup, if_neg (Nat.not_lt.2 hc), if_pos hv]

/-- A flush leaves the position of the buffer where it stood exactly when no byte left (R243). -/
theorem Flushed.drainpos_eq_iff {w v : Writer} {out : List Byte} (h : Flushed w out v) :
    v.drainpos = w.drainpos ↔ out = [] := by
  rw [h.drainpos, Nat.add_eq_left, List.length_eq_zero_iff]

/-- The writer `BW.INIT` sets is `initWriter`, each of its fields as R240 gives it. Settles O42. -/
theorem writerPlaced : Obligations.WriterPlaced := by
  intro s p0 cap
  refine ⟨fun hle => ⟨initWriter p0 cap, rfl, rfl, rfl, rfl, rfl, rfl, rfl, ?_⟩, fun hlt => ?_⟩
  · rw [exec_bwInit, if_pos hle, setWriter]
  · rw [exec_bwInit, if_neg (Nat.not_le.2 hlt)]

/-- The group is tested, then its bits are appended one by one, up to the first byte with no room. Settles O43. -/
theorem appendStuffsBytes : Obligations.AppendStuffsBytes := by
  intro s value count
  refine ⟨fun hc hv hf => exec_appendGroup exec_bwApp hc hv rfl hf, fun hc hv hf => ?_, fun hc => ?_, fun hc hv => ?_⟩
  · obtain ⟨u, hraise, hpr, -⟩ := appendGroup_overflow hc hv hf
    exact ⟨u, hpr, by rw [exec_bwApp, hraise, finish_raise]⟩
  · rw [exec_bwApp, appendGroup_refusesCount hc, finish_refuse]
  · rw [exec_bwApp, appendGroup_refusesValue hc hv, finish_refuse]

/-- The padding and a stuffed zero are appended or overflow; a flush drains the buffer, and raises exactly where a byte left
for a position past the capacity. Settles O45. -/
theorem writerEnds : Obligations.WriterEnds := by
  refine ⟨fun s hw hf => ?_, fun s hw hf => ?_, fun s => ?_⟩
  · obtain ⟨v, happ, hacc, hff, hend⟩ := endWrite_ok hw hf
    exact ⟨v, happ, hacc, hff, by rw [exec_bwEnd, hend, finish_ok]⟩
  · obtain ⟨u, hpr, hraise⟩ := endWrite_overflow hw hf
    exact ⟨u, hpr, by rw [exec_bwEnd, hraise, finish_raise]⟩
  · obtain ⟨out, hflushed⟩ := drain_flushed s.wr
    obtain ⟨u, hpr, hbs, hloop⟩ := flushLoop_eq 4 s
    rw [← drain] at hloop
    simp only [hflushed.drainpos_eq_iff] at hloop
    exact ⟨drain s.wr, out, u, hflushed, hpr, hbs, by rw [exec_bwFlush, hloop, apply_ite finish, finish_ok, finish_raise,
      apply_ite Host.Outcome.next, setWriter]⟩

end Sys2Proof.Machine

/-! PROOFS. Unit SP, the steps of a regular sample issued alone (`46_sample_pipeline.md` R270, R272, R274, R275): the
neighbours, the prediction and the two error maps. -/

namespace Sys2Proof.Machine

theorem exec_spNeigh (i : Nat) (s : State) : exec (.spNeigh i) s =
    if i < s.pr.width then .next (neighbours i 0 s) else .refused .operandRange := by
  change execSpNeigh i s = _
  simp only [execSpNeigh, finish_require, isIndex, decide_eq_true_eq]

theorem exec_spPred (ra rb rc : Int) (s : State) : exec (.spPred ra rb rc) s =
    .next (setWork s { s.w with pred := medianPrediction ra rb rc }) := rfl

theorem exec_spMape (e : Int) (s : State) :
    exec (.spMape e) s = .next (setWork s { s.w with merr := mapError e }) := rfl

theorem exec_spUnmape (m : Nat) (s : State) : exec (.spUnmape m) s = .next (setResult s [unmapError m]) := rfl

theorem neg1_of_neg {a : Int} (h : a < 0) : neg1 a = -1 := if_pos h

theorem neg1_of_nonneg {a : Int} (h : 0 ≤ a) : neg1 a = 0 := if_neg (Int.not_lt.2 h)

/-- The sign masks of the two tests only exchange the roles of `Ra` and `Rb`; at `Rc` equal to one of the two neighbours the
plane gives the other, so the strict tests and the equivalent form's weak ones agree (R272). -/
theorem medianPrediction_eq (ra rb rc : Int) : medianPrediction ra rb rc =
    if max ra rb ≤ rc then min ra rb else if rc ≤ min ra rb then max ra rb else ra + rb - rc := by
  obtain hab | hba := le_or_gt ra rb
  · simp only [medianPrediction, neg1_of_nonneg (Int.sub_nonneg.2 hab), xorMask, if_pos, max_eq_right hab, min_eq_left hab]
    split_ifs <;> omega
  · have hmask (v : Int) : xorMask (-1) v = -v - 1 := rfl
    simp only [medianPrediction, neg1_of_neg (Int.sub_neg_of_lt hba), hmask, max_eq_left hba.le, min_eq_right hba.le]
    split_ifs <;> omega

/-- Both arms of R274 are non-negative where they apply, so nothing is cut off on the way to a natural number. -/
theorem coe_mapError (e : Int) : (mapError e : Int) = if 0 ≤ e then 2 * e else -2 * e - 1 := by
  unfold mapError
  split <;> omega

/-- Each operation answers with its register written; the prediction is R272's equivalent form, and the value in `MERR`
unmaps to the error it came from. Settles O47. -/
theorem predictionAndMapping : Obligations.PredictionAndMapping := by
  refine ⟨fun s i => ?_, fun s ra rb rc => ?_, fun s e => ?_, map_unmap⟩
  · rw [exec_spNeigh, neighbours, setWork]
  · rw [exec_spPred, medianPrediction_eq, setWork]
  · refine ⟨mapError e, exec_spMape e s, coe_mapError e, fun u => ?_⟩
    rw [exec_spUnmape, unmap_map, setResult]

end Sys2Proof.Machine

/-! PROOFS. Errors and reset (`60_exceptions.md` R378, R379, `70_reset_and_hazards.md` R400, R401): no unit writes the error
code, so a new code is an error taken; a reset leaves the reset state. -/

namespace Sys2Proof.Machine

section Errors

variable {s t : State} {i : Instr}

/-- No unit writes the error code: only taking an error does. -/
theorem err_reading (e : ErrKind) : ReadClosed fun s => s.err = e where
  work _ _ h := h
  result _ _ h := h
  ctx _ _ _ h := h
  rctx _ _ _ _ h := h
  inc _ h := h
  dec _ h := h
  cur _ _ _ _ h := h
  reader _ _ _ h _ := h

theorem err_coding (e : ErrKind) : CodingClosed fun s => s.err = e where
  read := err_reading e
  write := { toUnitClosed := (err_reading e).toUnitClosed, bit := fun _ _ h _ => h, emit := fun _ _ h _ => h,
             buffer := fun _ _ _ h => h, drained := fun _ h => h }
  scan := { prev := fun _ _ _ _ h => h, seq := fun _ _ h => h, load := fun _ _ h => h, store := fun _ _ h => h }
  deliver _ _ _ h := h

theorem err_setups (e : ErrKind) : SetupClosed fun s => s.err = e where
  toWriteClosed := (err_coding e).write
  traits _ _ h := h
  table _ _ h := h
  ctxInit _ _ h := h
  rctxInit _ _ h := h
  place _ _ h := h
  open' _ _ _ h := h
  position _ _ h := h
  close _ h := h

/-- An operation of a unit completes with the code it found, or takes an error (R378, R379). -/
theorem uop_raised (hhost : opClass i ≠ .host) (hx : exec i s = .next t) (hne : t.err ≠ s.err) :
    ∃ e u, SameParams s u ∧ t = raiseErr e u := by
  rcases uop_ends ((params_coding s).and (err_coding s.err)) ((params_setups s).and (err_setups s.err)) hhost
    ⟨⟨rfl, rfl⟩, rfl⟩ hx with ⟨-, herr⟩ | ⟨e, u, -, ⟨hparams, -⟩, rfl⟩
  · exact absurd herr hne
  · exact ⟨e, u, hparams, rfl⟩

end Errors

/-- A `CONFIGURE` takes no error, a scan command ends idle and done either way, and an operation of a unit that changes the
code has taken an error. Settles O9. -/
theorem errorsEndTheScan : Obligations.ErrorsEndTheScan := by
  intro i s t hx hne _
  by_cases hi : opClass i = .host
  · obtain ⟨_, _, _, _, _, _, _, _, _, _, _, _, _, _, _, rfl⟩ | ⟨d, p, n, rfl⟩ := host_cases hi
    · obtain ⟨q, -, rfl⟩ := configure_next hx
      exact absurd rfl hne
    · obtain ⟨⟨hfsm, hbusy, hdone, -⟩, ⟨hpr, hconf⟩, -⟩ := scanCommand_next hx
      exact ⟨hdone, hbusy, hfsm, hpr, hconf⟩
  · obtain ⟨e, u, ⟨hpr, hconf⟩, rfl⟩ := uop_raised hi hx hne
    exact ⟨rfl, rfl, rfl, hpr, hconf⟩

/-- A reset puts the block's reset state in place of whatever state it is applied to, and abandoning a scan writes no byte
but of the sink of an encode. Settles O6. -/
theorem resetLeavesIdle : Obligations.ResetLeavesIdle := by
  refine ⟨rfl, rfl, rfl, by decide, by decide, by decide, by decide, by decide, by decide, by decide, by decide,
    fun s hs => ?_⟩
  cases hr : s.resetIn with
  | off => exact absurd hr hs
  | now =>
    exact ⟨_, step_now hr, rfl, sr0_resetBlock s, rfl, rfl, rfl, rfl, rfl, fun _ => ⟨rfl, rfl, rfl, rfl⟩,
      fun a ha => absurd rfl ha⟩
  | midScan =>
    obtain ⟨hbuild, hsrc, -, hbytes⟩ := abandonScan_spec (s := s)
    exact ⟨_, step_midScan hr, rfl, sr0_resetBlock _, rfl, rfl, rfl, hbuild, hsrc, fun h => (nomatch h),
      fun a ha => ⟨rfl, (hbytes a).resolve_left ha⟩⟩

end Sys2Proof.Machine

/-! PROOFS. Unit RN, run mode (`47_run_mode.md` R301 to R311): the run length, the run-interruption error, and a run as a whole,
each read back from the codewords it was written as. -/

namespace Sys2Proof.Machine

section RunUnit

variable {s : State} {n rem i : Nat} {rest : List Bool}

/-! ### The run length (R303, R304) -/

/-- The operands of `RN.ENCLEN` agree with the rest of the line (R303). -/
theorem isRunLength_iff {eol : Bool} :
    isRunLength s n eol = true ↔ n ≤ s.pr.width - s.seq.i ∧ eol = decide (n = s.pr.width - s.seq.i) := by
  rw [isRunLength, Bool.and_eq_true, decide_eq_true_eq, decide_eq_true_eq]
  rfl

theorem exec_rnEnclen (n : Nat) (eol : Bool) (s : State) : exec (.rnEnclen n eol) s =
    if n ≤ s.pr.width - s.seq.i ∧ eol = decide (n = s.pr.width - s.seq.i) then finish (encodeLength n eol s)
    else .refused .operandRange := by
  refine (finish_require_bind _ _ _).trans ?_
  simp only [isRunLength_iff]

theorem exec_rnDeclen (rem : Nat) (s : State) : exec (.rnDeclen rem) s =
    if 1 ≤ rem ∧ rem = s.pr.width - s.seq.i then finish (decodeLength rem s) else .refused .operandRange := by
  refine (finish_require_bind _ _ _).trans ?_
  simp only [Bool.and_eq_true, decide_eq_true_eq]
  rfl

/-- A `0` bit before any segment, and a remainder that takes the run past the end of the line (R304). -/
theorem decodeLength_overrun (hpos : 1 ≤ rem) (hlt : rem < n) (hn : n < 2 ^ jOf s.runindex)
    (hr : remaining s = false :: bitsOf n (jOf s.runindex) ++ rest) :
    ∃ u, u.pr = s.pr ∧ decodeLength rem s = raise .invalidCompressedData u := by
  obtain ⟨v, hv, hbit⟩ := readBit_ok hr
  have hsegments : decodeSegments rem (rem + 1) 0 s = .ok (0, setReader s v) := by
    rw [decodeSegments, hbit]
    rfl
  have hj : 0 < jOf s.runindex := Nat.pos_of_ne_zero fun h0 => by rw [h0, pow_zero] at hn; omega
  have hrem : remaining (setReader s v) = bitsOf n (jOf s.runindex) ++ rest := by
    rw [remaining_consumed hv, hr]
    rfl
  obtain ⟨r, -, hvalue⟩ := readValue_ok (by rw [bitsOf_length]; exact (jOf_le _).trans (by decide)) hrem
  rw [bitsOf_length, bitsVal_bitsOf hn] at hvalue
  have hremainder : readRemainder rem 0 (setReader s v) = .ok (n, setReader (setReader s v) r) :=
    (if_pos ⟨by omega, hj⟩).trans hvalue
  refine ⟨setReader (setReader s v) r, rfl, ?_⟩
  rw [decodeLength, hsegments, ok_bind]
  simp only
  rw [hremainder, ok_bind, if_pos (by omega)]

/-! ### The run-interruption error (R305, R306) -/

theorem exec_rnEncrierr (hi : i < 2) (err : Int) (s : State) :
    exec (.rnEncrierr i err) s = finish (encodeRiError i err s) :=
  (finish_require_bind _ _ _).trans (if_pos (isRunContext_iff.2 hi))

theorem exec_rnDecrierr (hi : i < 2) (s : State) : exec (.rnDecrierr i) s = finish (decodeRiError i s) :=
  (finish_require_bind _ _ _).trans (if_pos (isRunContext_iff.2 hi))

end RunUnit

/-- The segments, and then the remainder or the end-of-line bit, are written and read with the same run index.
Settles O50. -/
theorem runLengthsRoundTrip : Obligations.RunLengthsRoundTrip := by
  refine ⟨fun s => rfl, fun s => rfl, fun s n _ hn => ?_, fun s n eol hbad => ?_,
    fun s n rem rest _ hpos hrem hn hr => ?_, fun s n rem rest _ hpos hrem hlt hpow hr => ?_, fun s rem hbad => ?_⟩
  · intro eol hfits
    obtain ⟨v, hv, henc⟩ := encodeLength_ok hfits
    exact ⟨v, hv, by rw [exec_rnEnclen, if_pos ⟨hn, rfl⟩, henc, finish_ok]⟩
  · rw [exec_rnEnclen, if_neg fun ⟨hle, heol⟩ => hbad.elim (Nat.not_lt.2 hle) (absurd heol)]
  · obtain ⟨r, hc, hdec⟩ := decodeLength_ok hpos hn hr
    exact ⟨r, hc, by rw [exec_rnDeclen, if_pos ⟨hpos, hrem⟩, hdec, finish_ok]⟩
  · obtain ⟨u, hu, hdec⟩ := decodeLength_overrun hpos hlt hpow hr
    exact ⟨u, hu, by rw [exec_rnDeclen, if_pos ⟨hpos, hrem⟩, hdec, finish_raise]⟩
  · rw [exec_rnDeclen, if_neg fun ⟨hpos, hrem⟩ => by omega]

/-- The parameter is below 32 within the bounds of R185, and the mapped value is read back under the same limit; where its
error is too large the magnitude test comes before the update. Settles O51. -/
theorem runErrorsRoundTrip : Obligations.RunErrorsRoundTrip := by
  refine ⟨fun s i err ht hi hrun _ herr hne => ?_, fun s i k em rest ht hi hrun _ hk hlim hlarge hr => ?_⟩
  · have hb := ht.bounds
    obtain ⟨k, hk, hle⟩ := hrun.golombK hb (i := i) (by omega)
    have htype : i = 0 ∨ i = 1 ∧ err ≠ 0 := by omega
    refine ⟨k, hle, hk, ?_⟩
    rw [← emErrval_eq]
    refine ⟨fun hfits => ?_, fun rest hr => ?_⟩
    · obtain ⟨v, hv, henc⟩ := encodeRiError_ok hb hk hle herr htype hfits
      exact ⟨v, hv, by rw [exec_rnEncrierr hi, henc]; rfl⟩
    · obtain ⟨r, hc, hdec⟩ := decodeRiError_ok hb hk hle herr htype hr
      exact ⟨r, hc, by rw [exec_rnDecrierr hi, hdec]; rfl⟩
  · obtain ⟨hk32, -⟩ := golombK_spec hk
    obtain ⟨u, hpr, hbs, hdec⟩ := decodeRiError_large ht.bounds hk (Nat.le_of_lt_succ hk32) hlim hlarge (rest := rest) (by
      rw [hr, riGlimit, valueBits_golomb hlim, List.append_assoc, List.append_assoc]
      rfl)
    exact ⟨u, hpr, hbs, by rw [exec_rnDecrierr hi, hdec, finish_raise]⟩

/-! ### A run as a whole (R309, R310, R311) -/

theorem channels_le (s : State) : channels s ≤ 3 := by
  rcases channels_eq s with h | h <;> omega

section Run

variable {s : State} {i : Nat}

theorem exec_rnEncrun (hi : i < s.pr.width) : exec (.rnEncrun i) s =
    finish (encodeRun (channels s) i s >>= fun r => .ok (setResult r.2 [(r.1 : Int)])) :=
  (finish_require_bind _ _ _).trans (if_pos (decide_eq_true hi))

theorem exec_rnDecrun (hi : i < s.pr.width) : exec (.rnDecrun i) s =
    finish (decodeRun (channels s) i s >>= fun r => .ok (setResult r.2 [(r.1 : Int)])) :=
  (finish_require_bind _ _ _).trans (if_pos (decide_eq_true hi))

end Run

/-- A run coded at `seq.i` is read back by a decoder in step that holds the same lines up to there. Settles O53. -/
theorem runsRoundTrip : Obligations.RunsRoundTrip := by
  intro s d hinv _ hdir _ hi hroom
  obtain ⟨n, t, bits, hrun⟩ := run_coded hinv hdir (channels_eq s) hi (hroom.mono (Nat.mul_le_mul_left _ (Nat.sub_le _ _)))
  have hseq : t.seq = s.seq := hrun.kept.seq
  have hy : t.seq.y = s.seq.y := by rw [hseq]
  have hc : t.seq.c = s.seq.c := by rw [hseq]
  refine ⟨setResult t [(n : Int)], bits, n, ?_, rfl, hrun.pos, hrun.width, hrun.inv.congr rfl rfl rfl rfl rfl rfl,
    hrun.wrote.writer, hrun.wrote.bytes, hrun.near, fun ch hch j hlow _ hout => ?_, fun rest htwin hrem => ?_⟩
  · rw [exec_rnEncrun hi, hrun.run, ok_bind, finish_ok]
  · exact hrun.outside.cur hy hc hch hlow (by omega)
  · obtain ⟨e, hdec, htook, hkept, hctx, hrctx, hidx, -, hout, hcur⟩ :=
      hrun.back d rest htwin.inStep htwin.decoder htwin.bufWf htwin.sameLines hrem
    have hch : channels d = channels s := by rw [channels, htwin.pr, channels]
    refine ⟨setResult e [(n : Int)], ?_, rfl, htook.remaining hrem, hrctx, hctx, hidx, fun ch hch j hlow hhigh => ?_⟩
    · rw [exec_rnDecrun (by rw [htwin.pr]; exact hi), hch, hdec, ok_bind, finish_ok]
    · have hch3 := channels_le s
      by_cases hj : (s.seq.i : Int) ≤ j
      · exact hcur ch hch j hj hhigh
      · calc curRead e ch j = curRead d ch j :=
              hout.cur (by rw [hkept.seq]) (by rw [hkept.seq]) (by omega) hlow (by omega)
          _ = curRead s ch j := htwin.cur ch hch j hlow (by omega)
          _ = curRead t ch j := (hrun.outside.cur hy hc (by omega) hlow (by omega)).symm

end Sys2Proof.Machine

/-! PROOFS. Unit SC and the scan commands (`48_scan_driver.md` R333 to R344): the guards, a line read back, an encode that ends
with its last byte or at a line the host lacks, and a decode of what an encode wrote. -/

namespace Sys2Proof.Machine

section Guard

variable {s : State} {n key : Nat}

theorem exec_scGuard (s : State) : exec .scGuard s = .next (guardLine s) := rfl

/-- The guards write no key of the buffers but those of the two elements of each channel (R333). -/
theorem guards_other (hkey : ∀ ch < n, key ≠ bufKey (s.seq.y % 2) s.seq.c ch (-1) ∧
    key ≠ bufKey ((s.seq.y + 1) % 2) s.seq.c ch s.pr.width) :
    ((List.range n).foldl guardChannel s).seq = s.seq ∧ ((List.range n).foldl guardChannel s).pr = s.pr ∧
      sparseRead 0 ((List.range n).foldl guardChannel s).buf key = sparseRead 0 s.buf key := by
  induction n with
  | zero => exact ⟨rfl, rfl, rfl⟩
  | succ n ih =>
    obtain ⟨hseq, hpr, hread⟩ := ih fun ch hch => hkey ch (by omega)
    obtain ⟨hcur, hprev⟩ := hkey n (by omega)
    rw [List.range_succ, List.foldl_append, List.foldl_cons, List.foldl_nil]
    generalize (List.range n).foldl guardChannel s = u at *
    refine ⟨hseq, hpr, ?_⟩
    rw [← hseq] at hcur hprev
    rw [← hpr] at hprev
    exact (sparseRead_write_ne hcur _).trans ((sparseRead_write_ne hprev _).trans hread)

end Guard

/-- The guard elements of the channels are apart from each other and from what they are copied from, and no other key of the
buffers is written. Settles O54. -/
theorem guardSetsTwoElements : Obligations.GuardSetsTwoElements := by
  intro s hwf hpos
  obtain ⟨honly, hcells⟩ := guards_spec hwf hpos (channels_le s)
  have hy : (guardLine s).seq = s.seq := honly.seq_eq
  refine ⟨guardLine s, exec_scGuard s, honly.same, fun ch hch j hlow hhigh => ⟨?_, ?_⟩,
    fun key hkey => (guards_other hkey).2.2⟩
  · rw [curRead_eq_cell, hy]
    refine (hcells _ (Nat.mod_lt _ (by decide)) _ ch hch j hlow).trans ?_
    rw [if_neg (by omega)]
    simp [curRead_eq_cell]
  · rw [prevRead_eq_cell, hy]
    refine (hcells _ (Nat.mod_lt _ (by decide)) _ ch hch j hlow).trans ?_
    rw [if_neg (c := _ = s.seq.y % 2 ∧ _) (by omega)]
    simp [prevRead_eq_cell]

/-- The line is coded from its first element, where the sequencers of both stand. Settles O56. -/
theorem linesDecode : Obligations.LinesDecode := by
  intro s d t hinv hlegal _ hi htwin hroom hx
  obtain ⟨u, bits, hline⟩ := line_coded hinv htwin.encoder (legalParams_width hlegal) hi hroom
  have hstart : ∀ a : State, a.seq.i = 0 → exec (if a.pr.ilv = .sample then .scLine3 else .scLine) a =
      finish (codeElements a) := fun a ha => by
    rw [exec_line, ← ha]
    rfl
  rw [hstart s hi, hline.run, finish_ok] at hx
  cases hx
  refine ⟨bits, hline.wrote.writer, hline.wrote.bytes, fun rest hrem => ?_⟩
  obtain ⟨e, hdec, htook, -, htwin', -⟩ := hline.back d rest htwin hrem
  exact ⟨e, by rw [← htwin.pr, hstart d (htwin.i.trans hi), hdec, finish_ok], htook.remaining hrem, htwin', htook.bytes⟩

section Scans

variable {s t d : State} {p0 len : Nat} {all : List Bool}

theorem exec_encodeScan (p0 cap : Nat) (s : State) : exec (.encodeScan p0 cap) s = finish (runScan false p0 cap s) := rfl

theorem exec_decodeScan (p0 len : Nat) (s : State) : exec (.decodeScan p0 len) s = finish (runScan true p0 len s) := rfl

/-- The lines of a scan hold the same number of elements counted line by line and slot by slot (R336). -/
theorem scanElements_comm (p : Params) : p.width * slots p * p.height = p.width * p.height * slots p :=
  Nat.mul_right_comm _ _ _

/-- An encode whose next state has no error has not taken one: it completed (R378). -/
theorem encodeScan_completes {cap : Nat} (hx : exec (.encodeScan p0 cap) s = .next t) (herr : t.err = .none) :
    runScan false p0 cap s = .ok t := by
  rcases finish_eq_next.mp hx with hok | ⟨e, u, hraise, rfl⟩
  · exact hok
  · have hends := runScan_ends (p0 := p0) (n := cap) (s := s) encoding_closed (fun _ => rfl) (fun _ h => h) fun _ _ h => h
    rw [hraise] at hends
    exact absurd herr hends.1

/-! ### What an encode leaves in the sink (R241, R340) -/

theorem newBytes_initWriter (p0 cap : Nat) (bits : List Bool) :
    newBytes (initWriter p0 cap) bits = (stuffBits false [] bits).1 := rfl

theorem Encoded.wpos (h : Encoded s p0 t all) : t.wr.wpos = p0 + (stuffBits false [] all).1.length := h.writer.wpos

theorem Encoded.written (h : Encoded s p0 t all) : t.wr.written = (stuffBits false [] all).1.length :=
  h.writer.written.trans (Nat.zero_add _)

/-- Every byte of the bits is complete at the end of an encode, and the last is not `0xFF` (R245). -/
theorem Encoded.stuffed (h : Encoded s p0 t all) : (stuffBits false [] all).2 = ([], false) :=
  Prod.ext (h.writer.wacc.symm.trans h.wacc) (h.writer.wff.symm.trans h.wff)

/-! ### An encode that ends at a line of the host (R343, R374) -/

theorem not_lineReady_of_missing {c y : Nat} {tr : Traits}
    (h : ∀ l, heldLine s.lineSrc c y = some l → lineElements s.pr.width (channels s) l = none) :
    ¬lineReady tr s c y := by
  rintro ⟨l, px, hl, hpx, -⟩
  rw [h l hl] at hpx
  cases hpx

theorem not_lineReady_of_range {c y : Nat} {tr : Traits} {l : Line} {px : List (List Int)}
    (hl : heldLine s.lineSrc c y = some l) (hpx : lineElements s.pr.width (channels s) l = some px)
    (h : px.all (fun e => e.all (isSample tr)) = false) : ¬lineReady tr s c y := by
  rintro ⟨l', px', hl', hpx', h'⟩
  obtain rfl : l = l' := Option.some.inj (hl.symm.trans hl')
  obtain rfl : px = px' := Option.some.inj (hpx.symm.trans hpx')
  exact Bool.false_ne_true (h.symm.trans h')

/-- An encode that stops at a line the host does not hold has taken the error (R374). -/
theorem LineMissing.raised {c y : Nat} {tr : Traits} {e : Stop} (h : LineMissing tr s c y e)
    (hmiss : ∀ l, heldLine s.lineSrc c y = some l → lineElements s.pr.width (channels s) l = none) :
    ∃ u, u.pr = s.pr ∧ e = .raised .uncompressedBufferTooSmall u := by
  cases h with
  | absent hu _ => exact ⟨_, hu, rfl⟩
  | range hl hpx _ =>
    rw [hmiss _ hl] at hpx
    cases hpx

/-- An encode that stops at a line the host does hold is refused (R343). -/
theorem LineMissing.refused {c y : Nat} {tr : Traits} {e : Stop} {l : Line} {px : List (List Int)}
    (h : LineMissing tr s c y e) (hl : heldLine s.lineSrc c y = some l)
    (hpx : lineElements s.pr.width (channels s) l = some px) : e = .refused .sampleRange := by
  cases h with
  | absent _ hmiss =>
    rw [hmiss l hl] at hpx
    cases hpx
  | range => rfl

/-! ### A decode of what an encode wrote (R341, R342) -/

/-- A decode of an array that holds, before a marker, the bytes of the bits `all` from `p0` on: their bits are read back, so
it ends as a decode of them does. -/
theorem DecodesBack.of_bytes (h : DecodesBack s p0 all) (hstuffed : (stuffBits false [] all).2 = ([], false))
    (hpr : d.pr = s.pr) (hlegal : legalParams d.build d.pr = true) (hconf : d.configured = true)
    (hidle : d.seq.fsm = .idle) (hbusy : d.busy = false)
    (hbytes : ∀ j < (stuffBits false [] all).1.length, memRead d.bs (p0 + j) = (stuffBits false [] all).1.getD j 0)
    (hlen : p0 + (stuffBits false [] all).1.length < len)
    (hmarker : isMarker d.bs len (p0 + (stuffBits false [] all).1.length) = true) :
    ((∀ n, d.build.eosMax = some n → 14 ≤ n) → Accepts d (slots d.pr * d.pr.rectH) →
      ∃ u, exec (.decodeScan p0 len) d = .next u ∧ u.err = .none ∧ u.done = true ∧
        u.bytePos = p0 + (stuffBits false [] all).1.length ∧ Delivered s u) ∧
    (¬Accepts d (slots d.pr * d.pr.rectH) → ∃ u, u.pr = d.pr ∧
      exec (.decodeScan p0 len) d = .next (raiseErr .uncompressedBufferTooSmall u)) := by
  obtain ⟨hpos, hbits⟩ := stuffing_inverted hstuffed hbytes hlen hmarker
  obtain ⟨hback, hfull⟩ := h d len hpr hlegal hconf hidle hbusy (by omega) hbits
  refine ⟨fun heos hacc => ?_, fun hacc => ?_⟩
  · obtain ⟨u, hrun, hend⟩ := hback _ heos hacc hpos
    exact ⟨u, by rw [exec_decodeScan, hrun, finish_ok], hend⟩
  · obtain ⟨u, hu, hrun⟩ := hfull hacc
    exact ⟨u, hu, by rw [exec_decodeScan, hrun, finish_raise]⟩

/-- The bytes an encode writes from `p0` on are those of the bits it wrote (R340). -/
theorem scanBytes_eq {cap : Nat} (hwf : Memory.wf s.bs = true) (hrun : runScan false p0 cap s = .ok t)
    (h : Encoded s p0 t all) : scanBytes p0 cap s = (stuffBits false [] all).1 := by
  have hread (j : Nat) (hj : j < (stuffBits false [] all).1.length) :
      memRead t.bs (p0 + j) = (stuffBits false [] all).1.getD j 0 := by
    rw [h.bytes, memRead_writeBytes hwf, newBytes_initWriter, if_pos (by omega), Nat.add_sub_cancel_left]
  rw [scanBytes, exec_encodeScan, hrun, finish_ok]
  simp only
  rw [h.wpos, Nat.add_sub_cancel_left]
  refine List.ext_getElem (by simp) fun j hj hj' => ?_
  rw [List.getElem_map, List.getElem_range, hread j hj', List.getD_eq_getElem _ _ hj']

end Scans

/-- The lines are coded one after another within the room of the sink, and the end of the scan completes the last byte; the
first line the host does not hold as it should be is where an encode ends. Settles O57. -/
theorem scansEncode : Obligations.ScansEncode := by
  intro s hwf hlegal
  refine ⟨fun hready hinv htr hdir hok hroom => ?_, fun p0 cap hidle hbusy hconf hroom => ⟨fun hready => ?_,
    fun y c hy hc hbefore => ?_⟩⟩
  · obtain ⟨t, bits, hspan⟩ := lines_coded s.pr.height 0 s (Nat.zero_add _).le hinv hdir hlegal
      (fun y _ hy c hc => htr ▸ hready y (by omega) c hc) (by rw [scanElements_comm]; exact hroom)
    refine ⟨t, congrArg finish hspan.run, hspan.inv, hspan.kept.err, hspan.kept.done, hspan.kept.busy,
      hspan.wrote.writer.writerOk hok, ?_⟩
    rw [hspan.wrote.writer.wpos]
    exact Nat.le_add_right _ _
  · obtain ⟨t, all, hrun, -, hcap, henc, -⟩ := encode_coded hlegal hready hidle hbusy hconf
      (by rw [scanElements_comm]; exact hroom)
    refine ⟨t, by rw [exec_encodeScan, hrun, finish_ok], henc.err, henc.done, henc.busy, henc.idle, henc.sr1,
      by rw [henc.wpos, henc.written], hcap, henc.wacc, henc.wff, fun a ha => ?_⟩
    rw [henc.wpos] at ha
    rw [henc.bytes]
    exact memRead_writeBytes_outside hwf ha
  · have hstop := encode_stops hlegal hidle hbusy hconf (p0 := p0) (cap := cap)
      (by rw [scanElements_comm]; omega) hy hc hbefore
    refine ⟨fun hmiss => ?_, fun l px hl hpx hrange => ?_⟩
    · obtain ⟨e, he, hrun⟩ := hstop (not_lineReady_of_missing hmiss)
      obtain ⟨u, hu, rfl⟩ := he.raised hmiss
      exact ⟨u, hu, congrArg finish hrun⟩
    · obtain ⟨e, he, hrun⟩ := hstop (not_lineReady_of_range hl hpx hrange)
      obtain rfl := he.refused hl hpx
      exact congrArg finish hrun

/-- No part of a decode is refused whatever the data; and the bytes of an encode, destuffed, are the bits it wrote, from which
a decoder in step delivers the lines. Settles O58. -/
theorem scanRoundTrips : Obligations.ScanRoundTrips := by
  refine ⟨fun d p0 len hidle hbusy hconf hlegal hp => decodeScan_goes (accepts hidle hbusy hconf hlegal hp) hlegal, ?_, ?_⟩
  · intro d lines p0 cap len hidle hbusy hconf hlegal heos hacc e bytes hwf hready hroom hbytes hlen hmarker
    obtain ⟨t, all, hrun, -, -, henc, hback⟩ := encode_coded (s := e) hlegal hready hidle hbusy hconf
      (by rw [scanElements_comm]; exact hroom)
    have hscan : bytes = (stuffBits false [] all).1 := scanBytes_eq hwf hrun henc
    rw [hscan] at hbytes hlen hmarker ⊢
    exact (hback.of_bytes (d := d) henc.stuffed rfl hlegal hconf hidle hbusy hbytes hlen hmarker).1 heos hacc
  · intro s t d p0 cap len hwf hx herr hpr hlegal hconf hidle hbusy hsame hlen hmarker
    obtain ⟨all, hwpos, hstuffed, hbs, hback⟩ := encode_decoded (encodeScan_completes hx herr)
    rw [hwpos] at hsame hlen hmarker ⊢
    refine hback.of_bytes hstuffed hpr hlegal hconf hidle hbusy (fun j hj => ?_) hlen hmarker
    rw [hsame _ (by omega) (by omega), hbs, memRead_writeBytes hwf, if_pos (by omega), Nat.add_sub_cancel_left]

end Sys2Proof.Machine
